-- ==== Sys2Proof/Word.lean ====
section
/-! DEFINITION. Word sizes and the values that the operand fields of an instruction can name.

The types below are the operand codes, formats, conditions and suffixes of Zwiari-1 (R7, R34, R39, R47, R61, R67, R84,
R89, R144, R251). Their codes stand in Sys2Proof/Decode.lean. -/

namespace Sys2Proof

/-- A byte (R7). -/
abbrev Byte := BitVec 8
/-- A dword, and the 64-bit unit of scratchpad (R7). -/
abbrev Word := BitVec 64
/-- The 128 data bits of a register (R7, R13). -/
abbrev Quad := BitVec 128
/-- The number of a register c0 to c31 (R13). -/
abbrev Reg := Fin 32

/-- The four near-net links, operand codes 32 to 35 (R34). -/
inductive Link where
  | north
  | east
  | south
  | west
  deriving DecidableEq, Repr

/-- A source operand (R34). -/
inductive Src where
  | reg (r : Reg)
  | link (l : Link)
  | zero
  | pc
  deriving DecidableEq, Repr

/-- A destination operand (R34): the code pc is not allowed there. -/
inductive Dst where
  | reg (r : Reg)
  | link (l : Link)
  | zero
  deriving DecidableEq, Repr

/-- A field that names c0 to c31 or zero (R253, R296, R320, R347). -/
inductive RegZ where
  | reg (r : Reg)
  | zero
  deriving DecidableEq, Repr

/-- A field in a vector position: quad q is c(4q) to c(4q+3), or zero (R145, R146). -/
inductive VReg where
  | quad (q : Fin 8)
  | zero
  deriving DecidableEq, Repr

/-- The operand width of the integer forms (R61). -/
inductive Width where
  | b
  | h
  | w
  | d
  deriving DecidableEq, Repr

/-- The condition codes of CMP and BR (R67). -/
inductive Cond where
  | eq
  | ne
  | lt
  | ge
  | ltu
  | geu
  | gt
  | le
  | gtu
  | leu
  | bs
  | bc
  deriving DecidableEq, Repr

/-- The condition codes of FCMP (R84). -/
inductive FCond where
  | eq
  | ne
  | lt
  | le
  | gt
  | ge
  | un
  | ord
  deriving DecidableEq, Repr

/-- The sixteen number formats (R39). -/
inductive Fmt where
  | i8
  | i16
  | i32
  | i64
  | f64
  | f32
  | bf16
  | f16
  | e4m3
  | e5m2
  | t8
  | t6
  | ui8
  | ui16
  | ui32
  | ui64
  deriving DecidableEq, Repr

/-- The rounding modes (R47). -/
inductive Rm where
  | rne
  | rtz
  | rup
  | rdn
  | sr
  deriving DecidableEq, Repr

/-- The size codes of LD (R89). -/
inductive LdSize where
  | b
  | h
  | w
  | d
  | q
  | bu
  | hu
  | wu
  deriving DecidableEq, Repr

/-- The size codes of ST (R89). -/
inductive StSize where
  | b
  | h
  | w
  | d
  | q
  deriving DecidableEq, Repr

/-- The operand size of AMO and RED (R167). -/
inductive AmoSize where
  | w
  | d
  deriving DecidableEq, Repr

/-- The order suffixes of AMO (R167). -/
inductive Order where
  | none
  | acq
  | rel
  | ar
  deriving DecidableEq, Repr

/-- The scopes of R144. -/
inductive Scope where
  | slot
  | tile
  | cluster
  | die
  | pkg
  | sys
  deriving DecidableEq, Repr

/-- The kinds of FENCE (R170). -/
inductive FenceKind where
  | acq
  | rel
  | full
  deriving DecidableEq, Repr

/-- The reductions of VRED and VSCAN (R151). -/
inductive VRedOp where
  | add
  | min
  | max
  | and
  | or
  | xor
  deriving DecidableEq, Repr

/-- The sparsity patterns of MMAS (R251). -/
inductive Pat where
  | p2of4
  | p4of8
  | p2of8
  | p1of8
  deriving DecidableEq, Repr

/-- The activation source of the multiply forms (R252). -/
inductive MSrc where
  | scratch (base : Reg) (stride : RegZ) (off : BitVec 32)
  | stream (r : Reg)
  | link (l : Link)
  | shadow
  deriving DecidableEq, Repr

/-- The operations of AMO and RED (R167). -/
inductive AmoOp where
  | add
  | and
  | or
  | xor
  | min
  | max
  | minu
  | maxu
  | swap
  | cas
  deriving DecidableEq, Repr

end Sys2Proof
end

