-- ==== Sys2Proof/Config.lean ====
section
/-! DEFINITION. What an implementation fixes and the values that the manual leaves open.

A free value is an opaque function of a counter that the step advances: nothing in Lean can evaluate it. -/

namespace Sys2Proof.Config

/-- The draws of the felting array's entropy source (R345), free values: the n-th draw of the package. -/
opaque entropy : Nat → BitVec 64

/-- Values to which the manual gives no value where it goes on: the n-th of the run (DESIGN CHOICE, log entry 7). -/
opaque freeWord : Nat → BitVec 64

/-- How many requests the request queue of an owning station holds (R203), fixed by the implementation. -/
opaque stationQueue : Nat

/-- Part number in MIDENT (R431), fixed by the implementation. -/
opaque partNumber : BitVec 32

/-- Die revision in MIDENT (R431), fixed by the implementation. -/
opaque dieRevision : BitVec 16

end Sys2Proof.Config
end

