-- ==== Sys2Proof/Syntax.lean ====
section
/-! DEFINITION. The instructions of Zwiari-1 and the events of the hardware's own agents.

`Instr` has one constructor per row of the opcode table: 212 are instructions of a program; a constructor marked "event" is
performed by the hardware and has no word. The constructors that the model builds stand first. -/

namespace Sys2Proof

/-- Instructions and events. The operands stand in the order D, A, B, C, then the modifiers. Threads are named by
16 * unit + slot, units by number (tile 144 * die + 12 * y + x, system core 576 + n), packets by their own number. -/
inductive Instr where
  -- instructions with operands, in the table's order
  | add (wd : Width) (d : Dst) (a b : Src)
  | sub (wd : Width) (d : Dst) (a b : Src)
  | mul (wd : Width) (d : Dst) (a b : Src)
  | mulh (wd : Width) (d : Dst) (a b : Src)
  | mulhu (wd : Width) (d : Dst) (a b : Src)
  | div (wd : Width) (d : Dst) (a b : Src)
  | divu (wd : Width) (d : Dst) (a b : Src)
  | rem (wd : Width) (d : Dst) (a b : Src)
  | remu (wd : Width) (d : Dst) (a b : Src)
  | and (wd : Width) (d : Dst) (a b : Src)
  | or (wd : Width) (d : Dst) (a b : Src)
  | xor (wd : Width) (d : Dst) (a b : Src)
  | andn (wd : Width) (d : Dst) (a b : Src)
  | shl (wd : Width) (d : Dst) (a b : Src)
  | shr (wd : Width) (d : Dst) (a b : Src)
  | sra (wd : Width) (d : Dst) (a b : Src)
  | rot (wd : Width) (d : Dst) (a b : Src)
  | min (wd : Width) (d : Dst) (a b : Src)
  | max (wd : Width) (d : Dst) (a b : Src)
  | minu (wd : Width) (d : Dst) (a b : Src)
  | maxu (wd : Width) (d : Dst) (a b : Src)
  | clz (wd : Width) (d : Dst) (a : Src)
  | ctz (wd : Width) (d : Dst) (a : Src)
  | popc (wd : Width) (d : Dst) (a : Src)
  | addi (wd : Width) (d : Dst) (a : Src) (imm : BitVec 18)
  | movi (d : Dst) (imm : BitVec 18)
  | movi64 (d : Dst) (imm : Word)
  | moviHi (d : Dst) (a : Src) (imm : Word)
  | cmp (c : Cond) (wd : Width) (d : Dst) (a b : Src)
  | bext (d : Dst) (a b : Src)
  | bdep (d : Dst) (a b c : Src)
  | br (c : Cond) (a b : Src) (off : BitVec 18)
  | brImm (c : Cond) (a : Src) (imm : BitVec 32) (off : BitVec 18)
  | j (off : BitVec 18)
  | jExt (off : BitVec 32)
  | jl (d : Dst) (off : BitVec 18)
  | jlExt (d : Dst) (off : BitVec 32)
  | jr (d : Dst) (a : Src) (off : BitVec 18)
  | loop (d : Reg) (off : BitVec 18)
  | csetb (d : Dst) (a b : Src)
  | csetbTight (d : Dst) (a b : Src)
  | cgetb (d : Dst) (a : Src)
  | cgeta (d : Dst) (a : Src)
  | ctag (d : Dst) (a : Src)
  | cinc (d : Dst) (a b : Src)
  | cincImm (d : Dst) (a : Src) (imm : BitVec 18)
  | candp (d : Dst) (a b : Src)
  | candpImm (d : Dst) (a : Src) (imm : BitVec 8)
  | cclr (d : Dst) (a : Src)
  | cmov (d : Dst) (a : Src)
  | fadd (f : Fmt) (rm : Rm) (d : Dst) (a b : Src)
  | fsub (f : Fmt) (rm : Rm) (d : Dst) (a b : Src)
  | fmul (f : Fmt) (rm : Rm) (d : Dst) (a b : Src)
  | fdiv (f : Fmt) (rm : Rm) (d : Dst) (a b : Src)
  | fsqrt (f : Fmt) (rm : Rm) (d : Dst) (a : Src)
  | fmin (f : Fmt) (d : Dst) (a b : Src)
  | fmax (f : Fmt) (d : Dst) (a b : Src)
  | ffma (f : Fmt) (rm : Rm) (d : Dst) (a b c : Src)
  | fcmp (c : FCond) (f : Fmt) (d : Dst) (a b : Src)
  | fclass (f : Fmt) (d : Dst) (a : Src)
  | fsgnCpy (f : Fmt) (d : Dst) (a b : Src)
  | fsgnNeg (f : Fmt) (d : Dst) (a b : Src)
  | fsgnXor (f : Fmt) (d : Dst) (a b : Src)
  | frnd (f : Fmt) (rm : Rm) (d : Dst) (a : Src)
  | cvt (dst src : Fmt) (rm : Rm) (d : Dst) (a : Src)
  | ld (z : LdSize) (d : Dst) (a : Reg) (off : BitVec 18)
  | ldExt (z : LdSize) (d : Dst) (a : Reg) (off : BitVec 32)
  | st (z : StSize) (a : Reg) (b : Src) (off : BitVec 18)
  | stExt (z : StSize) (a : Reg) (b : Src) (off : BitVec 32)
  | ldc (d : Dst) (a : Reg) (off : BitVec 18)
  | ldcExt (d : Dst) (a : Reg) (off : BitVec 32)
  | stc (a : Reg) (b : Src) (off : BitVec 18)
  | stcExt (a : Reg) (b : Src) (off : BitVec 32)
  | trap (code : BitVec 18)
  | srd (d : Dst) (num : BitVec 12)
  | swr (num : BitVec 12) (a : Src)
  | brk (code : BitVec 18)
  | waiti (a : Src)
  | vadd (f : Fmt) (rm : Rm) (sat : Bool) (d a b : VReg)
  | vsub (f : Fmt) (rm : Rm) (sat : Bool) (d a b : VReg)
  | vmul (f : Fmt) (rm : Rm) (sat : Bool) (d a b : VReg)
  | vmin (f : Fmt) (d a b : VReg)
  | vmax (f : Fmt) (d a b : VReg)
  | vfma (f : Fmt) (rm : Rm) (sat : Bool) (d a b c : VReg)
  | vand (f : Fmt) (d a b : VReg)
  | vor (f : Fmt) (d a b : VReg)
  | vxor (f : Fmt) (d a b : VReg)
  | vshl (f : Fmt) (d a b : VReg)
  | vshr (f : Fmt) (d a b : VReg)
  | vsra (f : Fmt) (d a b : VReg)
  | vcmp (cond : BitVec 4) (f : Fmt) (d : Dst) (a b : VReg)
  | vsel (f : Fmt) (d a b : VReg) (c : Src)
  | vcvt (dst src : Fmt) (rm : Rm) (part : Fin 8) (d a : VReg)
  | vperm (f : Fmt) (d a b : VReg)
  | vbcast (f : Fmt) (d : VReg) (a : Src)
  | vred (op : VRedOp) (f : Fmt) (rm : Rm) (d : Dst) (a : VReg) (b : Src) (count : BitVec 7)
  | vscan (op : VRedOp) (f : Fmt) (rm : Rm) (d a : VReg) (b : Src)
  | vdot (f : Fmt) (rm : Rm) (d : Dst) (a b : VReg) (c : Src)
  | vrcp (f : Fmt) (rm : Rm) (d a : VReg)
  | vexp2 (f : Fmt) (rm : Rm) (d a : VReg)
  | sbind (g : Fin 4) (d a b : Reg)
  | sunb (d : Reg)
  | sskip (d a : Reg)
  | ldf (d : Dst) (a : Reg) (off : BitVec 18)
  | ldfExt (d : Dst) (a : Reg) (off : BitVec 32)
  | ldt (d : Dst) (a : Reg) (off : BitVec 18)
  | ldtExt (d : Dst) (a : Reg) (off : BitVec 32)
  | stf (a : Reg) (b : Src) (off : BitVec 18)
  | stfExt (a : Reg) (b : Src) (off : BitVec 32)
  | stw (a : Reg) (b : Src) (off : BitVec 18)
  | stwExt (a : Reg) (b : Src) (off : BitVec 32)
  | setf (a : Reg) (off : BitVec 18)
  | setfExt (a : Reg) (off : BitVec 32)
  | sete (a : Reg) (off : BitVec 18)
  | seteExt (a : Reg) (off : BitVec 32)
  | probe (d : Dst) (a : Reg) (off : BitVec 18)
  | probeExt (d : Dst) (a : Reg) (off : BitVec 32)
  | marm (d : Dst) (a : Reg) (off : BitVec 18)
  | mwait (d : Dst) (a : Src)
  | mdisarm (a : Reg) (off : BitVec 18)
  | amoAdd (z : AmoSize) (o : Order) (sc : Scope) (d : Dst) (a : Reg) (b : Src) (off : BitVec 10)
  | amoAnd (z : AmoSize) (o : Order) (sc : Scope) (d : Dst) (a : Reg) (b : Src) (off : BitVec 10)
  | amoOr (z : AmoSize) (o : Order) (sc : Scope) (d : Dst) (a : Reg) (b : Src) (off : BitVec 10)
  | amoXor (z : AmoSize) (o : Order) (sc : Scope) (d : Dst) (a : Reg) (b : Src) (off : BitVec 10)
  | amoMin (z : AmoSize) (o : Order) (sc : Scope) (d : Dst) (a : Reg) (b : Src) (off : BitVec 10)
  | amoMax (z : AmoSize) (o : Order) (sc : Scope) (d : Dst) (a : Reg) (b : Src) (off : BitVec 10)
  | amoMinu (z : AmoSize) (o : Order) (sc : Scope) (d : Dst) (a : Reg) (b : Src) (off : BitVec 10)
  | amoMaxu (z : AmoSize) (o : Order) (sc : Scope) (d : Dst) (a : Reg) (b : Src) (off : BitVec 10)
  | amoSwap (z : AmoSize) (o : Order) (sc : Scope) (d : Dst) (a : Reg) (b : Src) (off : BitVec 10)
  | amoCas (z : AmoSize) (o : Order) (sc : Scope) (d : Dst) (a : Reg) (b c : Src) (off : BitVec 10)
  | redAdd (z : AmoSize) (o : Order) (sc : Scope) (a : Reg) (b : Src) (off : BitVec 10)
  | redAnd (z : AmoSize) (o : Order) (sc : Scope) (a : Reg) (b : Src) (off : BitVec 10)
  | redOr (z : AmoSize) (o : Order) (sc : Scope) (a : Reg) (b : Src) (off : BitVec 10)
  | redXor (z : AmoSize) (o : Order) (sc : Scope) (a : Reg) (b : Src) (off : BitVec 10)
  | redMin (z : AmoSize) (o : Order) (sc : Scope) (a : Reg) (b : Src) (off : BitVec 10)
  | redMax (z : AmoSize) (o : Order) (sc : Scope) (a : Reg) (b : Src) (off : BitVec 10)
  | redMinu (z : AmoSize) (o : Order) (sc : Scope) (a : Reg) (b : Src) (off : BitVec 10)
  | redMaxu (z : AmoSize) (o : Order) (sc : Scope) (a : Reg) (b : Src) (off : BitVec 10)
  | fence (k : FenceKind) (sc : Scope)
  | mbcfg (m : Fin 4) (a : Reg) (size : BitVec 18)
  | mbcfgOff (m : Fin 4)
  | send (m : Fin 4) (a b : Reg) (off : BitVec 14) (count : Fin 16)
  | migr (a : Reg) (off : BitVec 18)
  | spawn (a : Src) (b : Reg) (pcount : BitVec 8)
  | await (d : Dst) (a : Reg) (off : BitVec 18)
  | awaitExt (d : Dst) (a : Reg) (off : BitVec 32)
  | barGang (d : Dst)
  | barField (d : Dst)
  | follow (d : Dst) (off : BitVec 18)
  | tid (d : Dst)
  | mwld (f : Fmt) (a : Reg) (b : RegZ) (off : BitVec 32)
  | mtrl (f : Fmt) (a : Reg) (b : RegZ) (off : BitVec 32)
  | mma (f : Fmt) (src : MSrc) (wide : Bool) (rows : Fin 16) (acc : Fin 256)
  | mmas (f : Fmt) (src : MSrc) (pat : Pat) (wide : Bool) (rows : Fin 16) (acc : Fin 256) (c : Reg)
  | mmam (f : Fmt) (src : MSrc) (wide : Bool) (rows : Fin 16) (acc : Fin 256) (c : Reg)
  | mmar (f : Fmt) (src : MSrc) (wide : Bool) (acc : Fin 256)
  | mzero (count first : Fin 256)
  | maccAdd (f : Fmt) (td ta tb : Fin 256)
  | maccSub (f : Fmt) (td ta tb : Fin 256)
  | maccScale (f : Fmt) (td ta : Fin 256) (b : RegZ)
  | acld (f : Fmt) (a : Reg) (b : RegZ) (tile : Fin 256) (off : BitVec 32)
  | acst (f : Fmt) (a : Reg) (b : RegZ) (c : Option Reg) (tile : Fin 256) (off : BitVec 32)
  | mdrain (f : Fmt) (a b : Reg) (c : Option Reg) (tile : Fin 256)
  | qmul (a b c : Reg)
  | qadd (a b c : Reg)
  | qconv (f : Fmt) (rm : Rm) (a b c : Reg)
  | qfact (a b c : Reg)
  | qtrsm (a b c : Reg)
  | qsolve (a b : Reg) (c : RegZ)
  | qstat (d a : Reg)
  | qnode (d a b : Reg)
  | qpoolRd (d a : Reg) (q : Fin 4)
  | qpoolSet (d a b c : Reg) (q : Fin 4)
  | dcopy (a b c : Reg)
  | dfill (a : Reg) (b : RegZ) (c : Reg)
  | dcancel (d : Dst) (a : Reg)
  | ixwalk (a c : Reg)
  | ixgath (a c : Reg)
  | ixscat (a c : Reg)
  | ixscatAdd (f : Fmt) (a c : Reg)
  | faload (a b c : Reg)
  | fatable (a b c : Reg)
  | faclamp (a b c : Reg)
  | fasweep (a b c : Reg) (cnt : Bool) (k : Fin 16)
  | fareadState (a b c : Reg)
  | fareadCount (a b c : Reg)
  | fabeta (a : RegZ) (b : Reg)
  | faseedSeeded (a : RegZ) (b : Reg)
  | faseedEntropy (a : RegZ) (b : Reg)
  | jrnl (d : Dst) (a : Src)
  | jrnlRel (d : Dst) (a : Src)
  | jrnlRetry (d : Dst) (a : Src)
  | acspill (d : Dst) (a : Src)
  | acfill (d : Dst) (a : Src)
  | rsync (a : Src)
  | rstat (d : Dst)
  | rinj (a : Reg)
  | evcfg (a : Reg) (n : Fin 8)
  | evcfgHist (a : Reg) (src : Fin 8)
  | evrd (d : Dst) (a : Reg)
  | evrdClr (d : Dst) (a : Reg)
  -- events that the model itself raises
  /-- event: the owner of a location performs the oldest atomic or reduction queued for it (R168) -/
  | atomicAtOwner (p : Nat)
  /-- event: a message reaches its mailbox (R173) -/
  | mailboxDelivery (p : Nat)
  /-- event: a journal resends a refused message (R173) -/
  | mailboxResend (u e : Nat)
  /-- event: the head of a tile's matrix queue starts (R236) -/
  | matrixCommandStart (u : Nat)
  /-- event: the running matrix command of a tile ends (R236) -/
  | matrixCommandEnd (u : Nat)
  /-- event: a row of an ACST lands (R239) -/
  | acstRowFill (u row : Nat)
  /-- event: an MMAR transfer of a tile ends (R246) -/
  | mmarTransferEnd (u : Nat)
  /-- event: a packet of an MDRAIN, or its wake-up fill, reaches its tile (R248) -/
  | mdrainPacket (p : Nat)
  /-- event: a mark acknowledgement reaches the issuing tile (R318) -/
  | emptyMarkAck (u n : Nat)
  /-- event: a tile's copy engine starts the head of its queue (R321) -/
  | copyCommandStart (u : Nat)
  /-- event: the copy engine issues its next element (R322) -/
  | copyElementIssue (u : Nat)
  /-- event: an element of the copy engine lands (R317) -/
  | copyElementLands (u n : Nat)
  /-- event: a tile's index engine starts the head of its queue (R329) -/
  | indexCommandStart (u : Nat)
  /-- event: the running index command ends (R316) -/
  | indexCommandEnd (u : Nat)
  /-- event: a felting command starts (R354) -/
  | faCommandStart (die n : Nat)
  /-- event: a felting command ends (R352) -/
  | faCommandEnd (die n : Nat)
  /-- event: the acknowledgement of a posted operation lands (R368) -/
  | postedAck (p : Nat)
  /-- event: the refusal of a posted operation lands (R368) -/
  | postedRefused (p : Nat)
  /-- event: a block reaches the instruction cache that a thread waits on (R207) -/
  | icacheMissFill (p : Nat)
  /-- event: the reply of an off-tile request lands (R108) -/
  | replyLands (p : Nat)
  /-- event: a tile's port serves a remote request (R116) -/
  | remotePortService (p : Nat)
  /-- event: the head of a form window departs (R115) -/
  | formWindowDeparture (p : Nat)
  /-- event: the home station performs an access (R199) -/
  | stationAccess (p : Nat)
  /-- event: a trigger notice reaches the thread that armed the line (R164) -/
  | monitorTriggerNotice (t line : Nat)
  /-- event: the timeout of an MWAIT passes (R165) -/
  | mwaitTimeout (t : Nat)
  /-- event: the timeout of a WAITI passes (R103) -/
  | waitiTimeout (t : Nat)
  /-- event: a thread's deadline is reached (R365) -/
  | timer (t : Nat)
  /-- event: a form sheet dispatches (R133) -/
  | formDispatch (die : Nat)
  /-- event: a thread takes its oldest pending asynchronous trap (R95) -/
  | asyncTrapEntry (t : Nat)
  /-- event: a request to another package times out (R438) -/
  | requestTimeout (p : Nat)
  /-- event: the vote unit's time limit passes (R393) -/
  | voteTimeout (n : Nat)
  /-- event: a replica that does not answer is dropped (R396) -/
  | replicaDrop (t : Nat)
  /-- event: a launch window is written with a LAUNCH value (R131) -/
  | launch (win : Nat) (v : Word)
  /-- event: write of NODEID (R431) -/
  | nodeidWrite (v : Word)
  /-- event: write of a core context (R196) -/
  | scctxWrite (n : Nat) (v : Word)
  /-- event: write of INVGO (R431) -/
  | invgo (v : Word)
  /-- event: write of a FABANK dword (R340) -/
  | fabankWrite (die half : Nat) (v : Word)
  /-- event: write of PCFG (R432) -/
  | pcfgWrite (p : Nat) (v : Word)
  /-- event: write of LOCKPASID (R432) -/
  | lockpasidWrite (p : Nat) (v : Word)
  /-- event: write of WCFG (R433) -/
  | wcfgWrite (win : Nat) (v : Word)
  /-- event: write of any other register of control space (R430) -/
  | controlRegisterWrite (off : Nat) (v : Word)
  -- instructions without operands
  /-- event: the vote unit decides (R393) -/
  | voteDecision (n : Nat)
  /-- event: a migrating thread arrives (R206) -/
  | migrationArrival (t : Nat)
  | nop
  | nop96
  | nop128
  | halt
  | eret
  | eretSkip
  | iflush
  | mdisarmAll
  | exit
  | ixmark
  | ixmarkEnd
  -- events that come from the inputs
  /-- event: a word that the running index command waits for is full (R331) -/
  | indexWordFilled (u : Nat)
  /-- event: a row of an index command lands (R317) -/
  | indexRowLands (u n : Nat)
  /-- event: a die's felting array accepts the oldest command sent to it (R353) -/
  | faCommandAccept (die : Nat)
  /-- event: a thread whose wait has ended takes up its instruction again (R108) -/
  | threadRejoin (t : Nat)
  /-- event: a near-net value becomes receivable (R112) -/
  | linkValueArrival (u : Nat) (l : Link)
  /-- event: a die's quadtree engine starts the head of its queue (R300) -/
  | qtCommandStart (die : Nat)
  /-- event: the running command commits its next leaf operation (R280) -/
  | qtLeafCommit (die : Nat)
  /-- event: the running command parks (R288) -/
  | qtPark (die cause : Nat) (va : Word)
  /-- event: the running command ends (R301) -/
  | qtCommandEnd (die : Nat)
  /-- event: a walk of a station ends (R200) -/
  | pageWalkEnd (st n : Nat)
  /-- event: a notice of an asynchronous trap reaches a thread (R362) -/
  | trapNoticeArrival (n : Nat)
  /-- event: the scheduler of a die places a sheet (R132) -/
  | sheetPlacement (die : Nat)
  /-- event: the scheduler pre-empts a tile (R375) -/
  | preemption (u : Nat)
  /-- event: the save of a tile ends (R380) -/
  | saveEnd (u : Nat)
  /-- event: the restore of a saved gang ends (R381) -/
  | restore (u ctx : Nat)
  /-- event: the sample of end detection (R140) -/
  | endDetectionSample
  /-- event: system software aborts the run of a launch (R141) -/
  | instanceAbort (n : Nat)
  /-- event: a TEST node's sheet ends, with the tiles whose test failed (R422) -/
  | testNodeRun (n : Nat) (failed : List Nat)
  /-- event: a debug session opens with these partitions granted (R410) -/
  | chotalConnect (parts : List Nat)
  /-- event: the debug session ends (R410) -/
  | chotalSessionEnd
  /-- event: HALT of a slot, or of every slot when `all` (R412) -/
  | chotalHalt (t : Nat) (all : Bool)
  /-- event: RESUME of a slot (R411) -/
  | chotalResume (t : Nat)
  /-- event: STEP of a slot (R411) -/
  | chotalStep (t : Nat)
  /-- event: DISCARD of a slot (R411) -/
  | chotalDiscard (t : Nat)
  /-- event: RDREG, register number as in the model's own numbering (R411) -/
  | chotalRdreg (t n : Nat)
  /-- event: WRREG (R411) -/
  | chotalWrreg (t n : Nat) (v : Quad) (tag : Bool)
  /-- event: RDMEM of a scratchpad word (R414) -/
  | chotalRdmem (u off : Nat)
  /-- event: WRMEM of a scratchpad word (R414) -/
  | chotalWrmem (u off : Nat) (v : Word) (full : Option Bool)
  /-- event: SETBP (R413) -/
  | chotalSetbp (u n : Nat) (slot : Option Nat) (pc : Option Word)
  /-- event: SETWP (R413) -/
  | chotalSetwp (u n base size : Nat) (rd wr : Bool)
  /-- event: CLAIM (R411) -/
  | chotalClaim (t : Nat) (on : Bool)
  /-- event: GRANT (R411) -/
  | chotalGrant (t : Nat) (on : Bool)
  /-- event: RECORDS (R411) -/
  | chotalRecords (n : Nat)
  /-- event: the conformateur measures, with the clusters whose margin it steps and those whose margin fails (R424, R425) -/
  | conformateurMeasure (steps failed : List Nat)
  /-- event: the module guard samples power and temperature (R440) -/
  | guardSample (watts celsius : Nat)
  /-- event: the junction reaches 105 degrees (R440) -/
  | thermalTrip
  /-- event: power-on reset (R436) -/
  | powerOnReset
  /-- event: the monitor core has checked the flash images (R436) -/
  | bootImageVerify (ok : Bool) (sysroot : Word)
  /-- event: the device OS moves the boot stage on (R436) -/
  | bootReady
  /-- event: the monitor core writes SYSROOT (R431) -/
  | sysrootWrite (v : Word)
  /-- event: the running invalidation is complete (R201) -/
  | invalidationComplete
  /-- event: an access of a virtual function's BAR2 (R435) -/
  | bar2Access (vf : Nat) (va : Word) (size : Nat) (wr : Option Quad)
  /-- event: the doorbell of the physical function (R435) -/
  | pfDoorbell (v : Word)
  /-- event: an AtomicOp received from the host (R434) -/
  | hostAtomicop (vf : Nat) (va : Word)
  /-- event: a flit of a port is resent (R437) -/
  | flitCrcRetry (port lane : Nat)
  /-- event: a port loses a lane (R437) -/
  | laneLoss (port lane : Nat)
  /-- event: a timestamp synchronisation message (R439) -/
  | tsyncMessage (port : Nat)
  /-- event: one package cycle ends and the next begins (R105, R416) -/
  | cycle
  /-- event: a request of another package arrives (R205) -/
  | fabricRequestArrival (node : Nat) (paddr : Nat) (op : Option AmoOp) (z : Nat) (wr : Option Quad) (cmp : Word)
  /-- event: system software fences a tile (R426) -/
  | softwareTileFence (u : Nat)
  /-- event: a station or DRAM channel is lost (R427) -/
  | stationOrChannelLost (station : Option Nat)
  deriving DecidableEq, Repr

end Sys2Proof
end

