-- ==== Sys2Proof/WellFormed.lean ====
section
/-! DEFINITION. Which terms of `Instr` an instruction word can name.

The types of the operands hold most rules of check 6 to check 8 of R37; the rest stand here. An event has no word. -/

namespace Sys2Proof

/-- Signed and unsigned integer formats (R39). -/
def Fmt.isInt : Fmt → Bool
  | .i8 | .i16 | .i32 | .i64 | .ui8 | .ui16 | .ui32 | .ui64 => true
  | _ => false

/-- Lane width of R145: 8 for the 8-bit formats and T6. -/
def Fmt.lane : Fmt → Nat
  | .i8 | .ui8 | .e4m3 | .e5m2 | .t8 | .t6 => 8
  | .i16 | .ui16 | .bf16 | .f16 => 16
  | .i32 | .ui32 | .f32 => 32
  | .i64 | .ui64 | .f64 => 64

/-- F 4 to 7 (R82). -/
def Fmt.isIeee : Fmt → Bool
  | .f64 | .f32 | .bf16 | .f16 => true
  | _ => false

/-- F 4 to 11: the float and tapered formats (R82). -/
def Fmt.isFloat (f : Fmt) : Bool := !f.isInt

/-- The memory formats of ACLD, ACST and MDRAIN: all but 3, 4 and 15 (R253, R266). -/
def Fmt.isCell : Fmt → Bool
  | .i64 | .f64 | .ui64 => false
  | _ => true

/-- F 2 to 5: MACC and IXSCAT.add (R253, R327). -/
def Fmt.isAcc : Fmt → Bool
  | .i32 | .i64 | .f64 | .f32 => true
  | _ => false

/-- F 0 to 3 and 12 to 15 of the vector shifts (R147) are the integer formats; F 0, 1, 4 to 13 belong to VDOT (R147). -/
def Fmt.isDot : Fmt → Bool
  | .i32 | .i64 | .ui32 | .ui64 => false
  | _ => true

/-- F 4 to 10: the result formats of QCONV (R295). -/
def Fmt.isQuad : Fmt → Bool
  | .f64 | .f32 | .bf16 | .f16 | .e4m3 | .e5m2 | .t8 => true
  | _ => false

/-- With an integer F the rounding field is zero; with another F, SAT is zero (R147). -/
def modeOk (f : Fmt) (rm : Rm) (sat : Bool) : Bool :=
  if f.isInt then decide (rm = .rne) else !sat

/-- The ratio p of R150, which PART must not reach. -/
def partRatio (dst src : Fmt) : Nat := max dst.lane src.lane / min dst.lane src.lane

/-- An order of 0 carries no scope (R167). -/
def orderOk (o : Order) (sc : Scope) : Bool :=
  match o with
  | .none => decide (sc = .slot)
  | _ => true

/-- RED takes order none or release (R167). -/
def redOrderOk (o : Order) (sc : Scope) : Bool :=
  match o with
  | .none => decide (sc = .slot)
  | .rel => true
  | _ => false

/-- The assigned numbers of R26 and R417. -/
def sysregAssigned (n : BitVec 12) : Bool :=
  let k := n.toNat
  k ≤ 8 || (16 ≤ k && k ≤ 18) || k = 0x20 || k = 0x21 || (0x30 ≤ k && k ≤ 0x32) || k = 0x40 || k = 0x50 || k = 0x60
    || (0x100 ≤ k && k ≤ 0x104) || (0x108 ≤ k && k ≤ 0x110) || (0x118 ≤ k && k ≤ 0x138)

/-- MMAR takes no link source (R253). -/
def MSrc.isLink : MSrc → Bool
  | .link _ => true
  | _ => false

/-- The events: rows of the opcode table that are performed by the hardware's own agents and have no word. -/
def Instr.isEvent : Instr → Bool
  | .atomicAtOwner .. | .mailboxDelivery .. | .mailboxResend .. | .migrationArrival .. | .matrixCommandStart ..
  | .matrixCommandEnd .. | .acstRowFill .. | .mmarTransferEnd .. | .mdrainPacket .. | .qtCommandStart ..
  | .qtLeafCommit .. | .qtPark .. | .qtCommandEnd .. | .emptyMarkAck .. | .copyCommandStart .. | .copyElementIssue ..
  | .copyElementLands .. | .indexCommandStart .. | .indexWordFilled .. | .indexCommandEnd .. | .faCommandAccept ..
  | .faCommandStart .. | .faCommandEnd .. | .postedAck .. | .postedRefused .. | .asyncTrapEntry .. | .icacheMissFill ..
  | .replyLands .. | .threadRejoin .. | .linkValueArrival .. | .remotePortService .. | .formWindowDeparture ..
  | .stationAccess .. | .pageWalkEnd .. | .monitorTriggerNotice .. | .mwaitTimeout .. | .waitiTimeout .. | .timer ..
  | .trapNoticeArrival .. | .launch .. | .sheetPlacement .. | .formDispatch .. | .preemption .. | .saveEnd ..
  | .restore .. | .endDetectionSample | .instanceAbort .. | .testNodeRun .. | .voteDecision .. | .voteTimeout ..
  | .replicaDrop .. | .chotalConnect .. | .chotalSessionEnd | .chotalHalt .. | .chotalResume .. | .chotalStep ..
  | .chotalDiscard .. | .chotalRdreg .. | .chotalWrreg .. | .chotalRdmem .. | .chotalWrmem .. | .chotalSetbp ..
  | .chotalSetwp .. | .chotalClaim .. | .chotalGrant .. | .chotalRecords .. | .conformateurMeasure .. | .guardSample ..
  | .thermalTrip | .powerOnReset | .bootImageVerify .. | .bootReady | .nodeidWrite .. | .sysrootWrite ..
  | .scctxWrite .. | .invgo .. | .invalidationComplete | .fabankWrite .. | .pcfgWrite .. | .lockpasidWrite ..
  | .wcfgWrite .. | .controlRegisterWrite .. | .bar2Access .. | .pfDoorbell .. | .hostAtomicop .. | .flitCrcRetry ..
  | .laneLoss .. | .requestTimeout .. | .tsyncMessage .. | .cycle | .indexRowLands .. | .fabricRequestArrival ..
  | .softwareTileFence .. | .stationOrChannelLost .. => true
  | _ => false

/-- The rules of check 6 that the operand types do not already hold. -/
def Instr.fieldsOk : Instr → Bool
  | .fadd f .. | .fsub f .. | .fmul f .. | .fdiv f .. | .fsqrt f .. | .fmin f .. | .fmax f .. | .ffma f ..
  | .frnd f .. => f.isIeee
  | .fcmp _ f .. | .fclass f .. | .fsgnCpy f .. | .fsgnNeg f .. | .fsgnXor f .. | .vrcp f .. | .vexp2 f .. => f.isFloat
  | .srd _ n | .swr n _ => sysregAssigned n
  | .vadd f rm sat .. | .vsub f rm sat .. | .vmul f rm sat .. | .vfma f rm sat .. => modeOk f rm sat
  | .vshl f .. | .vshr f .. | .vsra f .. => f.isInt
  | .vcmp c f .. => if f.isInt then decide (c.toNat < 12) else decide (c.toNat < 8)
  | .vcvt d s _ p .. => decide (p.val < partRatio d s)
  | .vred op f rm _ _ _ n =>
    decide (n.toNat ≤ 512 / f.lane) && (decide (rm = .rne) || (decide (op = .add) && f.isFloat))
  | .vscan op f rm .. =>
    (decide (op = .add) || decide (op = .min) || decide (op = .max)) &&
      (decide (rm = .rne) || (decide (op = .add) && f.isFloat))
  | .vdot f rm .. => f.isDot && modeOk f rm false
  | .amoAdd _ o sc .. | .amoAnd _ o sc .. | .amoOr _ o sc .. | .amoXor _ o sc .. | .amoMin _ o sc ..
  | .amoMax _ o sc .. | .amoMinu _ o sc .. | .amoMaxu _ o sc .. | .amoSwap _ o sc .. | .amoCas _ o sc .. => orderOk o sc
  | .redAdd _ o sc .. | .redAnd _ o sc .. | .redOr _ o sc .. | .redXor _ o sc .. | .redMin _ o sc ..
  | .redMax _ o sc .. | .redMinu _ o sc .. | .redMaxu _ o sc .. => redOrderOk o sc
  | .mbcfg _ _ n => decide (16 ≤ n.toNat) && decide (n.toNat ≤ 16384)
  | .send _ _ _ off _ => decide (off.toNat % 8 = 0)
  | .mmar _ src .. => !src.isLink
  | .mzero c t => decide (t.val + (c.val + 1) ≤ 256)
  | .maccAdd f .. | .maccSub f .. | .maccScale f .. | .ixscatAdd f .. => f.isAcc
  | .acld f .. | .acst f .. | .mdrain f .. => f.isCell
  | .qconv f rm .. => f.isQuad && decide (rm ≠ .sr)
  | _ => true

/-- The instruction is one that some instruction word encodes. -/
def Instr.wf (i : Instr) : Bool := !i.isEvent && i.fieldsOk

end Sys2Proof
end

