-- ==== Sys2Proof/Decode.lean ====
section
/-! DEFINITION. Instruction words: their fields (R32), the codes of operands and modifiers, the decoder (R37) and the encoder. -/

namespace Sys2Proof

/-- The fields of an instruction word (R32). `hi` is bits [127:64]: EXT in its low half in the 96-bit form, IMM64 in the
128-bit form, zero in the 64-bit form. -/
structure Fields where
  len : BitVec 2 := 0
  major : BitVec 8 := 0
  sub : BitVec 8 := 0
  f : BitVec 4 := 0
  d : BitVec 6 := 0
  a : BitVec 6 := 0
  b : BitVec 6 := 0
  c : BitVec 6 := 0
  mod : BitVec 18 := 0
  hi : Word := 0
  deriving DecidableEq, Repr

/-- Bits [63:0] of the word (R32). -/
def Fields.low (x : Fields) : Word := x.mod ++ x.c ++ x.sub ++ x.f ++ x.b ++ x.a ++ x.d ++ x.major ++ x.len

/-- The fields of a word given as its bits [63:0] and [127:64]. -/
def Fields.ofWords (lo hi : Word) : Fields :=
  { len := lo.extractLsb' 0 2, major := lo.extractLsb' 2 8, d := lo.extractLsb' 10 6, a := lo.extractLsb' 16 6,
    b := lo.extractLsb' 22 6, f := lo.extractLsb' 28 4, sub := lo.extractLsb' 32 8, c := lo.extractLsb' 40 6,
    mod := lo.extractLsb' 46 18, hi := hi }

/-- The length in bytes that a length code states (R29); 0 for the code 0b11. -/
def lenBytes (l : BitVec 2) : Nat :=
  match l.toNat with
  | 0 => 8
  | 1 => 12
  | 2 => 16
  | _ => 0

/-- The length of an instruction in bytes. -/
def Fields.bytes (x : Fields) : Nat := lenBytes x.len

/-- The traps of the decode checks 3 to 8 (R37). -/
inductive DecodeFault where
  | illegalOpcode
  | illegalOperand
  deriving DecidableEq, Repr

/-! ### Codes of operands and modifiers -/

/-- Operand code of a register. -/
def Reg.code (r : Reg) : BitVec 6 := BitVec.ofNat 6 r.val

/-- A field that must name c0 to c31 (R35). -/
def Reg.ofCode (x : BitVec 6) : Option Reg := if h : x.toNat < 32 then some ⟨x.toNat, h⟩ else none

/-- Operand code of a link (R34). -/
def Link.code : Link → BitVec 6
  | .north => 32
  | .east => 33
  | .south => 34
  | .west => 35

/-- The link of an operand code. -/
def Link.ofCode (x : BitVec 6) : Option Link :=
  match x.toNat with
  | 32 => some .north
  | 33 => some .east
  | 34 => some .south
  | 35 => some .west
  | _ => none

/-- Operand code of a source (R34). -/
def Src.code : Src → BitVec 6
  | .reg r => r.code
  | .link l => l.code
  | .zero => 36
  | .pc => 37

/-- The source of an operand code (R34). -/
def Src.ofCode (x : BitVec 6) : Option Src :=
  match Reg.ofCode x with
  | some r => some (.reg r)
  | none =>
    match x.toNat with
    | 32 => some (.link .north)
    | 33 => some (.link .east)
    | 34 => some (.link .south)
    | 35 => some (.link .west)
    | 36 => some .zero
    | 37 => some .pc
    | _ => none

/-- Operand code of a destination (R34). -/
def Dst.code : Dst → BitVec 6
  | .reg r => r.code
  | .link l => l.code
  | .zero => 36

/-- The destination of an operand code (R34). -/
def Dst.ofCode (x : BitVec 6) : Option Dst :=
  match Reg.ofCode x with
  | some r => some (.reg r)
  | none =>
    match x.toNat with
    | 32 => some (.link .north)
    | 33 => some (.link .east)
    | 34 => some (.link .south)
    | 35 => some (.link .west)
    | 36 => some .zero
    | _ => none

/-- Operand code of a field that names a register or zero. -/
def RegZ.code : RegZ → BitVec 6
  | .reg r => r.code
  | .zero => 36

/-- The register or zero of an operand code. -/
def RegZ.ofCode (x : BitVec 6) : Option RegZ :=
  match Reg.ofCode x with
  | some r => some (.reg r)
  | none => if x = 36 then some .zero else none

/-- Operand code of a vector position (R146). -/
def VReg.code : VReg → BitVec 6
  | .quad q => BitVec.ofNat 6 (4 * q.val)
  | .zero => 36

/-- The quad or zero of an operand code (R146). -/
def VReg.ofCode (x : BitVec 6) : Option VReg :=
  if h : x.toNat % 4 = 0 ∧ x.toNat < 32 then some (.quad ⟨x.toNat / 4, by omega⟩)
  else if x = 36 then some .zero else none

/-- Width codes (R61). -/
def Width.code : Width → BitVec 4
  | .b => 0
  | .h => 1
  | .w => 2
  | .d => 3

/-- The width of a code (R61). -/
def Width.ofCode (x : BitVec 4) : Option Width :=
  match x.toNat with
  | 0 => some .b
  | 1 => some .h
  | 2 => some .w
  | 3 => some .d
  | _ => none

/-- Condition codes (R67). -/
def Cond.code : Cond → BitVec 4
  | .eq => 0
  | .ne => 1
  | .lt => 2
  | .ge => 3
  | .ltu => 4
  | .geu => 5
  | .gt => 6
  | .le => 7
  | .gtu => 8
  | .leu => 9
  | .bs => 10
  | .bc => 11

/-- The condition of a code (R67). -/
def Cond.ofCode (x : BitVec 4) : Option Cond :=
  match x.toNat with
  | 0 => some .eq
  | 1 => some .ne
  | 2 => some .lt
  | 3 => some .ge
  | 4 => some .ltu
  | 5 => some .geu
  | 6 => some .gt
  | 7 => some .le
  | 8 => some .gtu
  | 9 => some .leu
  | 10 => some .bs
  | 11 => some .bc
  | _ => none

/-- Condition codes of FCMP (R84). -/
def FCond.code : FCond → BitVec 3
  | .eq => 0
  | .ne => 1
  | .lt => 2
  | .le => 3
  | .gt => 4
  | .ge => 5
  | .un => 6
  | .ord => 7

/-- The condition of a code (R84). -/
def FCond.ofCode (x : BitVec 3) : FCond :=
  match x.toNat with
  | 0 => .eq
  | 1 => .ne
  | 2 => .lt
  | 3 => .le
  | 4 => .gt
  | 5 => .ge
  | 6 => .un
  | _ => .ord

/-- Format codes (R39). -/
def Fmt.code : Fmt → BitVec 4
  | .i8 => 0
  | .i16 => 1
  | .i32 => 2
  | .i64 => 3
  | .f64 => 4
  | .f32 => 5
  | .bf16 => 6
  | .f16 => 7
  | .e4m3 => 8
  | .e5m2 => 9
  | .t8 => 10
  | .t6 => 11
  | .ui8 => 12
  | .ui16 => 13
  | .ui32 => 14
  | .ui64 => 15

/-- The format of a code (R39). -/
def Fmt.ofCode (x : BitVec 4) : Fmt :=
  match x.toNat with
  | 0 => .i8
  | 1 => .i16
  | 2 => .i32
  | 3 => .i64
  | 4 => .f64
  | 5 => .f32
  | 6 => .bf16
  | 7 => .f16
  | 8 => .e4m3
  | 9 => .e5m2
  | 10 => .t8
  | 11 => .t6
  | 12 => .ui8
  | 13 => .ui16
  | 14 => .ui32
  | _ => .ui64

/-- Rounding codes (R47). -/
def Rm.code : Rm → BitVec 3
  | .rne => 0
  | .rtz => 1
  | .rup => 2
  | .rdn => 3
  | .sr => 4

/-- The rounding mode of a code; 0b101 to 0b111 are reserved (R47). -/
def Rm.ofCode (x : BitVec 3) : Option Rm :=
  match x.toNat with
  | 0 => some .rne
  | 1 => some .rtz
  | 2 => some .rup
  | 3 => some .rdn
  | 4 => some .sr
  | _ => none

/-- Size codes of LD (R89). -/
def LdSize.code : LdSize → BitVec 4
  | .b => 0
  | .h => 1
  | .w => 2
  | .d => 3
  | .q => 4
  | .bu => 8
  | .hu => 9
  | .wu => 10

/-- The load size of a code (R89). -/
def LdSize.ofCode (x : BitVec 4) : Option LdSize :=
  match x.toNat with
  | 0 => some .b
  | 1 => some .h
  | 2 => some .w
  | 3 => some .d
  | 4 => some .q
  | 8 => some .bu
  | 9 => some .hu
  | 10 => some .wu
  | _ => none

/-- Size codes of ST (R89). -/
def StSize.code : StSize → BitVec 4
  | .b => 0
  | .h => 1
  | .w => 2
  | .d => 3
  | .q => 4

/-- The store size of a code (R89). -/
def StSize.ofCode (x : BitVec 4) : Option StSize :=
  match x.toNat with
  | 0 => some .b
  | 1 => some .h
  | 2 => some .w
  | 3 => some .d
  | 4 => some .q
  | _ => none

/-- Size codes of AMO and RED (R167). -/
def AmoSize.code : AmoSize → BitVec 4
  | .w => 2
  | .d => 3

/-- The size of a code (R167). -/
def AmoSize.ofCode (x : BitVec 4) : Option AmoSize :=
  match x.toNat with
  | 2 => some .w
  | 3 => some .d
  | _ => none

/-- Order codes (R167). -/
def Order.code : Order → BitVec 2
  | .none => 0
  | .acq => 1
  | .rel => 2
  | .ar => 3

/-- The order of a code (R167). -/
def Order.ofCode (x : BitVec 2) : Order :=
  match x.toNat with
  | 0 => .none
  | 1 => .acq
  | 2 => .rel
  | _ => .ar

/-- Scope codes (R144). -/
def Scope.code : Scope → BitVec 3
  | .slot => 0
  | .tile => 1
  | .cluster => 2
  | .die => 3
  | .pkg => 4
  | .sys => 5

/-- The scope of a code; 6 and 7 are reserved (R144). -/
def Scope.ofCode (x : BitVec 3) : Option Scope :=
  match x.toNat with
  | 0 => some .slot
  | 1 => some .tile
  | 2 => some .cluster
  | 3 => some .die
  | 4 => some .pkg
  | 5 => some .sys
  | _ => none

/-- Kind codes of FENCE (R170). -/
def FenceKind.code : FenceKind → BitVec 2
  | .acq => 1
  | .rel => 2
  | .full => 3

/-- The kind of a code; 0 is not allowed (R170). -/
def FenceKind.ofCode (x : BitVec 2) : Option FenceKind :=
  match x.toNat with
  | 1 => some .acq
  | 2 => some .rel
  | 3 => some .full
  | _ => none

/-- Codes of the reductions (R151). -/
def VRedOp.code : VRedOp → BitVec 3
  | .add => 0
  | .min => 1
  | .max => 2
  | .and => 3
  | .or => 4
  | .xor => 5

/-- The reduction of a code (R151). -/
def VRedOp.ofCode (x : BitVec 3) : Option VRedOp :=
  match x.toNat with
  | 0 => some .add
  | 1 => some .min
  | 2 => some .max
  | 3 => some .and
  | 4 => some .or
  | 5 => some .xor
  | _ => none

/-- Pattern codes (R251). -/
def Pat.code : Pat → BitVec 3
  | .p2of4 => 0
  | .p4of8 => 1
  | .p2of8 => 2
  | .p1of8 => 3

/-- The pattern of a code; 4 to 7 are reserved (R251). -/
def Pat.ofCode (x : BitVec 3) : Option Pat :=
  match x.toNat with
  | 0 => some .p2of4
  | 1 => some .p4of8
  | 2 => some .p2of8
  | 3 => some .p1of8
  | _ => none

/-- One bit. -/
def boolCode (b : Bool) : BitVec 1 := BitVec.ofBool b

/-- One bit read. -/
def boolOfCode (x : BitVec 1) : Bool := x = 1

/-! ### Reading fields -/

/-- Check 6: a condition on the fields that the form needs. -/
def need (p : Bool) : Except DecodeFault Unit := if p then .ok () else .error .illegalOpcode

/-- A modifier code that must have a meaning (check 6). -/
def opc {α : Type} (x : Option α) : Except DecodeFault α :=
  match x with
  | some v => .ok v
  | none => .error .illegalOpcode

/-- An operand code that must have a meaning in its position (checks 7 and 8). -/
def opd {α : Type} (x : Option α) : Except DecodeFault α :=
  match x with
  | some v => .ok v
  | none => .error .illegalOperand

/-- The 96-bit form's EXT (R32). -/
def Fields.ext (x : Fields) : BitVec 32 := x.hi.extractLsb' 0 32

/-- EXT placed in bits [127:64]. -/
def extHi (e : BitVec 32) : Word := e.zeroExtend 64

/-- A 64-bit form with this MAJOR and SUB, every other field zero. -/
def f64 (major sub : Nat) : Fields := { len := 0, major := BitVec.ofNat 8 major, sub := BitVec.ofNat 8 sub }

/-- A 96-bit form. -/
def f96 (major sub : Nat) : Fields := { len := 1, major := BitVec.ofNat 8 major, sub := BitVec.ofNat 8 sub }

/-- A 128-bit form. -/
def f128 (major sub : Nat) : Fields := { len := 2, major := BitVec.ofNat 8 major, sub := BitVec.ofNat 8 sub }

/-- The 64-bit length, as a form requires it (check 5). -/
def is64 (x : Fields) : Bool := x.len = 0 && x.hi = 0
/-- The 96-bit length: bits [127:96] do not exist. -/
def is96 (x : Fields) : Bool := x.len = 1 && x.hi.extractLsb' 32 32 = 0
/-- The 128-bit length. -/
def is128 (x : Fields) : Bool := x.len = 2

/-- A decoder of one form. -/
abbrev Row := Fields → Except DecodeFault Instr

/-! ### Forms: one decoder and one encoder per shape, from the encoding tables of the instruction chapters -/

/-- D, A, B with a width in F (R62). -/
def decAlu3 (mk : Width → Dst → Src → Src → Instr) : Row := fun x => do
  need (is64 x && x.c = 0 && x.mod = 0)
  let wd ← opc (Width.ofCode x.f)
  let d ← opd (Dst.ofCode x.d)
  let a ← opd (Src.ofCode x.a)
  let b ← opd (Src.ofCode x.b)
  return mk wd d a b

/-- Fields of a form of R62. -/
def encAlu3 (sub : Nat) (wd : Width) (d : Dst) (a b : Src) : Fields :=
  { f64 0x10 sub with f := wd.code, d := d.code, a := a.code, b := b.code }

/-- D and A with a width in F (R64). -/
def decAlu2 (mk : Width → Dst → Src → Instr) : Row := fun x => do
  need (is64 x && x.b = 0 && x.c = 0 && x.mod = 0)
  let wd ← opc (Width.ofCode x.f)
  let d ← opd (Dst.ofCode x.d)
  let a ← opd (Src.ofCode x.a)
  return mk wd d a

/-- Fields of a form of R64. -/
def encAlu2 (sub : Nat) (wd : Width) (d : Dst) (a : Src) : Fields :=
  { f64 0x11 sub with f := wd.code, d := d.code, a := a.code }

/-- ADDI (R65). -/
def decAddi : Row := fun x => do
  need (is64 x && x.b = 0 && x.c = 0)
  let wd ← opc (Width.ofCode x.f)
  let d ← opd (Dst.ofCode x.d)
  let a ← opd (Src.ofCode x.a)
  return .addi wd d a x.mod

/-- MOVI with an 18-bit immediate (R66). -/
def decMovi : Row := fun x => do
  need (is64 x && x.f = 0 && x.a = 0 && x.b = 0 && x.c = 0)
  let d ← opd (Dst.ofCode x.d)
  return .movi d x.mod

/-- MOVI with a 64-bit immediate (R66). -/
def decMovi64 : Row := fun x => do
  need (is128 x && x.f = 0 && x.a = 0 && x.b = 0 && x.c = 0 && x.mod = 0)
  let d ← opd (Dst.ofCode x.d)
  return .movi64 d x.hi

/-- MOVI.HI (R66). -/
def decMoviHi : Row := fun x => do
  need (is128 x && x.f = 0 && x.b = 0 && x.c = 0 && x.mod = 0)
  let d ← opd (Dst.ofCode x.d)
  let a ← opd (Src.ofCode x.a)
  return .moviHi d a x.hi

/-- CMP: SUB is the width (R68). -/
def decCmp (wd : Width) : Row := fun x => do
  need (is64 x && x.c = 0 && x.mod = 0)
  let c ← opc (Cond.ofCode x.f)
  let d ← opd (Dst.ofCode x.d)
  let a ← opd (Src.ofCode x.a)
  let b ← opd (Src.ofCode x.b)
  return .cmp c wd d a b

/-- BEXT (R69). -/
def decBext : Row := fun x => do
  need (is64 x && x.f = 3 && x.c = 0 && x.mod = 0)
  let d ← opd (Dst.ofCode x.d)
  let a ← opd (Src.ofCode x.a)
  let b ← opd (Src.ofCode x.b)
  return .bext d a b

/-- BDEP (R69). -/
def decBdep : Row := fun x => do
  need (is64 x && x.f = 3 && x.mod = 0)
  let d ← opd (Dst.ofCode x.d)
  let a ← opd (Src.ofCode x.a)
  let b ← opd (Src.ofCode x.b)
  let c ← opd (Src.ofCode x.c)
  return .bdep d a b c

/-- A form with no field but LEN, MAJOR and SUB, of 64 bits. -/
def decBare (i : Instr) : Row := fun x => do
  need (is64 x && x.f = 0 && x.d = 0 && x.a = 0 && x.b = 0 && x.c = 0 && x.mod = 0)
  return i

/-- NOP.96 and NOP.128 (R70). -/
def decNopLong (i : Instr) (l : BitVec 2) : Row := fun x => do
  need (x.len = l && x.hi = 0 && x.f = 0 && x.d = 0 && x.a = 0 && x.b = 0 && x.c = 0 && x.mod = 0)
  return i

/-- BR between two registers (R72). -/
def decBr : Row := fun x => do
  need (is64 x && x.d = 0 && x.c = 0)
  let c ← opc (Cond.ofCode x.f)
  let a ← opd (Src.ofCode x.a)
  let b ← opd (Src.ofCode x.b)
  return .br c a b x.mod

/-- BR against EXT (R72). -/
def decBrImm : Row := fun x => do
  need (is96 x && x.d = 0 && x.c = 0 && x.b = 0)
  let c ← opc (Cond.ofCode x.f)
  let a ← opd (Src.ofCode x.a)
  return .brImm c a x.ext x.mod

/-- A 64-bit form that uses MOD alone: J, TRAP, BRK. -/
def decMod (mk : BitVec 18 → Instr) : Row := fun x => do
  need (is64 x && x.f = 0 && x.d = 0 && x.a = 0 && x.b = 0 && x.c = 0)
  return mk x.mod

/-- J with EXT (R73). -/
def decJExt : Row := fun x => do
  need (is96 x && x.f = 0 && x.d = 0 && x.a = 0 && x.b = 0 && x.c = 0 && x.mod = 0)
  return .jExt x.ext

/-- D and MOD: JL, FOLLOW. -/
def decDMod (mk : Dst → BitVec 18 → Instr) : Row := fun x => do
  need (is64 x && x.f = 0 && x.a = 0 && x.b = 0 && x.c = 0)
  let d ← opd (Dst.ofCode x.d)
  return mk d x.mod

/-- JL with EXT (R73). -/
def decJlExt : Row := fun x => do
  need (is96 x && x.f = 0 && x.a = 0 && x.b = 0 && x.c = 0 && x.mod = 0)
  let d ← opd (Dst.ofCode x.d)
  return .jlExt d x.ext

/-- D, A and MOD: JR, CINC with an immediate. -/
def decDAMod (mk : Dst → Src → BitVec 18 → Instr) : Row := fun x => do
  need (is64 x && x.f = 0 && x.b = 0 && x.c = 0)
  let d ← opd (Dst.ofCode x.d)
  let a ← opd (Src.ofCode x.a)
  return mk d a x.mod

/-- LOOP (R75). -/
def decLoop : Row := fun x => do
  need (is64 x && x.f = 0 && x.a = 0 && x.b = 0 && x.c = 0)
  let d ← opd (Reg.ofCode x.d)
  return .loop d x.mod

/-- D, A and B, F zero (R78). -/
def decDAB (mk : Dst → Src → Src → Instr) : Row := fun x => do
  need (is64 x && x.f = 0 && x.c = 0 && x.mod = 0)
  let d ← opd (Dst.ofCode x.d)
  let a ← opd (Src.ofCode x.a)
  let b ← opd (Src.ofCode x.b)
  return mk d a b

/-- D and A, F zero: R78, MWAIT, JRNL, ACSPILL, ACFILL. -/
def decDA (mk : Dst → Src → Instr) : Row := fun x => do
  need (is64 x && x.f = 0 && x.b = 0 && x.c = 0 && x.mod = 0)
  let d ← opd (Dst.ofCode x.d)
  let a ← opd (Src.ofCode x.a)
  return mk d a

/-- Fields of a form with D and A. -/
def encDA (major sub : Nat) (d : Dst) (a : Src) : Fields := { f64 major sub with d := d.code, a := a.code }

/-- CANDP with an immediate (R78). -/
def decCandpImm : Row := fun x => do
  need (is64 x && x.f = 0 && x.b = 0 && x.c = 0 && x.mod.extractLsb' 8 10 = 0)
  let d ← opd (Dst.ofCode x.d)
  let a ← opd (Src.ofCode x.a)
  return .candpImm d a (x.mod.extractLsb' 0 8)

/-- The low three bits of MOD hold a rounding mode and the rest are zero. -/
def rmOfMod (x : Fields) : Except DecodeFault Rm := do
  need (x.mod.extractLsb' 3 15 = 0)
  opc (Rm.ofCode (x.mod.extractLsb' 0 3))

/-- MOD with a rounding mode in its low bits. -/
def modOfRm (r : Rm) : BitVec 18 := r.code.zeroExtend 18

/-- A format in F that the form accepts. -/
def fmtIn (p : Fmt → Bool) (x : Fields) : Except DecodeFault Fmt := do
  need (p (Fmt.ofCode x.f))
  return Fmt.ofCode x.f

/-- Two-operand float arithmetic with rounding (R82). -/
def decF3 (mk : Fmt → Rm → Dst → Src → Src → Instr) : Row := fun x => do
  need (is64 x && x.c = 0)
  let f ← fmtIn Fmt.isIeee x
  let r ← rmOfMod x
  let d ← opd (Dst.ofCode x.d)
  let a ← opd (Src.ofCode x.a)
  let b ← opd (Src.ofCode x.b)
  return mk f r d a b

/-- Fields of a form with a format, a rounding mode, D, A and B. -/
def encF3 (major sub : Nat) (f : Fmt) (r : Rm) (d : Dst) (a b : Src) : Fields :=
  { f64 major sub with f := f.code, mod := modOfRm r, d := d.code, a := a.code, b := b.code }

/-- FSQRT and FRND (R82). -/
def decF2 (mk : Fmt → Rm → Dst → Src → Instr) : Row := fun x => do
  need (is64 x && x.b = 0 && x.c = 0)
  let f ← fmtIn Fmt.isIeee x
  let r ← rmOfMod x
  let d ← opd (Dst.ofCode x.d)
  let a ← opd (Src.ofCode x.a)
  return mk f r d a

/-- FMIN, FMAX and FSGN (R82). -/
def decFNoRm (p : Fmt → Bool) (mk : Fmt → Dst → Src → Src → Instr) : Row := fun x => do
  need (is64 x && x.c = 0 && x.mod = 0)
  let f ← fmtIn p x
  let d ← opd (Dst.ofCode x.d)
  let a ← opd (Src.ofCode x.a)
  let b ← opd (Src.ofCode x.b)
  return mk f d a b

/-- FFMA (R82). -/
def decFfma : Row := fun x => do
  need (is64 x)
  let f ← fmtIn Fmt.isIeee x
  let r ← rmOfMod x
  let d ← opd (Dst.ofCode x.d)
  let a ← opd (Src.ofCode x.a)
  let b ← opd (Src.ofCode x.b)
  let c ← opd (Src.ofCode x.c)
  return .ffma f r d a b c

/-- FCMP (R82). -/
def decFcmp : Row := fun x => do
  need (is64 x && x.c = 0 && x.mod.extractLsb' 3 15 = 0)
  let f ← fmtIn Fmt.isFloat x
  let d ← opd (Dst.ofCode x.d)
  let a ← opd (Src.ofCode x.a)
  let b ← opd (Src.ofCode x.b)
  return .fcmp (FCond.ofCode (x.mod.extractLsb' 0 3)) f d a b

/-- FCLASS (R82). -/
def decFclass : Row := fun x => do
  need (is64 x && x.b = 0 && x.c = 0 && x.mod = 0)
  let f ← fmtIn Fmt.isFloat x
  let d ← opd (Dst.ofCode x.d)
  let a ← opd (Src.ofCode x.a)
  return .fclass f d a

/-- CVT (R82): [6:4] rounding, [3:0] source format. -/
def decCvt : Row := fun x => do
  need (is64 x && x.b = 0 && x.c = 0 && x.mod.extractLsb' 7 11 = 0)
  let r ← opc (Rm.ofCode (x.mod.extractLsb' 4 3))
  let d ← opd (Dst.ofCode x.d)
  let a ← opd (Src.ofCode x.a)
  return .cvt (Fmt.ofCode x.f) (Fmt.ofCode (x.mod.extractLsb' 0 4)) r d a

/-- LD (R89): offset in MOD. -/
def decLd : Row := fun x => do
  need (is64 x && x.b = 0 && x.c = 0)
  let z ← opc (LdSize.ofCode x.f)
  let d ← opd (Dst.ofCode x.d)
  let a ← opd (Reg.ofCode x.a)
  return .ld z d a x.mod

/-- LD (R89): offset in EXT. -/
def decLdExt : Row := fun x => do
  need (is96 x && x.b = 0 && x.c = 0 && x.mod = 0)
  let z ← opc (LdSize.ofCode x.f)
  let d ← opd (Dst.ofCode x.d)
  let a ← opd (Reg.ofCode x.a)
  return .ldExt z d a x.ext

/-- ST (R89): offset in MOD. -/
def decSt : Row := fun x => do
  need (is64 x && x.d = 0 && x.c = 0)
  let z ← opc (StSize.ofCode x.f)
  let a ← opd (Reg.ofCode x.a)
  let b ← opd (Src.ofCode x.b)
  return .st z a b x.mod

/-- ST (R89): offset in EXT. -/
def decStExt : Row := fun x => do
  need (is96 x && x.d = 0 && x.c = 0 && x.mod = 0)
  let z ← opc (StSize.ofCode x.f)
  let a ← opd (Reg.ofCode x.a)
  let b ← opd (Src.ofCode x.b)
  return .stExt z a b x.ext

/-- D and a base, offset in MOD: LDC, LDF, LDT, PROBE, AWAIT, MARM. -/
def decMemD (fc : BitVec 4) (mk : Dst → Reg → BitVec 18 → Instr) : Row := fun x => do
  need (is64 x && x.f = fc && x.b = 0 && x.c = 0)
  let d ← opd (Dst.ofCode x.d)
  let a ← opd (Reg.ofCode x.a)
  return mk d a x.mod

/-- Fields of such a form. -/
def encMemD (major : Nat) (fc : BitVec 4) (d : Dst) (a : Reg) (off : BitVec 18) : Fields :=
  { f64 major 0 with f := fc, d := d.code, a := a.code, mod := off }

/-- D and a base, offset in EXT. -/
def decMemDX (fc : BitVec 4) (mk : Dst → Reg → BitVec 32 → Instr) : Row := fun x => do
  need (is96 x && x.f = fc && x.b = 0 && x.c = 0 && x.mod = 0)
  let d ← opd (Dst.ofCode x.d)
  let a ← opd (Reg.ofCode x.a)
  return mk d a x.ext

/-- Fields of such a form. -/
def encMemDX (major : Nat) (fc : BitVec 4) (d : Dst) (a : Reg) (off : BitVec 32) : Fields :=
  { f96 major 1 with f := fc, d := d.code, a := a.code, hi := extHi off }

/-- A base and B, offset in MOD: STC, STF, STW. -/
def decMemB (fc : BitVec 4) (mk : Reg → Src → BitVec 18 → Instr) : Row := fun x => do
  need (is64 x && x.f = fc && x.d = 0 && x.c = 0)
  let a ← opd (Reg.ofCode x.a)
  let b ← opd (Src.ofCode x.b)
  return mk a b x.mod

/-- Fields of such a form. -/
def encMemB (major : Nat) (fc : BitVec 4) (a : Reg) (b : Src) (off : BitVec 18) : Fields :=
  { f64 major 0 with f := fc, a := a.code, b := b.code, mod := off }

/-- A base and B, offset in EXT. -/
def decMemBX (fc : BitVec 4) (mk : Reg → Src → BitVec 32 → Instr) : Row := fun x => do
  need (is96 x && x.f = fc && x.d = 0 && x.c = 0 && x.mod = 0)
  let a ← opd (Reg.ofCode x.a)
  let b ← opd (Src.ofCode x.b)
  return mk a b x.ext

/-- Fields of such a form. -/
def encMemBX (major : Nat) (fc : BitVec 4) (a : Reg) (b : Src) (off : BitVec 32) : Fields :=
  { f96 major 1 with f := fc, a := a.code, b := b.code, hi := extHi off }

/-- A base alone, offset in MOD: SETF, SETE, MDISARM, MIGR. -/
def decMemA (fc : BitVec 4) (mk : Reg → BitVec 18 → Instr) : Row := fun x => do
  need (is64 x && x.f = fc && x.d = 0 && x.b = 0 && x.c = 0)
  let a ← opd (Reg.ofCode x.a)
  return mk a x.mod

/-- Fields of such a form. -/
def encMemA (major : Nat) (fc : BitVec 4) (a : Reg) (off : BitVec 18) : Fields :=
  { f64 major 0 with f := fc, a := a.code, mod := off }

/-- A base alone, offset in EXT. -/
def decMemAX (fc : BitVec 4) (mk : Reg → BitVec 32 → Instr) : Row := fun x => do
  need (is96 x && x.f = fc && x.d = 0 && x.b = 0 && x.c = 0 && x.mod = 0)
  let a ← opd (Reg.ofCode x.a)
  return mk a x.ext

/-- Fields of such a form. -/
def encMemAX (major : Nat) (fc : BitVec 4) (a : Reg) (off : BitVec 32) : Fields :=
  { f96 major 1 with f := fc, a := a.code, hi := extHi off }

/-- SRD (R98): the number in MOD[11:0]. -/
def decSrd : Row := fun x => do
  need (is64 x && x.f = 0 && x.a = 0 && x.b = 0 && x.c = 0 && x.mod.extractLsb' 12 6 = 0)
  need (sysregAssigned (x.mod.extractLsb' 0 12))
  let d ← opd (Dst.ofCode x.d)
  return .srd d (x.mod.extractLsb' 0 12)

/-- SWR (R98). -/
def decSwr : Row := fun x => do
  need (is64 x && x.f = 0 && x.d = 0 && x.b = 0 && x.c = 0 && x.mod.extractLsb' 12 6 = 0)
  need (sysregAssigned (x.mod.extractLsb' 0 12))
  let a ← opd (Src.ofCode x.a)
  return .swr (x.mod.extractLsb' 0 12) a

/-- A alone: WAITI, RSYNC. -/
def decA (mk : Src → Instr) : Row := fun x => do
  need (is64 x && x.f = 0 && x.d = 0 && x.b = 0 && x.c = 0 && x.mod = 0)
  let a ← opd (Src.ofCode x.a)
  return mk a

/-- D alone: BAR, TID, RSTAT. -/
def decD (mk : Dst → Instr) : Row := fun x => do
  need (is64 x && x.f = 0 && x.a = 0 && x.b = 0 && x.c = 0 && x.mod = 0)
  let d ← opd (Dst.ofCode x.d)
  return mk d

/-- SAT and rounding in MOD[3:0] (R147). -/
def modeOfMod (x : Fields) (f : Fmt) : Except DecodeFault (Rm × Bool) := do
  need (x.mod.extractLsb' 4 14 = 0)
  let r ← opc (Rm.ofCode (x.mod.extractLsb' 0 3))
  let s := boolOfCode (x.mod.extractLsb' 3 1)
  need (modeOk f r s)
  return (r, s)

/-- MOD with SAT and rounding. -/
def modOfMode (r : Rm) (s : Bool) : BitVec 18 := (boolCode s ++ r.code).zeroExtend 18

/-- VADD, VSUB, VMUL (R147). -/
def decV3 (mk : Fmt → Rm → Bool → VReg → VReg → VReg → Instr) : Row := fun x => do
  need (is64 x && x.c = 0)
  let (r, s) ← modeOfMod x (Fmt.ofCode x.f)
  let d ← opd (VReg.ofCode x.d)
  let a ← opd (VReg.ofCode x.a)
  let b ← opd (VReg.ofCode x.b)
  return mk (Fmt.ofCode x.f) r s d a b

/-- VFMA (R147). -/
def decVfma : Row := fun x => do
  need (is64 x)
  let (r, s) ← modeOfMod x (Fmt.ofCode x.f)
  let d ← opd (VReg.ofCode x.d)
  let a ← opd (VReg.ofCode x.a)
  let b ← opd (VReg.ofCode x.b)
  let c ← opd (VReg.ofCode x.c)
  return .vfma (Fmt.ofCode x.f) r s d a b c

/-- Three quads, MOD zero (R147). -/
def decV3z (p : Fmt → Bool) (mk : Fmt → VReg → VReg → VReg → Instr) : Row := fun x => do
  need (is64 x && x.c = 0 && x.mod = 0)
  let f ← fmtIn p x
  let d ← opd (VReg.ofCode x.d)
  let a ← opd (VReg.ofCode x.a)
  let b ← opd (VReg.ofCode x.b)
  return mk f d a b

/-- Fields of such a form. -/
def encV3z (major sub : Nat) (f : Fmt) (d a b : VReg) : Fields :=
  { f64 major sub with f := f.code, d := d.code, a := a.code, b := b.code }

/-- VCMP (R147, R149). -/
def decVcmp : Row := fun x => do
  need (is64 x && x.c = 0 && x.mod.extractLsb' 4 14 = 0)
  let cc : BitVec 4 := x.mod.extractLsb' 0 4
  need (if (Fmt.ofCode x.f).isInt then decide (cc.toNat < 12) else decide (cc.toNat < 8))
  let d ← opd (Dst.ofCode x.d)
  let a ← opd (VReg.ofCode x.a)
  let b ← opd (VReg.ofCode x.b)
  return .vcmp cc (Fmt.ofCode x.f) d a b

/-- VSEL (R147). -/
def decVsel : Row := fun x => do
  need (is64 x && x.mod = 0)
  let d ← opd (VReg.ofCode x.d)
  let a ← opd (VReg.ofCode x.a)
  let b ← opd (VReg.ofCode x.b)
  let c ← opd (Src.ofCode x.c)
  return .vsel (Fmt.ofCode x.f) d a b c

/-- A PART code as a number below 8. -/
def partOfCode (p : BitVec 3) : Fin 8 := p.toFin

/-- VCVT (R147, R150). -/
def decVcvt : Row := fun x => do
  need (is64 x && x.b = 0 && x.c = 0 && x.mod.extractLsb' 10 8 = 0)
  let r ← opc (Rm.ofCode (x.mod.extractLsb' 4 3))
  let s := Fmt.ofCode (x.mod.extractLsb' 0 4)
  let p := partOfCode (x.mod.extractLsb' 7 3)
  need (decide (p.val < partRatio (Fmt.ofCode x.f) s))
  let d ← opd (VReg.ofCode x.d)
  let a ← opd (VReg.ofCode x.a)
  return .vcvt (Fmt.ofCode x.f) s r p d a

/-- VBCAST (R147). -/
def decVbcast : Row := fun x => do
  need (is64 x && x.b = 0 && x.c = 0 && x.mod = 0)
  let d ← opd (VReg.ofCode x.d)
  let a ← opd (Src.ofCode x.a)
  return .vbcast (Fmt.ofCode x.f) d a

/-- VRED (R147, R151): [12:10] rounding, [9:3] COUNT, [2:0] op. -/
def decVred : Row := fun x => do
  need (is64 x && x.c = 0 && x.mod.extractLsb' 13 5 = 0)
  let op ← opc (VRedOp.ofCode (x.mod.extractLsb' 0 3))
  let r ← opc (Rm.ofCode (x.mod.extractLsb' 10 3))
  let n : BitVec 7 := x.mod.extractLsb' 3 7
  let f := Fmt.ofCode x.f
  need (decide (n.toNat ≤ 512 / f.lane) && (decide (r = .rne) || (decide (op = .add) && f.isFloat)))
  let d ← opd (Dst.ofCode x.d)
  let a ← opd (VReg.ofCode x.a)
  let b ← opd (Src.ofCode x.b)
  return .vred op f r d a b n

/-- VSCAN (R147, R152): [5:3] rounding, [2:0] op. -/
def decVscan : Row := fun x => do
  need (is64 x && x.c = 0 && x.mod.extractLsb' 6 12 = 0)
  let op ← opc (VRedOp.ofCode (x.mod.extractLsb' 0 3))
  let r ← opc (Rm.ofCode (x.mod.extractLsb' 3 3))
  let f := Fmt.ofCode x.f
  need ((decide (op = .add) || decide (op = .min) || decide (op = .max)) &&
    (decide (r = .rne) || (decide (op = .add) && f.isFloat)))
  let d ← opd (VReg.ofCode x.d)
  let a ← opd (VReg.ofCode x.a)
  let b ← opd (Src.ofCode x.b)
  return .vscan op f r d a b

/-- VDOT (R147, R153). -/
def decVdot : Row := fun x => do
  need (is64 x)
  let f ← fmtIn Fmt.isDot x
  let r ← rmOfMod x
  need (modeOk f r false)
  let d ← opd (Dst.ofCode x.d)
  let a ← opd (VReg.ofCode x.a)
  let b ← opd (VReg.ofCode x.b)
  let c ← opd (Src.ofCode x.c)
  return .vdot f r d a b c

/-- VRCP and VEXP2 (R147). -/
def decV2 (mk : Fmt → Rm → VReg → VReg → Instr) : Row := fun x => do
  need (is64 x && x.b = 0 && x.c = 0)
  let f ← fmtIn Fmt.isFloat x
  let r ← rmOfMod x
  let d ← opd (VReg.ofCode x.d)
  let a ← opd (VReg.ofCode x.a)
  return mk f r d a

/-- A number 0 to 3 in F: a generator (R157) or a mailbox (R171, R172). -/
def fin4OfF (x : Fields) : Except DecodeFault (Fin 4) :=
  if h : x.f.toNat < 4 then .ok ⟨x.f.toNat, h⟩ else .error .illegalOpcode

/-- F of such a number. -/
def fOfFin4 (n : Fin 4) : BitVec 4 := BitVec.ofNat 4 n.val

/-- SBIND (R157). -/
def decSbind : Row := fun x => do
  need (is64 x && x.c = 0 && x.mod = 0)
  let g ← fin4OfF x
  let d ← opd (Reg.ofCode x.d)
  let a ← opd (Reg.ofCode x.a)
  let b ← opd (Reg.ofCode x.b)
  return .sbind g d a b

/-- SUNB (R157). -/
def decSunb : Row := fun x => do
  need (is64 x && x.f = 0 && x.a = 0 && x.b = 0 && x.c = 0 && x.mod = 0)
  let d ← opd (Reg.ofCode x.d)
  return .sunb d

/-- Two registers in D and A: SSKIP, QSTAT. -/
def decRR (mk : Reg → Reg → Instr) : Row := fun x => do
  need (is64 x && x.f = 0 && x.b = 0 && x.c = 0 && x.mod = 0)
  let d ← opd (Reg.ofCode x.d)
  let a ← opd (Reg.ofCode x.a)
  return mk d a

/-- The modifiers of AMO and RED (R167): offset, order and scope. -/
def amoMod (ok : Order → Scope → Bool) (x : Fields) : Except DecodeFault (Order × Scope × BitVec 10) := do
  need (x.mod.extractLsb' 5 3 = 0)
  let sc ← opc (Scope.ofCode (x.mod.extractLsb' 2 3))
  let o := Order.ofCode (x.mod.extractLsb' 0 2)
  need (ok o sc)
  return (o, sc, x.mod.extractLsb' 8 10)

/-- MOD of AMO and RED (R167). -/
def modOfAmo (o : Order) (sc : Scope) (off : BitVec 10) : BitVec 18 := off ++ (0 : BitVec 3) ++ sc.code ++ o.code

/-- AMO but for CAS (R167). -/
def decAmo (mk : AmoSize → Order → Scope → Dst → Reg → Src → BitVec 10 → Instr) : Row := fun x => do
  need (is64 x && x.c = 0)
  let z ← opc (AmoSize.ofCode x.f)
  let (o, sc, off) ← amoMod orderOk x
  let d ← opd (Dst.ofCode x.d)
  let a ← opd (Reg.ofCode x.a)
  let b ← opd (Src.ofCode x.b)
  return mk z o sc d a b off

/-- Fields of AMO. -/
def encAmo (sub : Nat) (z : AmoSize) (o : Order) (sc : Scope) (d : Dst) (a : Reg) (b : Src) (off : BitVec 10) : Fields :=
  { f64 0x70 sub with f := z.code, d := d.code, a := a.code, b := b.code, mod := modOfAmo o sc off }

/-- AMO.CAS (R167). -/
def decCas : Row := fun x => do
  need (is64 x)
  let z ← opc (AmoSize.ofCode x.f)
  let (o, sc, off) ← amoMod orderOk x
  let d ← opd (Dst.ofCode x.d)
  let a ← opd (Reg.ofCode x.a)
  let b ← opd (Src.ofCode x.b)
  let c ← opd (Src.ofCode x.c)
  return .amoCas z o sc d a b c off

/-- RED (R167). -/
def decRed (mk : AmoSize → Order → Scope → Reg → Src → BitVec 10 → Instr) : Row := fun x => do
  need (is64 x && x.c = 0 && x.d = 0)
  let z ← opc (AmoSize.ofCode x.f)
  let (o, sc, off) ← amoMod redOrderOk x
  let a ← opd (Reg.ofCode x.a)
  let b ← opd (Src.ofCode x.b)
  return mk z o sc a b off

/-- Fields of RED. -/
def encRed (sub : Nat) (z : AmoSize) (o : Order) (sc : Scope) (a : Reg) (b : Src) (off : BitVec 10) : Fields :=
  { f64 0x71 sub with f := z.code, a := a.code, b := b.code, mod := modOfAmo o sc off }

/-- FENCE (R170). -/
def decFence : Row := fun x => do
  need (is64 x && x.f = 0 && x.d = 0 && x.a = 0 && x.b = 0 && x.c = 0 && x.mod.extractLsb' 5 13 = 0)
  let k ← opc (FenceKind.ofCode (x.mod.extractLsb' 0 2))
  let sc ← opc (Scope.ofCode (x.mod.extractLsb' 2 3))
  return .fence k sc

/-- MBCFG (R171). -/
def decMbcfg : Row := fun x => do
  need (is64 x && x.d = 0 && x.b = 0 && x.c = 0)
  let m ← fin4OfF x
  need (decide (16 ≤ x.mod.toNat) && decide (x.mod.toNat ≤ 16384))
  let a ← opd (Reg.ofCode x.a)
  return .mbcfg m a x.mod

/-- MBCFG .off (R171). -/
def decMbcfgOff : Row := fun x => do
  need (is64 x && x.d = 0 && x.a = 0 && x.b = 0 && x.c = 0 && x.mod = 0)
  let m ← fin4OfF x
  return .mbcfgOff m

/-- SEND (R172): [17:4] offset, a multiple of 8; [3:0] count - 1. -/
def decSend : Row := fun x => do
  need (is64 x && x.d = 0 && x.c = 0)
  let m ← fin4OfF x
  let off : BitVec 14 := x.mod.extractLsb' 4 14
  need (decide (off.toNat % 8 = 0))
  let n : BitVec 4 := x.mod.extractLsb' 0 4
  let a ← opd (Reg.ofCode x.a)
  let b ← opd (Reg.ofCode x.b)
  return .send m a b off n.toFin

/-- SPAWN (R177). -/
def decSpawn : Row := fun x => do
  need (is64 x && x.f = 0 && x.d = 0 && x.c = 0 && x.mod.extractLsb' 8 10 = 0)
  let a ← opd (Src.ofCode x.a)
  let b ← opd (Reg.ofCode x.b)
  return .spawn a b (x.mod.extractLsb' 0 8)

/-- A number below 256 from its eight bits. -/
def byteFin (x : BitVec 8) : Fin 256 := x.toFin

/-- The eight bits of a number below 256. -/
def finByte (n : Fin 256) : BitVec 8 := BitVec.ofFin n

/-- The four bits of a number below 16. -/
def finNibble (n : Fin 16) : BitVec 4 := BitVec.ofFin n

/-- MWLD and MTRL (R250). -/
def decMload (mk : Fmt → Reg → RegZ → BitVec 32 → Instr) : Row := fun x => do
  need (is96 x && x.d = 0 && x.c = 0 && x.mod = 0)
  let a ← opd (Reg.ofCode x.a)
  let b ← opd (RegZ.ofCode x.b)
  return mk (Fmt.ofCode x.f) a b x.ext

/-- The activation source (R252). -/
def msrcOf (x : Fields) : Except DecodeFault MSrc :=
  match (x.mod.extractLsb' 12 2 : BitVec 2).toNat with
  | 0 => do
    let a ← opd (Reg.ofCode x.a)
    let b ← opd (RegZ.ofCode x.b)
    return .scratch a b x.ext
  | 1 => do
    need (x.b = 0 && x.ext = 0)
    let a ← opd (Reg.ofCode x.a)
    return .stream a
  | 2 => do
    need (x.b = 0 && x.ext = 0)
    let a ← opd (Link.ofCode x.a)
    return .link a
  | _ => do
    need (x.a = 0 && x.b = 0 && x.ext = 0)
    return .shadow

/-- SRC of an activation source (R251). -/
def MSrc.code : MSrc → BitVec 2
  | .scratch .. => 0
  | .stream .. => 1
  | .link .. => 2
  | .shadow => 3

/-- A of an activation source (R252). -/
def MSrc.aCode : MSrc → BitVec 6
  | .scratch b _ _ => b.code
  | .stream r => r.code
  | .link l => l.code
  | .shadow => 0

/-- B of an activation source (R252). -/
def MSrc.bCode : MSrc → BitVec 6
  | .scratch _ s _ => s.code
  | _ => 0

/-- EXT of an activation source (R252). -/
def MSrc.ext : MSrc → BitVec 32
  | .scratch _ _ o => o
  | _ => 0

/-- MOD of the multiply forms (R251). -/
def modOfMma (pat : BitVec 3) (wide : Bool) (src : MSrc) (rows : BitVec 4) (acc : Fin 256) : BitVec 18 :=
  pat ++ boolCode wide ++ src.code ++ rows ++ finByte acc

/-- MMA and MMAM (R250): C is unused, or a mask register. -/
def decMma : Row := fun x => do
  need (is96 x && x.d = 0 && x.c = 0 && x.mod.extractLsb' 15 3 = 0)
  let src ← msrcOf x
  return .mma (Fmt.ofCode x.f) src (boolOfCode (x.mod.extractLsb' 14 1)) (x.mod.extractLsb' 8 4 : BitVec 4).toFin
    (byteFin (x.mod.extractLsb' 0 8))

/-- MMAS (R250). -/
def decMmas : Row := fun x => do
  need (is96 x && x.d = 0)
  let p ← opc (Pat.ofCode (x.mod.extractLsb' 15 3))
  let src ← msrcOf x
  let c ← opd (Reg.ofCode x.c)
  return .mmas (Fmt.ofCode x.f) src p (boolOfCode (x.mod.extractLsb' 14 1)) (x.mod.extractLsb' 8 4 : BitVec 4).toFin
    (byteFin (x.mod.extractLsb' 0 8)) c

/-- MMAM (R250). -/
def decMmam : Row := fun x => do
  need (is96 x && x.d = 0 && x.mod.extractLsb' 15 3 = 0)
  let src ← msrcOf x
  let c ← opd (Reg.ofCode x.c)
  return .mmam (Fmt.ofCode x.f) src (boolOfCode (x.mod.extractLsb' 14 1)) (x.mod.extractLsb' 8 4 : BitVec 4).toFin
    (byteFin (x.mod.extractLsb' 0 8)) c

/-- MMAR (R250, R253): no link source, sixteen rows. -/
def decMmar : Row := fun x => do
  need (is96 x && x.d = 0 && x.c = 0 && x.mod.extractLsb' 15 3 = 0)
  need (x.mod.extractLsb' 12 2 ≠ (2 : BitVec 2) && x.mod.extractLsb' 8 4 = (15 : BitVec 4))
  let src ← msrcOf x
  return .mmar (Fmt.ofCode x.f) src (boolOfCode (x.mod.extractLsb' 14 1)) (byteFin (x.mod.extractLsb' 0 8))

/-- MZERO (R250). -/
def decMzero : Row := fun x => do
  need (is64 x && x.f = 0 && x.d = 0 && x.a = 0 && x.b = 0 && x.c = 0 && x.mod.extractLsb' 16 2 = 0)
  let n := byteFin (x.mod.extractLsb' 8 8)
  let t := byteFin (x.mod.extractLsb' 0 8)
  need (decide (t.val + (n.val + 1) ≤ 256))
  return .mzero n t

/-- MACC.ADD and MACC.SUB (R250). -/
def decMacc (mk : Fmt → Fin 256 → Fin 256 → Fin 256 → Instr) : Row := fun x => do
  need (is96 x && x.d = 0 && x.a = 0 && x.b = 0 && x.c = 0 && x.mod = 0 && x.ext.extractLsb' 24 8 = 0)
  let f ← fmtIn Fmt.isAcc x
  return mk f (byteFin (x.ext.extractLsb' 0 8)) (byteFin (x.ext.extractLsb' 8 8)) (byteFin (x.ext.extractLsb' 16 8))

/-- EXT of MACC. -/
def extOfMacc (td ta tb : Fin 256) : BitVec 32 := (0 : BitVec 8) ++ finByte tb ++ finByte ta ++ finByte td

/-- MACC.SCALE (R250). -/
def decMaccScale : Row := fun x => do
  need (is96 x && x.d = 0 && x.a = 0 && x.c = 0 && x.mod = 0 && x.ext.extractLsb' 16 16 = 0)
  let f ← fmtIn Fmt.isAcc x
  let b ← opd (RegZ.ofCode x.b)
  return .maccScale f (byteFin (x.ext.extractLsb' 0 8)) (byteFin (x.ext.extractLsb' 8 8)) b

/-- ACLD (R250). -/
def decAcld : Row := fun x => do
  need (is96 x && x.d = 0 && x.c = 0 && x.mod.extractLsb' 8 10 = 0)
  let f ← fmtIn Fmt.isCell x
  let a ← opd (Reg.ofCode x.a)
  let b ← opd (RegZ.ofCode x.b)
  return .acld f a b (byteFin (x.mod.extractLsb' 0 8)) x.ext

/-- The optional mask register of ACST and MDRAIN: MASK in MOD[8], the register in C (R250, R253). -/
def maskOf (x : Fields) : Except DecodeFault (Option Reg) :=
  if x.mod.extractLsb' 8 1 = (1 : BitVec 1) then do
    let c ← opd (Reg.ofCode x.c)
    return some c
  else do
    need (x.c = 0)
    return none

/-- C of an optional mask register. -/
def maskC : Option Reg → BitVec 6
  | some r => r.code
  | none => 0

/-- MOD of ACST and MDRAIN. -/
def modOfMask (c : Option Reg) (t : Fin 256) : BitVec 18 := (boolCode c.isSome ++ finByte t).zeroExtend 18

/-- ACST (R250). -/
def decAcst : Row := fun x => do
  need (is96 x && x.d = 0 && x.mod.extractLsb' 9 9 = 0)
  let f ← fmtIn Fmt.isCell x
  let c ← maskOf x
  let a ← opd (Reg.ofCode x.a)
  let b ← opd (RegZ.ofCode x.b)
  return .acst f a b c (byteFin (x.mod.extractLsb' 0 8)) x.ext

/-- MDRAIN (R250). -/
def decMdrain : Row := fun x => do
  need (is64 x && x.d = 0 && x.mod.extractLsb' 9 9 = 0)
  let f ← fmtIn Fmt.isCell x
  let c ← maskOf x
  let a ← opd (Reg.ofCode x.a)
  let b ← opd (Reg.ofCode x.b)
  return .mdrain f a b c (byteFin (x.mod.extractLsb' 0 8))

/-- Registers in A, B and C, no D: the quadtree commands, DCOPY and the felting commands. -/
def decABC (fc : BitVec 4) (mk : Reg → Reg → Reg → Instr) : Row := fun x => do
  need (is64 x && x.f = fc && x.d = 0 && x.mod = 0)
  let a ← opd (Reg.ofCode x.a)
  let b ← opd (Reg.ofCode x.b)
  let c ← opd (Reg.ofCode x.c)
  return mk a b c

/-- Fields of such a form. -/
def encABC (major : Nat) (fc : BitVec 4) (a b c : Reg) : Fields :=
  { f64 major 0 with f := fc, a := a.code, b := b.code, c := c.code }

/-- QCONV (R295, R296). -/
def decQconv : Row := fun x => do
  need (is64 x && x.d = 0)
  let f ← fmtIn Fmt.isQuad x
  let r ← rmOfMod x
  need (decide (r ≠ .sr))
  let a ← opd (Reg.ofCode x.a)
  let b ← opd (Reg.ofCode x.b)
  let c ← opd (Reg.ofCode x.c)
  return .qconv f r a b c

/-- QSOLVE (R295). -/
def decQsolve : Row := fun x => do
  need (is64 x && x.f = 0 && x.d = 0 && x.mod = 0)
  let a ← opd (Reg.ofCode x.a)
  let b ← opd (Reg.ofCode x.b)
  let c ← opd (RegZ.ofCode x.c)
  return .qsolve a b c

/-- QNODE (R295). -/
def decQnode : Row := fun x => do
  need (is64 x && x.f = 0 && x.c = 0 && x.mod = 0)
  let d ← opd (Reg.ofCode x.d)
  let a ← opd (Reg.ofCode x.a)
  let b ← opd (Reg.ofCode x.b)
  return .qnode d a b

/-- The quarter operand of QPOOL (R295, R296). -/
def quarterOf (x : Fields) : Except DecodeFault (Fin 4) := do
  need (x.mod.extractLsb' 2 16 = 0)
  return (x.mod.extractLsb' 0 2 : BitVec 2).toFin

/-- MOD of a quarter operand. -/
def modOfQuarter (q : Fin 4) : BitVec 18 := (BitVec.ofFin q : BitVec 2).zeroExtend 18

/-- QPOOL read (R295). -/
def decQpoolRd : Row := fun x => do
  need (is64 x && x.f = 0 && x.b = 0 && x.c = 0)
  let q ← quarterOf x
  let d ← opd (Reg.ofCode x.d)
  let a ← opd (Reg.ofCode x.a)
  return .qpoolRd d a q

/-- QPOOL set (R295). -/
def decQpoolSet : Row := fun x => do
  need (is64 x && x.f = 0)
  let q ← quarterOf x
  let d ← opd (Reg.ofCode x.d)
  let a ← opd (Reg.ofCode x.a)
  let b ← opd (Reg.ofCode x.b)
  let c ← opd (Reg.ofCode x.c)
  return .qpoolSet d a b c q

/-- DFILL (R320). -/
def decDfill : Row := fun x => do
  need (is64 x && x.f = 0 && x.d = 0 && x.mod = 0)
  let a ← opd (Reg.ofCode x.a)
  let b ← opd (RegZ.ofCode x.b)
  let c ← opd (Reg.ofCode x.c)
  return .dfill a b c

/-- D and a register A: DCANCEL, EVRD. -/
def decDR (mk : Dst → Reg → Instr) : Row := fun x => do
  need (is64 x && x.f = 0 && x.b = 0 && x.c = 0 && x.mod = 0)
  let d ← opd (Dst.ofCode x.d)
  let a ← opd (Reg.ofCode x.a)
  return mk d a

/-- A and C: IXWALK, IXGATH, IXSCAT (R327). -/
def decAC (mk : Reg → Reg → Instr) : Row := fun x => do
  need (is64 x && x.f = 0 && x.d = 0 && x.b = 0 && x.mod = 0)
  let a ← opd (Reg.ofCode x.a)
  let c ← opd (Reg.ofCode x.c)
  return mk a c

/-- IXSCAT.add (R327). -/
def decIxscatAdd : Row := fun x => do
  need (is64 x && x.d = 0 && x.b = 0 && x.mod = 0)
  let f ← fmtIn Fmt.isAcc x
  let a ← opd (Reg.ofCode x.a)
  let c ← opd (Reg.ofCode x.c)
  return .ixscatAdd f a c

/-- FASWEEP (R347): [4] CNT, [3:0] K - 1. -/
def decFasweep : Row := fun x => do
  need (is64 x && x.f = 0 && x.d = 0 && x.mod.extractLsb' 5 13 = 0)
  let a ← opd (Reg.ofCode x.a)
  let b ← opd (Reg.ofCode x.b)
  let c ← opd (Reg.ofCode x.c)
  return .fasweep a b c (boolOfCode (x.mod.extractLsb' 4 1)) (x.mod.extractLsb' 0 4 : BitVec 4).toFin

/-- FAREAD: F selects state or count (R347). -/
def decFaread : Row := fun x => do
  need (is64 x && (x.f = 0 || x.f = 1) && x.d = 0 && x.mod = 0)
  let a ← opd (Reg.ofCode x.a)
  let b ← opd (Reg.ofCode x.b)
  let c ← opd (Reg.ofCode x.c)
  return if x.f = 0 then .fareadState a b c else .fareadCount a b c

/-- FABETA (R347). -/
def decFabeta : Row := fun x => do
  need (is64 x && x.f = 0 && x.d = 0 && x.c = 0 && x.mod = 0)
  let a ← opd (RegZ.ofCode x.a)
  let b ← opd (Reg.ofCode x.b)
  return .fabeta a b

/-- FASEED: F selects seeded or entropy (R347). -/
def decFaseed : Row := fun x => do
  need (is64 x && (x.f = 0 || x.f = 1) && x.d = 0 && x.c = 0 && x.mod = 0)
  let a ← opd (RegZ.ofCode x.a)
  let b ← opd (Reg.ofCode x.b)
  return if x.f = 0 then .faseedSeeded a b else .faseedEntropy a b

/-- RINJ (R404). -/
def decRinj : Row := fun x => do
  need (is64 x && x.f = 0 && x.d = 0 && x.b = 0 && x.c = 0 && x.mod = 0)
  let a ← opd (Reg.ofCode x.a)
  return .rinj a

/-- EVCFG and EVCFG.HIST (R420): a number in MOD[2:0]. -/
def decEvcfg (mk : Reg → Fin 8 → Instr) : Row := fun x => do
  need (is64 x && x.f = 0 && x.d = 0 && x.b = 0 && x.c = 0 && x.mod.extractLsb' 3 15 = 0)
  let a ← opd (Reg.ofCode x.a)
  return mk a (x.mod.extractLsb' 0 3 : BitVec 3).toFin

/-- MOD of a number below 8. -/
def modOfFin8 (n : Fin 8) : BitVec 18 := (BitVec.ofFin n : BitVec 3).zeroExtend 18

/-! ### The opcode map (R36) -/

/-- The forms of MAJOR 0x10 (R62). -/
def rowAlu (sub : Nat) : Option Row :=
  match sub with
  | 0x00 => some (decAlu3 .add)
  | 0x01 => some (decAlu3 .sub)
  | 0x02 => some (decAlu3 .mul)
  | 0x03 => some (decAlu3 .mulh)
  | 0x04 => some (decAlu3 .mulhu)
  | 0x05 => some (decAlu3 .div)
  | 0x06 => some (decAlu3 .divu)
  | 0x07 => some (decAlu3 .rem)
  | 0x08 => some (decAlu3 .remu)
  | 0x10 => some (decAlu3 .and)
  | 0x11 => some (decAlu3 .or)
  | 0x12 => some (decAlu3 .xor)
  | 0x13 => some (decAlu3 .andn)
  | 0x18 => some (decAlu3 .shl)
  | 0x19 => some (decAlu3 .shr)
  | 0x1A => some (decAlu3 .sra)
  | 0x1B => some (decAlu3 .rot)
  | 0x20 => some (decAlu3 .min)
  | 0x21 => some (decAlu3 .max)
  | 0x22 => some (decAlu3 .minu)
  | 0x23 => some (decAlu3 .maxu)
  | _ => none

/-- The forms of MAJOR 0x11 to 0x15 (R64 to R69). -/
def rowInt (major sub : Nat) : Option Row :=
  match major, sub with
  | 0x11, 0 => some (decAlu2 .clz)
  | 0x11, 1 => some (decAlu2 .ctz)
  | 0x11, 2 => some (decAlu2 .popc)
  | 0x12, 0 => some decAddi
  | 0x13, 0 => some decMovi
  | 0x13, 1 => some decMovi64
  | 0x13, 2 => some decMoviHi
  | 0x14, 0 => some (decCmp .b)
  | 0x14, 1 => some (decCmp .h)
  | 0x14, 2 => some (decCmp .w)
  | 0x14, 3 => some (decCmp .d)
  | 0x15, 0 => some decBext
  | 0x15, 1 => some decBdep
  | _, _ => none

/-- The NOP family and the system forms, MAJOR 0x01 to 0x08 (R70, R98). -/
def rowSys (major sub : Nat) : Option Row :=
  match major, sub with
  | 0x01, 0 => some (decBare .nop)
  | 0x01, 1 => some (decNopLong .nop96 1)
  | 0x01, 2 => some (decNopLong .nop128 2)
  | 0x02, 0 => some (decMod .trap)
  | 0x03, 0 => some (decBare .eret)
  | 0x03, 1 => some (decBare .eretSkip)
  | 0x04, 0 => some decSrd
  | 0x05, 0 => some decSwr
  | 0x06, 0 => some (decBare .iflush)
  | 0x07, 0 => some (decMod .brk)
  | 0x08, 0 => some (decA .waiti)
  | _, _ => none

/-- The control forms, MAJOR 0x30 to 0x3F (R72 to R76). -/
def rowCtl (major sub : Nat) : Option Row :=
  match major, sub with
  | 0x30, 0 => some decBr
  | 0x30, 1 => some decBrImm
  | 0x31, 0 => some (decMod .j)
  | 0x31, 1 => some decJExt
  | 0x32, 0 => some (decDMod .jl)
  | 0x32, 1 => some decJlExt
  | 0x33, 0 => some (decDAMod .jr)
  | 0x34, 0 => some decLoop
  | 0x3F, 0 => some (decBare .halt)
  | _, _ => none

/-- The capability forms, MAJOR 0x40 (R78). -/
def rowCap (sub : Nat) : Option Row :=
  match sub with
  | 0x00 => some (decDAB .csetb)
  | 0x01 => some (decDAB .csetbTight)
  | 0x08 => some (decDA .cgetb)
  | 0x09 => some (decDA .cgeta)
  | 0x0A => some (decDA .ctag)
  | 0x10 => some (decDAB .cinc)
  | 0x11 => some (decDAMod .cincImm)
  | 0x18 => some (decDAB .candp)
  | 0x19 => some decCandpImm
  | 0x20 => some (decDA .cclr)
  | 0x21 => some (decDA .cmov)
  | _ => none

/-- The scalar float forms, MAJOR 0x50 to 0x54 (R82). -/
def rowFloat (major sub : Nat) : Option Row :=
  match major, sub with
  | 0x50, 0 => some (decF3 .fadd)
  | 0x50, 1 => some (decF3 .fsub)
  | 0x50, 2 => some (decF3 .fmul)
  | 0x50, 3 => some (decF3 .fdiv)
  | 0x50, 4 => some (decF2 .fsqrt)
  | 0x50, 5 => some (decFNoRm Fmt.isIeee .fmin)
  | 0x50, 6 => some (decFNoRm Fmt.isIeee .fmax)
  | 0x50, 8 => some decFfma
  | 0x51, 0 => some decFcmp
  | 0x52, 0 => some decFclass
  | 0x52, 1 => some (decFNoRm Fmt.isFloat .fsgnCpy)
  | 0x52, 2 => some (decFNoRm Fmt.isFloat .fsgnNeg)
  | 0x52, 3 => some (decFNoRm Fmt.isFloat .fsgnXor)
  | 0x53, 0 => some (decF2 .frnd)
  | 0x54, 0 => some decCvt
  | _, _ => none

/-- Loads, stores and full/empty forms, MAJOR 0x60 to 0x6A (R89, R159). -/
def rowMem (major sub : Nat) : Option Row :=
  match major, sub with
  | 0x60, 0 => some decLd
  | 0x60, 1 => some decLdExt
  | 0x61, 0 => some decSt
  | 0x61, 1 => some decStExt
  | 0x62, 0 => some (decMemD 0 .ldc)
  | 0x62, 1 => some (decMemDX 0 .ldcExt)
  | 0x63, 0 => some (decMemB 0 .stc)
  | 0x63, 1 => some (decMemBX 0 .stcExt)
  | 0x64, 0 => some (decMemD 3 .ldf)
  | 0x64, 1 => some (decMemDX 3 .ldfExt)
  | 0x65, 0 => some (decMemD 3 .ldt)
  | 0x65, 1 => some (decMemDX 3 .ldtExt)
  | 0x66, 0 => some (decMemB 3 .stf)
  | 0x66, 1 => some (decMemBX 3 .stfExt)
  | 0x67, 0 => some (decMemB 3 .stw)
  | 0x67, 1 => some (decMemBX 3 .stwExt)
  | 0x68, 0 => some (decMemA 3 .setf)
  | 0x68, 1 => some (decMemAX 3 .setfExt)
  | 0x69, 0 => some (decMemA 3 .sete)
  | 0x69, 1 => some (decMemAX 3 .seteExt)
  | 0x6A, 0 => some (decMemD 3 .probe)
  | 0x6A, 1 => some (decMemDX 3 .probeExt)
  | _, _ => none

/-- Atomics, monitors, fence, mailboxes and migration, MAJOR 0x70 to 0x78 (R163, R167, R170 to R174). -/
def rowPar (major sub : Nat) : Option Row :=
  match major, sub with
  | 0x70, 0 => some (decAmo .amoAdd)
  | 0x70, 1 => some (decAmo .amoAnd)
  | 0x70, 2 => some (decAmo .amoOr)
  | 0x70, 3 => some (decAmo .amoXor)
  | 0x70, 4 => some (decAmo .amoMin)
  | 0x70, 5 => some (decAmo .amoMax)
  | 0x70, 6 => some (decAmo .amoMinu)
  | 0x70, 7 => some (decAmo .amoMaxu)
  | 0x70, 8 => some (decAmo .amoSwap)
  | 0x70, 9 => some decCas
  | 0x71, 0 => some (decRed .redAdd)
  | 0x71, 1 => some (decRed .redAnd)
  | 0x71, 2 => some (decRed .redOr)
  | 0x71, 3 => some (decRed .redXor)
  | 0x71, 4 => some (decRed .redMin)
  | 0x71, 5 => some (decRed .redMax)
  | 0x71, 6 => some (decRed .redMinu)
  | 0x71, 7 => some (decRed .redMaxu)
  | 0x72, 0 => some (decMemD 0 .marm)
  | 0x73, 0 => some (decDA .mwait)
  | 0x74, 0 => some (decMemA 0 .mdisarm)
  | 0x74, 1 => some (decBare .mdisarmAll)
  | 0x75, 0 => some decFence
  | 0x76, 0 => some decSend
  | 0x77, 0 => some decMbcfg
  | 0x77, 1 => some decMbcfgOff
  | 0x78, 0 => some (decMemA 0 .migr)
  | _, _ => none

/-- Vectors and streams, MAJOR 0x80 to 0x92 (R147, R157). -/
def rowVec (major sub : Nat) : Option Row :=
  match major, sub with
  | 0x80, 0x00 => some (decV3 .vadd)
  | 0x80, 0x01 => some (decV3 .vsub)
  | 0x80, 0x02 => some (decV3 .vmul)
  | 0x80, 0x03 => some (decV3z (fun _ => true) .vmin)
  | 0x80, 0x04 => some (decV3z (fun _ => true) .vmax)
  | 0x80, 0x05 => some decVfma
  | 0x80, 0x08 => some (decV3z (fun _ => true) .vand)
  | 0x80, 0x09 => some (decV3z (fun _ => true) .vor)
  | 0x80, 0x0A => some (decV3z (fun _ => true) .vxor)
  | 0x80, 0x0C => some (decV3z Fmt.isInt .vshl)
  | 0x80, 0x0D => some (decV3z Fmt.isInt .vshr)
  | 0x80, 0x0E => some (decV3z Fmt.isInt .vsra)
  | 0x81, 0 => some decVcmp
  | 0x82, 0 => some decVsel
  | 0x83, 0 => some decVcvt
  | 0x84, 0 => some (decV3z (fun _ => true) .vperm)
  | 0x85, 0 => some decVbcast
  | 0x86, 0 => some decVred
  | 0x87, 0 => some decVscan
  | 0x88, 0 => some decVdot
  | 0x89, 0 => some (decV2 .vrcp)
  | 0x8A, 0 => some (decV2 .vexp2)
  | 0x90, 0 => some decSbind
  | 0x91, 0 => some decSunb
  | 0x92, 0 => some (decRR .sskip)
  | _, _ => none

/-- Tasks and matrix forms, MAJOR 0xA0 to 0xB6 (R177, R250). -/
def rowTask (major sub : Nat) : Option Row :=
  match major, sub with
  | 0xA0, 0 => some decSpawn
  | 0xA1, 0 => some (decMemD 3 .await)
  | 0xA1, 1 => some (decMemDX 3 .awaitExt)
  | 0xA2, 0 => some (decBare .exit)
  | 0xA3, 0 => some (decD .barGang)
  | 0xA3, 1 => some (decD .barField)
  | 0xA4, 0 => some (decDMod .follow)
  | 0xA5, 0 => some (decD .tid)
  | 0xB0, 0 => some (decMload .mwld)
  | 0xB0, 1 => some (decMload .mtrl)
  | 0xB1, 0 => some decMma
  | 0xB1, 1 => some decMmas
  | 0xB1, 2 => some decMmam
  | 0xB1, 3 => some decMmar
  | 0xB2, 0 => some decMzero
  | 0xB3, 0 => some (decMacc .maccAdd)
  | 0xB3, 1 => some (decMacc .maccSub)
  | 0xB3, 2 => some decMaccScale
  | 0xB4, 0 => some decAcld
  | 0xB5, 0 => some decAcst
  | 0xB6, 0 => some decMdrain
  | _, _ => none

/-- The quadtree, copy, index and felting forms, MAJOR 0xC0 to 0xE6 (R295, R320, R327, R347). -/
def rowEng (major sub : Nat) : Option Row :=
  match major, sub with
  | 0xC0, 0 => some (decABC 0 .qmul)
  | 0xC1, 0 => some (decABC 0 .qadd)
  | 0xC2, 0 => some decQconv
  | 0xC3, 0 => some (decABC 0 .qfact)
  | 0xC4, 0 => some (decABC 0 .qtrsm)
  | 0xC5, 0 => some decQsolve
  | 0xC8, 0 => some (decRR .qstat)
  | 0xC9, 0 => some decQnode
  | 0xCA, 0 => some decQpoolRd
  | 0xCA, 1 => some decQpoolSet
  | 0xD0, 0 => some (decABC 0 .dcopy)
  | 0xD1, 0 => some decDfill
  | 0xD2, 0 => some (decDR .dcancel)
  | 0xD8, 0 => some (decAC .ixwalk)
  | 0xD9, 0 => some (decAC .ixgath)
  | 0xDA, 0 => some (decAC .ixscat)
  | 0xDA, 1 => some decIxscatAdd
  | 0xDB, 0 => some (decBare .ixmark)
  | 0xDB, 1 => some (decBare .ixmarkEnd)
  | 0xE0, 0 => some (decABC 0 .faload)
  | 0xE1, 0 => some (decABC 0 .fatable)
  | 0xE2, 0 => some (decABC 0 .faclamp)
  | 0xE3, 0 => some decFasweep
  | 0xE4, 0 => some decFaread
  | 0xE5, 0 => some decFabeta
  | 0xE6, 0 => some decFaseed
  | _, _ => none

/-- The journal, spill, redundancy and measurement forms, MAJOR 0xE8 to 0xED (R370, R385, R404, R420). -/
def rowObs (major sub : Nat) : Option Row :=
  match major, sub with
  | 0xE8, 0 => some (decDA .jrnl)
  | 0xE8, 1 => some (decDA .jrnlRel)
  | 0xE8, 2 => some (decDA .jrnlRetry)
  | 0xE9, 0 => some (decDA .acspill)
  | 0xE9, 1 => some (decDA .acfill)
  | 0xEA, 0 => some (decA .rsync)
  | 0xEA, 1 => some (decD .rstat)
  | 0xEB, 0 => some decRinj
  | 0xEC, 0 => some (decEvcfg .evcfg)
  | 0xEC, 1 => some (decEvcfg .evcfgHist)
  | 0xED, 0 => some (decDR .evrd)
  | 0xED, 1 => some (decDR .evrdClr)
  | _, _ => none

/-- The decoder of the form that a MAJOR and a SUB name; none where either is unassigned (checks 3 and 4 of R37). -/
def row (major sub : Nat) : Option Row :=
  match major / 16 with
  | 0x0 => rowSys major sub
  | 0x1 => if major = 0x10 then rowAlu sub else rowInt major sub
  | 0x3 => rowCtl major sub
  | 0x4 => if major = 0x40 then rowCap sub else none
  | 0x5 => rowFloat major sub
  | 0x6 => rowMem major sub
  | 0x7 => rowPar major sub
  | 0x8 => rowVec major sub
  | 0x9 => rowVec major sub
  | 0xA => rowTask major sub
  | 0xB => rowTask major sub
  | 0xC => rowEng major sub
  | 0xD => rowEng major sub
  | 0xE => if major < 0xE8 then rowEng major sub else rowObs major sub
  | _ => none

/-- The decoder of Zwiari-1: checks 3 to 8 of R37. -/
def decodeFields (x : Fields) : Except DecodeFault Instr :=
  match row x.major.toNat x.sub.toNat with
  | some r => r x
  | none => .error .illegalOpcode

/-- The scalar and system profile of the system cores (R2): the MAJORs it holds. DEDUCED, log entry 9. -/
def inProfile (major : Nat) : Bool :=
  (0x01 ≤ major && major ≤ 0x63) || (0x70 ≤ major && major ≤ 0x76) || major = 0xE8

/-- A little-endian number from bytes (R6). -/
def leNat : List Byte → Nat
  | [] => 0
  | b :: bs => b.toNat + 256 * leNat bs

/-- The fields of an instruction held in memory as bytes, lowest address first (R6, R29). The bytes past the length that
bits [1:0] state are not read; too few bytes, or the length code 0b11, give none. -/
def Fields.ofBytes (bs : List Byte) : Option Fields :=
  match bs with
  | [] => none
  | b0 :: _ =>
    let n := lenBytes (b0.extractLsb' 0 2)
    if n = 0 ∨ bs.length < n then none
    else
      let v := leNat (bs.take n)
      some (Fields.ofWords (BitVec.ofNat 64 v) (BitVec.ofNat 64 (v / 2 ^ 64)))

/-- `n` bytes of a number, lowest first (R6). -/
def leBytes : Nat → Nat → List Byte
  | 0, _ => []
  | n + 1, v => BitVec.ofNat 8 v :: leBytes n (v / 256)

/-- The bytes of an instruction word, lowest address first (R6). -/
def Fields.toBytes (x : Fields) : List Byte := leBytes x.bytes (x.low.toNat + 2 ^ 64 * x.hi.toNat)

/-- The instruction that bytes hold. -/
def decodeBytes (bs : List Byte) : Option Instr :=
  match Fields.ofBytes bs with
  | some x =>
    match decodeFields x with
    | .ok i => some i
    | .error _ => none
  | none => none

/-- The instruction that the decoder reads from the bits `w`, the lowest `nbits` of which the table gives and the rest of
which are zero. -/
def decodeTableWord (nbits w : Nat) : Option Instr := decodeBytes (leBytes 16 (w % 2 ^ nbits))

/-! ### The encoder -/

/-- The fields of a well-formed instruction's word, from the encoding tables of its chapter. An event has no word; it
gives the fields of the all-zero word, which is illegal (R37). -/
def encode : Instr → Fields
  | .add wd d a b => encAlu3 0x00 wd d a b
  | .sub wd d a b => encAlu3 0x01 wd d a b
  | .mul wd d a b => encAlu3 0x02 wd d a b
  | .mulh wd d a b => encAlu3 0x03 wd d a b
  | .mulhu wd d a b => encAlu3 0x04 wd d a b
  | .div wd d a b => encAlu3 0x05 wd d a b
  | .divu wd d a b => encAlu3 0x06 wd d a b
  | .rem wd d a b => encAlu3 0x07 wd d a b
  | .remu wd d a b => encAlu3 0x08 wd d a b
  | .and wd d a b => encAlu3 0x10 wd d a b
  | .or wd d a b => encAlu3 0x11 wd d a b
  | .xor wd d a b => encAlu3 0x12 wd d a b
  | .andn wd d a b => encAlu3 0x13 wd d a b
  | .shl wd d a b => encAlu3 0x18 wd d a b
  | .shr wd d a b => encAlu3 0x19 wd d a b
  | .sra wd d a b => encAlu3 0x1A wd d a b
  | .rot wd d a b => encAlu3 0x1B wd d a b
  | .min wd d a b => encAlu3 0x20 wd d a b
  | .max wd d a b => encAlu3 0x21 wd d a b
  | .minu wd d a b => encAlu3 0x22 wd d a b
  | .maxu wd d a b => encAlu3 0x23 wd d a b
  | .clz wd d a => encAlu2 0 wd d a
  | .ctz wd d a => encAlu2 1 wd d a
  | .popc wd d a => encAlu2 2 wd d a
  | .addi wd d a imm => { f64 0x12 0 with f := wd.code, d := d.code, a := a.code, mod := imm }
  | .movi d imm => { f64 0x13 0 with d := d.code, mod := imm }
  | .movi64 d imm => { f128 0x13 1 with d := d.code, hi := imm }
  | .moviHi d a imm => { f128 0x13 2 with d := d.code, a := a.code, hi := imm }
  | .cmp c wd d a b =>
    { f64 0x14 wd.code.toNat with f := c.code, d := d.code, a := a.code, b := b.code }
  | .bext d a b => { f64 0x15 0 with f := 3, d := d.code, a := a.code, b := b.code }
  | .bdep d a b c => { f64 0x15 1 with f := 3, d := d.code, a := a.code, b := b.code, c := c.code }
  | .nop => f64 0x01 0
  | .nop96 => f96 0x01 1
  | .nop128 => f128 0x01 2
  | .br c a b off => { f64 0x30 0 with f := c.code, a := a.code, b := b.code, mod := off }
  | .brImm c a imm off => { f96 0x30 1 with f := c.code, a := a.code, mod := off, hi := extHi imm }
  | .j off => { f64 0x31 0 with mod := off }
  | .jExt off => { f96 0x31 1 with hi := extHi off }
  | .jl d off => { f64 0x32 0 with d := d.code, mod := off }
  | .jlExt d off => { f96 0x32 1 with d := d.code, hi := extHi off }
  | .jr d a off => { f64 0x33 0 with d := d.code, a := a.code, mod := off }
  | .loop d off => { f64 0x34 0 with d := d.code, mod := off }
  | .halt => f64 0x3F 0
  | .csetb d a b => { f64 0x40 0x00 with d := d.code, a := a.code, b := b.code }
  | .csetbTight d a b => { f64 0x40 0x01 with d := d.code, a := a.code, b := b.code }
  | .cgetb d a => encDA 0x40 0x08 d a
  | .cgeta d a => encDA 0x40 0x09 d a
  | .ctag d a => encDA 0x40 0x0A d a
  | .cinc d a b => { f64 0x40 0x10 with d := d.code, a := a.code, b := b.code }
  | .cincImm d a imm => { f64 0x40 0x11 with d := d.code, a := a.code, mod := imm }
  | .candp d a b => { f64 0x40 0x18 with d := d.code, a := a.code, b := b.code }
  | .candpImm d a imm => { f64 0x40 0x19 with d := d.code, a := a.code, mod := imm.zeroExtend 18 }
  | .cclr d a => encDA 0x40 0x20 d a
  | .cmov d a => encDA 0x40 0x21 d a
  | .fadd f r d a b => encF3 0x50 0 f r d a b
  | .fsub f r d a b => encF3 0x50 1 f r d a b
  | .fmul f r d a b => encF3 0x50 2 f r d a b
  | .fdiv f r d a b => encF3 0x50 3 f r d a b
  | .fsqrt f r d a => { f64 0x50 4 with f := f.code, mod := modOfRm r, d := d.code, a := a.code }
  | .fmin f d a b => { f64 0x50 5 with f := f.code, d := d.code, a := a.code, b := b.code }
  | .fmax f d a b => { f64 0x50 6 with f := f.code, d := d.code, a := a.code, b := b.code }
  | .ffma f r d a b c => { encF3 0x50 8 f r d a b with c := c.code }
  | .fcmp c f d a b =>
    { f64 0x51 0 with f := f.code, mod := c.code.zeroExtend 18, d := d.code, a := a.code, b := b.code }
  | .fclass f d a => { f64 0x52 0 with f := f.code, d := d.code, a := a.code }
  | .fsgnCpy f d a b => { f64 0x52 1 with f := f.code, d := d.code, a := a.code, b := b.code }
  | .fsgnNeg f d a b => { f64 0x52 2 with f := f.code, d := d.code, a := a.code, b := b.code }
  | .fsgnXor f d a b => { f64 0x52 3 with f := f.code, d := d.code, a := a.code, b := b.code }
  | .frnd f r d a => { f64 0x53 0 with f := f.code, mod := modOfRm r, d := d.code, a := a.code }
  | .cvt df sf r d a =>
    { f64 0x54 0 with f := df.code, mod := (r.code ++ sf.code).zeroExtend 18, d := d.code, a := a.code }
  | .ld z d a off => { f64 0x60 0 with f := z.code, d := d.code, a := a.code, mod := off }
  | .ldExt z d a off => { f96 0x60 1 with f := z.code, d := d.code, a := a.code, hi := extHi off }
  | .st z a b off => { f64 0x61 0 with f := z.code, a := a.code, b := b.code, mod := off }
  | .stExt z a b off => { f96 0x61 1 with f := z.code, a := a.code, b := b.code, hi := extHi off }
  | .ldc d a off => encMemD 0x62 0 d a off
  | .ldcExt d a off => encMemDX 0x62 0 d a off
  | .stc a b off => encMemB 0x63 0 a b off
  | .stcExt a b off => encMemBX 0x63 0 a b off
  | .trap n => { f64 0x02 0 with mod := n }
  | .eret => f64 0x03 0
  | .eretSkip => f64 0x03 1
  | .srd d n => { f64 0x04 0 with d := d.code, mod := n.zeroExtend 18 }
  | .swr n a => { f64 0x05 0 with a := a.code, mod := n.zeroExtend 18 }
  | .iflush => f64 0x06 0
  | .brk n => { f64 0x07 0 with mod := n }
  | .waiti a => { f64 0x08 0 with a := a.code }
  | .vadd f r s d a b => { encV3z 0x80 0x00 f d a b with mod := modOfMode r s }
  | .vsub f r s d a b => { encV3z 0x80 0x01 f d a b with mod := modOfMode r s }
  | .vmul f r s d a b => { encV3z 0x80 0x02 f d a b with mod := modOfMode r s }
  | .vmin f d a b => encV3z 0x80 0x03 f d a b
  | .vmax f d a b => encV3z 0x80 0x04 f d a b
  | .vfma f r s d a b c => { encV3z 0x80 0x05 f d a b with mod := modOfMode r s, c := c.code }
  | .vand f d a b => encV3z 0x80 0x08 f d a b
  | .vor f d a b => encV3z 0x80 0x09 f d a b
  | .vxor f d a b => encV3z 0x80 0x0A f d a b
  | .vshl f d a b => encV3z 0x80 0x0C f d a b
  | .vshr f d a b => encV3z 0x80 0x0D f d a b
  | .vsra f d a b => encV3z 0x80 0x0E f d a b
  | .vcmp cc f d a b =>
    { f64 0x81 0 with f := f.code, d := d.code, a := a.code, b := b.code, mod := cc.zeroExtend 18 }
  | .vsel f d a b c => { encV3z 0x82 0 f d a b with c := c.code }
  | .vcvt df sf r p d a =>
    { f64 0x83 0 with
      f := df.code, d := d.code, a := a.code
      mod := ((BitVec.ofFin p : BitVec 3) ++ r.code ++ sf.code).zeroExtend 18 }
  | .vperm f d a b => encV3z 0x84 0 f d a b
  | .vbcast f d a => { f64 0x85 0 with f := f.code, d := d.code, a := a.code }
  | .vred op f r d a b n =>
    { f64 0x86 0 with f := f.code, d := d.code, a := a.code, b := b.code, mod := (r.code ++ n ++ op.code).zeroExtend 18 }
  | .vscan op f r d a b =>
    { f64 0x87 0 with f := f.code, d := d.code, a := a.code, b := b.code, mod := (r.code ++ op.code).zeroExtend 18 }
  | .vdot f r d a b c =>
    { f64 0x88 0 with f := f.code, d := d.code, a := a.code, b := b.code, c := c.code, mod := modOfRm r }
  | .vrcp f r d a => { f64 0x89 0 with f := f.code, d := d.code, a := a.code, mod := modOfRm r }
  | .vexp2 f r d a => { f64 0x8A 0 with f := f.code, d := d.code, a := a.code, mod := modOfRm r }
  | .sbind g d a b => { f64 0x90 0 with f := fOfFin4 g, d := d.code, a := a.code, b := b.code }
  | .sunb d => { f64 0x91 0 with d := d.code }
  | .sskip d a => { f64 0x92 0 with d := d.code, a := a.code }
  | .ldf d a off => encMemD 0x64 3 d a off
  | .ldfExt d a off => encMemDX 0x64 3 d a off
  | .ldt d a off => encMemD 0x65 3 d a off
  | .ldtExt d a off => encMemDX 0x65 3 d a off
  | .stf a b off => encMemB 0x66 3 a b off
  | .stfExt a b off => encMemBX 0x66 3 a b off
  | .stw a b off => encMemB 0x67 3 a b off
  | .stwExt a b off => encMemBX 0x67 3 a b off
  | .setf a off => encMemA 0x68 3 a off
  | .setfExt a off => encMemAX 0x68 3 a off
  | .sete a off => encMemA 0x69 3 a off
  | .seteExt a off => encMemAX 0x69 3 a off
  | .probe d a off => encMemD 0x6A 3 d a off
  | .probeExt d a off => encMemDX 0x6A 3 d a off
  | .marm d a off => encMemD 0x72 0 d a off
  | .mwait d a => encDA 0x73 0 d a
  | .mdisarm a off => encMemA 0x74 0 a off
  | .mdisarmAll => f64 0x74 1
  | .amoAdd z o sc d a b off => encAmo 0 z o sc d a b off
  | .amoAnd z o sc d a b off => encAmo 1 z o sc d a b off
  | .amoOr z o sc d a b off => encAmo 2 z o sc d a b off
  | .amoXor z o sc d a b off => encAmo 3 z o sc d a b off
  | .amoMin z o sc d a b off => encAmo 4 z o sc d a b off
  | .amoMax z o sc d a b off => encAmo 5 z o sc d a b off
  | .amoMinu z o sc d a b off => encAmo 6 z o sc d a b off
  | .amoMaxu z o sc d a b off => encAmo 7 z o sc d a b off
  | .amoSwap z o sc d a b off => encAmo 8 z o sc d a b off
  | .amoCas z o sc d a b c off => { encAmo 9 z o sc d a b off with c := c.code }
  | .redAdd z o sc a b off => encRed 0 z o sc a b off
  | .redAnd z o sc a b off => encRed 1 z o sc a b off
  | .redOr z o sc a b off => encRed 2 z o sc a b off
  | .redXor z o sc a b off => encRed 3 z o sc a b off
  | .redMin z o sc a b off => encRed 4 z o sc a b off
  | .redMax z o sc a b off => encRed 5 z o sc a b off
  | .redMinu z o sc a b off => encRed 6 z o sc a b off
  | .redMaxu z o sc a b off => encRed 7 z o sc a b off
  | .fence k sc => { f64 0x75 0 with mod := (sc.code ++ k.code).zeroExtend 18 }
  | .mbcfg m a n => { f64 0x77 0 with f := fOfFin4 m, a := a.code, mod := n }
  | .mbcfgOff m => { f64 0x77 1 with f := fOfFin4 m }
  | .send m a b off n =>
    { f64 0x76 0 with f := fOfFin4 m, a := a.code, b := b.code, mod := off ++ finNibble n }
  | .migr a off => encMemA 0x78 0 a off
  | .spawn a b n => { f64 0xA0 0 with a := a.code, b := b.code, mod := n.zeroExtend 18 }
  | .await d a off => encMemD 0xA1 3 d a off
  | .awaitExt d a off => encMemDX 0xA1 3 d a off
  | .exit => f64 0xA2 0
  | .barGang d => { f64 0xA3 0 with d := d.code }
  | .barField d => { f64 0xA3 1 with d := d.code }
  | .follow d off => { f64 0xA4 0 with d := d.code, mod := off }
  | .tid d => { f64 0xA5 0 with d := d.code }
  | .mwld f a b off => { f96 0xB0 0 with f := f.code, a := a.code, b := b.code, hi := extHi off }
  | .mtrl f a b off => { f96 0xB0 1 with f := f.code, a := a.code, b := b.code, hi := extHi off }
  | .mma f s w r t =>
    { f96 0xB1 0 with f := f.code, a := s.aCode, b := s.bCode, hi := extHi s.ext, mod := modOfMma 0 w s (finNibble r) t }
  | .mmas f s p w r t c =>
    { f96 0xB1 1 with
      f := f.code, a := s.aCode, b := s.bCode, c := c.code, hi := extHi s.ext
      mod := modOfMma p.code w s (finNibble r) t }
  | .mmam f s w r t c =>
    { f96 0xB1 2 with
      f := f.code, a := s.aCode, b := s.bCode, c := c.code, hi := extHi s.ext
      mod := modOfMma 0 w s (finNibble r) t }
  | .mmar f s w t =>
    { f96 0xB1 3 with f := f.code, a := s.aCode, b := s.bCode, hi := extHi s.ext, mod := modOfMma 0 w s 15 t }
  | .mzero n t => { f64 0xB2 0 with mod := (finByte n ++ finByte t).zeroExtend 18 }
  | .maccAdd f td ta tb => { f96 0xB3 0 with f := f.code, hi := extHi (extOfMacc td ta tb) }
  | .maccSub f td ta tb => { f96 0xB3 1 with f := f.code, hi := extHi (extOfMacc td ta tb) }
  | .maccScale f td ta b => { f96 0xB3 2 with f := f.code, b := b.code, hi := extHi (extOfMacc td ta 0) }
  | .acld f a b t off =>
    { f96 0xB4 0 with f := f.code, a := a.code, b := b.code, hi := extHi off, mod := (finByte t).zeroExtend 18 }
  | .acst f a b c t off =>
    { f96 0xB5 0 with f := f.code, a := a.code, b := b.code, c := maskC c, hi := extHi off, mod := modOfMask c t }
  | .mdrain f a b c t =>
    { f64 0xB6 0 with f := f.code, a := a.code, b := b.code, c := maskC c, mod := modOfMask c t }
  | .qmul a b c => encABC 0xC0 0 a b c
  | .qadd a b c => encABC 0xC1 0 a b c
  | .qconv f r a b c => { encABC 0xC2 f.code a b c with mod := modOfRm r }
  | .qfact a b c => encABC 0xC3 0 a b c
  | .qtrsm a b c => encABC 0xC4 0 a b c
  | .qsolve a b c => { f64 0xC5 0 with a := a.code, b := b.code, c := c.code }
  | .qstat d a => { f64 0xC8 0 with d := d.code, a := a.code }
  | .qnode d a b => { f64 0xC9 0 with d := d.code, a := a.code, b := b.code }
  | .qpoolRd d a q => { f64 0xCA 0 with d := d.code, a := a.code, mod := modOfQuarter q }
  | .qpoolSet d a b c q =>
    { f64 0xCA 1 with d := d.code, a := a.code, b := b.code, c := c.code, mod := modOfQuarter q }
  | .dcopy a b c => encABC 0xD0 0 a b c
  | .dfill a b c => { f64 0xD1 0 with a := a.code, b := b.code, c := c.code }
  | .dcancel d a => { f64 0xD2 0 with d := d.code, a := a.code }
  | .ixwalk a c => { f64 0xD8 0 with a := a.code, c := c.code }
  | .ixgath a c => { f64 0xD9 0 with a := a.code, c := c.code }
  | .ixscat a c => { f64 0xDA 0 with a := a.code, c := c.code }
  | .ixscatAdd f a c => { f64 0xDA 1 with f := f.code, a := a.code, c := c.code }
  | .ixmark => f64 0xDB 0
  | .ixmarkEnd => f64 0xDB 1
  | .faload a b c => encABC 0xE0 0 a b c
  | .fatable a b c => encABC 0xE1 0 a b c
  | .faclamp a b c => encABC 0xE2 0 a b c
  | .fasweep a b c n k => { encABC 0xE3 0 a b c with mod := (boolCode n ++ finNibble k).zeroExtend 18 }
  | .fareadState a b c => encABC 0xE4 0 a b c
  | .fareadCount a b c => encABC 0xE4 1 a b c
  | .fabeta a b => { f64 0xE5 0 with a := a.code, b := b.code }
  | .faseedSeeded a b => { f64 0xE6 0 with a := a.code, b := b.code }
  | .faseedEntropy a b => { f64 0xE6 0 with f := 1, a := a.code, b := b.code }
  | .jrnl d a => encDA 0xE8 0 d a
  | .jrnlRel d a => encDA 0xE8 1 d a
  | .jrnlRetry d a => encDA 0xE8 2 d a
  | .acspill d a => encDA 0xE9 0 d a
  | .acfill d a => encDA 0xE9 1 d a
  | .rsync a => { f64 0xEA 0 with a := a.code }
  | .rstat d => { f64 0xEA 1 with d := d.code }
  | .rinj a => { f64 0xEB 0 with a := a.code }
  | .evcfg a n => { f64 0xEC 0 with a := a.code, mod := modOfFin8 n }
  | .evcfgHist a n => { f64 0xEC 1 with a := a.code, mod := modOfFin8 n }
  | .evrd d a => { f64 0xED 0 with d := d.code, a := a.code }
  | .evrdClr d a => { f64 0xED 1 with d := d.code, a := a.code }
  | _ => {}

/-- The length of an instruction in bytes. -/
def Instr.bytes (i : Instr) : Nat := (encode i).bytes

/-- Bits [63:0] of the instruction's word: TADDR of a decode trap (R37). -/
def Instr.low (i : Instr) : Word := (encode i).low

end Sys2Proof
end

