-- ==== Sys2Proof/Machine/Sparse.lean ====
section
/-! DEFINITION. Finite maps from numbers to plain data.

A map is the list of its entries whose value differs from the default, in rising order of key. Two maps in this form that
read alike are the same list. -/

namespace Sys2Proof.Machine

/-- A map from numbers to values of one type. -/
abbrev Sparse (α : Type) := List (Nat × α)

/-- The value at key `k`, or the default `d`. -/
def Sparse.get {α : Type} (d : α) : Sparse α → Nat → α
  | [], _ => d
  | (a, v) :: m, k => if a = k then v else Sparse.get d m k

/-- Put an entry before the first entry of a larger key. -/
def Sparse.insert {α : Type} (k : Nat) (v : α) : Sparse α → Sparse α
  | [] => [(k, v)]
  | (a, x) :: m => if k < a then (k, v) :: (a, x) :: m else (a, x) :: Sparse.insert k v m

/-- The map without key `k`. -/
def Sparse.erase {α : Type} (k : Nat) : Sparse α → Sparse α
  | [] => []
  | (a, x) :: m => if a = k then Sparse.erase k m else (a, x) :: Sparse.erase k m

/-- The map with `v` at key `k`: the default value is not listed. -/
def Sparse.set {α : Type} [DecidableEq α] (d : α) (m : Sparse α) (k : Nat) (v : α) : Sparse α :=
  if v = d then Sparse.erase k m else Sparse.insert k v (Sparse.erase k m)

/-- Every listed key lies above `lo`, the keys rise, and no listed value is the default. -/
def Sparse.wfFrom {α : Type} [DecidableEq α] (d : α) : Nat → Sparse α → Bool
  | _, [] => true
  | lo, (a, v) :: m => decide (lo ≤ a) && decide (v ≠ d) && Sparse.wfFrom d (a + 1) m

/-- The canonical form: keys rise and no listed value is the default. -/
def Sparse.wf {α : Type} [DecidableEq α] (d : α) (m : Sparse α) : Bool := Sparse.wfFrom d 0 m

/-- The listed keys. -/
def Sparse.keys {α : Type} (m : Sparse α) : List Nat := m.map (·.1)

end Sys2Proof.Machine
end

