-- ==== Sys2Proof/Machine/State.lean ====
section
/-! DEFINITION. The state of a Goleel package as plain data, and its value after reset.

Units: tile (x, y) of die d is unit 144 * d + 12 * y + x, and system core n is unit 576 + n. Thread keys: 16 * unit + slot. -/

namespace Sys2Proof.Machine

/-- Why the machine stops with a fault. -/
inductive Fault where
  /-- Raised by `step` after THERMAL_TRIP has removed module power (R440), when no input is left that could bring a power-on reset.
  Safe: no behaviour is left to describe. -/
  | poweredOff
  deriving DecidableEq, Repr

/-- Why an instruction has no meaning. -/
inductive Refusal where
  /-- Raised by an arm of `exec` whose instruction is not modelled yet. Safe: the run stops. -/
  | notModelled (mnemonic : String)
  deriving DecidableEq, Repr

/-- Memory: bytes by address. An unlisted address reads 0. -/
abbrev Memory := Sparse Byte

/-- 128 bits and a tag (R13). -/
structure Val where
  data : Quad := 0
  tag : Bool := false
  deriving DecidableEq, Repr

/-- 512 bits and a tag: an element of a stream, or a value that a leader hands on (R158, R399). -/
structure Wide where
  data : BitVec 512 := 0
  tag : Bool := false
  deriving DecidableEq, Repr

/-! ### Threads -/

/-- STATUS (R24). Its reserved bits read as zero and ignore writes (R8), and CHK is the gang's bit (R25). -/
structure Status where
  rlevel : BitVec 2 := 0
  ridx : BitVec 2 := 0
  pri : BitVec 2 := 0
  guest : Bool := false
  following : Bool := false
  form : Bool := false
  pmode : BitVec 2 := 0
  pie : Bool := false
  ie : Bool := false
  dbg : Bool := false
  mode : BitVec 2 := 0
  deriving DecidableEq, Repr

/-- The architectural state of a slot that redundancy rolls back (R13, R26). -/
structure Arch where
  regs : Vector Val 32 := Vector.replicate 32 {}
  pc : Word := 0
  xcap : Val := {}
  status : Status := {}
  tvec : Val := {}
  tcause : Word := 0
  taddr : Word := 0
  tepc : Val := {}
  tstack : Val := {}
  tsave : Val := {}
  dcause : Word := 0
  entryWindow : Bool := false
  mlive : BitVec 32 := 0
  deadline : Word := 0
  timerArmed : Bool := false
  rndseed : Word := 0
  acctag : BitVec 16 := 0
  deriving DecidableEq, Repr

/-- An address generator (R155 to R158): the register bound to it, the data capability, six strides and counts with DIM0
first, the indices, ESZ as its code, DIR and LEFT. -/
structure Stream where
  reg : Nat := 0
  cap : Val := {}
  strides : List Int := []
  counts : List Nat := []
  idx : List Nat := []
  esz : Nat := 0
  write : Bool := false
  left : Nat := 0
  deriving DecidableEq, Repr

/-- An armed monitor line (R164): its space, the address of its 64-byte line in the space, its trigger bit. -/
structure MonLine where
  space : Nat := 0
  line : Word := 0
  trig : Bool := false
  deriving DecidableEq, Repr

/-- A registration at the owner of a line (R164): the line's place, the thread, its index, and whether the line lies in the
thread's own tile. The place is unit * 2^20 + offset, or 2^70 + the physical address with its node above it. -/
structure MonReg where
  key : Nat := 0
  thread : Nat := 0
  idx : Nat := 0
  own : Bool := false
  deriving DecidableEq, Repr

/-- A pending asynchronous trap (R362): cause, TADDR and the cycle at which it became pending. -/
structure PendTrap where
  cause : Nat := 0
  taddr : Word := 0
  cyc : Nat := 0
  deriving DecidableEq, Repr

/-- The classes of a turn (R109). -/
inductive TurnClass where
  | vacant
  | issued
  | waitMem
  | waitMsg
  deriving DecidableEq, Repr

/-- The answer of a request. -/
inductive Answer where
  | none
  /-- data and tag -/
  | data (v : Val)
  /-- many bytes -/
  | bytes (b : List Byte)
  /-- a trap of the instruction, with its cause and TADDR (R310) -/
  | trapped (cause : Nat) (addr : Word)
  | ack
  /-- a refusal with its cause code -/
  | refused (cause : Nat)
  /-- a mailbox without room (R173) -/
  | full
  deriving DecidableEq, Repr

/-- What the thread of a slot is doing (R108). -/
inductive Run where
  /-- the slot holds no thread, or its thread has migrated away -/
  | vacant
  /-- issues at its turns -/
  | running
  /-- halted by HALT, a double fault or a debug stop (R76, R96, R412) -/
  | halted
  /-- waits for an instruction-cache block (R207) -/
  | fetching
  /-- waits for the reply of a request (R108) -/
  | reply
  /-- waits at a full/empty word (R161); of the two waiting classes, the message class or the memory class (R108) -/
  | feWait (msg : Bool)
  /-- served at its word: rejoins with this answer (R161) -/
  | feServed (a : Answer)
  /-- MWAIT (R165), with the cycle of its timeout -/
  | mwait (until? : Option Nat)
  /-- WAITI (R103) -/
  | waiti (until? : Option Nat)
  /-- arrived at a barrier (R181) -/
  | barrier (field : Bool)
  /-- released from a barrier with this phase (R182) -/
  | released (phase : Nat) (from? : Nat)
  /-- waits for its leader's instruction at an address (R183) -/
  | joining (at? : Word)
  /-- waits for a vote (R392) -/
  | voting
  /-- waits for the matrix command it issued to take its last link value or to start (R257, R258) -/
  | matrix
  /-- its state is on the way to another tile (R206) -/
  | migrating (dest : Nat) (again : Bool)
  /-- waits for a value that the leader produces (R399) -/
  | leader
  deriving DecidableEq, Repr

/-- A copy command (R319 to R326). -/
structure CopyCmd where
  no : Nat := 0
  thread : Nat := 0
  inst : Nat := 0
  epoch : Nat := 0
  part : Nat := 31
  pasid : Nat := 0
  form : Bool := false
  /-- runs in the leader alone (R399) -/
  lead : Bool := false
  fill : Bool := false
  dst : Val := {}
  /-- the source capability, or the value of a fill -/
  src : Val := {}
  cw : Nat := 0
  /-- element size in bytes, counts and strides with DIM0 first -/
  z : Nat := 1
  counts : List Nat := []
  sstr : List Int := []
  dstr : List Int := []
  total : Nat := 0
  /-- first cycle after its marks are complete -/
  ready : Nat := 0
  started : Bool := false
  issued : Nat := 0
  landed : Nat := 0
  cancelled : Bool := false
  failed : Option (Nat × Word) := none
  /-- elements that have failed -/
  missed : List Nat := []
  /-- the cycle of the fill of CW, once nothing is in flight -/
  fillAt : Option Nat := none
  deriving DecidableEq, Repr

/-- Values that an instruction took before it could complete (R35): those received from links, those popped from streams
by register, the place it holds in its destination link, and the answer it waited for. -/
structure Held where
  links : List (Link × Quad) := []
  pops : List (Nat × BitVec 512) := []
  place : Option Link := none
  /-- the answer that the instruction waited for -/
  result : Option Answer := none
  /-- the first block whose empty-marks were refused (R318) -/
  badMark : Option Word := none
  /-- the copy command whose empty-marks are not all acknowledged (R318) -/
  copy : Option CopyCmd := none
  deriving DecidableEq, Repr

/-- An operation kept in a region buffer (R391): the journal kind, space, address, size, data and tag. -/
structure Buffered where
  kind : Nat := 0
  space : Nat := 0
  addr : Word := 0
  op : Nat := 0
  bytes : List Byte := []
  tag : Bool := false
  /-- the operation of the release point being voted, which the release instruction itself makes (R394) -/
  own : Bool := false
  deriving DecidableEq, Repr

/-- An undo record (R391): unit, address of the first byte, old bytes, old full bits and old tag of the words touched; `eng` for a
record of an engine command's change. -/
structure Undo where
  eng : Bool := false
  unit : Nat := 0
  addr : Nat := 0
  bytes : List Byte := []
  full : List Bool := []
  tags : List Bool := []
  deriving DecidableEq, Repr

/-- Redundancy state of a thread (R391 to R403). -/
structure Redund where
  buf : List Buffered := []
  undo : List Undo := []
  sig : Word := 0xFFFFFFFFFFFFFFFF
  ckpt : Option Arch := none
  /-- the stream generators at the checkpoint -/
  ckptStreams : Vector (Option Stream) 4 := Vector.replicate 4 none
  relno : Nat := 0
  retry : Nat := 0
  resync : Nat := 0
  lastMin : Nat := 3
  last : Nat := 0
  lastSig : Word := 0xFFFFFFFFFFFFFFFF
  /-- a vote has failed once at the present release (R395) -/
  failed : Bool := false
  /-- the present release point has been agreed, and its instruction now takes its effect (R394) -/
  agreed : Bool := false
  /-- the last instruction was an agreed release point: asynchronous traps are taken at this boundary (R401) -/
  boundary : Bool := false
  /-- kind of the release being voted (R392); none outside a vote -/
  vote : Option Nat := none
  /-- how many values of the leader this replica has taken since dispatch (R399) -/
  taken : Nat := 0
  /-- traps of the leader were pending at the agreement, and one of them is taken at this boundary (R401) -/
  due : Bool := false
  /-- not yet arrived when its vote was decided: stopped at its next boundary, to be resynced (R396) -/
  stop : Bool := false
  dropped : Bool := false
  deriving DecidableEq, Repr

/-- An index command (R327 to R335). -/
structure IxCmd where
  /-- number among the tile's engine commands, in issue order -/
  no : Nat := 0
  /-- 0 IXWALK, 1 IXGATH, 2 IXSCAT, 3 IXSCAT.add -/
  op : Nat := 0
  fmt : Fmt := .i32
  thread : Nat := 0
  inst : Nat := 0
  epoch : Nat := 0
  part : Nat := 31
  pasid : Nat := 0
  /-- runs in the leader alone (R399) -/
  lead : Bool := false
  /-- TIDX and T of the issuing thread (R330) -/
  tidx : Nat := 0
  tcount : Nat := 1
  cap : Val := {}
  cw : Nat := 0
  params : List Word := []
  /-- first cycle after its marks are complete -/
  ready : Nat := 0
  started : Bool := false
  /-- next entry or row -/
  cursor : Nat := 0
  /-- records or rows completed -/
  done : Nat := 0
  /-- rows whose index word has been read, with the index, and the dwords of the first of them that have been moved -/
  work : List (Nat × Nat) := []
  moved : List Nat := []
  /-- range of the walk, the pointers read so far, the row reached, the row of the last record and the distinct rows -/
  lo : Nat := 0
  hi : Nat := 0
  ptrs : List (Nat × Nat) := []
  row : Nat := 0
  last : Option Nat := none
  q : Nat := 0
  reason : Nat := 0
  /-- it has no row left to do, and the cycle from which CW may be filled -/
  closed : Bool := false
  endAt : Nat := 0
  failed : Option (Nat × Word) := none
  /-- issued in handler mode (R22) -/
  priv : Bool := false
  /-- in the log of a replica's region, a command that runs in the leader: only its marks are made here (R399) -/
  idle : Bool := false
  deriving DecidableEq, Repr

/-- The log of an open idempotent region (R334): the commands issued in it, each with its copied block. -/
structure Region where
  isOpen : Bool := false
  log : List IxCmd := []
  deriving DecidableEq, Repr

/-- The last instruction that a slot issued: its cycle, its pc, whether it trapped, and whether it was a transfer that was taken (R119
to R121). -/
structure Issue where
  cyc : Nat := 0
  pc : Word := 0
  insn : Option Instr := none
  trapped : Bool := false
  taken : Bool := false
  deriving DecidableEq, Repr

/-- A slot and the thread it holds (R13). -/
structure Thread where
  run : Run := .vacant
  arch : Arch := {}
  streams : Vector (Option Stream) 4 := Vector.replicate 4 none
  mons : Vector (Option MonLine) 4 := Vector.replicate 4 none
  monReset : Bool := false
  redPending : Nat := 0
  pend : List PendTrap := []
  held : Held := {}
  /-- the instruction that waits for a reply, a word, a block or a vote -/
  insn : Option Instr := none
  issue : Issue := {}
  /-- an engine-issue wait, which no asynchronous trap interrupts (R364) -/
  engWait : Bool := false
  /-- the last turn passed in a wait for a link: signal 8 of R418 -/
  linkWait : Bool := false
  cls : TurnClass := .vacant
  tcIssued : Word := 0
  tcWmem : Word := 0
  tcWmsg : Word := 0
  tcVac : Word := 0
  /-- number of the instance, sheet, replica and place of the thread -/
  inst : Nat := 0
  sheet : Nat := 0
  ridx : Nat := 0
  fieldxy : Word := 0
  stage : Word := 0
  tindex : BitVec 32 := 0
  rank : Nat := 0
  gm1 : Nat := 0
  /-- thread key of the slot to which the scheduler bound the thread -/
  home : Nat := 0
  /-- barrier epoch (R186) -/
  epoch : Nat := 0
  region : Region := {}
  red : Redund := {}
  /-- debug grant and breakpoint claim of the slot, kept when no thread is there (R411) -/
  grant : Bool := false
  claim : Bool := false
  /-- a debug stop has been asked for (R412), with its reason and index (R415) -/
  stopAsk : Option Nat := none
  /-- a single step is under way (R411) -/
  stepping : Bool := false
  /-- the breakpoint at the present pc has been passed by a RESUME -/
  passBp : Bool := false
  /-- first fetch of a form thread (R133) -/
  notBefore : Nat := 0
  /-- the cycle before which the empty-marks of an issued command are not complete, and the words of its tile still to mark (R318) -/
  markUntil : Nat := 0
  toMark : List Nat := []
  deriving DecidableEq, Repr

/-! ### Off-tile traffic -/

/-- Full/empty operations (R159). -/
inductive FeOp where
  | ldf
  | ldt
  | stf
  | stw
  | setf
  | sete
  | probe
  deriving DecidableEq, Repr

/-- A waiter in a word's queue (R161): a local thread by its key, or a remote request by its packet. -/
structure FeWaiter where
  remote : Bool := false
  key : Nat := 0
  op : FeOp := .ldf
  v : Word := 0
  /-- words of metadata that an MMAS has still to read from this one on, which is its word v (R242); 0 for any other waiter -/
  rest : Nat := 0
  deriving DecidableEq, Repr

/-- The walk of a QNODE (R310): the capability, the element, what the place in the tree asks of the record at `node`, its dwords read so
far, and the payload elements read so far. -/
structure QWalk where
  cap : Val := {}
  i : Nat := 0
  j : Nat := 0
  lvl : Nat := 0
  lg : Nat := 0
  fmt : Nat := 0
  node : Word := 0
  words : List Word := []
  vals : List Nat := []
  deriving DecidableEq, Repr

/-- What a packet asks for. -/
inductive Req where
  /-- LD, LDC, stream pop: bytes, and the granule's tag when asked -/
  | read (size : Nat) (tagged : Bool)
  /-- ST, STC, stream append: bytes and the tag to write -/
  | write (bytes : List Byte) (tag : Bool) (append : Bool)
  /-- a full/empty operation with its operand -/
  | fe (op : FeOp) (v : Word)
  /-- AMO or RED: operation, operand width in bytes, operand, compare value -/
  | amo (op : AmoOp) (n : Nat) (b c : Word) (red : Bool)
  /-- MARM: line index -/
  | arm (index : Nat)
  /-- SEND: mailbox and words -/
  | message (mb : Nat) (words : List Word)
  /-- instruction fetch of a 32-byte block -/
  | fetch
  /-- QPOOL: the new pair, or none for a read -/
  | qpool (new? : Option (Word × Word))
  /-- QSTAT and QNODE, which the quadtree engine of the die answers (R309, R310) -/
  | qstat
  | qnode (w : QWalk)
  /-- a packet of an MDRAIN: bytes with the selected dwords, or the wake-up fill -/
  | drain (bytes : List Byte) (sel : List Bool) (last : Bool) (wake : Bool)
  /-- an engine's empty-marks of words of one 64-byte block, by offset -/
  | mark (offs : List Nat)
  /-- an engine's element read -/
  | engRead (size : Nat)
  /-- an engine's element write, the words that it completes, and whether it is made in every replica (R399) -/
  | engWrite (bytes : List Byte) (fill : List Nat) (mirror : Bool)
  /-- access to control space by a system core (R430) -/
  | control (wr : Option Word)
  deriving DecidableEq, Repr

/-- What befalls the hardware: a memory error that strikes, in one bit or in more (R189, R271, R352, R379, R424), a fabric lane whose eye
margin falls short (R424), a page of host memory that answers no more or again (R204), and the monitor core's ring that loses records or has room again (R374). -/
inductive Mishap where
  /-- word of a tile's scratchpad -/
  | spad (u word : Nat) (single : Bool)
  /-- cell of an accumulator unit of a tile -/
  | acc (u unit cell : Nat) (single : Bool)
  /-- cell of a bank of a die's felting array -/
  | felting (die cell : Nat) (single : Bool)
  /-- dword of DRAM -/
  | dram (dword : Nat)
  /-- corrected error of DRAM of a die, at a place: a channel, bank and row (R424) -/
  | dramSoft (die place : Nat)
  /-- eye-margin sample below the limit, of a lane of a fabric port (R424) -/
  | eyeMargin (port lane : Nat)
  /-- page of 4 KiB of the host bus -/
  | host (page : Nat) (bad : Bool)
  /-- the monitor core's ring -/
  | ring (full : Bool)
  deriving DecidableEq, Repr

/-- Who waits for the answer of a packet. -/
inductive Owner where
  /-- the thread that issued it, by its key -/
  | thread (t : Nat)
  /-- a journal entry of a unit -/
  | journal (u e : Nat)
  /-- an instruction-cache miss of a unit -/
  | icache (u : Nat)
  /-- the copy engine of a unit: number of the element in flight -/
  | copy (u n : Nat)
  /-- the empty-marks of an engine command that a thread issues -/
  | marks (t : Nat)
  /-- nobody -/
  | nobody
  deriving DecidableEq, Repr

/-- Where a packet is. -/
inductive Stage where
  /-- in the form-window queue of its tile (R115) -/
  | queued
  /-- on the way to its target -/
  | flying
  /-- joined to a walk of its home station (R200) -/
  | walking
  /-- in the reservation queue of its location (R168), the physical place decided -/
  | reserved
  /-- held as a remote waiter at the port (R161) -/
  | waiting
  /-- its answer is on the way back -/
  | answered
  /-- its answer waits in the answering tile's form-window queue -/
  | replyQueued
  /-- will never be answered -/
  | dead
  deriving DecidableEq, Repr

/-- The target of a packet: a tile, or the home station of a GLOBAL access. -/
inductive Target where
  | tile (u : Nat)
  | station (s : Nat)
  deriving DecidableEq, Repr

/-- A request or its answer on the far net. -/
structure Packet where
  id : Nat := 0
  src : Nat := 0
  thread : Nat := 0
  owner : Owner := .nobody
  req : Req := .mark []
  target : Target := .tile 0
  /-- offset in the target tile, or GLOBAL virtual address -/
  addr : Nat := 0
  /-- the thread's context at issue: partition, PASID, instance, form class, epoch -/
  part : Nat := 31
  pasid : Nat := 0
  inst : Nat := 0
  form : Bool := false
  epoch : Nat := 0
  /-- issued by a system core -/
  sys : Bool := false
  issue : Nat := 0
  /-- the cycle at which its instruction issued: `issue`, but for a message that its journal sends later or again (R173) -/
  born : Nat := 0
  /-- cycle from which the present stage may end; in form class, the cycle at which it ends -/
  due : Nat := 0
  stage : Stage := .flying
  /-- flits still to depart in form class (R115) -/
  flits : Nat := 1
  /-- the cycle of its last departure from a window (R115) -/
  depart : Option Nat := none
  /-- the answer travels back -/
  back : Bool := false
  /-- the physical address once translated, with the node and HOST bit -/
  paddr : Nat := 0
  node : Nat := 0
  host : Bool := false
  answer : Answer := .none
  /-- abandoned by its issuer: the answer is discarded -/
  stale : Bool := false
  deriving DecidableEq, Repr

/-- A near-net value on its way or waiting (R112): the value and the cycle from which it is receivable. -/
structure LinkVal where
  v : Quad := 0
  at? : Nat := 0
  deriving DecidableEq, Repr

/-- One incoming direction of a link (R112): the values, the places taken by instructions that have not sent yet, and the
cycles at which freed places become free. -/
structure LinkQ where
  vals : List LinkVal := []
  taken : Nat := 0
  freeing : List Nat := []
  /-- the matrix engine holds the receive direction (R257) -/
  engine : Bool := false
  deriving DecidableEq, Repr

/-- A mailbox (R171). -/
structure Mailbox where
  on : Bool := false
  base : Nat := 0
  size : Nat := 0
  tail : Nat := 0
  deriving DecidableEq, Repr

/-- States of a journal entry (R367). -/
inductive JState where
  | free
  | pending
  | retrying
  | refused
  deriving DecidableEq, Repr

/-- A posted-store journal entry (R367) with the data it holds. -/
structure JEntry where
  addr : Word := 0
  cause : Nat := 0
  state : JState := .free
  space : Nat := 0
  kind : Nat := 0
  slot : Nat := 0
  op : Nat := 0
  len : Nat := 0
  issue : BitVec 32 := 0
  /-- the held operation -/
  req : Option Req := none
  thread : Nat := 0
  inst : Nat := 0
  /-- resends made (R173), and the cycle of the next one -/
  tries : Nat := 0
  again : Nat := 0
  /-- packets of an MDRAIN not yet acknowledged, and its wake-up fill while that is not sent: the place and the epoch -/
  left : Nat := 0
  wake : Option (Nat × Nat) := none
  /-- not yet departed when the tile was saved (R379) -/
  unsent : Bool := false
  /-- the cycle at which its instruction issued, kept by a resend (R173, R224) -/
  born : Nat := 0
  deriving DecidableEq, Repr

/-- An instruction-cache block (R207): virtual address, PASID (partition and PASID together) and its 32 bytes. -/
structure CacheBlock where
  va : Nat := 0
  ctx : Nat := 0
  bytes : List Byte := []
  deriving DecidableEq, Repr

/-- The place of a gang on its tile (R122, R134). -/
structure Gang where
  inst : Nat := 0
  sheet : Nat := 0
  ridx : Nat := 0
  fx : Nat := 0
  fy : Nat := 0
  ctx : Nat := 0
  /-- bound slots and the slots whose shares and areas form the footprint, as masks -/
  bind : BitVec 16 := 0
  foot : BitVec 16 := 0
  areas : BitVec 16 := 0
  /-- STATUS.CHK of the gang, and the value that checks and shadow updates follow, which is one cycle later (R25) -/
  chk : Bool := false
  chkLive : Bool := false
  acct : Nat := 0
  form : Bool := false
  gangPhase : Nat := 0
  fieldPhase : Nat := 0
  deriving DecidableEq, Repr

/-! ### Tile engines -/

/-- A multiply command (R260): the activation format, the SUB code, the source kind, the pieces of scratchpad that hold the
rows, the row count, WIDE, the accumulator tile, the masks, the indices of MMAS with its pattern, and the source link. -/
structure MxMul where
  f : Fmt := .f32
  kind : Nat := 0
  src : Nat := 0
  chunks : List (Nat × Nat) := []
  m : Nat := 16
  wide : Bool := false
  acc : Nat := 0
  rmask : BitVec 16 := 0xFFFF
  cmask : BitVec 16 := 0xFFFF
  dmask : BitVec 16 := 0xFFFF
  idx : List Nat := []
  pat : Option Pat := none
  link : Option Link := none
  deriving DecidableEq, Repr

/-- What a matrix command does (R259 to R270). -/
inductive MxOp where
  | load (f : Fmt) (transposed : Bool) (rows : List Nat) (rowBytes : Nat)
  | mul (x : MxMul)
  | zero (first count : Nat)
  | macc (f : Fmt) (sub : Nat) (td ta tb : Nat) (s : Word)
  | acld (f : Fmt) (rows : List Nat) (tile : Nat)
  | acst (f : Fmt) (rows : List Nat) (tile : Nat) (rmask cmask : BitVec 16)
  | drain (f : Fmt) (dest wakeOff tile : Nat) (rmask cmask : BitVec 16) (entry : Nat)
  deriving DecidableEq, Repr

/-- A matrix command (R236). -/
structure MxCmd where
  op : MxOp
  thread : Nat := 0
  epoch : Nat := 0
  /-- the cycle at which the command started, once it has -/
  start : Option Nat := none
  /-- its occupancy in cycles, fixed at the start and grown by waits for link values (R257) -/
  dur : Nat := 0
  /-- link values taken so far (R257) -/
  took : List Quad := []
  /-- the operand bytes read at the start (R238) -/
  data : List Byte := []
  deriving DecidableEq, Repr

/-- A transfer of MMAR (R246): values still to send west and north, and values received from east and south. -/
structure MxTransfer where
  actLeft : List Quad := []
  wgtLeft : List Quad := []
  fmt : Fmt := .f32
  actGot : List Quad := []
  wgtGot : List Quad := []
  /-- the blocks received stand in the shadow buffers -/
  landed : Bool := false
  deriving DecidableEq, Repr

/-- A buffer that MMAR fills for a later `shadow` source (R246, R258). -/
structure MxShadow where
  act : List Byte := []
  wgt : List Byte := []
  fmt : Fmt := .f32
  full : Bool := false
  deriving DecidableEq, Repr

/-- The rotation of blocks between neighbours (R246, R263): the transfers, the first one running, the shadow buffers, and the
sizes of the blocks on their way from the east and, with their formats, from the south. -/
structure MxRot where
  transfers : List MxTransfer := []
  shadow : MxShadow := {}
  actIn : List Nat := []
  wgtIn : List (Fmt × Nat) := []
  deriving DecidableEq, Repr

/-- A row of an ACST on its way to scratchpad (R239): the words with their data, and in form class the cycle of the fill. -/
structure MxFill where
  row : Nat := 0
  thread : Nat := 0
  epoch : Nat := 0
  words : List (Nat × Word) := []
  due : Option Nat := none
  deriving DecidableEq, Repr

/-- The matrix engine of a tile (R231 to R247). -/
structure Matrix where
  /-- cell n of tile t at 256 * t + n, as 32 bits (R190) -/
  cells : Sparse (BitVec 32) := []
  /-- errors in the memory of the cells, as for the words of a tile (R189) -/
  bad : Sparse (BitVec 2) := []
  /-- owner tag of units 0 to 256 and their SAVED bits (R244, R384) -/
  owner : Sparse (BitVec 16) := []
  saved : Sparse Bool := []
  latch : Option (List Byte) := none
  fmt : Fmt := .i8
  queue : List MxCmd := []
  rot : MxRot := {}
  fills : List MxFill := []
  deriving DecidableEq, Repr

/-- An element of the copy engine in flight (R322): its own number, the command's, its place in odometer order, the cycle of its
issue, its bytes once they are read, and in form class the cycle from which it may land (R323). -/
structure CopyElt where
  n : Nat := 0
  no : Nat := 0
  k : Nat := 0
  issue : Nat := 0
  bytes : List Byte := []
  due : Nat := 0
  ready : Bool := false
  /-- its write is on the net -/
  sent : Bool := false
  deriving DecidableEq, Repr

/-! ### Tiles -/

/-- A gang that has been pre-empted, with what is saved of it outside memory (R376, R377). -/
structure Saved where
  gang : Gang := {}
  threads : List (Nat × Thread) := []
  links : Vector LinkQ 4 := Vector.replicate 4 {}
  mail : Vector Mailbox 4 := Vector.replicate 4 {}
  journal : List JEntry := []
  queue : List MxCmd := []
  rot : MxRot := {}
  copies : List CopyCmd := []
  copyElts : List CopyElt := []
  indexes : List IxCmd := []
  sent : Nat := 0
  recv : Nat := 0
  ready : Bool := false
  /-- the cycle at which its restore, once begun, ends (R381) -/
  due : Option Nat := none
  deriving DecidableEq, Repr

/-- A breakpoint (R413). -/
structure BreakPt where
  slot : Option Nat := none
  pc : Word := 0
  deriving DecidableEq, Repr

/-- A watchpoint (R413). -/
structure WatchPt where
  base : Nat := 0
  size : Nat := 0
  rd : Bool := false
  wr : Bool := false
  deriving DecidableEq, Repr

/-- The event logic of a tile (R416 to R419). -/
structure Events where
  freeze : Bool := false
  defs : Vector Word 8 := Vector.replicate 8 0
  hedge : Word := 0
  cnt : Vector Word 8 := Vector.replicate 8 0
  hist : Vector Word 8 := Vector.replicate 8 0
  rdyh : Vector Word 17 := Vector.replicate 17 0
  /-- raw signals of the present cycle (R418) -/
  raw : BitVec 16 := 0
  /-- derived events of the last cycle, EDGE inputs of the last cycle, length of the open run, turns ISSUED in the present
  rotation -/
  prev : BitVec 8 := 0
  prevIn : BitVec 8 := 0
  run : Nat := 0
  issued : Nat := 0
  /-- definitions written in the present cycle, which count from the next on (R421) -/
  newDefs : BitVec 8 := 0
  deriving DecidableEq, Repr

/-- A tile, or the part of a system core that its journal and code fetch need. -/
structure Tile where
  spad : Memory := []
  /-- words that are empty: word number and true (R186) -/
  empty : Sparse Bool := []
  /-- capability tag of granule n (R23) -/
  tags : Sparse Bool := []
  /-- shadow state of word n (R186) -/
  shadow : Sparse (BitVec 12) := []
  /-- owner context of page p (R378) -/
  pages : Sparse Nat := []
  /-- errors in the memory of word n (R189): 1 in one bit, corrected on every read; 2 or 3 in more -/
  bad : Sparse (BitVec 2) := []
  /-- waiting queue of each full/empty word, oldest first (R161) -/
  feq : Sparse (List FeWaiter) := []
  gang : Option Gang := none
  /-- the tile is being saved (R375) -/
  saving : Option Nat := none
  saved : List Saved := []
  mx : Matrix := {}
  icache : List CacheBlock := []
  locked : List Byte := []
  lockVa : Option (Nat × Nat) := none
  journal : Sparse JEntry := []
  links : Vector LinkQ 4 := Vector.replicate 4 {}
  mail : Vector Mailbox 4 := Vector.replicate 4 {}
  copies : List CopyCmd := []
  copyElts : List CopyElt := []
  indexes : List IxCmd := []
  sent : Nat := 0
  recv : Nat := 0
  /-- threads that have arrived at the network interface and wait for a guest slot or journal entries, oldest first (R206) -/
  arrivals : List Nat := []
  fenced : Bool := false
  /-- a fence waits for the gang on the tile to retire (R426) -/
  fenceAsk : Bool := false
  /-- partition that the tile belongs to -/
  part : Option Nat := none
  bps : Vector (Option BreakPt) 8 := Vector.replicate 8 none
  wps : Vector (Option WatchPt) 4 := Vector.replicate 4 none
  ev : Events := {}
  /-- what WRREG has added to CYCLE and TSTAMP of the tile (R411) -/
  cycleOff : Word := 0
  stampOff : Word := 0
  /-- next record sequence number (R374) -/
  seq : BitVec 32 := 0
  /-- link values discarded at retirement in the present cycle (R113) -/
  discarded : Bool := false
  deriving DecidableEq, Repr

/-! ### Die engines -/

/-- A quadtree command (R299). -/
structure QtCmd where
  op : Nat := 0
  tile : Nat := 0
  thread : Nat := 0
  inst : Nat := 0
  sheet : Nat := 0
  block : Nat := 0
  params : List Word := []
  fmt : Fmt := .f32
  rm : Rm := .rne
  tree : Val := {}
  pool : Option Val := none
  deadline : Word := 0
  late : Bool := false
  part : Nat := 31
  pasid : Nat := 0
  form : Bool := false
  epoch : Nat := 0
  /-- issued by the leader for every replica (R399) -/
  lead : Bool := false
  fromRestore : Bool := false
  deriving DecidableEq, Repr

/-- A node of a tree as a command names it: a record's address, the quadrants taken of it by views (R281), and whether its
transpose is meant. -/
structure QRef where
  node : Word := 0
  path : List Nat := []
  trans : Bool := false
  deriving DecidableEq, Repr

/-- What a quadtree command has still to do: nodes of the result by their records, vectors by their addresses. -/
inductive QTask where
  /-- C ← C ± A·B (R280): whether it is the first and the last to reach the leaves of C, whether it counts (R285), and whether
  only the lower triangle of C is taken (R305) -/
  | prod (a b : QRef) (c : Word) (first last neg count low : Bool)
  /-- C ← C + A (R303) -/
  | add (a : QRef) (c : Word)
  /-- a copy in a format (R304) -/
  | conv (a : QRef) (dst : Word) (f : Fmt) (rm : Rm) (dense : Bool)
  /-- take the scale of the pivots of a tree (R291) and factorise it -/
  | factorise (c : Word) (lu : Bool)
  /-- factorise a block on the diagonal, from a global row on -/
  | factor (c : Word) (lu : Bool) (row : Nat)
  /-- B ← op(T)⁻¹·B, or B·op(T)⁻¹ when `right` (R306): whether its products count (R285), and whether none has reached B yet -/
  | trsm (t : QRef) (b : Word) (upper unit right count first : Bool)
  /-- out ← out ± A·v on segments of vectors (R308), from row and column of A on; in a `sum` the first contribution to an element is
  the element -/
  | mv (a : QRef) (v out : Word) (neg sum : Bool) (row col : Nat)
  /-- v ← op(T)⁻¹·v on a segment -/
  | tsv (t : QRef) (v : Word) (upper unit : Bool)
  /-- a step of a solver between its leaf operations -/
  | stage (n : Nat)
  deriving DecidableEq, Repr

/-- The running part of a quadtree command: the hood fields of R287, and what the engine keeps beside them. -/
structure QtRun where
  tasks : List QTask := []
  seq : Nat := 0
  iter : Nat := 0
  piv : Nat := 0
  pivlog : List Nat := []
  best : Word := 0
  /-- pivot scale as m * 2^e, or infinite, and FP64 codes of r·z and of the norm of b -/
  scaleM : Nat := 0
  scaleE : Int := 0
  scaleInf : Bool := false
  rz : Word := 0
  bnorm : Word := 0
  deadline : Word := 0
  /-- the deadline had passed at issue (R292) -/
  late : Bool := false
  /-- iterate 0 has its residual (R292) -/
  begun : Bool := false
  reason : Nat := 0
  closed : Bool := false
  failed : Option (Nat × Word) := none
  parked : Option (Nat × Word) := none
  deriving DecidableEq, Repr

/-- A quadtree engine (R290, R299, R300). -/
structure Quadtree where
  running : Option QtCmd := none
  run : QtRun := {}
  /-- the leaf operation under way: what its commit writes, and the run after it (R288, R289) -/
  next : Option (List (Word × List Byte) × QtRun) := none
  queue : List QtCmd := []
  /-- commands of saved gangs, re-issued at restore (R301) -/
  saved : List QtCmd := []
  deriving DecidableEq, Repr

/-- A cell of the felting array (R341), its couplings as pairs of weight and neighbour. -/
structure FaCell where
  bias : BitVec 16 := 0
  cnt : BitVec 16 := 0
  colour : BitVec 4 := 0
  clamp : Bool := false
  x : Bool := false
  coup : List (BitVec 8 × BitVec 17) := []
  deriving DecidableEq, Repr

/-- A bank of the felting array (R341). An entry that a table does not list is 0. -/
structure FaBank where
  beta : BitVec 16 := 0
  entropy : Bool := false
  seed : Word := 0
  sweepNo : BitVec 40 := 0
  tab0 : List (BitVec 16) := []
  tab1 : List (BitVec 16) := []
  active : Bool := false
  gen : BitVec 32 := 0
  nbr : BitVec 16 := 0
  deriving DecidableEq, Repr

/-- A felting command (R348 to R357). -/
structure FaCmd where
  /-- MAJOR less 0xE0, and F of FAREAD and FASEED -/
  op : Nat := 0
  f : Bool := false
  tile : Nat := 0
  thread : Nat := 0
  inst : Nat := 0
  epoch : Nat := 0
  part : Nat := 31
  pasid : Nat := 0
  lead : Bool := false
  redundant : Bool := false
  /-- physical banks of the partition on the die, by logical number, 16 for one that it has lost, and the logical banks named -/
  map : List Nat := []
  banks : List Nat := []
  first : Nat := 0
  num : Nat := 0
  /-- BETA, SEED or sweep count, colours, counting flag -/
  arg : Word := 0
  k : Nat := 1
  cnt : Bool := false
  area : Val := {}
  /-- offset of the completion word, for the forms that name one -/
  cw : Option Nat := none
  /-- the table bank chosen or latched for each named bank, and for a FASWEEP the GEN that it will carry (R353) -/
  tabs : List Bool := []
  gens : List (BitVec 32) := []
  /-- logical banks that a FASWEEP reads, once fixed (R353) -/
  reads : Option (List Nat) := none
  /-- the cycle from which no conflict stands, the cycle from which it counts as started, and while its gang is saved the cycles
  that it has run -/
  clear : Option Nat := none
  start : Option Nat := none
  ran : Nat := 0
  /-- the bytes read at the start, and the sweeps or cells that they allow -/
  bytes : List Byte := []
  good : Nat := 0
  failed : Option (Nat × Word) := none
  /-- its gang is saved (R356), and it has ended meanwhile -/
  held : Bool := false
  ended : Bool := false
  /-- its instance is aborted: it stops, and none of its fills is delivered (R356) -/
  dropped : Bool := false
  deriving DecidableEq, Repr

/-- A felting array (R340). -/
structure Felting where
  banks : Sparse FaBank := []
  cells : Sparse FaCell := []
  /-- commands on their way to the array -/
  queue : List FaCmd := []
  /-- commands in array order, with their numbers -/
  running : List (Nat × FaCmd) := []
  next : Nat := 0
  /-- errors in the memory of the cells, as for the words of a tile (R352) -/
  bad : Sparse (BitVec 2) := []
  deriving DecidableEq, Repr

/-! ### Stations -/

/-- A cached translation (R200): the context (partition, PASID), the level, the page's virtual number and its leaf. -/
structure TlbEntry where
  ctx : Nat := 0
  level : Nat := 0
  vpn : Nat := 0
  leaf : Word := 0
  deriving DecidableEq, Repr

/-- A walk in progress (R200): its context and virtual address, and whether an invalidation has begun since (R201). -/
structure Walk where
  ctx : Nat := 0
  va : Nat := 0
  noCache : Bool := false
  deriving DecidableEq, Repr

/-- A memory station (R194). -/
structure Station where
  tlb : List TlbEntry := []
  walks : List Walk := []
  ring : Sparse Quad := []
  ringHead : BitVec 12 := 0
  rovf : BitVec 32 := 0
  lost : Bool := false
  deriving DecidableEq, Repr

/-! ### Scheduler -/

/-- A sheet of an instance that has been placed (R132): its number and the tiles of each replica, row by row. -/
structure Sheet where
  no : Nat := 0
  tiles : List (List Nat) := []
  /-- idle at the last sample (R140) -/
  idle : Bool := false
  ended : Bool := false
  /-- dispatch cycle of a form sheet not yet dispatched (R133) -/
  dispatch : Option Nat := none
  deriving DecidableEq, Repr

/-- An instance (R131). DEDUCED, log entry 33. -/
structure Inst where
  id : Nat := 0
  die : Nat := 0
  win : Nat := 0
  pasid : Nat := 0
  part : Nat := 0
  tag : BitVec 32 := 0
  node : Nat := 0
  nbase : Nat := 0
  ncount : Nat := 0
  recw : List Word := []
  args : List Val := []
  sheets : List Sheet := []
  /-- sums of SENT and RECV of the sheets that have ended -/
  sentX : Nat := 0
  recvX : Nat := 0
  /-- sums of SENT and RECV at the last sample (R140) -/
  sample : Option (Nat × Nat) := none
  aborted : Bool := false
  deriving DecidableEq, Repr

/-- A launch window (R129, R433). -/
structure Window where
  lpatch : Word := 0
  lcount : BitVec 32 := 0
  wcfg : Word := 0
  deriving DecidableEq, Repr

/-- A partition block (R432). -/
structure Partition where
  pcfg : Word := 0
  tbase : Word := 0
  tlen : Word := 0
  ctxbase : Word := 0
  nctx : Word := 0
  lockva : Word := 0
  lockpasid : Word := 0
  hveclo : Word := 0
  hvechi : Word := 0
  deriving DecidableEq, Repr

/-- A vote of the vote unit (R393): the thread by the key of its leader, the signatures received with the replica's index, the cycle
of the first, and once the vote is decided the late replica whose stop it waits for (R396). -/
structure Vote where
  leader : Nat := 0
  sigs : List (Nat × Word) := []
  first : Nat := 0
  late : Option Nat := none
  deriving DecidableEq, Repr

/-- Values that a leader has produced for its replicas (R399): the leader's key, and the values with their numbers. -/
structure LeaderLog where
  leader : Nat := 0
  vals : List Wide := []
  deriving DecidableEq, Repr

/-- An open debug session (R410): the partitions granted and the thread keys and units it has set things on. -/
structure Session where
  parts : List Nat := []
  deriving DecidableEq, Repr

/-- A reply of the debug port (R410): the header of its message, that is the operation code, the target as a record names it, the
sequence number and the payload length, then the status and the data. -/
structure DbgReply where
  op : Nat := 0
  target : Nat := 0
  seq : BitVec 32 := 0
  len : BitVec 32 := 0
  status : Nat := 0
  data : List Word := []
  deriving DecidableEq, Repr

/-- A fabric port (R431, R437). -/
structure Port where
  lanes : BitVec 8 := 0
  retries : BitVec 32 := 0
  deriving DecidableEq, Repr

/-- The state of the package. -/
structure State where
  /-- package cycle n since reset (R105) -/
  now : Nat := 0
  /-- global timestamp (R4) -/
  tstamp : Word := 0
  power : Bool := true
  /-- what happens at times that the manual does not fix and what the outside does, each with its cycle -/
  inputs : List (Nat × Instr) := []
  /-- slots whose turn in the present cycle is still to come -/
  turns : List Nat := []
  /-- events of the present cycle not yet performed -/
  agenda : List Instr := []
  /-- events of the present cycle that come after the turns of its slots (R161) -/
  late : List Instr := []
  /-- what is still to befall the hardware, each with its cycle (R189, R204, R374) -/
  mishaps : List (Nat × Mishap) := []
  /-- key of the thread that the present instruction belongs to -/
  cur : Nat := 0
  threads : Sparse Thread := []
  tiles : Sparse Tile := []
  pkts : List Packet := []
  nextPkt : Nat := 0
  /-- notices of asynchronous traps on their way to a migrated thread (R362) -/
  notices : List (Nat × PendTrap) := []
  monRegs : List MonReg := []
  /-- trigger notices on their way to the threads that armed the lines (R165) -/
  monNotes : List MonReg := []
  qt : Vector Quadtree 4 := Vector.replicate 4 {}
  fa : Vector Felting 4 := Vector.replicate 4 {}
  /-- parked quadtree commands: the hood as written, and what its engine-private part stands for (R287) -/
  hoods : List (List Byte × QtRun) := []
  stations : Sparse Station := []
  dram : Memory := []
  /-- dwords of DRAM with an uncorrectable error, by number, as a save, a spill or a refill meets them (R379, R386) -/
  dramBad : Sparse Bool := []
  hostMem : Memory := []
  /-- pages of 4 KiB of the host bus that are answered with Unsupported Request or Completer Abort (R204) -/
  hostBad : Sparse Bool := []
  /-- memory of other packages: node * 2^46 + PADDR -/
  foreign : Memory := []
  /-- scheduler memory: 0x20_0000 * die + offset (R126) -/
  nodes : Memory := []
  insts : List Inst := []
  nextInst : Nat := 1
  windows : Sparse Window := []
  parts : Sparse Partition := []
  votes : List Vote := []
  leaderLogs : List LeaderLog := []
  nodeid : BitVec 18 := 0
  sysroot : Word := 0
  scctx : Vector Word 16 := Vector.replicate 16 0x3E000000
  /-- the context under which each core issues: SCCTX once its write is acknowledged (R196) -/
  coreCtx : Vector Word 16 := Vector.replicate 16 0x3E000000
  boot : Nat := 0
  clock : Nat := 2400
  tsync : Bool := false
  /-- TSYNC stays 0 until reset (R439) -/
  tsyncEnded : Bool := false
  lost : Nat := 0
  replace : Bool := false
  invva : Word := 0
  invcnt : Word := 0
  invq : List (Nat × Nat × Nat) := []
  invseq : Word := 0
  thrport : Word := 0
  thrdram : Word := 0
  thrmargin : Word := 0
  fabank : Vector Word 8 := Vector.replicate 8 0xFFFFFFFFFFFFFFFF
  ports : Vector Port 16 := Vector.replicate 16 {}
  /-- fabric route table, by node: an unlisted byte is 0xFF (R438) -/
  routes : Sparse Byte := []
  /-- MSI-X vectors signalled (R139) -/
  msix : Sparse Nat := []
  /-- completions of reads made by the host (R435): none for Unsupported Request or Completer Abort -/
  hostReads : List (Option (List Byte)) := []
  doorbell : Word := 0
  doorbells : Nat := 0
  /-- records of the monitor core, oldest first (R372), and those lost -/
  records : List (BitVec 256) := []
  recordsLost : Nat := 0
  /-- the ring has no room: a record is lost (R374) -/
  ringFull : Bool := false
  quarterSeq : Vector (BitVec 32) 4 := Vector.replicate 4 0
  session : Option Session := none
  /-- the sequence numbers and payload lengths of the client's messages that are still to come (R410) -/
  dbgMsgs : List (BitVec 32 × BitVec 32) := []
  dbgReplies : List DbgReply := []
  /-- predictive counters by place (R424) -/
  predict : Sparse Nat := []
  /-- counter of free values -/
  fresh : Nat := 0
  /-- number of the next copy or index command, or element in flight -/
  nextCmd : Nat := 0
  /-- the cycle of the last sample of the AND tree (R140) -/
  lastSample : Option Nat := none
  /-- the module lost power by THERMAL_TRIP before this boot (R440) -/
  tripped : Bool := false
  deriving DecidableEq, Repr

/-- The package right after power-on reset: no thread runs, every agent is idle, BOOT is 0 (R436), CLOCK is 2,400 MHz (R4)
and every SCCTX holds PART 31 (R196). The registers to which the manual gives no reset value hold 0 (DESIGN CHOICE, log entry 1). -/
def State.reset : State := {}

end Sys2Proof.Machine
end

