-- ==== Sys2Proof/Machine/Access.lean ====
section
/-! DEFINITION. Reading and writing parts of the state: threads, tiles, stations, and where they lie (R5, R110, R111). -/

namespace Sys2Proof.Machine

/-- The outcome type of a step. -/
abbrev Out := Host.Outcome State Fault Refusal

/-! ### Threads and tiles -/

/-- The slot of key `t` and the thread it holds. -/
def State.th (s : State) (t : Nat) : Thread := Sparse.get {} s.threads t
/-- Put a thread at key `t`. -/
def State.setTh (s : State) (t : Nat) (x : Thread) : State := { s with threads := Sparse.set {} s.threads t x }
/-- Change the thread at key `t`. -/
def State.modTh (s : State) (t : Nat) (f : Thread → Thread) : State := s.setTh t (f (s.th t))
/-- The thread of the present instruction. -/
def State.me (s : State) : Thread := s.th s.cur
/-- Change the thread of the present instruction. -/
def State.modMe (s : State) (f : Thread → Thread) : State := s.modTh s.cur f
/-- Change the architectural state of the thread of the present instruction. -/
def State.modArch (s : State) (f : Arch → Arch) : State := s.modMe fun x => { x with arch := f x.arch }
/-- Unit `u`. -/
def State.tile (s : State) (u : Nat) : Tile := Sparse.get {} s.tiles u
/-- Put a tile at unit `u`. -/
def State.setTile (s : State) (u : Nat) (x : Tile) : State := { s with tiles := Sparse.set {} s.tiles u x }
/-- Change unit `u`. -/
def State.modTile (s : State) (u : Nat) (f : Tile → Tile) : State := s.setTile u (f (s.tile u))
/-- Station j of die d, at key 24 * d + j. -/
def State.station (s : State) (k : Nat) : Station := Sparse.get {} s.stations k
/-- Change a station. -/
def State.modStation (s : State) (k : Nat) (f : Station → Station) : State :=
  { s with stations := Sparse.set {} s.stations k (f (s.station k)) }
/-- Launch window `v`. -/
def State.window (s : State) (v : Nat) : Window := Sparse.get {} s.windows v
/-- Change a window. -/
def State.modWindow (s : State) (v : Nat) (f : Window → Window) : State :=
  { s with windows := Sparse.set {} s.windows v (f (s.window v)) }
/-- Partition block `p`. -/
def State.partn (s : State) (p : Nat) : Partition := Sparse.get {} s.parts p
/-- Change a partition block. -/
def State.modPart (s : State) (p : Nat) (f : Partition → Partition) : State :=
  { s with parts := Sparse.set {} s.parts p (f (s.partn p)) }

/-- What no instruction and no event but CYCLE and reset changes: the package clock, the rotation and the power (R105). -/
def State.keep (s s' : State) : State :=
  { s' with now := s.now, tstamp := s.tstamp, power := s.power, turns := s.turns, inputs := s.inputs }

/-- The outcome of an instruction or event: the next state, on an unchanged clock. -/
def fin (s s' : State) : Out := .next (s.keep s')

/-! ### Places -/

/-- The unit of a thread key. -/
def unitOf (t : Nat) : Nat := t / 16
/-- The slot of a thread key. -/
def slotOf (t : Nat) : Nat := t % 16
/-- System cores are units 576 and up. DEDUCED, log entry 9. -/
def isSys (u : Nat) : Bool := 576 ≤ u
/-- The quarter of a unit. -/
def dieOf (u : Nat) : Nat := if u < 576 then u / 144 else (u - 576) / 4
/-- Tile column within the die (R5). -/
def xOf (u : Nat) : Nat := if u < 576 then u % 144 % 12 else 0
/-- Tile row within the die (R5). -/
def yOf (u : Nat) : Nat := if u < 576 then u % 144 / 12 else 0
/-- The tile at (x, y) of a die (R5). -/
def tileAt (die x y : Nat) : Nat := 144 * die + 12 * y + x
/-- Package column (R111). -/
def pxOf (u : Nat) : Nat := xOf u + 12 * (dieOf u % 2)
/-- Package row (R111). -/
def pyOf (u : Nat) : Nat := yOf u + 12 * (dieOf u / 2)
/-- The tile at package coordinates. -/
def tileAtP (px py : Nat) : Nat := tileAt (px / 12 + 2 * (py / 12)) (px % 12) (py % 12)
/-- Distance of two numbers. -/
def dist (a b : Nat) : Nat := (a - b) + (b - a)
/-- Hops between two tiles (R111). -/
def hops (a b : Nat) : Nat := dist (pxOf a) (pxOf b) + dist (pyOf a) (pyOf b)
/-- Die crossings between two quarters (R111). -/
def crossings (d e : Nat) : Nat := dist (d % 2) (e % 2) + dist (d / 2) (e / 2)
/-- The leader tile of a tile's cluster (R110). -/
def leaderOf (u : Nat) : Nat := tileAt (dieOf u) (xOf u / 2 * 2) (yOf u / 2 * 2)
/-- The tiles of a tile's cluster (R5). -/
def sameCluster (a b : Nat) : Bool := leaderOf a = leaderOf b

/-! ### Bit fields -/

/-- Bits [hi:lo] of a 64-bit word as a number. -/
def bits (w : Word) (hi lo : Nat) : Nat := w.toNat / 2 ^ lo % 2 ^ (hi - lo + 1)
/-- Bit `n` of a word. -/
def bit (w : Word) (n : Nat) : Bool := w.getLsbD n
/-- One bit as a number. -/
def b2n (b : Bool) : Nat := if b then 1 else 0
/-- SignExtend of the low `n` bits of a number (R10). -/
def sext (x n : Nat) : Int := if x % 2 ^ n < 2 ^ (n - 1) then (x % 2 ^ n : Nat) else (x % 2 ^ n : Nat) - (2 ^ n : Nat)
/-- A 64-bit word from an integer, modulo 2^64. -/
def wordOf (x : Int) : Word := BitVec.ofInt 64 x
/-- 64-bit result: bits [127:64] and the tag are zero (R15). -/
def val64 (w : Word) : Val := { data := w.zeroExtend 128, tag := false }
/-- 128-bit result: tag 0 (R15). -/
def val128 (q : Quad) : Val := { data := q, tag := false }
/-- Bits [63:0] of a value. -/
def Val.lo (v : Val) : Word := v.data.extractLsb' 0 64
/-- Bits [127:64] of a value. -/
def Val.hi (v : Val) : Word := v.data.extractLsb' 64 64

/-- STATUS as SRD reads it (R24), with the gang's CHK. -/
def Status.word (x : Status) (chk : Bool) : Word :=
  BitVec.ofNat 64 (x.rlevel.toNat * 2 ^ 22 + x.ridx.toNat * 2 ^ 20 + x.pri.toNat * 2 ^ 16 + b2n x.guest * 2 ^ 15
    + b2n x.following * 2 ^ 14 + b2n chk * 2 ^ 13 + b2n x.form * 2 ^ 12 + x.pmode.toNat * 2 ^ 6 + b2n x.pie * 2 ^ 5
    + b2n x.ie * 2 ^ 4 + b2n x.dbg * 2 ^ 3 + x.mode.toNat)

/-- Put a word into STATUS, every field written (restore and WRREG). -/
def Status.ofWord (w : Word) : Status :=
  { rlevel := w.extractLsb' 22 2, ridx := w.extractLsb' 20 2, pri := w.extractLsb' 16 2, guest := bit w 15,
    following := bit w 14, form := bit w 12, pmode := w.extractLsb' 6 2, pie := bit w 5, ie := bit w 4, dbg := bit w 3,
    mode := w.extractLsb' 0 2 }

/-! ### Cause codes (R360) -/

namespace Cause
/-- ILLEGAL_LEN -/ def illegalLen : Nat := 0x01
/-- ILLEGAL_OPCODE -/ def illegalOpcode : Nat := 0x02
/-- ILLEGAL_OPERAND -/ def illegalOperand : Nat := 0x03
/-- PRIVILEGE -/ def privilege : Nat := 0x04
/-- TRAP -/ def trap : Nat := 0x05
/-- BREAK -/ def brk : Nat := 0x06
/-- CAP_TAG -/ def capTag : Nat := 0x10
/-- CAP_BOUNDS -/ def capBounds : Nat := 0x11
/-- CAP_PERM -/ def capPerm : Nat := 0x12
/-- ALIGN -/ def align : Nat := 0x13
/-- PAGE_FAULT -/ def pageFault : Nat := 0x20
/-- ACCESS -/ def access : Nat := 0x21
/-- REMOTE_REFUSED -/ def remoteRefused : Nat := 0x22
/-- MBOX_FULL -/ def mboxFull : Nat := 0x23
/-- LINK_EMPTY -/ def linkEmpty : Nat := 0x30
/-- TIMING_DEVIATION -/ def timingDeviation : Nat := 0x31
/-- RACE -/ def race : Nat := 0x32
/-- LINK_FULL -/ def linkFull : Nat := 0x33
/-- ACC_OWNER -/ def accOwner : Nat := 0x40
/-- MX_META -/ def mxMeta : Nat := 0x41
/-- MX_FORMAT -/ def mxFormat : Nat := 0x42
/-- QPOOL -/ def qpool : Nat := 0x50
/-- QSHAPE -/ def qshape : Nat := 0x51
/-- IX_SCATTER_ADD_IN_REGION -/ def ixScatterAdd : Nat := 0x58
/-- FA_CONFIG -/ def faConfig : Nat := 0x60
/-- RED_MISMATCH -/ def redMismatch : Nat := 0x70
/-- RED_RESYNC -/ def redResync : Nat := 0x71
/-- DOUBLE_FAULT -/ def doubleFault : Nat := 0x7F
/-- PREEMPT -/ def preempt : Nat := 0x80
/-- TIMER -/ def timer : Nat := 0x81
/-- DEBUG_HALT -/ def debugHalt : Nat := 0x82
end Cause

end Sys2Proof.Machine
end

