-- ==== Sys2Proof/Machine/Cap.lean ====
section
/-! DEFINITION. Capabilities: their fields, bounds and checks (R16 to R20, R79). -/

namespace Sys2Proof.Machine

/-- The address field. -/
def Val.addr (c : Val) : Word := c.lo
/-- PERM, bits [71:64] (R17). -/
def Val.perm (c : Val) : BitVec 8 := c.data.extractLsb' 64 8
/-- SPACE, bits [73:72]: 0 LOCAL, 1 TILE, 2 GLOBAL. -/
def Val.space (c : Val) : Nat := (c.data.extractLsb' 72 2).toNat
/-- E, bits [79:74]. -/
def Val.capE (c : Val) : Nat := (c.data.extractLsb' 74 6).toNat
/-- B, bits [93:80]. -/
def Val.capB (c : Val) : Nat := (c.data.extractLsb' 80 14).toNat
/-- T, bits [107:94]. -/
def Val.capT (c : Val) : Nat := (c.data.extractLsb' 94 14).toNat
/-- Bits [127:108], reserved. -/
def Val.resv (c : Val) : Nat := (c.data.extractLsb' 108 20).toNat

/-- PERM bit R. -/ def permR : BitVec 8 := 1
/-- PERM bit W. -/ def permW : BitVec 8 := 2
/-- PERM bit X. -/ def permX : BitVec 8 := 4
/-- PERM bit LC. -/ def permLC : BitVec 8 := 8
/-- PERM bit SC. -/ def permSC : BitVec 8 := 16
/-- PERM bit MIGR. -/ def permMIGR : BitVec 8 := 32
/-- PERM bit SYS. -/ def permSYS : BitVec 8 := 64
/-- PERM bit FORM. -/ def permFORM : BitVec 8 := 128

/-- Every right of `p` is in the capability. -/
def Val.has (c : Val) (p : BitVec 8) : Bool := c.perm &&& p = p

/-- The width W of a space (R18). -/
def spaceWidth (sp : Nat) : Nat :=
  match sp with
  | 0 => 20
  | 1 => 30
  | 2 => 57
  | _ => 0

/-- Bounds (R18): start and exclusive end of the window. -/
def bounds (c : Val) : Nat × Nat :=
  if c.space = 3 then (0, 0)
  else if c.capE = 63 then (0, 2 ^ spaceWidth c.space)
  else if 44 ≤ c.capE then (0, 0)
  else
    let base := c.capB * 2 ^ c.capE
    let top := min (c.capT * 2 ^ c.capE) (2 ^ spaceWidth c.space)
    if top ≤ base then (0, 0) else (base, top)

/-- The offset of an address in its space, when it has the form of R19. -/
def offsetOf (sp : Nat) (ea : Int) : Option Nat :=
  match sp with
  | 0 => if 0 ≤ ea ∧ ea < 2 ^ 20 then some ea.toNat else none
  | 1 => if 0 ≤ ea ∧ ea < 2 ^ 30 then some ea.toNat else none
  | 2 =>
    if 0 ≤ ea ∧ ea < 2 ^ 56 then some ea.toNat
    else if 2 ^ 64 - 2 ^ 56 ≤ ea ∧ ea < 2 ^ 64 then some (ea.toNat % 2 ^ 57) else none
  | _ => none

/-- CapCheck (R20), with the system core's refusal of LOCAL capabilities (R2): the cause of the first check that fails. -/
def capCheck (c : Val) (ea : Int) (size : Nat) (need : BitVec 8) (form sys : Bool) : Option Nat :=
  if !c.tag then some Cause.capTag
  else if c.resv ≠ 0 ∨ c.space = 3 then some Cause.capTag
  else if sys ∧ c.space = 0 then some Cause.capPerm
  else if !c.has need then some Cause.capPerm
  else if form ∧ c.space ≠ 0 ∧ !c.has permFORM then some Cause.capPerm
  else
    match offsetOf c.space ea with
    | none => some Cause.capBounds
    | some off =>
      if off < (bounds c).1 ∨ (bounds c).2 < off + size then some Cause.capBounds else none

/-- FetchCheck (R31). -/
def fetchCheck (c : Val) (a : Word) (size : Nat) : Option Nat :=
  if !c.tag then some Cause.capTag
  else if c.resv ≠ 0 ∨ c.space = 3 then some Cause.capTag
  else if c.space ≠ 2 then some Cause.capPerm
  else if !c.has permX then some Cause.capPerm
  else
    match offsetOf 2 a.toNat with
    | none => some Cause.capBounds
    | some off =>
      if off < (bounds c).1 ∨ (bounds c).2 < off + size then some Cause.capBounds else none

/-- A capability from its fields (R16), tag 1. -/
def mkCap (sp e b t : Nat) (perm : BitVec 8) (addr : Word) : Val :=
  { data := BitVec.ofNat 128 (addr.toNat + perm.toNat * 2 ^ 64 + sp * 2 ^ 72 + e * 2 ^ 74 + b * 2 ^ 80 + t * 2 ^ 94),
    tag := true }

/-- The capability with its address field replaced; the tag is kept. -/
def Val.withAddr (c : Val) (a : Word) : Val :=
  { data := (c.data.extractLsb' 64 64) ++ a, tag := c.tag }

/-- The capability with its window replaced. -/
def Val.withWindow (c : Val) (e b t : Nat) : Val :=
  { data := (c.data.extractLsb' 108 20 ++ BitVec.ofNat 14 t ++ BitVec.ofNat 14 b ++ BitVec.ofNat 6 e
      ++ c.data.extractLsb' 0 74 : BitVec 128), tag := true }

/-- The smallest exponent from `e` on with both ends in 14 bits (R79); `n` exponents are tried. -/
def fitExp (base top : Nat) : Nat → Nat → Option Nat
  | 0, _ => none
  | n + 1, e =>
    if base / 2 ^ e ≤ 16383 ∧ (top + 2 ^ e - 1) / 2 ^ e ≤ 16383 then some e else fitExp base top n (e + 1)

/-- Exponent, B and T of a window that is exact under the smallest fitting exponent (R79, R134). -/
def exactWindow (base top : Nat) : Option (Nat × Nat × Nat) :=
  match fitExp base top 44 0 with
  | some e =>
    if base % 2 ^ e = 0 ∧ top % 2 ^ e = 0 then some (e, base / 2 ^ e, top / 2 ^ e) else none
  | none => none

/-- A capability with exact bounds, as CSETB.TIGHT derives it (R134). -/
def exactCap (sp : Nat) (perm : BitVec 8) (base top : Nat) (addr : Word) : Val :=
  match exactWindow base top with
  | some (e, b, t) => mkCap sp e b t perm addr
  | none => {}

end Sys2Proof.Machine
end

