-- ==== Sys2Proof/Machine/Mem.lean ====
section
/-! DEFINITION. Bytes of memory, and the scratchpad's bits beside them (R6, R23, R186, R190). -/

namespace Sys2Proof.Machine

/-! ### Byte memories -/

/-- One byte. An address that nothing has written reads 0 (DESIGN CHOICE, log entry 2). -/
def Memory.rd (m : Memory) (a : Nat) : Byte := Sparse.get 0 m a

/-- Write one byte; the canonical form is kept. -/
def Memory.wr (m : Memory) (a : Nat) (b : Byte) : Memory := Sparse.set 0 m a b

/-- The canonical form: addresses rise and no listed byte is 0. -/
def Memory.wf (m : Memory) : Bool := Sparse.wf (0 : Byte) m

/-- `n` bytes from address `a` on. -/
def Memory.rdN (m : Memory) (a : Nat) : Nat → List Byte
  | 0 => []
  | n + 1 => m.rd a :: m.rdN (a + 1) n

/-- Write bytes from address `a` on, the lowest first (R6). -/
def Memory.wrN (m : Memory) (a : Nat) : List Byte → Memory
  | [] => m
  | b :: bs => (m.wr a b).wrN (a + 1) bs

/-- `n` bytes as a number (R6). -/
def Memory.rdLe (m : Memory) (a n : Nat) : Nat := leNat (m.rdN a n)

/-- A dword. -/
def Memory.rdWord (m : Memory) (a : Nat) : Word := BitVec.ofNat 64 (m.rdLe a 8)

/-- Write a dword. -/
def Memory.wrWord (m : Memory) (a : Nat) (w : Word) : Memory := m.wrN a (leBytes 8 w.toNat)

/-! ### Scratchpad -/

/-- The numbers from `k` on, `n` of them. -/
def span (k : Nat) : Nat → List Nat
  | 0 => []
  | n + 1 => k :: span (k + 1) n

/-- The unit numbers of size `z` that `n` bytes from `off` touch. -/
def touched (z off n : Nat) : List Nat := if n = 0 then [] else span (off / z) ((off + n - 1) / z - off / z + 1)

/-- Clear the tags of granules (R23). -/
def clearTags (tags : Sparse Bool) : List Nat → Sparse Bool
  | [] => tags
  | g :: gs => clearTags (Sparse.set false tags g false) gs

/-- Read bytes of a tile's scratchpad. -/
def Tile.rd (x : Tile) (off n : Nat) : List Byte := x.spad.rdN off n

/-- Words that are written hold no error any more (R189). -/
def clearBad (m : Sparse (BitVec 2)) : List Nat → Sparse (BitVec 2)
  | [] => m
  | k :: ks => clearBad (Sparse.set 0 m k 0) ks

/-- Write bytes, clear the tags of the granules they touch (R23), and end the errors of their words (R189). -/
def Tile.wr (x : Tile) (off : Nat) (bs : List Byte) : Tile :=
  { x with
    spad := x.spad.wrN off bs
    tags := clearTags x.tags (touched 16 off bs.length)
    bad := clearBad x.bad (touched 8 off bs.length) }

/-- The capability tag of the granule of an offset. -/
def Tile.tagAt (x : Tile) (off : Nat) : Bool := Sparse.get false x.tags (off / 16)

/-- Set the tag of the granule of an offset (STC, R90). -/
def Tile.setTag (x : Tile) (off : Nat) (b : Bool) : Tile := { x with tags := Sparse.set false x.tags (off / 16) b }

/-- The full/empty bit of the word of an offset. -/
def Tile.full (x : Tile) (off : Nat) : Bool := !Sparse.get false x.empty (off / 8)

/-- Set the full/empty bit of the word of an offset. -/
def Tile.setFull (x : Tile) (off : Nat) (b : Bool) : Tile := { x with empty := Sparse.set false x.empty (off / 8) (!b) }

/-- The 64-bit word of an offset. -/
def Tile.word (x : Tile) (off : Nat) : Word := x.spad.rdWord (off / 8 * 8)

/-- Who writes: for the shadow record (R186), a local slot or a remote writer, with its barrier epoch. DEDUCED, log entry 40. -/
structure Writer where
  remote : Bool := false
  slot : Nat := 0
  epoch : Nat := 0
  deriving DecidableEq, Repr

/-- The shadow record of a writer (R186). -/
def Writer.record (w : Writer) : BitVec 12 :=
  BitVec.ofNat 12 (2048 + b2n w.remote * 1024 + (if w.remote then 0 else w.slot % 16) * 64 + w.epoch % 64)

/-- Put a shadow record on words. -/
def stampWords (m : Sparse (BitVec 12)) (r : BitVec 12) : List Nat → Sparse (BitVec 12)
  | [] => m
  | k :: ks => stampWords (Sparse.set 0 m k r) r ks

/-- The checks and shadow updates of the tile follow checked mode (R25). -/
def Tile.chk (x : Tile) : Bool :=
  match x.gang with
  | some g => g.chkLive
  | none => false

/-- Record a write in the shadow state when the owning gang is in checked mode (R186). DEDUCED, log entry 40. -/
def Tile.stamp (x : Tile) (off n : Nat) (w : Writer) : Tile :=
  if x.chk then { x with shadow := stampWords x.shadow w.record (touched 8 off n) } else x

/-- The shadow record of the word of an offset. -/
def Tile.shadowAt (x : Tile) (off : Nat) : BitVec 12 := Sparse.get 0 x.shadow (off / 8)

/-- A page whose owner's gang is saved on the tile is held (R378). -/
def Tile.heldPage (x : Tile) (off : Nat) : Bool :=
  let o := Sparse.get 0 x.pages (off / 4096)
  o ≠ 0 && x.saved.any (fun v => v.gang.ctx = o)

/-- Some page that the bytes touch is held. -/
def Tile.heldAny (x : Tile) (off n : Nat) : Bool := (touched 4096 off n).any (fun p => x.heldPage (4096 * p))

/-- Set a raw signal of the tile's event logic for the present cycle (R418). -/
def Tile.signal (x : Tile) (n : Nat) : Tile :=
  { x with ev := { x.ev with raw := x.ev.raw ||| (1 : BitVec 16) <<< n } }

end Sys2Proof.Machine
end

