-- ==== Sys2Proof/Machine/Ops.lean ====
section
/-! DEFINITION. Shared operations: NextPC, records, the running signature, taking an exception and returning from one,
near-net links, and the values an instruction holds while it waits. -/

namespace Sys2Proof.Machine

/-- NextPC (R30). -/
def nextPC (a : Word) (n : Nat) : Word :=
  let b := a + BitVec.ofNat 64 n
  if b.toNat % 32 = 28 then b + 4 else b

/-! ### Instances and partitions of units -/

/-- The instance with a number. -/
def State.inst (s : State) (n : Nat) : Option Inst := s.insts.find? (fun i => i.id = n)

/-- CTRL of an instance's record (R128). -/
def Inst.ctrl (i : Inst) : Word := i.recw.getD 0 0
/-- Sheet width. -/
def Inst.w (i : Inst) : Nat := bits i.ctrl 7 0
/-- Sheet height. -/
def Inst.h (i : Inst) : Nat := bits i.ctrl 15 8
/-- Sheets in the run. -/
def Inst.nsheets (i : Inst) : Nat := bits i.ctrl 31 16
/-- Gang size G. -/
def Inst.g (i : Inst) : Nat := bits i.ctrl 39 35 + 1
/-- Stage count S. -/
def Inst.nstage (i : Inst) : Nat := bits i.ctrl 47 40
/-- Checked mode. -/
def Inst.chk (i : Inst) : Bool := bit i.ctrl 48
/-- Guest slots reserved. -/
def Inst.migr (i : Inst) : Bool := bit i.ctrl 49
/-- Gangs may be pre-empted. -/
def Inst.preempt (i : Inst) : Bool := bit i.ctrl 50
/-- Form launch. -/
def Inst.form (i : Inst) : Bool := bit i.ctrl 51
/-- Priority level. -/
def Inst.pri (i : Inst) : Nat := bits i.ctrl 53 52
/-- Redundancy level field. -/
def Inst.rlevel (i : Inst) : Nat := bits i.ctrl 55 54
/-- KIND of the node. -/
def Inst.kind (i : Inst) : Nat := bits i.ctrl 63 60
/-- Number of replicas L (R388). -/
def Inst.replicas (i : Inst) : Nat := if i.rlevel = 2 then 2 else if i.rlevel = 3 then 3 else 1

/-- The placed sheet with a number. -/
def Inst.sheet (i : Inst) (n : Nat) : Option Sheet := i.sheets.find? (fun x => x.no = n)

/-- The tiles of the replica that a gang belongs to. -/
def State.sheetTiles (s : State) (g : Gang) : List Nat :=
  match s.inst g.inst with
  | none => []
  | some i =>
    match i.sheet g.sheet with
    | none => []
    | some x => x.tiles.getD g.ridx []

/-- The partition number in which a unit acts: a tile's own, or that of a system core's context in force (R196); 31 for none. -/
def State.partOf (s : State) (u : Nat) : Nat :=
  if isSys u then bits (s.coreCtx.toList.getD (u - 576) 0) 29 25 else ((s.tile u).part).getD 31

/-- CYCLE of a unit. -/
def State.cycleOf (s : State) (u : Nat) : Word := BitVec.ofNat 64 s.now + (s.tile u).cycleOff

/-- TSTAMP of a unit (R4). -/
def State.stampOf (s : State) (u : Nat) : Word := s.tstamp + (s.tile u).stampOff

/-- The PASID of a thread: its instance's (R195), or its core context's (R196). -/
def State.pasidOf (s : State) (t : Nat) : Nat :=
  if isSys (unitOf t) then bits (s.coreCtx.toList.getD (unitOf t - 576) 0) 19 0
  else
    match s.inst (s.th t).inst with
    | some i => i.pasid
    | none => 0

/-- The gang is the one of an instance's sheet. -/
def Gang.isOf (g : Gang) (inst sheet : Nat) : Bool := decide (g.inst = inst) && decide (g.sheet = sheet)

/-- The gang of a thread: on its home tile, or saved there. -/
def State.gangOf (s : State) (x : Thread) : Option Gang :=
  let y := s.tile (unitOf x.home)
  match y.gang.filter fun g => g.isOf x.inst x.sheet with
  | some g => some g
  | none => (y.saved.map (·.gang)).find? fun g => g.isOf x.inst x.sheet

/-- Change the gang of an instance's sheet on a tile, in place or saved. -/
def State.modGang (s : State) (u inst sheet : Nat) (f : Gang → Gang) : State :=
  s.modTile u fun x =>
    { x with
      gang := x.gang.map fun g => if g.isOf inst sheet then f g else g
      saved := x.saved.map fun v => if v.gang.isOf inst sheet then { v with gang := f v.gang } else v }

/-- STATUS.CHK of a thread: the bit of its gang (R25). -/
def State.chkOf (s : State) (t : Nat) : Bool := ((s.gangOf (s.th t)).map (·.chk)).getD false

/-- L of a thread's instance (R388). -/
def Thread.redundant (x : Thread) : Bool := x.arch.status.rlevel ≠ 0

/-! ### Records (R372 to R374) -/

/-- A record of 32 bytes (R372). -/
def mkRecord (aux pc : Word) (seq : BitVec 32) (cause kind core die y x slot qrec : Nat) (ts : Word) : BitVec 256 :=
  BitVec.ofNat 256 (aux.toNat * 2 ^ 192 + pc.toNat * 2 ^ 128 + seq.toNat * 2 ^ 96 + cause % 256 * 2 ^ 88 + kind * 2 ^ 85
    + core * 2 ^ 84 + die % 4 * 2 ^ 82 + y * 2 ^ 78 + x * 2 ^ 74 + slot * 2 ^ 70 + qrec * 2 ^ 69 + ts.toNat)

/-- A slot or a system core as bits [84:70] of a record name it (R372). -/
def placeCode (t : Nat) : Nat :=
  let u := unitOf t
  if isSys u then 2 ^ 14 + dieOf u % 4 * 2 ^ 12 + (u - 576) % 4 else dieOf u % 4 * 2 ^ 12 + yOf u * 2 ^ 8 + xOf u * 2 ^ 4 + slotOf t

/-- A record reaches the monitor core, or is lost and counted when its ring has no room (R374). -/
def State.putRecord (s : State) (r : BitVec 256) : State :=
  if s.ringFull then { s with recordsLost := s.recordsLost + 1 } else { s with records := s.records ++ [r] }

/-- Send a record of a slot to the monitor core, with the core's next sequence number (R374). -/
def sendRecord (s : State) (t kind cause : Nat) (aux pc : Word) : State :=
  let u := unitOf t
  let r :=
    if isSys u then mkRecord aux pc (s.tile u).seq cause kind 1 (dieOf u) 0 0 ((u - 576) % 4) 0 s.tstamp
    else mkRecord aux pc (s.tile u).seq cause kind 0 (dieOf u) (yOf u) (xOf u) (slotOf t) 0 s.tstamp
  (s.modTile u fun x => { x with seq := x.seq + 1 }).putRecord r

/-- Send a record of a quarter (R372). -/
def sendQuarter (s : State) (die kind cause : Nat) (aux : Word) : State :=
  let q := s.quarterSeq.toList.getD (die % 4) 0
  let r := mkRecord aux 0 q cause kind 0 (die % 4) 0 0 0 1 s.tstamp
  ({ s with quarterSeq := s.quarterSeq.set (die % 4) (q + 1) (Nat.mod_lt _ (by decide)) } : State).putRecord r

/-- KIND values of records (R372). -/
def recTrap : Nat := 0
/-- DOUBLE. -/ def recDouble : Nat := 1
/-- STOP. -/ def recStop : Nat := 2
/-- ORPHAN. -/ def recOrphan : Nat := 3
/-- ERROR. -/ def recError : Nat := 4
/-- COMPLETION. -/ def recCompletion : Nat := 5
/-- PREEMPT. -/ def recPreempt : Nat := 6

/-- The port of a tile has served a remote request in the present cycle (R116): one per cycle. -/
def State.portBusy (s : State) (u : Nat) : Bool := (s.tile u).ev.raw.getLsbD 2

/-! ### Free values -/

/-- A free value, and the state with its counter advanced (DESIGN CHOICE, log entry 7). -/
def State.free (s : State) : Word × State := (Config.freeWord s.fresh, { s with fresh := s.fresh + 1 })

/-- Free values, n of them. -/
def State.frees (s : State) (n : Nat) : List Word × State :=
  ((span s.fresh n).map Config.freeWord, { s with fresh := s.fresh + n })

/-! ### Memory errors (R189, R423, R424) -/

/-- The codes of R360. -/
def causeCodes : List Nat :=
  [0x01, 0x02, 0x03, 0x04, 0x05, 0x06, 0x10, 0x11, 0x12, 0x13, 0x20, 0x21, 0x22, 0x23, 0x30, 0x31, 0x32, 0x33, 0x40, 0x41, 0x42, 0x50,
   0x51, 0x58, 0x60, 0x70, 0x71, 0x7F, 0x80, 0x81, 0x82]

/-- The CAUSE of an ERROR record to which the manual gives none: one of R360, free among them. DESIGN CHOICE, log entry 7. -/
def State.freeCause (s : State) : Nat × State :=
  let r := s.free
  (causeCodes.getD (r.1.toNat % causeCodes.length) Cause.access, r.2)

/-- AUX of an ERROR record (R423): UNIT, SEV, INST, ROW and COL in one number of 38 bits, and COUNT. -/
def errorAux (unit sev place count : Nat) : Word :=
  BitVec.ofNat 64 (unit % 256 * 2 ^ 56 + sev % 4 * 2 ^ 54 + place % 2 ^ 38 * 2 ^ 16 + min count 65535)

/-- The number of a place among the counters of R424: a unit of a tile or die, and the number of the word or cell in it. -/
def errorPlace (unit u n : Nat) : Nat := ((16 + unit) * 1024 + u) * 2 ^ 24 + n

/-- An error that is not corrected, in a memory of a tile (R189): an ERROR record of the tile. Which bank, row and column of the
memory the word has is free. DESIGN CHOICE, log entry 47. -/
def State.hardError (s : State) (t unit : Nat) : State :=
  let r := s.free
  sendRecord r.2 t recError Cause.access (errorAux unit 1 r.1.toNat 1) 0

/-- A corrected error is counted at its place: a record at the first occurrence, and when its COUNT saturates (R424). The counter
holds one more than the occurrences since the last record.
DESIGN CHOICE, log entry 47. -/
def State.countSoft (s : State) (t unit n : Nat) : State :=
  let k := errorPlace unit (unitOf t) n
  let c := Sparse.get 0 s.predict k
  if c = 0 ∨ 65535 ≤ c then
    let r := s.free
    let q := r.2.freeCause
    sendRecord { q.2 with predict := Sparse.set 0 s.predict k 1 } t recError q.1 (errorAux unit 0 r.1.toNat (max c 1)) 0
  else { s with predict := Sparse.set 0 s.predict k (c + 1) }

/-- An error that is corrected (R189): it is counted, with signal 13 of R418. -/
def State.softError (s : State) (t unit n : Nat) : State := (s.modTile (unitOf t) fun x => x.signal 13).countSoft t unit n

/-- An ERROR record of a unit that is no tile, by a quarter (R372, R423): INST, ROW and COL are free, and so, among the codes of R360,
is CAUSE. DESIGN CHOICE, log entry 7. -/
def quarterError (s : State) (die unit sev count : Nat) : State :=
  let f := s.free
  let c := f.2.freeCause
  sendQuarter c.2 die recError c.1 (errorAux unit sev f.1.toNat count)

/-- One event at a place with a predictive counter, and its threshold (R424): 0 disables. -/
def State.count (s : State) (place thr die unit : Nat) : State :=
  let n := Sparse.get 0 s.predict place + 1
  if thr ≠ 0 ∧ thr ≤ n then quarterError { s with predict := Sparse.set 0 s.predict place 0 } die unit 3 n
  else { s with predict := Sparse.set 0 s.predict place n }

/-- An error of DRAM that is corrected (R424), at a place: channel, bank and row. A record of severity 0 at the first occurrence, and when
its COUNT saturates, and one of severity 3 at the threshold THRDRAM. DESIGN CHOICE, log entry 47. -/
def State.dramSoft (s : State) (die place : Nat) : State :=
  let k := 2 ^ 64 + 2 * (4 * place + die % 4)
  let c := Sparse.get 0 s.predict k
  let s :=
    if c = 0 ∨ 65535 ≤ c then quarterError { s with predict := Sparse.set 0 s.predict k 1 } die 8 0 (max c 1)
    else { s with predict := Sparse.set 0 s.predict k (c + 1) }
  s.count (k + 1) (bits s.thrdram 15 0) die 8

/-- An eye-margin sample of a lane of a fabric port below the limit (R424). The place's counter is its own, beside that of CRC retries.
DESIGN CHOICE, log entry 47. -/
def State.eyeMargin (s : State) (port lane : Nat) : State :=
  s.count (128 + 8 * (port % 16) + lane % 8) (bits s.thrport 15 0) 0 9

/-- An error of DRAM that is not corrected: an ERROR record of the quarter that holds the channel (R372, R423). Bank, row and column are
free. DESIGN CHOICE, log entry 47. -/
def State.dramError (s : State) (pa : Nat) : State :=
  let r := s.free
  sendQuarter r.2 (pa / 0x1800000000) recError Cause.access (errorAux 8 1 r.1.toNat 1)

/-- Bytes of DRAM hold an error that is not corrected. -/
def State.dramLost (s : State) (pa n : Nat) : Bool := !s.dramBad.isEmpty && (touched 8 pa n).any fun k => Sparse.get false s.dramBad k

/-- The words that bytes touch and that hold an error which is not corrected. -/
def Tile.badWords (x : Tile) (off n : Nat) : List Nat := (touched 8 off n).filter fun k => decide (2 ≤ (Sparse.get 0 x.bad k).toNat)

/-- The words that bytes touch and that hold an error in one bit. -/
def Tile.weakWords (x : Tile) (off n : Nat) : List Nat := (touched 8 off n).filter fun k => decide (Sparse.get 0 x.bad k = 1)

/-- A read of these bytes meets an error that is not corrected (R189). -/
def Tile.bad? (x : Tile) (off n : Nat) : Bool := !x.bad.isEmpty && !(x.badWords off n).isEmpty

/-- What the errors of the words that a read touches leave behind (R189): what is corrected is counted, what is not is recorded. -/
def State.readErrors (s : State) (u off n : Nat) : State :=
  if (s.tile u).bad.isEmpty then s
  else
    let x := s.tile u
    let s := (x.weakWords off n).foldl (fun s k => s.softError (16 * u) 0 k) s
    (x.badWords off n).foldl (fun s _ => s.hardError (16 * u) 0) s

/-! ### The running signature (R397) -/

/-- One bit into the CRC-64, most significant bit first. -/
def crcBit (c : Word) (b : Bool) : Word :=
  if (c.getLsbD 63) ^^ b then (c <<< 1) ^^^ 0x42F0E1EBA9EA3693 else c <<< 1

/-- One byte into the CRC-64, bit 7 first. -/
def crcByte (c : Word) (b : Byte) : Word :=
  (List.range 8).foldl (fun c k => crcBit c (b.getLsbD (7 - k))) c

/-- Bytes into the CRC-64. -/
def crcBytes (c : Word) (bs : List Byte) : Word := bs.foldl crcByte c

/-- Feed bytes into the signature of a redundant thread (R397). -/
def feed (s : State) (bs : List Byte) : State :=
  s.modMe fun x => if x.redundant then { x with red := { x.red with sig := crcBytes x.red.sig bs } } else x

/-! ### Near-net links (R112, R113) -/

/-- Index of a link. -/
def linkIx : Link → Fin 4
  | .north => 0
  | .east => 1
  | .south => 2
  | .west => 3

/-- Where a value sent on a link is received: a send north is received from south. -/
def opposite : Link → Link
  | .north => .south
  | .east => .west
  | .south => .north
  | .west => .east

/-- One step along a link in a W by H rectangle that lies within one die and wraps (R113), or that spans dies. -/
def linkStep (w h fx fy : Nat) (wrap : Bool) : Link → Option (Nat × Nat)
  | .north => if fy = 0 then (if wrap then some (fx, h - 1) else none) else some (fx, fy - 1)
  | .south => if fy + 1 = h then (if wrap then some (fx, 0) else none) else some (fx, fy + 1)
  | .east => if fx + 1 = w then (if wrap then some (0, fy) else none) else some (fx + 1, fy)
  | .west => if fx = 0 then (if wrap then some (w - 1, fy) else none) else some (fx - 1, fy)

/-- The tile at the other end of a link; none when the link is closed (R113). -/
def State.neighbour (s : State) (u : Nat) (l : Link) : Option Nat :=
  match (s.tile u).gang with
  | none => none
  | some g =>
    match s.inst g.inst with
    | none => none
    | some i =>
      let ts := s.sheetTiles g
      let one := ts.all (fun v => dieOf v = dieOf u)
      match linkStep i.w i.h g.fx g.fy one l with
      | none => none
      | some (x, y) =>
        match ts[y * i.w + x]? with
        | none => none
        | some v => if dieOf v = dieOf u then some v else none

/-- Places of a direction that are taken at a cycle (R112). -/
def LinkQ.used (q : LinkQ) (now : Nat) : Nat := q.vals.length + q.taken + (q.freeing.filter (fun c => now < c)).length

/-- A value can be received at a cycle. -/
def LinkQ.ready (q : LinkQ) (now : Nat) : Bool :=
  match q.vals with
  | v :: _ => decide (v.at? ≤ now) && !q.engine
  | [] => false

/-- The incoming queue of a tile from a link. -/
def State.linkQ (s : State) (u : Nat) (l : Link) : LinkQ := (s.tile u).links[linkIx l]

/-- Change the incoming queue of a tile from a link. -/
def State.modLinkQ (s : State) (u : Nat) (l : Link) (f : LinkQ → LinkQ) : State :=
  s.modTile u fun x => { x with links := x.links.set (linkIx l) (f x.links[linkIx l]) }

/-- Two gangs of one replica of a sheet, the ends of a link that is open. -/
def sameSheet (a b : Gang) : Bool := decide (a.inst = b.inst) && decide (a.sheet = b.sheet) && decide (a.ridx = b.ridx)

/-- The tile holds a gang of the sheet of a gang. -/
def Tile.holdsSheet (x : Tile) (g : Gang) : Bool :=
  match x.gang with
  | some h => sameSheet g h
  | none => false

/-- The incoming queue at the other end of a tile's link: of the gang there, or, while that gang is pre-empted, the saved one
(R113). -/
def State.peerQ (s : State) (u : Nat) (l : Link) : LinkQ :=
  match s.neighbour u l, (s.tile u).gang with
  | some v, some g =>
    let x := s.tile v
    if x.holdsSheet g then x.links[linkIx (opposite l)]
    else ((x.saved.find? fun w => sameSheet g w.gang).map fun w => w.links[linkIx (opposite l)]).getD {}
  | _, _ => {}

/-- Change the incoming queue at the other end of a tile's link, live or saved. -/
def State.modPeerQ (s : State) (u : Nat) (l : Link) (f : LinkQ → LinkQ) : State :=
  match s.neighbour u l, (s.tile u).gang with
  | some v, some g =>
    s.modTile v fun x =>
      if x.holdsSheet g then { x with links := x.links.set (linkIx (opposite l)) (f x.links[linkIx (opposite l)]) }
      else
        { x with
          saved := x.saved.map fun w =>
            if sameSheet g w.gang then { w with links := w.links.set (linkIx (opposite l)) (f w.links[linkIx (opposite l)]) } else w }
  | _, _ => s

/-- The destination direction of a link has no place at this cycle. -/
def State.noPlace (s : State) (u : Nat) (l : Link) : Bool := decide (4 ≤ (s.peerQ u l).used s.now)

/-- A link whose send direction the matrix engine has to itself while an MMAR transfer runs (R247). -/
def State.engineSends (s : State) (u : Nat) (l : Link) : Bool :=
  (decide (l = .west) || decide (l = .north)) && !(s.tile u).mx.rot.transfers.isEmpty

/-- The destination direction of a link is full for a send of an instruction at this cycle. -/
def State.linkFull (s : State) (u : Nat) (l : Link) : Bool := s.engineSends u l || s.noPlace u l

/-- Remove the oldest receivable value (R112). -/
def State.recvLink (s : State) (u : Nat) (l : Link) : Quad × State :=
  match (s.linkQ u l).vals with
  | v :: vs =>
    (v.v, s.modLinkQ u l fun q =>
      { q with vals := vs, freeing := q.freeing.filter (fun c => s.now < c) ++ [s.now + 2] })
  | [] => (0, s)

/-- Take a place in the destination direction of a link (R35, R112). -/
def State.takePlace (s : State) (u : Nat) (l : Link) : State := s.modPeerQ u l fun q => { q with taken := q.taken + 1 }

/-- Free a place without a send (R112). -/
def State.freePlace (s : State) (u : Nat) (l : Link) : State :=
  s.modPeerQ u l fun q => { q with taken := q.taken - 1, freeing := q.freeing ++ [s.now + 2] }

/-- Send a value into the place that was taken for it; a tile that no longer holds a gang of the sheet discards it, and the
place is free again (R35). -/
def State.sendLink (s : State) (u : Nat) (l : Link) (v : Quad) : State :=
  match s.neighbour u l, (s.tile u).gang with
  | some w, some g =>
    if (s.tile w).holdsSheet g then
      s.modPeerQ u l fun q => { q with taken := q.taken - 1, vals := q.vals ++ [{ v := v, at? := s.now + 2 }] }
    else (s.freePlace u l).modTile w fun x => { x with discarded := true }
  | _, _ => s

/-! ### What a waiting instruction holds (R35) -/

/-- Give up what the instruction holds: received values are lost, its place is freed. -/
def dropHeld (s : State) : State :=
  let x := s.me
  let s :=
    match x.held.place with
    | some l => s.freePlace (unitOf s.cur) l
    | none => s
  s.modMe fun x => { x with held := {}, insn := none, engWait := false, linkWait := false }

/-- The class of the present turn (R109). -/
def setClass (s : State) (c : TurnClass) : State := s.modMe fun x => { x with cls := c }

/-- The turn passes without issue: the instruction is tried again at the slot's next turn (R109). -/
def waitTurn (s : State) (c : TurnClass) : State := setClass s c

/-- A wait for an engine, which no asynchronous trap interrupts (R364). -/
def waitEngine (s : State) (c : TurnClass) : State := s.modMe fun x => { x with cls := c, engWait := true }

/-- The slot leaves FOLLOWING (R121). -/
def leaveFollow (s : State) : State :=
  s.modArch fun a => { a with status := { a.status with following := false } }

/-- After an agreed release point the checkpoint advances to the state after its instruction (R394), and asynchronous traps
may be taken (R401). -/
def Redund.settle (r : Redund) (a : Arch) (st : Vector (Option Stream) 4) : Redund :=
  if r.agreed then { r with agreed := false, boundary := true, ckpt := some a, ckptStreams := st } else r

/-! ### Taking an exception and returning from one (R95, R96, R100) -/

/-- A double fault: DCAUSE, and the slot halts as for HALT (R96). -/
def doubleFault (s : State) (cause : Nat) (addr : Word) (ilen : Nat) : State :=
  let pc := s.me.arch.pc
  let s := s.modMe fun x =>
    { x with run := .halted, arch := { x.arch with dcause := BitVec.ofNat 64 (ilen * 256 + cause) } }
  sendRecord s s.cur recDouble Cause.doubleFault addr pc

/-- TrapEntry (R95) of the present thread: PMODE, PIE, MODE, IE, TCAUSE, TADDR, TEPC, XCAP, pc and EntryWindow. -/
def enterHandler (sys : Bool) (cause : Nat) (addr epc : Word) (ilen : Nat) (a : Arch) : Arch :=
  { a with
    status := { a.status with pmode := a.status.mode, pie := a.status.ie, mode := if sys then 2 else 1, ie := false }
    tcause := BitVec.ofNat 64 (ilen * 256 + cause)
    taddr := addr
    tepc := a.xcap.withAddr epc
    xcap := a.tvec
    pc := a.tvec.lo
    entryWindow := true }

/-- Trap logging is enabled for the partition of a unit (R373). -/
def State.trapLog (s : State) (u : Nat) : Bool := bit (s.partn (s.partOf u)).pcfg 1

/-- The start of trap entry: what the instruction held is given up, the slot no longer follows, its turn is ISSUED, and its
followers find the address of the instruction that it did not complete (R121). -/
def enterStart (s : State) : State :=
  (leaveFollow (setClass (dropHeld s) .issued)).modMe fun x =>
    { x with run := .running, issue := { x.issue with cyc := s.now, pc := x.arch.pc, trapped := true } }

/-- TrapEntry itself (R95), with the bytes of R397 in a redundant thread. -/
def enterEnd (s : State) (cause : Nat) (addr epc : Word) (ilen : Nat) : State :=
  let s := feed s ([0xFE, BitVec.ofNat 8 cause] ++ leBytes 8 addr.toNat)
  (s.modArch (enterHandler (isSys (unitOf s.cur)) cause addr epc ilen)).modMe fun x => { x with red := x.red.settle x.arch x.streams }

/-- A TRAP record of the present slot where the partition logs traps (R373). -/
def logTrap (s : State) (cause : Nat) (addr epc : Word) : State :=
  if s.trapLog (unitOf s.cur) then sendRecord s s.cur recTrap cause addr epc else s

/-- Taking an exception: TrapEntry, or the double fault when EntryWindow is 1. -/
def trapEntry (s : State) (cause : Nat) (addr epc : Word) (ilen : Nat) : State :=
  if (enterStart s).me.arch.entryWindow then doubleFault (enterStart s) cause addr ilen
  else logTrap (enterEnd (enterStart s) cause addr epc ilen) cause addr epc

/-- A single step ends with the instruction that it issued (R411): the slot stops at its next boundary. -/
def Thread.stepped (x : Thread) : Thread := if x.stepping then { x with stopAsk := some (x.stopAsk.getD 6) } else x

/-- A trap raised by an instruction, at decode or during execution (R10, R37, R38). -/
def trapAt (s : State) (i : Instr) (cause : Nat) (addr : Word) : State :=
  let s := s.modTile (unitOf s.cur) fun x => x.signal 0
  (trapEntry s cause addr s.me.arch.pc (i.bytes / 4)).modMe Thread.stepped

/-- FetchFault (R14): TEPC and TADDR are the fetch address, ILEN is 0. -/
def fetchFault (s : State) (cause : Nat) (a : Word) : State := (trapEntry s cause a a 0).modMe Thread.stepped

/-- The effect of ERET on the architectural state (R100). -/
def returnFrom (skip : Bool) (a : Arch) : Arch :=
  let ilen := bits a.tcause 11 8
  let t := a.tepc.lo
  let t := if skip ∧ (ilen = 2 ∨ ilen = 3 ∨ ilen = 4) then nextPC t (4 * ilen) else t
  { a with
    status := { a.status with mode := a.status.pmode, ie := a.status.pie }
    xcap := if a.tepc.tag then a.tepc else a.xcap
    pc := t
    entryWindow := false }

/-! ### Registers -/

/-- A register's own value (R13). -/
def Arch.reg (a : Arch) (r : Reg) : Val := a.regs[r]

/-- Write a register (R15). -/
def Arch.setReg (a : Arch) (r : Reg) (v : Val) : Arch := { a with regs := a.regs.set r v }

/-- The generator that a register is bound to (R155). -/
def Thread.streamOf (x : Thread) (r : Nat) : Option (Fin 4) :=
  (List.finRange 4).find? fun g =>
    match x.streams[g] with
    | some st => st.reg = r
    | none => false

/-- Privileged: handler mode, or system mode on a system core (R98). -/
def Thread.priv (x : Thread) : Bool := x.arch.status.mode ≠ 0

end Sys2Proof.Machine
end

