-- ==== Sys2Proof/Machine/Net.lean ====
section
/-! DEFINITION. Partitions, the far net, the port of a tile and what it does with full/empty words, monitors, atomics and
race records (R111 to R116, R140, R160 to R168, R185 to R192, R225 to R227, R432). -/

namespace Sys2Proof.Machine

/-! ### Partitions (R191, R192, R432) -/

/-- PCFG.EN. -/
def Partition.en (p : Partition) : Bool := bit p.pcfg 0
/-- PCFG.RACEEN. -/
def Partition.raceEn (p : Partition) : Bool := bit p.pcfg 2
/-- PCFG.UX. -/
def Partition.ux (p : Partition) : Nat := bits p.pcfg 7 4
/-- PCFG.UY. -/
def Partition.uy (p : Partition) : Nat := bits p.pcfg 11 8
/-- PCFG.UW. -/
def Partition.uw (p : Partition) : Nat := bits p.pcfg 15 12
/-- PCFG.UH. -/
def Partition.uh (p : Partition) : Nat := bits p.pcfg 19 16

/-- The rectangle covers a unit of the 6 by 4 grid. -/
def Partition.hasUnit (p : Partition) (col row : Nat) : Bool :=
  decide (p.ux ≤ col) && decide (col < p.ux + p.uw) && decide (p.uy ≤ row) && decide (row < p.uy + p.uh)

/-- A tile belongs to the partition. -/
def Partition.hasTile (p : Partition) (u : Nat) : Bool :=
  p.en && !isSys u && p.hasUnit (pxOf u / 4) (pyOf u / 6)

/-- The column and row of partition unit u in the grid (R432). -/
def unitCol (u : Nat) : Nat := 3 * (u / 6 % 2) + u % 6 % 3
/-- The row of partition unit u in the grid (R432). -/
def unitRow (u : Nat) : Nat := 2 * (u / 6 / 2) + u % 6 / 3

/-- A DRAM address lies in the partition's slices (R191). -/
def Partition.owns (p : Partition) (pa : Nat) : Bool :=
  p.en && decide (pa < 0x6000000000) && p.hasUnit (unitCol (pa / 0x400000000)) (unitRow (pa / 0x400000000))

/-- The part of quarter d that the partition covers: its north-west tile, width and height, in tiles of the die. -/
def Partition.part (p : Partition) (d : Nat) : Option (Nat × Nat × Nat × Nat) :=
  let bx := 12 * (d % 2)
  let byy := 12 * (d / 2)
  let x0 := max (4 * p.ux) bx
  let x1 := min (4 * (p.ux + p.uw)) (bx + 12)
  let y0 := max (6 * p.uy) byy
  let y1 := min (6 * (p.uy + p.uh)) (byy + 12)
  if x0 < x1 ∧ y0 < y1 then some (x0 - bx, y0 - byy, x1 - x0, y1 - y0) else none

/-- The quarters that the partition covers, in rising number. -/
def Partition.quarters (p : Partition) : List Nat := [0, 1, 2, 3].filter fun d => (p.part d).isSome

/-- The tile named by a partition-relative tile id (R192): die rank in [9:8], y in [7:4], x in [3:0]. -/
def Partition.tile (p : Partition) (id : Nat) : Option Nat :=
  match p.quarters[id / 256 % 4]? with
  | none => none
  | some d =>
    match p.part d with
    | none => none
    | some (x0, y0, w, h) =>
      let x := id % 16
      let y := id / 16 % 16
      if x < w ∧ y < h then some (tileAt d (x0 + x) (y0 + y)) else none

/-- The partition-relative id of a tile (R192). -/
def Partition.tileId (p : Partition) (u : Nat) : Nat :=
  let rank := (p.quarters.takeWhile (fun d => decide (d < dieOf u))).length
  match p.part (dieOf u) with
  | none => 0
  | some (x0, y0, _, _) => rank * 256 + (yOf u - y0) * 16 + (xOf u - x0)

/-! ### Replicas (R390) -/

/-- The sheet of a thread's gang and its instance. -/
def State.sheetOf (s : State) (t : Nat) : Option (Inst × Sheet) :=
  match s.inst (s.th t).inst with
  | none => none
  | some i => (i.sheet (s.th t).sheet).map fun x => (i, x)

/-- The tile of the leader's rectangle at the place of a tile of replica k. -/
def placeIn (ts : List Nat) (u : Nat) : Option Nat := ts.findIdx? (fun v => v = u)

/-- The tiles of a thread's leader replica. -/
def State.leaderTiles (s : State) (t : Nat) : List Nat :=
  match s.sheetOf t with
  | some (_, x) => x.tiles.getD 0 []
  | none => []

/-- The tile that a TILE address reaches from a thread: internal addresses stay in the thread's own replica (R390). -/
def State.replicaTile (s : State) (t v : Nat) : Nat :=
  if (s.th t).redundant then
    match placeIn (s.leaderTiles t) v, s.sheetOf t with
    | some k, some (_, x) => (x.tiles.getD (s.th t).ridx []).getD k v
    | _, _ => v
  else v

/-- The key of the thread's leader (R388): the same slot of the tile at the same place of replica 0. -/
def State.leaderKey (s : State) (t : Nat) : Nat :=
  match s.sheetOf t with
  | some (_, x) =>
    match placeIn (x.tiles.getD (s.th t).ridx []) (unitOf t) with
    | some k => 16 * (x.tiles.getD 0 []).getD k (unitOf t) + slotOf t
    | none => t
  | none => t

/-- The replicas of a thread, by key, dropped ones left out (R396). -/
def State.replicaKeys (s : State) (t : Nat) : List Nat :=
  match s.sheetOf t with
  | some (_, x) =>
    match placeIn (x.tiles.getD (s.th t).ridx []) (unitOf t) with
    | some k => (x.tiles.map fun ts => 16 * ts.getD k (unitOf t) + slotOf t).filter fun r => !(s.th r).red.dropped
    | none => [t]
  | none => [t]

/-- The thread leads its replicas: its external requests are its own (R388, R399). After a drop it is the first that remains (R396). -/
def State.leads (s : State) (t : Nat) : Bool := !(s.th t).redundant || decide ((s.replicaKeys t).headD t = t)

/-- The tile that a TILE offset names by its id alone (R192, R196). -/
def State.namedTile (s : State) (t off : Nat) : Option Nat :=
  let u := unitOf t
  let id := off / 2 ^ 20
  if isSys u ∧ s.partOf u = 31 then
    (if id % 16 < 12 ∧ id / 16 % 16 < 12 then some (tileAt (id / 256 % 4) (id % 16) (id / 16 % 16)) else none)
  else if s.partOf u < 24 then (s.partn (s.partOf u)).tile id
  else none

/-- A TILE offset is internal for a redundant thread: it names a tile of the leader's rectangle (R390). DEDUCED, log entry 31. -/
def State.internal (s : State) (t off : Nat) : Bool :=
  match s.namedTile t off with
  | some v => (s.leaderTiles t).any fun w => w = v
  | none => false

/-- The tile that a TILE offset reaches from a thread; none when it names no tile or a fenced one. -/
def State.resolveTile (s : State) (t off : Nat) : Option Nat :=
  match s.namedTile t off with
  | none => none
  | some v => if (s.tile v).fenced then none else some (s.replicaTile t v)

/-! ### Packets (R114 to R116) -/

/-- Hops from a tile to a station of its die (R194). -/
def stHops (u j : Nat) : Nat :=
  if isSys u then 1 else if j < 12 then xOf u + 1 + dist (yOf u) j else 12 - xOf u + dist (yOf u) (j - 12)

/-- The least time of flight of f flits between two tiles (R116). -/
def flight (a b f : Nat) : Nat := 6 + 2 * hops a b + 24 * crossings (dieOf a) (dieOf b) + (f - 1)

/-- The least time of flight of a packet. DESIGN CHOICE, log entry 6. -/
def Packet.flight (p : Packet) (f : Nat) : Nat :=
  match p.target with
  | .tile v => if p.sys then 6 + 24 * crossings (dieOf p.src) (dieOf v) + (f - 1) else Machine.flight p.src v f
  | .station st => 6 + 2 * stHops p.src (st % 24) + (f - 1)

/-- The tile at which a packet waits for its window. -/
def Packet.sender (p : Packet) : Nat :=
  match p.back, p.target with
  | true, .tile v => v
  | _, _ => p.src

/-- The row that a packet travels to. -/
def Packet.row (p : Packet) : Nat :=
  match p.back, p.target with
  | false, .tile v => yOf v
  | false, .station st => st % 24 % 12
  | true, _ => yOf p.src

/-- The departure window of a form packet (R115). -/
def Packet.window (p : Packet) : Nat := 4 * xOf p.sender + p.row % 4

/-- The packet waits in a form-window queue. -/
def Packet.inWindow (p : Packet) : Bool := decide (p.stage = .queued) || decide (p.stage = .replyQueued)

/-- The packet with a number. -/
def State.pkt (s : State) (n : Nat) : Option Packet := s.pkts.find? (fun p => p.id = n)

/-- Change a packet. -/
def State.modPkt (s : State) (n : Nat) (f : Packet → Packet) : State :=
  { s with pkts := s.pkts.map fun p => if p.id = n then f p else p }

/-- Remove a packet. -/
def State.dropPkt (s : State) (n : Nat) : State := { s with pkts := s.pkts.filter fun p => !decide (p.id = n) }

/-- The block fetches of a unit that are on their way belong to nobody any more: a form launch starts with an empty cache (R209). -/
def State.dropFetches (s : State) (u : Nat) : State :=
  { s with pkts := s.pkts.map fun p => if p.owner = .icache u then { p with owner := .nobody, stale := true } else p }

/-! ### Form windows (R115) -/

/-- Two packets wait in one window queue of one tile. -/
def sameWindow (p q : Packet) : Bool := q.inWindow && decide (q.sender = p.sender) && decide (q.window = p.window)

/-- The packet is the head of its window queue. -/
def State.windowHead (s : State) (p : Packet) : Bool :=
  !s.pkts.any fun q => sameWindow p q && (decide (q.due < p.due) || (decide (q.due = p.due) && decide (q.id < p.id)))

/-- A packet of the queue has departed in the present cycle. -/
def State.windowUsed (s : State) (p : Packet) : Bool :=
  s.pkts.any fun q => decide (q.depart = some s.now) && decide (q.sender = p.sender) && decide (q.window = p.window)

/-- The head packet of a window queue may depart in the present cycle. -/
def State.departs (s : State) (p : Packet) : Bool :=
  p.inWindow && decide (p.due ≤ s.now) && decide (s.now % 48 = p.window) && s.windowHead p && !s.windowUsed p

/-- A packet departs: up to four flits; a longer message goes on in later frames, and arrives with its last packet. -/
def Packet.leave (p : Packet) (now : Nat) : Packet :=
  if 4 < p.flits then { p with flits := p.flits - 4, depart := some now }
  else
    { p with stage := if p.back then .answered else .flying, depart := some now, due := now + p.flight (max 1 p.flits) }

/-- Put a packet on the net at the present cycle; one of the form class whose window is open departs at once (R115). -/
def State.sendPkt (s : State) (p : Packet) : State :=
  let p := { p with id := s.nextPkt, issue := s.now, born := if p.born = 0 then s.now else p.born,
                    stage := if p.form then .queued else .flying, due := if p.form then s.now else s.now + p.flight p.flits }
  { s with pkts := s.pkts ++ [if s.departs p then p.leave s.now else p], nextPkt := s.nextPkt + 1 }

/-- A packet of a thread, with its context. -/
def State.threadPkt (s : State) (t : Nat) : Packet :=
  let u := unitOf t
  let x := s.th t
  { src := u, thread := t, owner := .thread t, part := s.partOf u, pasid := s.pasidOf t, inst := x.inst,
    form := x.arch.status.form, epoch := x.epoch, sys := isSys u }

/-- The packet is on its way out. -/
def Packet.outbound (p : Packet) : Bool := !p.back && (decide (p.stage = .flying) || decide (p.stage = .queued))

/-- The number of bytes that a request touches. -/
def Req.size : Req → Nat
  | .read n _ => n
  | .write bs _ _ => bs.length
  | .amo _ n _ _ _ => n
  | .engRead n => n
  | .engWrite bs _ _ => bs.length
  | .drain bs _ _ _ => bs.length
  | .arm _ => 1
  | .mark _ => 64
  | .qpool _ => 16
  | .fetch => 32
  | _ => 8

/-- A write to the scratchpad of a tile, as row 3 of R216 counts them. -/
def Req.writes : Req → Bool
  | .write _ _ _ => true
  | .fe .probe _ => false
  | .fe .ldf _ => false
  | .fe _ _ => true
  | .amo _ _ _ _ _ => true
  | .message _ _ => true
  | .drain _ _ _ _ => true
  | _ => false

/-- The thread sends it as an access of its own, at once or through its journal. -/
def Packet.own (p : Packet) : Bool :=
  match p.owner with
  | .journal _ _ => true
  | .thread _ => true
  | _ => false

/-- The journal entries of a unit, those of saved gangs included. -/
def Tile.entries (x : Tile) : List JEntry := x.journal.map (·.2) ++ x.saved.flatMap (·.journal)

/-- A message of the same thread to the same tile, issued before a packet, that its journal sends again (R173): its refusal is on
the way back or has landed. -/
def State.resending (s : State) (u : Nat) (p : Packet) : Bool :=
  (s.pkts.any fun q =>
    decide (q.thread = p.thread) && decide (q.target = .tile u) && decide (q.born < p.born) && q.back && decide (q.answer = .full) && !q.stale)
    || (s.tile p.src).entries.any fun j =>
      decide (j.kind = 6) && decide (j.thread = p.thread) && decide (j.born < p.born)
        && (decide (j.state = .retrying) || (decide (j.state = .pending) && decide (0 < j.tries)))
        && decide ((if j.space = 0 then some p.src else s.resolveTile p.thread (j.addr.toNat % 2 ^ 30)) = some u)

/-- Bytes of a tile that a request touches: of a message the ring of its mailbox. -/
def State.overlaps (s : State) (u : Nat) (p : Packet) (off n : Nat) : Bool :=
  let meet (a m : Nat) : Bool := decide (a / 8 ≤ (off + n - 1) / 8) && decide (off / 8 ≤ (a + m - 1) / 8)
  match p.req with
  | .message mb _ => let m : Mailbox := (s.tile u).mail.toList.getD mb {}; m.on && meet m.base (8 * m.size)
  | r => meet p.addr r.size

/-- An operation of the same thread on the same tile, issued before a packet and not yet performed, that must be performed first: one
on its location (row 1 of R216), or a write when the packet is one too (row 3). -/
def State.held (s : State) (u : Nat) (p : Packet) : Bool :=
  p.own
    && ((p.req.writes && s.resending u p)
      || s.pkts.any fun q =>
        q.own && !q.stale && decide (q.thread = p.thread) && decide (q.target = .tile u) && decide (q.born < p.born)
          && (q.outbound || decide (q.stage = .reserved))
          && ((q.req.writes && p.req.writes) || s.overlaps u q p.addr p.req.size))

/-- No earlier packet of the same class goes from the same source to the same destination (R114), but for one that has arrived and
is held behind an operation of its own thread. DESIGN CHOICE, log entry 6. -/
def State.firstOut (s : State) (p : Packet) : Bool :=
  !s.pkts.any fun q => decide (q.id < p.id) && decide (q.src = p.src) && decide (q.target = p.target)
    && decide (q.form = p.form) && q.outbound
    && !(match q.target with
         | .tile u => decide (q.stage = .flying) && decide (q.due ≤ s.now) && s.held u q
         | .station _ => false)

/-- No earlier answer travels from the same place to the same tile (R114). -/
def State.firstBack (s : State) (p : Packet) : Bool :=
  !s.pkts.any fun q => decide (q.src = p.src) && decide (q.target = p.target) && decide (q.form = p.form) && q.back
    && (decide (q.stage = .answered) || decide (q.stage = .replyQueued))
    && (decide (q.due < p.due) || (decide (q.due = p.due) && decide (q.id < p.id)))

/-- Flits of an answer (R115). -/
def Answer.flits : Answer → Nat
  | .bytes b => (b.length + 15) / 16
  | _ => 1

/-- Give a packet its answer: a tile answers 10 cycles after service (R116), a station by the padding (R117, R202). -/
def State.answer (s : State) (n : Nat) (a : Answer) : State :=
  s.modPkt n fun p =>
    match p.target with
    | .tile _ =>
      if p.form then { p with answer := a, back := true, stage := .replyQueued, flits := a.flits, due := s.now + 10 }
      else { p with answer := a, back := true, stage := .answered, due := s.now + 10 + p.flight a.flits }
    | .station _ =>
      { p with answer := a, back := true, stage := .answered, due := if p.form then p.issue + 720 else s.now + p.flight a.flits }

/-- Count a message sent by a tile for its instance (R140). DEDUCED, log entry 33. -/
def State.countSent (s : State) (u : Nat) : State :=
  if isSys u then s else s.modTile u fun x => { x with sent := x.sent + 1 }

/-- Count a message that arrives for an instance (R140): at the tile, or, when the tile holds no gang of it any more, for the
instance as a whole. -/
def State.countRecv (s : State) (u inst : Nat) : State :=
  if ((s.tile u).gang.map (·.inst)) = some inst then s.modTile u fun x => { x with recv := x.recv + 1 }
  else { s with insts := s.insts.map fun i => if i.id = inst then { i with recvX := i.recvX + 1 } else i }

/-! ### Monitors (R164) -/

/-- The key of the 64-byte line of a scratchpad offset. -/
def lineKey (u off : Nat) : Nat := u * 2 ^ 20 + off / 64 * 64

/-- The key of the line of a physical address. -/
def physKey (node : Nat) (host : Bool) (pa : Nat) : Nat := 2 ^ 70 + node * 2 ^ 47 + b2n host * 2 ^ 46 + pa / 64 * 64

/-- A write triggers the registrations of the lines it touches. DEDUCED, log entry 42. -/
def State.trigger (s : State) (keys : List Nat) : State :=
  { s with monNotes := s.monNotes ++ s.monRegs.filter fun r => keys.any fun k => k = r.key }

/-- The keys of the lines that bytes of a scratchpad touch. DEDUCED, log entry 42. -/
def lineKeys (u off n : Nat) : List Nat := (touched 64 off n).map fun k => lineKey u (64 * k)

/-! ### Writes to a scratchpad -/

/-- The writer record of a thread on its own tile. -/
def State.localWriter (s : State) (t : Nat) : Writer := { remote := false, slot := slotOf t, epoch := (s.th t).epoch }

/-- The writer record of a thread on a tile: remote on any but its own. -/
def State.writerOn (s : State) (t u : Nat) : Writer := { s.localWriter t with remote := decide (unitOf t ≠ u) }

/-- A write of bytes: data, tags (R23), shadow record (R186) and monitors (R164). -/
def State.spadWrite (s : State) (u off : Nat) (bs : List Byte) (w : Writer) : State :=
  (s.modTile u fun x => (x.wr off bs).stamp off bs.length w).trigger (lineKeys u off bs.length)

/-- Deliver the answer of a served full/empty operation (R161). -/
def State.deliverFe (s : State) (h : FeWaiter) (a : Answer) : State :=
  if h.remote then s.answer h.key a else s.modTh h.key fun x => { x with run := .feServed a }

/-- The writer that a waiter is. -/
def State.feWriter (s : State) (h : FeWaiter) : Writer :=
  if h.remote then { remote := true, epoch := ((s.pkt h.key).map (·.epoch)).getD 0 } else s.localWriter h.key

/-- Set the bit of a word (SETF, SETE and the bit of LDT): a write for monitors and shadow state (R164, R187). -/
def State.setBit (s : State) (u off : Nat) (full : Bool) (w : Writer) : State :=
  (s.modTile u fun x => (x.setFull off full).stamp off 8 w).trigger (lineKeys u off 8)

/-- Write a word and set it full: FillWord (R160). -/
def State.fillRaw (s : State) (u off : Nat) (v : Word) (w : Writer) : State :=
  (s.spadWrite u off (leBytes 8 v.toNat) w).modTile u fun x => x.setFull off true

/-- Perform LDF, LDT or STW at a word that is ready (R160): the answer is what LDF and LDT return. A word with an error that is not
corrected answers a read with ACCESS and stays as it is (R189). -/
def State.fePerform (s : State) (u off : Nat) (op : FeOp) (v : Word) (w : Writer) : Answer × State :=
  let x := s.tile u
  match op with
  | .stw => (.data {}, s.fillRaw u off v w)
  | op =>
    let s := s.readErrors u off 8
    if x.bad? off 8 then (.refused Cause.access, s)
    else (.data (val64 (x.word off)), if op = .ldt then s.setBit u off false w else s)

/-- The word is ready for a waiting operation (R159). -/
def feReady (x : Tile) (off : Nat) (op : FeOp) : Bool :=
  match op with
  | .stw => !x.full off
  | _ => x.full off

/-- The waiting queue of the word of an offset. -/
def Tile.feQueue (x : Tile) (off : Nat) : List FeWaiter := Sparse.get [] x.feq (off / 8)

/-- Put the waiting queue of the word of an offset. -/
def Tile.setFeQueue (x : Tile) (off : Nat) (q : List FeWaiter) : Tile := { x with feq := Sparse.set [] x.feq (off / 8) q }

/-- The place of word k of a SEND, or of the metadata of an MMAS, among the values that a waiting instruction holds. -/
def wordSlot (k : Nat) : Nat := 1000 + k

/-- A thread holds word k of what its instruction reads. -/
def Thread.holdWord (x : Thread) (k : Nat) (v : Word) : Thread :=
  { x with held := { x.held with pops := x.held.pops ++ [(wordSlot k, v.zeroExtend 512)], result := none } }

/-- The reading of an MMAS's metadata goes on from word k at an offset (R242): full words are read, at the first other one the thread
joins that word's queue, and after the last it has been served. -/
def State.readOn (s : State) (t u : Nat) : Nat → Nat → Nat → State
  | 0, _, _ => s.modTh t fun x => { x with run := .feServed .none }
  | n + 1, k, off =>
    let x := s.tile u
    if (x.feQueue off).isEmpty && x.full off then
      match s.fePerform u off .ldf 0 (s.localWriter t) with
      | (.data v, s) => (s.modTh t fun x => x.holdWord k v.lo).readOn t u n (k + 1) (off + 8)
      | (a, s) => s.modTh t fun x => { x with run := .feServed a }
    else
      s.modTile u fun x =>
        x.setFeQueue off (x.feQueue off ++ [{ remote := false, key := t, op := .ldf, v := BitVec.ofNat 64 k, rest := n + 1 }])

/-- A waiter has been served at its word: it has its answer, or goes on reading. -/
def State.serveNext (s : State) (u off : Nat) (h : FeWaiter) (a : Answer) : State :=
  match h.rest, a with
  | n + 1, .data v => (s.modTh h.key fun x => x.holdWord h.v.toNat v.lo).readOn h.key u n (h.v.toNat + 1) (off + 8)
  | _, a => s.deliverFe h a

/-- Serve the queue of a word from its head until a head's condition fails (R161); at most n heads. -/
def State.serveWord (s : State) (u off : Nat) : Nat → State
  | 0 => s
  | n + 1 =>
    match (s.tile u).feQueue off with
    | [] => s
    | h :: q =>
      if feReady (s.tile u) off h.op then
        let s := s.modTile u fun x => x.setFeQueue off q
        let r := s.fePerform u off h.op h.v (s.feWriter h)
        (r.2.serveNext u off h r.1).serveWord u off n
      else s

/-- Serve every head of the queue of a word. -/
def State.serveFe (s : State) (u off : Nat) : State := s.serveWord u off ((s.tile u).feQueue off).length

/-- FillWord: write, set full, serve (R160, R161). -/
def State.fillWord (s : State) (u off : Nat) (v : Word) (w : Writer) : State := (s.fillRaw u off v w).serveFe u off

/-- Set the bit and serve the queue. -/
def State.setBitServe (s : State) (u off : Nat) (full : Bool) (w : Writer) : State := (s.setBit u off full w).serveFe u off

/-- Remove a waiter from the queues of a tile and serve the words it waited at (R161). -/
def State.unqueue (s : State) (u : Nat) (remote : Bool) (key : Nat) : State :=
  let ws := ((s.tile u).feq.filter fun e => e.2.any fun h => decide (h.remote = remote) && decide (h.key = key)).map (·.1)
  ws.foldl (fun s wd =>
    (s.modTile u fun x =>
      x.setFeQueue (8 * wd) ((x.feQueue (8 * wd)).filter fun h => !(decide (h.remote = remote) && decide (h.key = key)))).serveFe
        u (8 * wd)) s

/-- Mark a word empty, as an engine does at issue: monitors are triggered, the shadow record stays (R164, R187). -/
def State.markEmpty (s : State) (u off : Nat) : State :=
  ((s.modTile u fun x => x.setFull off false).trigger (lineKeys u off 8)).serveFe u off

/-! ### What engines write in a sheet (R317, R391, R399) -/

/-- The old data, full bits and tags of the words that bytes touch. -/
def State.undoOf (s : State) (u off n : Nat) : Undo :=
  let x := s.tile u
  let ws := touched 8 off n
  let lo := off / 8 * 8
  { unit := u, addr := lo, bytes := x.rd lo (8 * ws.length), full := ws.map fun k => x.full (8 * k),
    tags := ws.map fun k => x.tagAt (8 * k) }

/-- A tile belongs to the thread's own replica. -/
def State.ownReplica (s : State) (t u : Nat) : Bool :=
  match s.sheetOf t with
  | some (_, x) => (x.tiles.getD (s.th t).ridx []).any fun v => v = u
  | none => false

/-- Before an engine command of a redundant thread changes bytes of a tile: one record per 64-byte block, at its first change. -/
def State.engUndoPush (s : State) (t u off n : Nat) : State :=
  if !(s.th t).redundant || !s.ownReplica t u then s
  else
    (touched 64 off n).foldl (fun s b =>
      s.modTh t fun x =>
        if x.red.undo.any fun r => r.eng && decide (r.unit = u) && decide (r.addr = 64 * b) then x
        else { x with red := { x.red with undo := x.red.undo ++ [{ s.undoOf u (64 * b) 64 with eng := true }] } }) s

/-- The threads and tiles in which a command that runs in the leader alone makes a write of tile u: those of every replica
(R399). -/
def State.mirrors (s : State) (t u : Nat) : List (Nat × Nat) :=
  match s.sheetOf t with
  | none => [(t, u)]
  | some (_, x) =>
    match placeIn (s.leaderTiles t) u, placeIn (s.leaderTiles t) (unitOf t) with
    | some k, some kt =>
      (x.tiles.map fun ts => (16 * ts.getD kt (unitOf t) + slotOf t, ts.getD k u)).filter fun e => !(s.th e.1).red.dropped
    | _, _ => [(t, u)]

/-- The places of an engine's write: of every replica, or of its own. -/
def State.places (s : State) (t u : Nat) (mirror : Bool) : List (Nat × Nat) := if mirror then s.mirrors t u else [(t, u)]

/-- A word that an engine has written whole is full (R317). -/
def State.wordFull (s : State) (u off : Nat) : State := (s.modTile u fun x => x.setFull off true).serveFe u off

/-- A word that an engine sets full without writing its data: a write for the shadow state (R187). -/
def State.engSetFull (s : State) (t u off : Nat) (epoch : Nat) : State :=
  s.setBitServe u off true { s.writerOn t u with epoch := epoch }

/-- An engine's write of bytes to a tile, and the words that it completes. -/
def State.engPut (s : State) (t u off : Nat) (bs : List Byte) (fill : List Nat) (mirror : Bool) (epoch : Nat) : State :=
  (s.places t u mirror).foldl (fun s e =>
    let s := (s.engUndoPush e.1 e.2 off bs.length).spadWrite e.2 off bs { s.writerOn e.1 e.2 with epoch := epoch }
    fill.foldl (fun s o => s.wordFull e.2 o) s) s

/-- FillWord by an engine, recorded as written by its thread in the epoch of the command's issue (R187, R227). -/
def State.engFill (s : State) (t u off : Nat) (v : Word) (mirror : Bool) (epoch : Nat) : State :=
  (s.places t u mirror).foldl (fun s e =>
    (s.engUndoPush e.1 e.2 off 8).fillWord e.2 off v { s.writerOn e.1 e.2 with epoch := epoch }) s

/-- An engine's empty-mark of a word; a word of a held page stays as it is (R378). DEDUCED, log entry 13. -/
def State.engMark (s : State) (t u off : Nat) : State :=
  if (s.tile u).heldPage off then s else (s.engUndoPush t u off 8).markEmpty u off

/-- Empty-marks of words. -/
def State.engMarks (s : State) (t u : Nat) (offs : List Nat) : State := offs.foldl (fun s o => s.engMark t u o) s

/-! ### Atomics (R168) -/

/-- The new value of an atomic on n bits; none when a CAS fails. -/
def amoNew (op : AmoOp) (n old b c : Nat) : Option Nat :=
  let m := 2 ^ n
  let old := old % m
  let b := b % m
  match op with
  | .add => some ((old + b) % m)
  | .and => some (old &&& b)
  | .or => some (old ||| b)
  | .xor => some (old ^^^ b)
  | .min => some (if sext old n ≤ sext b n then old else b)
  | .max => some (if sext b n ≤ sext old n then old else b)
  | .minu => some (min old b)
  | .maxu => some (max old b)
  | .swap => some b
  | .cas => if old = c % m then some b else none

/-- An atomic on a scratchpad word: the old value and the state after it. -/
def State.amoTile (s : State) (u off : Nat) (op : AmoOp) (z : Nat) (b c : Word) (w : Writer) : Nat × State :=
  let old := (s.tile u).spad.rdLe off z
  match amoNew op (8 * z) old b.toNat c.toNat with
  | some v => (old, s.spadWrite u off (leBytes z v) w)
  | none => (old, s)

/-- SignExtend(old, n) as a 64-bit result (R168). -/
def amoResult (z old : Nat) : Val := val64 (wordOf (sext old (8 * z)))

/-! ### Race records (R225 to R227) -/

/-- The shadow records of the words that bytes touch. -/
def Tile.shadows (x : Tile) (off n : Nat) : List (BitVec 12) := (touched 8 off n).map fun k => x.shadowAt (8 * k)

/-- A record is valid and of the given epoch. DEDUCED, log entry 40. -/
def raceHot (r : BitVec 12) (epoch : Nat) : Bool := r.getLsbD 11 && decide (r.toNat % 64 = epoch % 64)

/-- RaceCheck of a local access (R227): it traps. -/
def State.raceLocal (s : State) (t off n : Nat) : Bool :=
  let x := s.tile (unitOf t)
  x.chk && (x.shadows off n).any fun r =>
    raceHot r (s.th t).epoch && !(!r.getLsbD 10 && decide (r.toNat / 64 % 16 = slotOf t))

/-- A remote access meets a local record of its epoch (R227). -/
def Tile.raceRemote (x : Tile) (off n epoch : Nat) : Bool :=
  x.chk && (x.shadows off n).any fun r => raceHot r epoch && !r.getLsbD 10

/-- A remote access meets a record of its epoch (R225). -/
def Tile.raceAny (x : Tile) (off n epoch : Nat) : Bool := x.chk && (x.shadows off n).any fun r => raceHot r epoch

/-- The race rings of a tile's partition are enabled (R225). -/
def State.ringOn (s : State) (u : Nat) : Bool := (s.partn (s.partOf u)).raceEn

/-- The size code of R226. -/
def sizeCode (n : Nat) : Nat := if n ≤ 1 then 0 else if n = 2 then 1 else if n = 4 then 2 else if n = 8 then 3 else if n = 16 then 4 else 5

/-- Log a remote write in the ring of the west station of the tile's row (R225, R226). -/
def State.logRace (s : State) (u off n kind : Nat) (p : Packet) : State :=
  let pt := s.partn (s.partOf u)
  let e : Quad := BitVec.ofNat 128 (s.now % 2 ^ 64 * 2 ^ 64 + pt.tileId p.src * 2 ^ 54 + slotOf p.thread * 2 ^ 50
    + pt.tileId u * 2 ^ 40 + sizeCode n * 2 ^ 35 + kind * 2 ^ 33 + off % 2 ^ 20)
  s.modStation (24 * dieOf u + yOf u) fun st =>
    { st with
      ring := Sparse.set 0 st.ring st.ringHead.toNat e
      rovf := if Sparse.get 0 st.ring st.ringHead.toNat = 0 then st.rovf else st.rovf + 1
      ringHead := st.ringHead + 1 }

/-! ### The remote port (R161, R162, R185, R192) -/

/-- A request that reaches the tile is served (R192, R196, R378). -/
def State.portOpen (s : State) (u off n : Nat) (p : Packet) : Bool :=
  let x := s.tile u
  !x.heldAny off n && (p.sys || (x.gang.isSome && x.saving.isNone))

/-- A remote write lands, with its race rules. -/
def State.portWrite (s : State) (u : Nat) (p : Packet) (bs : List Byte) (tag append : Bool) : State :=
  let x := s.tile u
  if x.raceRemote p.addr bs.length p.epoch && !s.ringOn u then s.answer p.id (.refused Cause.race)
  else
    let s :=
      if x.raceAny p.addr bs.length p.epoch && s.ringOn u then s.logRace u p.addr bs.length (if append then 2 else 0) p else s
    let s := s.spadWrite u p.addr bs { remote := true, epoch := p.epoch }
    let s := if tag then s.modTile u fun x => x.setTag p.addr true else s
    s.answer p.id .ack

/-- A remote full/empty operation (R160 to R162); a full port leaves the request where it is. -/
def State.portFe (s : State) (u : Nat) (p : Packet) (op : FeOp) (v : Word) : State :=
  let w : Writer := { remote := true, epoch := p.epoch }
  let x := s.tile u
  match op with
  | .stf => (s.fillWord u p.addr v w).answer p.id .ack
  | .setf => (s.setBitServe u p.addr true w).answer p.id .ack
  | .sete => (s.setBitServe u p.addr false w).answer p.id .ack
  | .probe =>
    (s.readErrors u p.addr 8).answer p.id
      (if x.bad? p.addr 8 then .refused Cause.access else .data (val64 (if x.full p.addr then 1 else 0)))
  | _ =>
    if (x.feQueue p.addr).isEmpty && feReady x p.addr op then
      let r := s.fePerform u p.addr op v w
      (r.2.answer p.id r.1).serveFe u p.addr
    else if p.form then s.answer p.id (.refused Cause.timingDeviation)
    else if 512 ≤ (s.pkts.filter fun q => decide (q.stage = .waiting) && decide (q.target = .tile u)).length then s
    else
      (s.modTile u fun x => x.setFeQueue p.addr (x.feQueue p.addr ++ [{ remote := true, key := p.id, op := op, v := v }])).modPkt
        p.id fun q => { q with stage := .waiting }

/-- Bytes of a request as they travel back. -/
def readAnswer (bs : List Byte) (tag : Bool) : Answer :=
  if bs.length ≤ 16 then .data { data := BitVec.ofNat 128 (leNat bs), tag := tag } else .bytes bs

/-- A request of the kinds that R140 counts. -/
def Req.counted : Req → Bool
  | .write _ _ _ => true
  | .fe .stf _ => true
  | .fe .setf _ => true
  | .fe .sete _ => true
  | .amo _ _ _ _ red => red
  | .message _ _ => true
  | .drain _ _ _ _ => true
  | _ => false

/-- The free words of a mailbox's ring from its tail on, at most n of them (R173). -/
def freeWords (x : Tile) (m : Mailbox) : Nat → Nat → Nat
  | 0, _ => 0
  | n + 1, j =>
    if j < m.size ∧ !x.full (m.base + 8 * ((m.tail + j) % m.size)) then freeWords x m n (j + 1) + 1 else 0

/-- Write the words of a message into the ring, in rising order. DEDUCED, log entry 46. -/
def State.ringWrite (s : State) (u base size tail : Nat) (w : Writer) : Nat → List Word → State
  | _, [] => s
  | j, v :: vs => (s.fillWord u (base + 8 * ((tail + j) % size)) v w).ringWrite u base size tail w (j + 1) vs

/-- Deliver a message to a mailbox (R173): refused outright, refused for lack of space, or delivered whole. DEDUCED, log entry 46. -/
def State.deliver (s : State) (u : Nat) (p : Packet) (mb : Nat) (ws : List Word) : State :=
  let x := s.tile u
  let m : Mailbox := x.mail.toList.getD mb {}
  let here := p.sys || decide ((x.gang.map fun g => g.inst) = some p.inst)
  if !m.on || !here || (!p.sys && x.saving.isSome) then s.answer p.id (.refused Cause.remoteRefused)
  else if freeWords x m 16 0 < ws.length then s.answer p.id .full
  else
    let s := s.ringWrite u m.base m.size m.tail { remote := decide (p.src ≠ u), slot := slotOf p.thread, epoch := p.epoch } 0 ws
    let m' : Mailbox := { m with tail := (m.tail + ws.length) % m.size }
    let s := s.modTile u fun x => { x with mail := x.mail.set (mb % 4) m' (Nat.mod_lt _ (by decide)) }
    s.answer p.id .ack

/-- Two packets ask for the same location. -/
def sameWord (p q : Packet) : Bool :=
  match p.target, q.target with
  | .tile u, .tile v => decide (u = v) && decide (p.addr / 8 = q.addr / 8)
  | .station _, .station _ => decide (p.node = q.node) && decide (p.host = q.host) && decide (p.paddr / 8 = q.paddr / 8)
  | _, _ => false

/-- Packets in the order in which their stage began. -/
def byArrival (ps : List Packet) : List Packet :=
  ps.foldr (fun p l =>
    let before := l.takeWhile fun q => decide (q.due < p.due) || (decide (q.due = p.due) && decide (q.id < p.id))
    before ++ [p] ++ l.drop before.length) []

/-- The requests that hold or wait for the reservation of a packet's location, oldest first. -/
def State.reservers (s : State) (p : Packet) : List Packet :=
  byArrival (s.pkts.filter fun q => decide (q.stage = .reserved) && decide (q.id ≠ p.id) && sameWord p q)

/-- A request waits in the reservation queue of its location (R168). In the form class its turn follows from the program alone
(R118): whatever is queued before it takes effect at once, and then it does. DEDUCED, log entry 44. -/
def State.reserve (s : State) (p : Packet) : State :=
  let s := s.modPkt p.id fun q => { q with stage := .reserved, due := s.now }
  if p.form then
    let q := (s.pkt p.id).getD p
    { s with agenda := (s.reservers q).map (fun r => .atomicAtOwner r.id) ++ .atomicAtOwner p.id :: s.agenda }
  else s

/-- A request at the remote port of its tile (R116, R161, R192). -/
def State.serveAt (s : State) (u : Nat) (p : Packet) : State :=
  let s := if p.req.counted then s.countRecv u p.inst else s
  let x := s.tile u
  match p.req with
  | .message mb ws => s.deliver u p mb ws
  | req =>
    if !s.portOpen u p.addr req.size p then s.answer p.id (.refused Cause.remoteRefused)
    else
      match req with
      | .read n tagged =>
        if x.raceRemote p.addr n p.epoch then s.answer p.id (.refused Cause.race)
        else
          (s.readErrors u p.addr n).answer p.id
            (if x.bad? p.addr n then .refused Cause.access else readAnswer (x.rd p.addr n) (tagged && x.tagAt p.addr))
      | .write bs tag append => s.portWrite u p bs tag append
      | .fe op v => s.portFe u p op v
      | .amo _ _ _ _ _ => s.reserve p
      | .arm ix =>
        let s' : State :=
          { s with monRegs := s.monRegs ++ [{ key := lineKey u p.addr, thread := p.thread, idx := ix, own := false }] }
        s'.answer p.id .ack
      | .mark offs => (s.engMarks p.thread u offs).answer p.id .ack
      | .engRead n =>
        (s.readErrors u p.addr n).answer p.id (if x.bad? p.addr n then .refused Cause.access else .bytes (x.rd p.addr n))
      | .engWrite bs fill mirror => (s.engPut p.thread u p.addr bs fill mirror p.epoch).answer p.id .ack
      | _ => s.answer p.id (.refused Cause.access)

end Sys2Proof.Machine
end

