-- ==== Sys2Proof/Machine/Raise.lean ====
section
/-! DEFINITION. Threads in their slots and threads that are saved, and the asynchronous traps that become pending on them (R362, R363,
R373, R379, R401). -/

namespace Sys2Proof.Machine

/-! ### Threads, saved ones included -/

/-- The thread with a key lives in its slot and belongs to an instance. -/
def State.alive (s : State) (t inst : Nat) : Bool :=
  (match (s.th t).run with | .vacant => false | _ => true) && decide ((s.th t).inst = inst)

/-- The threads that are saved on a tile, with their keys. -/
def Tile.savedThreads (x : Tile) : List (Nat × Thread) := x.saved.flatMap (·.threads)

/-- Every thread, saved ones included. -/
def State.allThreads (s : State) : List (Nat × Thread) :=
  s.threads.filter (fun e => match e.2.run with | .vacant => false | _ => true) ++ s.tiles.flatMap fun e => e.2.savedThreads

/-- Change a saved thread of an instance. -/
def State.modSaved (s : State) (t inst : Nat) (f : Thread → Thread) : State :=
  s.modTile (unitOf t) fun x =>
    { x with
      saved := x.saved.map fun v =>
        if v.gang.inst = inst then { v with threads := v.threads.map fun e => if e.1 = t then (t, f e.2) else e } else v }

/-- Change a thread of an instance, in its slot or saved. -/
def State.modAny (s : State) (t inst : Nat) (f : Thread → Thread) : State :=
  if s.alive t inst then s.modTh t f else s.modSaved t inst f

/-- The thread is saved. -/
def State.isSaved (s : State) (t inst : Nat) : Bool :=
  (s.tile (unitOf t)).saved.any fun v => decide (v.gang.inst = inst) && v.threads.any fun e => decide (e.1 = t)

/-! ### Pending traps (R362, R363) -/

/-- A pending trap in its place: by cycle, then by cause, then by TADDR. -/
def insertPend (p : PendTrap) : List PendTrap → List PendTrap
  | [] => [p]
  | q :: qs =>
    if p.cyc < q.cyc ∨ (p.cyc = q.cyc ∧ (p.cause < q.cause ∨ (p.cause = q.cause ∧ p.taddr.toNat < q.taddr.toNat))) then p :: q :: qs
    else q :: insertPend p qs

/-- A trap becomes pending. -/
def Thread.addPend (x : Thread) (p : PendTrap) : Thread := { x with pend := insertPend p x.pend }

/-- A trap of one thread becomes pending: at once on the unit of the operation, by a notice when the thread has migrated away,
and as an ORPHAN record when it has exited. -/
def State.raiseOne (s : State) (u t inst cause : Nat) (taddr : Word) : State :=
  let p : PendTrap := { cause := cause, taddr := taddr, cyc := s.now }
  if s.alive t inst then
    (if unitOf t = u then s.modTh t fun x => x.addPend p else { s with notices := s.notices ++ [(t, p)] })
  else if s.isSaved t inst then s.modSaved t inst fun x => x.addPend p
  else sendRecord s t recOrphan cause taddr 0

/-- The replicas of a saved thread, by key: the same slot of the same place of each replica of its sheet (R388). -/
def State.savedPeers (s : State) (t inst : Nat) : List Nat :=
  let u := unitOf t
  let peers (x : Sheet) : Option (List Nat) :=
    (x.tiles.findSome? fun ts => placeIn ts u).map fun k => x.tiles.map fun ts => 16 * ts.getD k u + slotOf t
  (((s.inst inst).bind fun i => i.sheets.findSome? peers).getD [t]).filter fun k => !(s.th k).red.dropped

/-- The replicas on which a trap of a thread becomes pending: of a redundant thread all, or none if it does not lead them (R401). -/
def State.raisedOn (s : State) (t inst : Nat) : Option (List Nat) :=
  let all (ks : List Nat) : List Nat := if ks.headD t = t then ks else []
  if s.alive t inst then (if (s.th t).redundant then some (all (s.replicaKeys t)) else none)
  else
    match (s.tile (unitOf t)).savedThreads.find? fun e => decide (e.1 = t) && decide (e.2.inst = inst) with
    | some e => if e.2.redundant then some (all (s.savedPeers t inst)) else none
    | none => none

/-- A trap of kind A: in a redundant instance every replica takes what the leader raises, and nothing else (R401). -/
def State.raise (s : State) (u t inst cause : Nat) (taddr : Word) : State :=
  match s.raisedOn t inst with
  | some ks => ks.foldl (fun s k => s.raiseOne (unitOf k) k inst cause taddr) s
  | none => s.raiseOne u t inst cause taddr

end Sys2Proof.Machine
end

