-- ==== Sys2Proof/Machine/Numbers.lean ====
section
/-! DEFINITION. Number formats, rounding and conversion (R39 to R57).

A code is a natural number below 2 to the format's width. Exact values are dyadic: every finite value of every format is,
and a quotient, a root or a power of two is replaced by a dyadic that no rounding boundary separates from it. -/

namespace Sys2Proof

open Sys2Proof.Machine

/-! ### Exact values -/

/-- The dyadic m * 2^e. -/
structure Dy where
  m : Int := 0
  e : Int := 0
  deriving DecidableEq, Repr

/-- The mantissa at a smaller exponent. -/
def Dy.at (x : Dy) (e : Int) : Int := x.m * 2 ^ (x.e - e).toNat
/-- Exact sum. -/
def Dy.add (x y : Dy) : Dy := let e := min x.e y.e; { m := x.at e + y.at e, e := e }
/-- Exact product. -/
def Dy.mul (x y : Dy) : Dy := { m := x.m * y.m, e := x.e + y.e }
/-- Negation. -/
def Dy.neg (x : Dy) : Dy := { x with m := -x.m }
/-- Magnitude. -/
def Dy.abs (x : Dy) : Dy := { x with m := x.m.natAbs }
/-- x < y. -/
def Dy.lt (x y : Dy) : Bool := let e := min x.e y.e; decide (x.at e < y.at e)
/-- x ≤ y. -/
def Dy.le (x y : Dy) : Bool := !y.lt x
/-- An integer. -/
def Dy.ofInt (n : Int) : Dy := { m := n, e := 0 }

/-- What a code stands for (R50). A real is never zero. -/
inductive Num where
  | nan
  | inf (neg : Bool)
  | zero (neg : Bool)
  | real (x : Dy)
  deriving DecidableEq, Repr

/-- A real or a zero of the given sign. -/
def Num.ofDy (x : Dy) (neg : Bool) : Num := if x.m = 0 then .zero neg else .real x

/-- The sign. -/
def Num.neg? : Num → Bool
  | .nan => false
  | .inf s => s
  | .zero s => s
  | .real x => decide (x.m < 0)

/-- Negation. -/
def Num.neg : Num → Num
  | .nan => .nan
  | .inf s => .inf (!s)
  | .zero s => .zero (!s)
  | .real x => .real x.neg

/-! ### Formats (R39 to R45) -/

/-- Width in bits (R39). -/
def Fmt.width : Fmt → Nat
  | .t6 => 6
  | f => f.lane

/-- Fraction bits of the formats of R41. -/
def Fmt.frac : Fmt → Nat
  | .f64 => 52
  | .f32 => 23
  | .bf16 => 7
  | .f16 => 10
  | .e4m3 => 3
  | .e5m2 => 2
  | _ => 0

/-- Exponent bias of the formats of R41. -/
def Fmt.bias : Fmt → Nat
  | .f64 => 1023
  | .f32 => 127
  | .bf16 => 127
  | .f16 => 15
  | .e4m3 => 7
  | .e5m2 => 15
  | _ => 0

/-- The formats with infinities and payload NaNs: FP64, FP32, BF16, FP16, E5M2. -/
def Fmt.hasInf : Fmt → Bool
  | .f64 | .f32 | .bf16 | .f16 | .e5m2 => true
  | _ => false

/-- The tapered formats. -/
def Fmt.tapered : Fmt → Bool
  | .t8 | .t6 => true
  | _ => false

/-- Signed integer formats. -/
def Fmt.isSigned : Fmt → Bool
  | .i8 | .i16 | .i32 | .i64 => true
  | _ => false

/-- The formats with −0 (R41, R43). -/
def Fmt.hasNegZero (f : Fmt) : Bool := f.isFloat && !f.tapered

/-- The code of +∞, of formats that have it. -/
def Fmt.infCode (f : Fmt) : Nat := 2 ^ (f.width - 1) - 2 ^ f.frac

/-- The code of MaxFinite (R41, R44, R45). -/
def Fmt.maxCode (f : Fmt) : Nat :=
  match f with
  | .e4m3 => 0x7E
  | .t8 => 0x7F
  | .t6 => 0x1F
  | _ => f.infCode - 1

/-- The number of bits equal to bit `n` from bit `n` downwards, at most n + 1. -/
def runLen (x : Nat) (b : Bool) : Nat → Nat
  | 0 => if x.testBit 0 = b then 1 else 0
  | n + 1 => if x.testBit (n + 1) = b then runLen x b n + 1 else 0

/-- The body of TaperDecode (R43) for a non-zero body of n − 1 bits. -/
def taperMag (body n es : Nat) : Dy :=
  let b := body.testBit (n - 2)
  let r := runLen body b (n - 2)
  let k : Int := if b then (r : Int) - 1 else -(r : Int)
  let len := n - 1 - r - 1
  let rest := body % 2 ^ len
  let e := if es = 0 then 0 else if len = 0 then 0 else rest / 2 ^ (len - 1)
  let fl := len - es
  { m := (2 ^ fl + rest % 2 ^ fl : Nat), e := k * (2 ^ es : Nat) + (e : Nat) - (fl : Nat) }

/-- The magnitude of a finite code without its sign bit. -/
def Fmt.mag (f : Fmt) (c : Nat) : Dy :=
  match f with
  | .t8 => if c = 0 then {} else taperMag c 8 1
  | .t6 => if c = 0 then {} else taperMag c 6 0
  | _ =>
    let e := c / 2 ^ f.frac
    let q := c % 2 ^ f.frac
    if e = 0 then { m := q, e := 1 - (f.bias : Int) - f.frac }
    else { m := (2 ^ f.frac + q : Nat), e := (e : Int) - f.bias - f.frac }

/-- The sign bit of a float code. -/
def Fmt.signOf (f : Fmt) (c : Nat) : Bool := c.testBit (f.width - 1)

/-- A code is NaN (R41, R43). -/
def Fmt.isNaN (f : Fmt) (c : Nat) : Bool :=
  let m := c % 2 ^ (f.width - 1)
  match f with
  | .e4m3 => decide (m = 0x7F)
  | .t8 => decide (c % 256 = 0x80)
  | .t6 => decide (c % 64 = 0x20)
  | _ => f.hasInf && decide (f.infCode < m)

/-- The integer that a code of an integer format stands for (R40). -/
def Fmt.int (f : Fmt) (c : Nat) : Int := if f.isSigned then sext c f.width else (c % 2 ^ f.width : Nat)

/-- Decode of R50. -/
def Fmt.num (f : Fmt) (c : Nat) : Num :=
  if f.isInt then Num.ofDy (Dy.ofInt (f.int c)) false
  else
    let c := c % 2 ^ f.width
    let s := f.signOf c
    let m := c % 2 ^ (f.width - 1)
    if f.isNaN c then .nan
    else if f.hasInf && decide (m = f.infCode) then .inf s
    else
      let x := f.mag m
      Num.ofDy (if s then x.neg else x) s

/-- The bounds of an integer format (R40). -/
def Fmt.imin (f : Fmt) : Int := if f.isSigned then -(2 ^ (f.width - 1) : Nat) else 0
/-- The bounds of an integer format (R40). -/
def Fmt.imax (f : Fmt) : Int := if f.isSigned then (2 ^ (f.width - 1) : Nat) - 1 else (2 ^ f.width : Nat) - 1

/-- Saturate for integer formats (R48). -/
def Fmt.isat (f : Fmt) (x : Int) : Int := if f.imax < x then f.imax else if x < f.imin then f.imin else x

/-- The code of an integer modulo 2^width. -/
def Fmt.icode (f : Fmt) (x : Int) : Nat := (x % (2 ^ f.width : Nat)).toNat

/-- A magnitude code with a sign; a tapered zero has no sign (R48). -/
def Fmt.signed (f : Fmt) (neg : Bool) (c : Nat) : Nat :=
  if neg && !(f.tapered && decide (c = 0)) then c + 2 ^ (f.width - 1) else c

/-! ### Rounding (R47, R48, R83) -/

/-- Whether the far neighbour is taken (R48): x and its neighbours as magnitudes, `even` for an even near code. -/
def goesUp (mode : Rm) (g : Nat) (neg even : Bool) (lo x hi : Dy) : Bool :=
  let dl := x.add lo.neg
  let dh := hi.add x.neg
  match mode with
  | .rne => if dl.lt dh then false else if dh.lt dl then true else !even
  | .rtz => false
  | .rup => !neg
  | .rdn => neg
  | .sr => ((Dy.ofInt g).mul (hi.add lo.neg)).lt (dl.mul { m := 1, e := 16 })

/-- The greatest code, built from bit k − 1 down on `c`, whose value does not exceed the magnitude x. -/
def codeFloor (f : Fmt) (x : Dy) : Nat → Nat → Nat
  | 0, c => c
  | k + 1, c =>
    let d := c + 2 ^ k
    codeFloor f x k (if decide (d ≤ f.maxCode) && (f.mag d).le x then d else c)

/-- The magnitude code of RoundTo for |x| ≤ MaxFinite. -/
def roundMag (f : Fmt) (mode : Rm) (g : Nat) (neg : Bool) (x : Dy) : Nat :=
  let lo := codeFloor f x (f.width - 1) 0
  if !(f.mag lo).lt x then lo
  else if goesUp mode g neg (decide (lo % 2 = 0)) (f.mag lo) x (f.mag (lo + 1)) then lo + 1 else lo

/-- The integer magnitude nearest a magnitude on the side of zero. -/
def Dy.trunc (x : Dy) : Nat := if 0 ≤ x.e then (x.at 0).toNat else x.m.toNat / 2 ^ (-x.e).toNat

/-- RoundTo on the integers (R48). -/
def roundInt (mode : Rm) (g : Nat) (x : Dy) : Int :=
  let neg := decide (x.m < 0)
  let a := x.abs
  let lo := a.trunc
  let y :=
    if !(Dy.ofInt lo).lt a then lo
    else if goesUp mode g neg (decide (lo % 2 = 0)) (Dy.ofInt lo) a (Dy.ofInt (lo + 1)) then lo + 1 else lo
  if neg then -(y : Int) else y

/-- The code of RoundTo(x, fmt, mode, g) (R48). A value between two integers of an integer format is rounded after the
saturation, which leaves it as it is. DEDUCED, log entry 17. -/
def roundTo (f : Fmt) (mode : Rm) (g : Nat) (x : Dy) : Nat :=
  if f.isInt then
    if (Dy.ofInt f.imax).lt x then f.icode f.imax
    else if x.lt (Dy.ofInt f.imin) then f.icode f.imin
    else f.icode (roundInt mode g x)
  else
    let neg := decide (x.m < 0)
    let a := x.abs
    if (f.mag f.maxCode).lt a then f.signed neg f.maxCode else f.signed neg (roundMag f mode g neg a)

/-- The code of RoundArith(x, fmt, mode, g) (R83); E4M3, T8 and T6 saturate (R148). DEDUCED, log entry 17. -/
def roundArith (f : Fmt) (mode : Rm) (g : Nat) (x : Dy) : Nat :=
  let neg := decide (x.m < 0)
  let a := x.abs
  let top := f.mag f.maxCode
  if !f.hasInf || !top.lt a then roundTo f mode g x
  else
    let ulp := top.add (f.mag (f.maxCode - 1)).neg
    let next := top.add ulp
    if a.lt next && !goesUp mode g neg (decide (f.maxCode % 2 = 0)) top a next then f.signed neg f.maxCode
    else
      match mode with
      | .rne | .sr => f.signed neg f.infCode
      | .rtz => f.signed neg f.maxCode
      | .rup => if neg then f.signed true f.maxCode else f.infCode
      | .rdn => if neg then f.signed true f.infCode else f.maxCode

/-- DefaultNaN (R83) and the results of invalid operations (R148). -/
def Fmt.defaultNaN (f : Fmt) : Nat :=
  match f with
  | .e4m3 => 0x7F
  | .t8 => 0x80
  | .t6 => 0x20
  | _ => f.infCode + 2 ^ (f.frac - 1)

/-- Quiet (R83), and the NaN of the formats without payload (R148). -/
def Fmt.quiet (f : Fmt) (c : Nat) : Nat :=
  let c := c % 2 ^ f.width
  if f.hasInf then c ||| 2 ^ (f.frac - 1) else c

/-- The code of an exact result of an arithmetic operation (R83, R148). -/
def Num.arith (f : Fmt) (mode : Rm) (g : Nat) : Num → Nat
  | .nan => f.defaultNaN
  | .inf s => if f.hasInf then f.signed s f.infCode else f.signed s f.maxCode
  | .zero s => if f.hasNegZero then f.signed s 0 else 0
  | .real x => roundArith f mode g x

/-- The code of an exact result that is rounded by RoundTo (R56, R153). -/
def Num.sat (f : Fmt) (mode : Rm) (g : Nat) : Num → Nat
  | .real x => roundTo f mode g x
  | y => y.arith f mode g

/-! ### Draws (R49) -/

/-- One draw: its 16 bits and the register after it. -/
def draw (seed : Word) : Nat × Word :=
  let z := seed + 0x9E3779B97F4A7C15
  let z := (z ^^^ (z >>> 30)) * 0xBF58476D1CE4E5B9
  let z := (z ^^^ (z >>> 27)) * 0x94D049BB133111EB
  let z := z ^^^ (z >>> 31)
  (bits z 63 48, (seed.extractLsb' 32 32) ++ (seed.extractLsb' 0 32 + 1))

/-- A draw when the mode is SR, and 0 otherwise. -/
def drawFor (mode : Rm) (seed : Word) : Nat × Word := if mode = .sr then draw seed else (0, seed)

/-- Results of `n` elements from element `k` on, with one draw for each under SR. -/
def elements (mode : Rm) (h : Nat → Nat → Nat) : Nat → Nat → Word → List Nat × Word
  | _, 0, seed => ([], seed)
  | k, n + 1, seed =>
    let d := drawFor mode seed
    let r := elements mode h (k + 1) n d.2
    (h k d.1 :: r.1, r.2)

/-! ### Conversion (R50 to R52) -/

/-- The fraction of a NaN and its width, and its sign (R52). -/
def nanFields (f : Fmt) (c : Nat) : Nat × Nat × Bool :=
  match f with
  | .e4m3 => (1, 1, c.testBit 7)
  | .t8 | .t6 => (1, 1, true)
  | _ => (c % 2 ^ f.frac, f.frac, f.signOf c)

/-- NaNConvert (R52). -/
def nanConvert (src dst : Fmt) (c : Nat) : Nat :=
  let (fr, n, s) := nanFields src c
  if dst.isInt then 0
  else
    match dst with
    | .e4m3 => if s then 0xFF else 0x7F
    | .t8 => 0x80
    | .t6 => 0x20
    | _ =>
      let q := if n ≤ dst.frac then fr * 2 ^ (dst.frac - n) else fr / 2 ^ (n - dst.frac)
      dst.signed s (dst.infCode + (if q = 0 then 1 else q))

/-- Convert (R50) without its draw. -/
def convert (src dst : Fmt) (mode : Rm) (g c : Nat) : Nat :=
  let c := c % 2 ^ src.width
  if src = dst then c
  else
    match src.num c with
    | .nan => nanConvert src dst c
    | .inf s =>
      if dst.hasInf then dst.signed s dst.infCode
      else if dst.isInt then dst.icode (if s then dst.imin else dst.imax)
      else dst.signed s dst.maxCode
    | .zero s => if dst.hasNegZero then dst.signed s 0 else 0
    | .real x => roundTo dst mode g x

/-! ### Exact operations -/

/-- Exact sum with the signs of zero of R55; `rdn` for rounding downwards. DEDUCED, log entry 17. -/
def Num.add (rdn : Bool) : Num → Num → Num
  | .nan, _ => .nan
  | _, .nan => .nan
  | .inf s, .inf t => if s = t then .inf s else .nan
  | .inf s, _ => .inf s
  | _, .inf t => .inf t
  | .zero s, .zero t => .zero (if s = t then s else rdn)
  | .zero _, y => y
  | x, .zero _ => x
  | .real x, .real y => Num.ofDy (x.add y) rdn

/-- Exact product. -/
def Num.mul : Num → Num → Num
  | .nan, _ => .nan
  | _, .nan => .nan
  | .inf _, .zero _ => .nan
  | .zero _, .inf _ => .nan
  | .inf s, y => .inf (s ^^ y.neg?)
  | x, .inf t => .inf (x.neg? ^^ t)
  | .zero s, y => .zero (s ^^ y.neg?)
  | x, .zero t => .zero (x.neg? ^^ t)
  | .real x, .real y => .real (x.mul y)

/-- Bits of a quotient, root or power kept below the leading bit: more than any rounding boundary has. -/
def quoBits : Nat := 160

/-- The quotient of two positive integers to quoBits bits and a mark for what lies below. -/
def divMag (a b : Nat) : Dy :=
  let k := quoBits + b.log2
  let q := a * 2 ^ k / b
  { m := (2 * q + (if a * 2 ^ k % b = 0 then 0 else 1) : Nat), e := -(k : Int) - 1 }

/-- Exact quotient (R83), up to what no rounding sees. -/
def Num.div : Num → Num → Num
  | .nan, _ => .nan
  | _, .nan => .nan
  | .inf _, .inf _ => .nan
  | .zero _, .zero _ => .nan
  | .inf s, y => .inf (s ^^ y.neg?)
  | x, .inf t => .zero (x.neg? ^^ t)
  | .zero s, y => .zero (s ^^ y.neg?)
  | x, .zero t => .inf (x.neg? ^^ t)
  | .real x, .real y =>
    let q := divMag x.m.natAbs y.m.natAbs
    let q := { q with e := q.e + x.e - y.e }
    .real (if (decide (x.m < 0)) ^^ (decide (y.m < 0)) then q.neg else q)

/-- The integer square root, bit by bit from bit k − 1 down. -/
def isqrt (n : Nat) : Nat → Nat → Nat
  | 0, r => r
  | k + 1, r => isqrt n k (if (r + 2 ^ k) * (r + 2 ^ k) ≤ n then r + 2 ^ k else r)

/-- Exact square root (R83), up to what no rounding sees. -/
def Num.sqrt : Num → Num
  | .nan => .nan
  | .zero s => .zero s
  | .inf s => if s then .nan else .inf false
  | .real x =>
    if x.m < 0 then .nan
    else
      let odd : Nat := (x.e % 2).toNat
      let n := x.m.toNat * 2 ^ (odd + 2 * quoBits)
      let r := isqrt n (n.log2 / 2 + 1) 0
      .real { m := (2 * r + (if r * r = n then 0 else 1) : Nat), e := (x.e - odd) / 2 - (quoBits : Int) - 1 }

/-! ### 2 to a power (R154) -/

/-- Working precision of the power, in bits. -/
def expBits : Nat := 320

/-- ln 2 in units of 2^-expBits, by the series of (1/2)^n / n. -/
def ln2Sum : Nat → Nat
  | 0 => 0
  | n + 1 => ln2Sum n + 2 ^ (expBits + 32) / (2 ^ (n + 1) * (n + 1))

/-- e^t for 0 ≤ t < 1 in units of 2^-(expBits + 32), Horner's scheme from term n down. -/
def expSum (t : Nat) : Nat → Nat → Nat
  | 0, acc => acc
  | n + 1, acc => expSum t n (2 ^ (expBits + 32) + t * acc / 2 ^ (expBits + 32) / (n + 1))

/-- 2^a for a finite a (R154), to expBits bits (DEDUCED, log entry 8). -/
def exp2Dy (a : Dy) : Num :=
  if 0 ≤ a.e ∨ a.m % (2 ^ (-a.e).toNat : Nat) = 0 then
    let n : Int := if 0 ≤ a.e then a.at 0 else a.m / (2 ^ (-a.e).toNat : Nat)
    .real { m := 1, e := max (-4096) (min 4096 n) }
  else
    let d := (-a.e).toNat
    let n := a.m / (2 ^ d : Nat)
    let fr := (a.m % (2 ^ d : Nat)).toNat
    let p := expBits + 32
    let t := fr * ln2Sum (expBits + 40) / 2 ^ d
    let y := if t = 0 then 2 ^ p else expSum t 80 (2 ^ p)
    .real { m := (2 * y + 1 : Nat), e := max (-4096) (min 4096 n) - (p : Int) - 1 }

/-- 2 to the power of a number. -/
def Num.exp2 : Num → Num
  | .nan => .nan
  | .inf s => if s then .zero false else .inf false
  | .zero _ => .real { m := 1, e := 0 }
  | .real x => exp2Dy x

/-! ### Float operations on codes (R83 to R87, R148) -/

/-- The operations of FArith. -/
inductive FOp where
  | add
  | sub
  | mul
  | div
  | sqrt
  | fma
  deriving DecidableEq, Repr

/-- The first NaN among the codes. -/
def firstNaN (f : Fmt) : List Nat → Option Nat
  | [] => none
  | c :: cs => if f.isNaN (c % 2 ^ f.width) then some (c % 2 ^ f.width) else firstNaN f cs

/-- The exact result (R83). -/
def FOp.exact (op : FOp) (rdn : Bool) (a b c : Num) : Num :=
  match op with
  | .add => Num.add rdn a b
  | .sub => Num.add rdn a b.neg
  | .mul => a.mul b
  | .div => a.div b
  | .sqrt => a.sqrt
  | .fma => Num.add rdn (a.mul b) c

/-- The operands that an operation uses. -/
def FOp.uses (op : FOp) (a b c : Nat) : List Nat :=
  match op with
  | .sqrt => [a]
  | .fma => [a, b, c]
  | _ => [a, b]

/-- FArith (R83) on codes, with the draw g. -/
def fArith (op : FOp) (f : Fmt) (mode : Rm) (g a b c : Nat) : Nat :=
  match firstNaN f (op.uses a b c) with
  | some v => f.quiet v
  | none => (op.exact (decide (mode = .rdn)) (f.num a) (f.num b) (f.num c)).arith f mode g

/-- a < b on decoded values. -/
def Num.lt : Num → Num → Bool
  | .nan, _ => false
  | _, .nan => false
  | .inf s, .inf t => s && !t
  | .inf s, _ => s
  | _, .inf t => !t
  | .zero _, .zero _ => false
  | .zero _, .real y => decide (0 < y.m)
  | .real x, .zero _ => decide (x.m < 0)
  | .real x, .real y => x.lt y

/-- a below b, with −0 below +0 (R84). -/
def Num.below (a b : Num) : Bool :=
  match a, b with
  | .zero s, .zero t => s && !t
  | _, _ => a.lt b

/-- FMIN (R84) on codes. -/
def fMin (f : Fmt) (a b : Nat) : Nat :=
  let a := a % 2 ^ f.width
  let b := b % 2 ^ f.width
  if f.isNaN a then (if f.isNaN b then f.quiet a else b)
  else if f.isNaN b then a
  else if (f.num b).below (f.num a) then b else a

/-- FMAX (R84) on codes. -/
def fMax (f : Fmt) (a b : Nat) : Nat :=
  let a := a % 2 ^ f.width
  let b := b % 2 ^ f.width
  if f.isNaN a then (if f.isNaN b then f.quiet a else b)
  else if f.isNaN b then a
  else if (f.num a).below (f.num b) then b else a

/-- FCLASS (R85). -/
def fClass (f : Fmt) (c : Nat) : Nat :=
  let c := c % 2 ^ f.width
  let sub := !f.tapered && decide (c % 2 ^ (f.width - 1) < 2 ^ f.frac)
  match f.num c with
  | .nan => if f.hasInf && !c.testBit (f.frac - 1) then 2 ^ 8 else 2 ^ 9
  | .inf s => if s then 1 else 2 ^ 7
  | .zero s => if s then 2 ^ 3 else 2 ^ 4
  | .real x => if x.m < 0 then (if sub then 2 ^ 2 else 2 ^ 1) else if sub then 2 ^ 5 else 2 ^ 6

/-- FSGN (R86): the code of A with the given sign; a tapered zero or NaN is unchanged. -/
def fSign (f : Fmt) (a : Nat) (s : Bool) : Nat :=
  let a := a % 2 ^ f.width
  let m := a % 2 ^ (f.width - 1)
  if f.tapered && decide (m = 0) then a else m + (if s then 2 ^ (f.width - 1) else 0)

/-- FRND (R87) with the draw g. -/
def fRound (f : Fmt) (mode : Rm) (g a : Nat) : Nat :=
  let a := a % 2 ^ f.width
  match f.num a with
  | .nan => f.quiet a
  | .inf _ => a
  | .zero _ => a
  | .real x =>
    let y := roundInt mode g x
    if y = 0 then f.signed (decide (x.m < 0)) 0 else roundTo f .rtz 0 (Dy.ofInt y)

/-- 1/a (R154) on codes. -/
def fRcp (f : Fmt) (mode : Rm) (g a : Nat) : Nat :=
  match firstNaN f [a] with
  | some v => f.quiet v
  | none => ((Num.real { m := 1, e := 0 }).div (f.num a)).arith f mode g

/-- 2^a (R154) on codes. -/
def fExp2 (f : Fmt) (mode : Rm) (g a : Nat) : Nat :=
  match firstNaN f [a] with
  | some v => f.quiet v
  | none => ((f.num a).exp2).arith f mode g

/-! ### Sums of many terms (R55, R56) -/

/-- The exact sum of reals and zeros with the zero sign of R55, infinities and NaN by R56. -/
def sumNum (rdn : Bool) (ts : List Num) : Num :=
  if ts.any (fun t => decide (t = .nan)) then .nan
  else if ts.any (fun t => decide (t = .inf true)) then
    (if ts.any (fun t => decide (t = .inf false)) then .nan else .inf true)
  else if ts.any (fun t => decide (t = .inf false)) then .inf false
  else if ts.all (fun t => decide (t = .zero true)) then .zero true
  else if ts.all (fun t => decide (t = .zero false)) then .zero false
  else
    Num.ofDy (ts.foldl (fun acc t => match t with | .real x => acc.add x | _ => acc) {}) rdn

end Sys2Proof
end

