-- ==== Sys2Proof/Machine/Station.lean ====
section
/-! DEFINITION. The memory stations: translation and its checks, the physical memories, and control space (R193 to R205,
R430 to R433, R438). -/

namespace Sys2Proof.Machine

/-! ### Page tables (R195 to R199) -/

/-- Lowest VA bit indexed at a level (R197). -/
def levelLo : Nat → Nat
  | 0 => 17
  | 1 => 23
  | 2 => 29
  | 3 => 35
  | _ => 47

/-- Bits of the index of a level (R197). -/
def levelBits : Nat → Nat
  | 4 => 10
  | 3 => 12
  | _ => 6

/-- TYPE of an entry (R198). -/
def pteType (e : Word) : Nat := bits e 1 0
/-- NODE of an entry. -/
def pteNode (e : Word) : Nat := bits e 63 46
/-- ORD of a leaf. -/
def pteOrd (e : Word) : Nat := bits e 9 8
/-- HOST of a leaf. -/
def pteHost (e : Word) : Bool := bit e 10
/-- FORMOK of a leaf. -/
def pteFormOk (e : Word) : Bool := bit e 11
/-- The page's physical base. -/
def ptePa (e : Word) : Nat := bits e 45 12 * 4096
/-- The next table's physical base. -/
def pteTable (e : Word) : Nat := bits e 45 9 * 512

/-- A table lies where the context may have tables: the partition's slices, or the package's DRAM for the system table. -/
def State.tableOk (s : State) (part pa : Nat) : Bool :=
  if part < 24 then (s.partn part).owns pa else decide (pa < 0x6000000000)

/-- Check 3 of R199 on a leaf. -/
def State.leafOk (s : State) (level : Nat) (e : Word) : Bool :=
  decide (level < 4) && decide (bits e 4 2 = 0) && decide (ptePa e % 2 ^ levelLo level = 0) && decide (pteOrd e ≠ 3)
    && !(pteHost e && pteFormOk e) && !(pteHost e && decide (pteNode e ≠ s.nodeid.toNat))

/-- Check 3 of R199 on a table entry of a level. -/
def State.entryOk (s : State) (part level : Nat) (e : Word) : Bool :=
  decide (0 < level) && decide (bits e 8 2 = 0) && decide (pteNode e = s.nodeid.toNat)
    && decide (pteTable e % (8 * 2 ^ levelBits (level - 1)) = 0) && s.tableOk part (pteTable e)

/-- The walk from a table of a level down (R197, R199): the leaf's level and entry, or a cause. -/
def State.walkFrom (s : State) (part va : Nat) : Nat → Nat → Except Nat (Nat × Word)
  | level, table =>
    let e := s.dram.rdWord (table + 8 * (va / 2 ^ levelLo level % 2 ^ levelBits level))
    if pteType e = 0 then .error Cause.pageFault
    else if pteType e = 2 then (if s.leafOk level e then .ok (level, e) else .error Cause.access)
    else if pteType e = 1 && s.entryOk part level e then
      match level with
      | 0 => .error Cause.access
      | l + 1 => s.walkFrom part va l (pteTable e)
    else .error Cause.access

/-- The first-level table of a context (R195, R196): check 1 of R199. -/
def State.rootOf (s : State) (part pasid : Nat) : Option Nat :=
  if part < 24 then
    let p := s.partn part
    if p.tlen.toNat ≤ pasid then none
    else
      let lo := s.dram.rdWord (p.tbase.toNat + 16 * pasid)
      let hi := s.dram.rdWord (p.tbase.toNat + 16 * pasid + 8)
      if bit lo 0 && decide (hi = 0) && decide (bits lo 63 46 = 0) && decide (bits lo 12 1 = 0) then
        some (bits lo 45 13 * 8192)
      else none
  else some (bits s.sysroot 45 13 * 8192)

/-- A whole walk of a virtual offset. -/
def State.walkVa (s : State) (part pasid va : Nat) : Except Nat (Nat × Word) :=
  match s.rootOf part pasid with
  | none => .error Cause.access
  | some r => if s.tableOk part r then s.walkFrom part va 4 r else .error Cause.access

/-- The number of a context: partition and PASID; the system table has no PASID (R196). -/
def ctxKey (part pasid : Nat) : Nat := part * 2 ^ 20 + (if part < 24 then pasid else 0)

/-- The cached translation of a virtual offset. -/
def Station.find (st : Station) (ctx va : Nat) : Option TlbEntry :=
  st.tlb.find? fun e => decide (e.ctx = ctx) && decide (e.vpn = va / 2 ^ levelLo e.level)

/-- Cache a translation; the oldest of 4,096 makes room. DEDUCED, log entry 39. -/
def Station.cache (st : Station) (e : TlbEntry) : Station :=
  { st with tlb := (if 4096 ≤ st.tlb.length then st.tlb.drop 1 else st.tlb) ++ [e] }

/-- What a request needs of its page (R199): read, write, execute. -/
def Req.need : Req → Bool × Bool × Bool
  | .write _ _ _ => (false, true, false)
  | .engWrite _ _ _ => (false, true, false)
  | .amo _ _ _ _ _ => (true, true, false)
  | .qpool _ => (true, true, false)
  | .fetch => (false, false, true)
  | _ => (true, false, false)

/-- A physical place: node, host bit, address. -/
structure Phys where
  node : Nat := 0
  host : Bool := false
  pa : Nat := 0
  deriving DecidableEq, Repr

/-- The base of control space (R430). -/
def ctlBase : Nat := 0x3FF000000000

/-- Checks 4 to 6 of R199 on a leaf, and the physical address. -/
def State.leafAccess (s : State) (part level : Nat) (e : Word) (va : Nat) (need : Bool × Bool × Bool) (form sys2 ctlForm : Bool) :
    Except Nat Phys :=
  let pa := ptePa e + va % 2 ^ levelLo level
  let own := decide (pteNode e = s.nodeid.toNat)
  if (need.1 && !bit e 5) || (need.2.1 && !bit e 6) || (need.2.2 && !bit e 7) then .error Cause.access
  else if own && !pteHost e && decide (ctlBase ≤ pa) then
    (if sys2 && ctlForm && bit e 5 && bit e 6 && decide (pteOrd e = 0) then .ok { node := pteNode e, host := false, pa := pa }
     else .error Cause.access)
  else if own && !pteHost e && !(if part < 24 then (s.partn part).owns pa else decide (pa < 0x6000000000)) then
    .error Cause.access
  else if form && (!pteFormOk e || !own) then .error Cause.timingDeviation
  else .ok { node := pteNode e, host := pteHost e, pa := pa }

/-! ### Physical memories (R193, R204, R205) -/

/-- The place of an address in the memory of another package. -/
def foreignKey (p : Phys) : Nat := p.node * 2 ^ 46 + p.pa

/-- The address lies in the package's own DRAM. -/
def State.isDram (s : State) (p : Phys) : Bool := decide (p.node = s.nodeid.toNat) && !p.host

/-- Bytes at a physical place. PRESUMED, log entry 10. -/
def State.physRd (s : State) (p : Phys) (n : Nat) : List Byte :=
  if p.host then s.hostMem.rdN p.pa n
  else if p.node = s.nodeid.toNat then s.dram.rdN p.pa n
  else s.foreign.rdN (foreignKey p) n

/-- The keys of the lines at a physical place. -/
def physKeys (p : Phys) (n : Nat) : List Nat := (touched 64 p.pa n).map fun k => physKey p.node p.host (64 * k)

/-- Write bytes at a physical place; monitors are triggered (R164). PRESUMED, log entry 10. -/
def State.physWr (s : State) (p : Phys) (bs : List Byte) : State :=
  (if p.host then (if Sparse.get false s.hostBad (p.pa / 4096) then s else { s with hostMem := s.hostMem.wrN p.pa bs })
   else if p.node = s.nodeid.toNat then { s with dram := s.dram.wrN p.pa bs }
   else { s with foreign := s.foreign.wrN (foreignKey p) bs }).trigger (physKeys p bs.length)

/-- A node can be reached and the address lies in its DRAM (R205, R438). -/
def State.reachable (s : State) (p : Phys) : Bool :=
  if p.host || decide (p.node = s.nodeid.toNat) then true
  else
    let r := (Sparse.get 0xFF s.routes p.node).toNat
    decide (r < 16) && decide ((s.ports.toList.getD r {}).lanes ≠ 0) && decide (p.pa < 0x6000000000)

/-! ### Control space (R430 to R433) -/

/-- MSTATUS (R431). -/
def State.mstatus (s : State) : Word :=
  let fenced := ((List.range 576).filter fun u => (s.tile u).fenced).length
  BitVec.ofNat 64 (s.clock * 2 ^ 32 + fenced * 2 ^ 16 + min s.lost 15 * 2 ^ 12 + b2n s.tsync * 2 ^ 11
    + b2n (decide (s.clock < 2400)) * 2 ^ 10 + b2n s.replace * 2 ^ 9 + s.boot)

/-- A port register (R431). -/
def Port.word (p : Port) : Word :=
  BitVec.ofNat 64 (p.retries.toNat * 2 ^ 32 + p.lanes.toNat * 2 ^ 8 + b2n (decide (p.lanes ≠ 0)))

/-- A partition register (R432). -/
def Partition.reg (p : Partition) (o : Nat) : Option Word :=
  match o with
  | 0x000 => some p.pcfg
  | 0x008 => some p.tbase
  | 0x010 => some p.tlen
  | 0x018 => some p.ctxbase
  | 0x020 => some p.nctx
  | 0x028 => some p.lockva
  | 0x030 => some p.lockpasid
  | 0x040 => some p.hveclo
  | 0x048 => some p.hvechi
  | _ => none

/-- A register of a launch window (R129, R433). LAUNCH is written only: to a read it is no register. DESIGN CHOICE, log entry 48. -/
def Window.reg (wd : Window) (o : Nat) : Option Word :=
  match o with
  | 0x00 => some wd.lpatch
  | 0x10 => some (wd.lcount.zeroExtend 64)
  | 0x40 => some wd.wcfg
  | _ => none

/-- Eight bytes of the route table (R438). -/
def State.routeWord (s : State) (i : Nat) : Word :=
  BitVec.ofNat 64 (leNat ((span i 8).map fun k => Sparse.get 0xFF s.routes k))

/-- A register of a station's window (R430). -/
def Station.reg (st : Station) (j o : Nat) : Option Word :=
  if o = 0 then some (st.ringHead.zeroExtend 64)
  else if o = 8 then some (st.rovf.zeroExtend 64)
  else if 0x10000 ≤ o ∧ o < 0x20000 then
    let e : Quad := if 12 ≤ j then 0 else Sparse.get 0 st.ring ((o - 0x10000) / 16)
    some (if o / 8 % 2 = 0 then e.extractLsb' 0 64 else e.extractLsb' 64 64)
  else none

/-- A module register (R431). DESIGN CHOICE, log entry 11. -/
def State.moduleReg (s : State) (o : Nat) : Option Word :=
  if o = 0x000 then some (BitVec.ofNat 64 (Config.partNumber.toNat % 2 ^ 32 * 2 ^ 32 + Config.dieRevision.toNat % 2 ^ 16 * 2 ^ 16 + 1))
  else if o = 0x008 then some (s.nodeid.zeroExtend 64)
  else if o = 0x010 then some s.mstatus
  else if o = 0x020 then some s.sysroot
  else if o = 0x100 then some s.invva
  else if o = 0x108 then some s.invcnt
  else if o = 0x118 then some s.invseq
  else if o = 0x200 then some s.thrport
  else if o = 0x208 then some s.thrdram
  else if o = 0x210 then some s.thrmargin
  else if 0x300 ≤ o ∧ o < 0x340 then some (s.fabank.toList.getD ((o - 0x300) / 8) 0)
  else if 0x400 ≤ o ∧ o < 0x480 then some (s.ports.toList.getD ((o - 0x400) / 8) {}).word
  else if 0x480 ≤ o ∧ o < 0x500 then some (s.scctx.toList.getD ((o - 0x480) / 8) 0)
  else none

/-- A read of control space at an offset (R430); none for an unassigned one. DEDUCED, log entry 38. -/
def State.ctlRead (s : State) (o : Nat) : Option Word :=
  if o < 0x500 then s.moduleReg o
  else if 0x100000 ≤ o ∧ o < 0x118000 then (s.partn ((o - 0x100000) / 0x1000)).reg (o % 0x1000)
  else if 0x200000 ≤ o ∧ o < 0x200000 + 388 * 0x100 then (s.window ((o - 0x200000) / 0x100)).reg (o % 0x100)
  else if 0x400000 ≤ o ∧ o < 0xC00000 then some (s.nodes.rdWord (o - 0x400000))
  else if 0xC00000 ≤ o ∧ o < 0xC40000 then some (s.routeWord (o - 0xC00000))
  else if 0x1000000 ≤ o ∧ o < 0x1000000 + 96 * 0x20000 then
    let k := (o - 0x1000000) / 0x20000
    (s.station k).reg (k % 24) (o % 0x20000)
  else none

/-- The event that a write of control space is (R430); none when it is refused. DEDUCED, log entry 38. -/
def State.ctlWrite (s : State) (o : Nat) (v : Word) : Option Instr :=
  if o = 0x008 then (if s.boot < 4 then some (.nodeidWrite v) else none)
  else if o = 0x110 then (if s.invq.length < 16 then some (.invgo v) else none)
  else if o = 0x100 ∨ o = 0x108 ∨ o = 0x200 ∨ o = 0x208 ∨ o = 0x210 then some (.controlRegisterWrite o v)
  else if 0x300 ≤ o ∧ o < 0x340 then some (.fabankWrite ((o - 0x300) / 16) ((o - 0x300) / 8 % 2) v)
  else if 0x480 ≤ o ∧ o < 0x500 then some (.scctxWrite ((o - 0x480) / 8) v)
  else if 0x100000 ≤ o ∧ o < 0x118000 then
    let p := (o - 0x100000) / 0x1000
    if o % 0x1000 = 0 then some (.pcfgWrite p v)
    else if o % 0x1000 = 0x30 then some (.lockpasidWrite p v)
    else if (({} : Partition).reg (o % 0x1000)).isSome then some (.controlRegisterWrite o v)
    else none
  else if 0x200000 ≤ o ∧ o < 0x200000 + 388 * 0x100 then
    let wn := (o - 0x200000) / 0x100
    if o % 0x100 = 0x08 then some (.launch wn v)
    else if o % 0x100 = 0x40 then some (.wcfgWrite wn v)
    else if o % 0x100 = 0x00 ∨ o % 0x100 = 0x10 then some (.controlRegisterWrite o v)
    else none
  else if 0x400000 ≤ o ∧ o < 0xC40000 then some (.controlRegisterWrite o v)
  else none

/-! ### Accesses at the home station (R199, R203 to R205, R430) -/

/-- An atomic at a physical place: the old value and the state after it. -/
def State.amoPhys (s : State) (p : Phys) (op : AmoOp) (z : Nat) (b c : Word) : Nat × State :=
  let old := leNat (s.physRd p z)
  match amoNew op (8 * z) old b.toNat c.toNat with
  | some v => (old, s.physWr p (leBytes z v))
  | none => (old, s)

/-- The operations that travel as PCIe AtomicOps (R204). -/
def hostAmo (op : AmoOp) (red : Bool) : Bool :=
  match op with
  | .add => true
  | .swap | .cas => !red
  | _ => false

/-- An access of control space. DEDUCED, log entry 38. -/
def State.controlAccess (s : State) (p : Packet) (o : Nat) : State :=
  match p.req with
  | .read 8 false =>
    match s.ctlRead o with
    | some v => s.answer p.id (.data (val64 v))
    | none => s.answer p.id (.refused Cause.access)
  | .write bs false false =>
    match s.ctlWrite o (BitVec.ofNat 64 (leNat bs)) with
    | some e => { s.answer p.id .ack with agenda := e :: s.agenda }
    | none => s.answer p.id (.refused Cause.remoteRefused)
  | _ => s.answer p.id (.refused Cause.access)

/-- The form of an access that control space serves (R430): 8 bytes, aligned. -/
def ctlFormOk (req : Req) (va : Nat) : Bool :=
  match req with
  | .read 8 false => decide (va % 8 = 0)
  | .write bs false false => decide (bs.length = 8) && decide (va % 8 = 0)
  | _ => false

/-- The request is reserved for a location of DRAM. -/
def Packet.reserves (q : Packet) : Bool :=
  decide (q.stage = .reserved) && !q.host && (match q.target with | .station _ => true | .tile _ => false)

/-- The owning station of a DRAM address: the station of its quarter that interleaves its block (R194). -/
def owningStation (pa : Nat) : Nat := 24 * (pa / 0x1800000000) + pa % 0x1800000000 / 512 % 24

/-- The reservation queue of the location of an access is not empty, or the owning station's request queue is full (R203). How many
requests that queue holds is the implementation's. DESIGN CHOICE, log entry 39. -/
def State.ownerBusy (s : State) (p : Packet) (ph : Phys) : Bool :=
  (s.pkts.any fun q =>
    q.reserves && decide (q.node = ph.node) && decide (q.paddr / 8 ≤ (ph.pa + p.req.size - 1) / 8) && decide (ph.pa / 8 ≤ (q.paddr + q.req.size - 1) / 8))
    || decide (Config.stationQueue < (s.pkts.filter fun q => q.reserves && decide (owningStation q.paddr = owningStation ph.pa)).length)

/-- The host answers a request with Unsupported Request or Completer Abort (R204). -/
def State.hostAborts (s : State) (ph : Phys) : Bool := ph.host && Sparse.get false s.hostBad (ph.pa / 4096)

/-- The bytes of a read; of a host page that the host aborts they are free. DESIGN CHOICE, log entry 10. -/
def State.readPhys (s : State) (ph : Phys) (n : Nat) : List Byte × State :=
  if s.hostAborts ph then
    let r := s.frees ((n + 7) / 8)
    ((r.1.flatMap fun w => leBytes 8 w.toNat).take n, r.2)
  else (s.physRd ph n, s)

/-- An access whose physical place is known. -/
def State.physAccess (s : State) (p : Packet) (ph : Phys) : State :=
  let s := s.modPkt p.id fun q => { q with paddr := ph.pa, node := ph.node, host := ph.host }
  if !s.reachable ph then s.answer p.id (.refused Cause.remoteRefused)
  else if p.form && s.isDram ph && s.ownerBusy p ph then s.answer p.id (.refused Cause.timingDeviation)
  else if s.isDram ph && decide (ctlBase ≤ ph.pa) then s.controlAccess p (ph.pa - ctlBase)
  else
    let got := s.readPhys ph p.req.size
    match p.req with
    | .read _ _ => got.2.answer p.id (readAnswer got.1 false)
    | .fetch => got.2.answer p.id (.bytes got.1)
    | .engRead _ => got.2.answer p.id (.bytes got.1)
    | .write bs _ _ => (s.physWr ph bs).answer p.id .ack
    | .engWrite bs _ _ => (s.physWr ph bs).answer p.id .ack
    | .qpool _ => if ph.host then s.answer p.id (.refused Cause.access) else s.reserve p
    | .arm ix =>
      let s' : State :=
        { s with
          monRegs := s.monRegs ++ [{ key := physKey ph.node ph.host ph.pa, thread := p.thread, idx := ix, own := false }] }
      s'.answer p.id .ack
    | .amo op n b c red =>
      if ph.host && !hostAmo op red then s.answer p.id (.refused Cause.access)
      else if s.hostAborts ph then s.answer p.id (.refused Cause.remoteRefused)
      else if s.isDram ph then
        s.reserve p
      else
        let r := s.amoPhys ph op n b c
        r.2.answer p.id (if red then .ack else .data (amoResult n r.1))
    | _ => s.answer p.id (.refused Cause.access)

/-- An access with the leaf of its page. -/
def State.leafPerform (s : State) (p : Packet) (level : Nat) (leaf : Word) : State :=
  let sys2 := p.sys && decide ((s.th p.thread).arch.status.mode = 2)
  match s.leafAccess p.part level leaf p.addr p.req.need p.form sys2 (ctlFormOk p.req p.addr) with
  | .error c => s.answer p.id (.refused c)
  | .ok ph => s.physAccess p ph

/-- Two virtual offsets of a context lie in one page, as the tables stand. -/
def State.samePage (s : State) (part pasid va vb : Nat) : Bool :=
  match s.walkVa part pasid va with
  | .ok (l, _) => decide (va / 2 ^ levelLo l = vb / 2 ^ levelLo l)
  | .error _ => decide (va / 2 ^ 17 = vb / 2 ^ 17)

/-- A walk for this page is in flight at the station. DEDUCED, log entry 39. -/
def State.walkFor (s : State) (k : Nat) (p : Packet) : Bool :=
  (s.station k).walks.any fun wk => decide (wk.ctx = ctxKey p.part p.pasid) && s.samePage p.part p.pasid wk.va p.addr

/-- The miss buffer of a station is full: 2,048 requests wait in it (R200). -/
def State.missFull (s : State) (k : Nat) : Bool :=
  decide (2048 ≤ (s.pkts.filter fun q => decide (q.stage = .walking) && decide (q.target = .station k)).length)

/-- A request at its home station (R199, R200, R203): a hit is performed, a miss joins or starts a walk. A request that finds the
miss buffer full stays where it is; in form class a full buffer refuses a hit too. The first 64 walks of the list run; a
later one waits until one of them has ended. DEDUCED, log entry 39. -/
def State.stationServe (s : State) (k : Nat) (p : Packet) : State :=
  match (s.station k).find (ctxKey p.part p.pasid) p.addr with
  | some e =>
    if p.form && s.missFull k then s.answer p.id (.refused Cause.timingDeviation) else s.leafPerform p e.level e.leaf
  | none =>
    let s' :=
      if s.walkFor k p then s
      else s.modStation k fun st =>
        { st with walks := st.walks ++ [{ ctx := ctxKey p.part p.pasid, va := p.addr, noCache := false }] }
    if p.form then s'.answer p.id (.refused Cause.timingDeviation)
    else if s.missFull k then s
    else s'.modPkt p.id fun q => { q with stage := .walking }

/-- The home station of a GLOBAL offset for a unit (R194). -/
def homeStation (u va : Nat) : Nat := 24 * dieOf u + va / 512 % 24

/-- The owning quarter of a DRAM address (R193). -/
def dramDie (pa : Nat) : Nat := pa / 0x1800000000

end Sys2Proof.Machine
end

