-- ==== Sys2Proof/Machine/Memops.lean ====
section
/-! DEFINITION. What a thread's accesses to memory do: the handler reserve, held pages, race checks, watchpoints, posting
through the journal, and the region buffer of a redundant thread (R22, R90, R91, R227, R366 to R368, R378, R391 to R400, R413). -/

namespace Sys2Proof.Machine

/-! ### Redundant threads (R391, R392, R397) -/

/-- Entries of the region buffer in use (R391): engine undo records take none. -/
def Redund.used (r : Redund) : Nat := r.buf.length + (r.undo.filter fun x => !x.eng).length

/-- The region buffer is full (R391). -/
def Thread.bufFull (x : Thread) : Bool := x.redundant && decide (128 ≤ x.red.used)

/-- Record the words that a write is about to change (R391). -/
def State.undoPush (s : State) (u off n : Nat) : State :=
  s.modMe fun x => if x.redundant then { x with red := { x.red with undo := x.red.undo ++ [s.undoOf u off n] } } else x

/-- Keep an operation to an external address in the region buffer (R391). -/
def State.bufPush (s : State) (b : Buffered) : State :=
  s.modMe fun x => { x with red := { x.red with buf := x.red.buf ++ [b] } }

/-- The tag that an LDC of a granule of a TILE address finds, as the thread's own buffered writes leave it (R23, R391): an STC sets its
own, any other write clears it. -/
def bufTag (buf : List Buffered) (space addr n : Nat) (tag : Bool) : Bool :=
  if space ≠ 1 then tag
  else
    buf.foldl (fun b e =>
      if e.space = space ∧ e.kind ≠ 5 ∧ e.kind ≠ 6 ∧ e.addr.toNat < addr / 16 * 16 + max 16 n ∧ addr / 16 * 16 < e.addr.toNat + e.bytes.length then
        decide (e.kind = 1) && e.tag
      else b) tag

/-- One byte as the thread's own buffered writes leave it (R391). -/
def bufByte (buf : List Buffered) (space addr : Nat) (b : Byte) : Byte :=
  buf.foldl (fun b e =>
    if e.space = space ∧ e.kind ≠ 5 ∧ e.kind ≠ 6 ∧ e.addr.toNat ≤ addr ∧ addr < e.addr.toNat + e.bytes.length then
      e.bytes.getD (addr - e.addr.toNat) b
    else b) b

/-- Bytes as the thread's own buffered writes leave them. -/
def bufBytes (buf : List Buffered) (space : Nat) : Nat → List Byte → List Byte
  | _, [] => []
  | a, b :: bs => bufByte buf space a b :: bufBytes buf space (a + 1) bs

/-- Feed the bytes of an access (R397, R398): address, code byte, data. -/
def feedAccess (s : State) (ea : Word) (kind size : Nat) (data : List Byte) : State :=
  feed s (leBytes 8 ea.toNat ++ [BitVec.ofNat 8 (kind * 16 + size)] ++ data)

/-- Feed the bytes of a release point (R397): its kind and the operands as read. -/
def feedRelease (s : State) (kind : Nat) (ops : List Val) : State :=
  feed s (BitVec.ofNat 8 kind :: ops.flatMap fun v => leBytes 16 v.data.toNat ++ [BitVec.ofNat 8 (b2n v.tag)])

/-- Send the signature of the present thread to the vote unit and wait (R392). -/
def castVote (s : State) (i : Instr) (kind : Nat) : State :=
  let x := s.me
  let k := s.leaderKey s.cur
  let votes :=
    if s.votes.any fun v => v.leader = k then
      s.votes.map fun v => if v.leader = k then { v with sigs := v.sigs ++ [(x.ridx, x.red.sig)] } else v
    else s.votes ++ [{ leader := k, sigs := [(x.ridx, x.red.sig)], first := s.now }]
  let s := { s with votes := votes }
  s.modMe fun x => { x with run := .voting, insn := some i, cls := .issued, red := { x.red with vote := some kind } }

/-- A forced checkpoint (R391, R392, R397): the region buffer is full, and the instruction votes before it does anything. -/
def forced (s : State) (i : Instr) : State := castVote (feedRelease s 0x0D []) i 0x0D

/-- A release point (R392, R397): before the vote the thread feeds what it must, votes and waits; after the agreement the
instruction goes on with its own effect (R394). `fed` feeds the access of an instruction that is one too. -/
def atRelease (s : State) (i : Instr) (kind : Nat) (ops : List Val) (fed : State → State) : Option State :=
  if s.me.redundant && !s.me.red.agreed then some (castVote (feedRelease (fed s) kind ops) i kind) else none

/-- The values that the leader of a thread has produced (R399). -/
def State.leaderVals (s : State) (k : Nat) : List Wide :=
  match s.leaderLogs.find? fun l => l.leader = k with
  | some l => l.vals
  | none => []

/-- The leader hands a value to its replicas (R399). -/
def State.leaderPush (s : State) (k : Nat) (v : Wide) : State :=
  if s.leaderLogs.any fun l => l.leader = k then
    { s with leaderLogs := s.leaderLogs.map fun l => if l.leader = k then { l with vals := l.vals ++ [v] } else l }
  else { s with leaderLogs := s.leaderLogs ++ [{ leader := k, vals := [v] }] }

/-- A replica takes the next value of its leader; none when it has not been produced. -/
def State.leaderTake (s : State) : Option (Wide × State) :=
  match (s.leaderVals (s.leaderKey s.cur))[s.me.red.taken]? with
  | some v => some (v, s.modMe fun x => { x with red := { x.red with taken := x.red.taken + 1 } })
  | none => none

/-! ### Journal (R366, R367) -/

/-- Entry e of a unit's journal. -/
def State.jr (s : State) (u e : Nat) : JEntry := Sparse.get {} (s.tile u).journal e

/-- Put entry e of a unit's journal. -/
def State.setJr (s : State) (u e : Nat) (j : JEntry) : State :=
  s.modTile u fun x => { x with journal := Sparse.set {} x.journal e j }

/-- The lowest free entry. -/
def State.freeEntry (s : State) (u : Nat) : Option Nat := (span 0 32).find? fun e => (s.jr u e).state = .free

/-- A matrix command that stores rows through the journal. -/
def MxCmd.posts (c : MxCmd) : Bool :=
  match c.op with
  | .drain _ _ _ _ _ _ _ => true
  | _ => false

/-- Operations of a thread in flight that can raise an asynchronous trap (R362): each once, a drain by its journal entry. -/
def State.inFlight (s : State) (t : Nat) : Nat :=
  let x := s.tile (unitOf t)
  let d := dieOf (unitOf t)
  (x.journal.filter fun e => decide (e.2.thread = t) && (decide (e.2.state = .pending) || decide (e.2.state = .retrying))).length
    + (x.copies.filter fun c => c.thread = t).length
    + (x.indexes.filter fun c => c.thread = t).length
    + (x.mx.queue.filter fun c => decide (c.thread = t) && !c.posts).length
    + ((s.qt.toList.getD d {}).queue.filter fun c => c.thread = t).length
    + (match (s.qt.toList.getD d {}).running with | some c => if c.thread = t then 1 else 0 | none => 0)
    + ((s.fa.toList.getD d {}).queue.filter fun c => c.thread = t).length
    + ((s.fa.toList.getD d {}).running.filter fun c => c.2.thread = t).length

/-- A further operation of these kinds must wait (R362). -/
def State.asyncFull (s : State) (t : Nat) : Bool := decide (64 ≤ s.inFlight t + (s.th t).pend.length)

/-- SLOT of a journal entry: a slot, or the number of a system core in its die (R366). -/
def slotField (t : Nat) : Nat := if isSys (unitOf t) then (unitOf t - 576) % 4 else slotOf t

/-- The target of a posted operation: its tile and offset, or its home station and virtual offset; none when a TILE address
names no tile. -/
def State.postTarget (s : State) (t space : Nat) (ea : Word) : Option (Target × Nat) :=
  match space with
  | 0 => some (.tile (unitOf t), ea.toNat % 2 ^ 20)
  | 1 => (s.resolveTile t (ea.toNat % 2 ^ 30)).map fun v => (.tile v, ea.toNat % 2 ^ 20)
  | _ => some (.station (homeStation (unitOf t) (ea.toNat % 2 ^ 57)), ea.toNat % 2 ^ 57)

/-- Flits of a request (R115). -/
def Req.flits : Req → Nat
  | .write bs _ _ => (bs.length + 15) / 16
  | .engWrite bs _ _ => (bs.length + 15) / 16
  | .drain bs _ _ _ => (bs.length + 15) / 16
  | .message _ ws => (ws.length + 1) / 2
  | _ => 1

/-- Send the operation of journal entry e of unit u for thread t. -/
def State.departEntry (s : State) (t u e : Nat) (space : Nat) (ea : Word) (req : Req) : State :=
  match s.postTarget t space ea with
  | none => s.setJr u e { s.jr u e with state := .refused, cause := Cause.access }
  | some (tg, a) =>
    let s := if req.counted && decide (space ≠ 2) then s.countSent u else s
    let j := s.jr u e
    let p :=
      { s.threadPkt t with owner := .journal u e, req := req, target := tg, addr := a, flits := max 1 req.flits, inst := j.inst, born := j.born }
    match s.inst j.inst with
    | some i => s.sendPkt { p with pasid := i.pasid, form := i.form }
    | none => s.sendPkt p

/-- Post an operation: a journal entry and a packet (R366). The caller has found a free entry. -/
def State.post (s : State) (kind space op len : Nat) (ea : Word) (req : Req) (e : Nat) : State :=
  let t := s.cur
  let u := unitOf t
  let j : JEntry :=
    { addr := ea, state := .pending, space := space, kind := kind, slot := slotField t, op := op, len := len,
      issue := BitVec.ofNat 32 s.now, req := some req, thread := t, inst := (s.th t).inst, born := s.now }
  (s.setJr u e j).departEntry t u e space ea req

/-! ### Results of the access helpers -/

/-- Where an access or an instruction stands. -/
inductive Acc (α : Type) where
  /-- a precise trap: cause and TADDR -/
  | trap (cause : Nat) (addr : Word)
  /-- nothing has happened and the instruction is tried again -/
  | wait (cls : TurnClass)
  /-- the thread has left the rotation and the instruction is taken up again later -/
  | leave (s : State)
  /-- the effect has been made -/
  | ok (a : α)

/-- Go on with the effect that has been made. -/
def Acc.andThen {α β : Type} (x : Acc α) (f : α → Acc β) : Acc β :=
  match x with
  | .trap k a => .trap k a
  | .wait w => .wait w
  | .leave s => .leave s
  | .ok a => f a

/-! ### The handler reserve and held pages (R22, R378) -/

/-- The handler-reserve rule (R22) on bytes at an offset within a tile. -/
def reserveRule (x : Thread) (c : Val) (off n : Nat) : Option Nat :=
  if off % 2 ^ 20 + n ≤ 0xF0000 then none
  else if !x.priv then some Cause.access
  else if !c.has permSYS then some Cause.capPerm
  else none

/-- Watchpoints of a tile that an access of its own slots matches (R413): the AUX value of the first. -/
def Tile.watch (x : Tile) (off n : Nat) (wr : Bool) : Option Nat :=
  let hit (k : Nat) : Bool :=
    match x.wps.toList.getD k none with
    | some w => (if wr then w.wr else w.rd) && decide (off < w.base + w.size) && decide (w.base < off + n)
    | none => false
  ((span 0 4).find? hit).map fun k => k * 256 + 4

/-- Ask the slot to stop after an instruction that matches a watchpoint (R413). -/
def State.watchHit (s : State) (off n : Nat) (wr : Bool) : State :=
  match (s.tile (unitOf s.cur)).watch off n wr with
  | some a => s.modMe fun x => { x with stopAsk := some (x.stopAsk.getD a) }
  | none => s

/-- An access at the tile's local port: signal 1 of R418, and the watchpoints. -/
def State.localPort (s : State) (off n : Nat) (wr : Bool) : State :=
  (s.modTile (unitOf s.cur) fun x => x.signal 1).watchHit off n wr

/-- The checks of a LOCAL access after CapCheck and alignment: reserve, held page, race (R22, R227, R378). -/
def State.localCheck (s : State) (c : Val) (off n : Nat) (race : Bool) : Option Nat :=
  match reserveRule s.me c off n with
  | some k => some k
  | none =>
    if (s.tile (unitOf s.cur)).heldAny off n then some Cause.access
    else if race && s.raceLocal s.cur off n then some Cause.race
    else none

/-- An operation that a thread has sent to its own tile and that is not performed there yet. -/
def Packet.ownAhead (p : Packet) (t : Nat) : Bool :=
  decide (p.thread = t) && decide (p.target = .tile (unitOf t)) && !p.stale && (p.outbound || decide (p.stage = .reserved)) && p.own

/-- A LOCAL read of these bytes would pass an operation of its own thread on the same words, which R91 and row 1 of R216 forbid: it
waits before it issues. DEDUCED, log entry 22. -/
def State.ownRead (s : State) (off n : Nat) : Bool := s.pkts.any fun p => p.ownAhead s.cur && s.overlaps (unitOf s.cur) p off n

/-- A thread has sent a write to its own tile that is not performed there yet. A LOCAL write, or a release that covers LOCAL, would pass
it, which rows 1, 3 and 6 of R216 forbid: it waits before it issues. DEDUCED, log entry 22. -/
def State.ownWrites (s : State) (t : Nat) : Bool :=
  (s.pkts.any fun p => p.ownAhead t) || s.resending (unitOf t) { s.threadPkt t with born := s.now }

/-- A posted operation that a tile of its own replica refuses at once: its entry is REFUSED and its trap is pending (R227, R368). -/
def State.refused (s : State) (cause kind space op len : Nat) (ea : Word) (req : Req) : Acc State :=
  let t := s.cur
  match s.freeEntry (unitOf t) with
  | none => .wait .waitMem
  | some e =>
    let j : JEntry :=
      { addr := ea, cause := cause, state := .refused, space := space, kind := kind, slot := slotField t, op := op, len := len,
        issue := BitVec.ofNat 32 s.now, req := some req, thread := t, inst := s.me.inst, born := s.now }
    .ok ((s.setJr (unitOf t) e j).raise (unitOf t) t s.me.inst Cause.remoteRefused (BitVec.ofNat 64 e))

/-! ### Migration by an access (R174, R175) -/

/-- The thread's operations that a FENCE.FULL.SYS waits for are done (R170, R175). -/
def State.drained (s : State) (t : Nat) : Bool :=
  !((s.tile (unitOf t)).journal.any fun e => decide (e.2.thread = t) && !decide (e.2.state = .refused))
    && decide ((s.th t).redPending = 0)

/-- Start a migration to a tile: steps 1 to 4 of R175; `again` when the access is executed again there. -/
def startMigration (s : State) (i : Instr) (v : Nat) (ea : Word) (again : Bool) : Acc State :=
  let x := s.me
  if x.arch.status.form then .trap Cause.timingDeviation ea
  else if x.streams.toList.any Option.isSome then .trap Cause.access ea
  else if !s.drained s.cur then .wait .waitMem
  else
    let s := s.countSent (unitOf s.cur)
    .leave (s.modMe fun x =>
      { x with run := .migrating v again, insn := some i, cls := .issued, held := { x.held with result := some (.data (val64 ea)) } })

/-- An access through a TILE capability with MIGR moves the thread to another tile (R174); a system core never migrates (R2). -/
def migrates (c : Val) (t v : Nat) : Bool := c.has permMIGR && decide (v ≠ unitOf t) && !isSys (unitOf t)

/-- An access through a TILE capability with MIGR that names the own tile is performed locally (R174). -/
def staysLocal (c : Val) (t v : Nat) : Bool := c.has permMIGR && decide (v = unitOf t)

/-! ### Reading (R90, R91) -/

/-- The present thread leaves the rotation for a reply. -/
def leaveFor (s : State) (i : Instr) (r : Run) : State := s.modMe fun x => { x with run := r, insn := some i, cls := .issued }

/-- Bytes, tag and state of a completed read. -/
structure Got where
  bytes : List Byte := []
  tag : Bool := false
  s : State

/-- Send a read-like request of the present thread and wait for its reply; in a redundant thread the leader alone asks, and
a replica waits for the leader's value (R399). -/
def askFor (s : State) (i : Instr) (owner : Owner) (tg : Target) (addr : Nat) (req : Req) : State :=
  leaveFor (s.sendPkt { s.threadPkt s.cur with owner := owner, req := req, target := tg, addr := addr }) i .reply

/-- A LOCAL read after its checks. -/
def State.localRead (s : State) (off n : Nat) : Got :=
  let x := s.tile (unitOf s.cur)
  { bytes := x.rd off n, tag := x.tagAt off, s := s.localPort off n false }

/-- A precise trap of an instruction that finds an error in a word of the own tile which is not corrected (R189): ACCESS, and the
ERROR record of each such word. -/
def badRead (s : State) (i : Instr) (ea : Word) (off n : Nat) : State :=
  trapAt (s.readErrors (unitOf s.cur) off n) i Cause.access ea

/-- A read of the own tile with its checks. -/
def State.nearRead (s : State) (i : Instr) (c : Val) (ea : Word) (off n : Nat) : Acc Got :=
  match s.localCheck c off n true with
  | some k => .trap k ea
  | none =>
    if s.ownRead off n then .wait .waitMem
    else if (s.tile (unitOf s.cur)).bad? off n then .leave (badRead s i ea off n)
    else .ok ((s.readErrors (unitOf s.cur) off n).localRead off n)

/-- A refusal as a leader hands it on: no value of 128 bits with a tag and no untagged value has this form. -/
def Wide.refusal (cause : Nat) : Wide := { data := BitVec.ofNat 512 (2 ^ 511 + cause), tag := true }

/-- A trap as a leader hands it on. -/
def Wide.trap (cause : Nat) (addr : Word) : Wide :=
  { data := BitVec.ofNat 512 (2 ^ 511 + 2 ^ 510 + addr.toNat * 2 ^ 64 + cause), tag := true }

/-- An answer as a leader hands it on (R399). -/
def Answer.wide : Answer → Wide
  | .data v => { data := v.data.zeroExtend 512, tag := v.tag }
  | .bytes b => { data := BitVec.ofNat 512 (leNat b), tag := false }
  | .refused c => Wide.refusal c
  | .trapped c a => Wide.trap c a
  | _ => {}

/-- The value of a leader as an answer. -/
def Wide.answer (w : Wide) : Answer :=
  if w.tag && w.data.getLsbD 511 && w.data.getLsbD 510 then .trapped (w.data.extractLsb' 0 64).toNat (w.data.extractLsb' 64 64)
  else if w.tag && w.data.getLsbD 511 then .refused (w.data.toNat - 2 ^ 511)
  else if w.tag then .data { data := w.data.extractLsb' 0 128, tag := true }
  else .bytes (leBytes 64 w.data.toNat)

/-- Data bits of an answer. -/
def Answer.bits : Answer → BitVec 512
  | .data v => v.data.zeroExtend 512
  | .bytes b => BitVec.ofNat 512 (leNat b)
  | _ => 0

/-- Tag of an answer. -/
def Answer.tag : Answer → Bool
  | .data v => v.tag
  | _ => false

/-- Ask; in a replica of a redundant thread an external request is left to the leader (R399). -/
def askOnce (s : State) (i : Instr) (tg : Target) (addr : Nat) (req : Req) (ext : Bool) : State :=
  if ext && !s.leads s.cur then leaveFor s i .leader else askFor s i (.thread s.cur) tg addr req

/-- Ask, or in a replica of a redundant thread wait for the leader, which alone asks (R399); the signature takes the access. -/
def askLeader (s : State) (i : Instr) (ea : Word) (kind size : Nat) (data : List Byte) (tg : Target) (addr : Nat) (req : Req) : State :=
  askOnce (feedAccess s ea kind size data) i tg addr req true

/-- An off-tile read: asked for, or in a replica taken from the leader. -/
def remoteRead (s : State) (i : Instr) (ea : Word) (tg : Target) (addr n : Nat) (tagged ext : Bool) : Acc Got :=
  if s.me.redundant && ext then .leave (askLeader s i ea 11 (sizeCode n) [] tg addr (.read n tagged))
  else .leave (askFor s i (.thread s.cur) tg addr (.read n tagged))

/-- MemRead (R90) after CapCheck and the alignment check. -/
def memRead (s : State) (i : Instr) (c : Val) (ea : Word) (n : Nat) (tagged : Bool) : Acc Got :=
  let off := ea.toNat % 2 ^ 20
  match c.space with
  | 0 => s.nearRead i c ea off n
  | 1 =>
    match reserveRule s.me c off n with
    | some k => .trap k ea
    | none =>
      match s.resolveTile s.cur (ea.toNat % 2 ^ 30) with
      | none => .trap Cause.access ea
      | some v =>
        if migrates c s.cur v then
          (match startMigration s i v ea true with
           | .trap k a => .trap k a
           | .wait w => .wait w
           | .leave s => .leave s
           | .ok s => .leave s)
        else if staysLocal c s.cur v then s.nearRead i c ea off n
        else remoteRead s i ea (.tile v) off n tagged (!s.internal s.cur (ea.toNat % 2 ^ 30))
  | _ =>
    let va := ea.toNat % 2 ^ 57
    remoteRead s i ea (.station (homeStation (unitOf s.cur) va)) va n tagged true

/-- A read, or the reply that the instruction waited for; bytes that the thread's own region buffer holds override it (R391). -/
def memGet (s : State) (i : Instr) (c : Val) (ea : Word) (n : Nat) (tagged : Bool) : Acc Got :=
  match s.me.held.result with
  | none => memRead s i c ea n tagged
  | some (.refused k) => .trap k ea
  | some a =>
    .ok
      { bytes := bufBytes s.me.red.buf c.space ea.toNat (leBytes n a.bits.toNat)
        tag := bufTag s.me.red.buf c.space ea.toNat n a.tag
        s := s }

/-- CapCheck of the present thread (R20): the cause and the effective address. -/
def capTrap (s : State) (c : Val) (ea : Int) (n : Nat) (need : BitVec 8) : Option (Nat × Word) :=
  (capCheck c ea n need s.me.arch.status.form (isSys (unitOf s.cur))).map fun k => (k, wordOf ea)

/-- CapCheck and the alignment check (R20, R90) of the present thread. -/
def accessCheck (s : State) (c : Val) (ea : Int) (n : Nat) (need : BitVec 8) : Option (Nat × Word) :=
  match capTrap s c ea n need with
  | some p => some p
  | none => if ea % n ≠ 0 then some (Cause.align, wordOf ea) else none

/-! ### Writing (R90, R91) -/

/-- A LOCAL write after its checks. -/
def State.localWrite (s : State) (off : Nat) (bs : List Byte) (tag : Bool) : State :=
  let u := unitOf s.cur
  let s := (s.localPort off bs.length true).spadWrite u off bs (s.localWriter s.cur)
  if tag then s.modTile u fun x => x.setTag off true else s

/-- A write that a redundant thread makes in its own replica: fed, recorded and made at once (R391, R397). -/
def State.ownWrite (s : State) (ea : Word) (u off : Nat) (bs : List Byte) (tag : Bool) (kind : Nat) : State :=
  let data := if kind = 1 then bs ++ [BitVec.ofNat 8 (b2n tag)] else bs
  let s := feedAccess s ea (if kind = 7 then 9 else kind) (sizeCode bs.length) data
  let s := s.undoPush u off bs.length
  let s := s.spadWrite u off bs (s.writerOn s.cur u)
  if tag then s.modTile u fun x => x.setTag off true else s

/-- A write of a redundant thread to another tile of its replica: checked for races there as a remote write (R227). -/
def twinWrite (s : State) (ea : Word) (v off : Nat) (bs : List Byte) (tag : Bool) (kind : Nat) : Acc State :=
  let x := s.tile v
  let e := s.me.epoch
  if x.raceRemote off bs.length e && !s.ringOn v then s.refused Cause.race kind 1 0 bs.length ea (.write bs tag (decide (kind = 7)))
  else
    let s :=
      if x.raceAny off bs.length e && s.ringOn v then s.logRace v off bs.length (if kind = 7 then 2 else 0) (s.threadPkt s.cur) else s
    .ok (s.ownWrite ea v off bs tag kind)

/-- MemWrite (R90) after CapCheck, alignment and the STC check. `kind` is the journal kind: 0 ST, 1 STC, 7 append. -/
def memWrite (s : State) (i : Instr) (c : Val) (ea : Word) (bs : List Byte) (tag : Bool) (kind : Nat) : Acc State :=
  let off := ea.toNat % 2 ^ 20
  let red := s.me.redundant
  let post (space : Nat) : Acc State :=
    if red then
      let data := if kind = 1 then bs ++ [BitVec.ofNat 8 (b2n tag)] else bs
      let s := feedAccess s ea (if kind = 7 then 9 else kind) (sizeCode bs.length) data
      .ok (s.bufPush { kind := kind, space := space, addr := ea, op := 0, bytes := bs, tag := tag })
    else if s.asyncFull s.cur then .wait .waitMem
    else
      match s.freeEntry (unitOf s.cur) with
      | none => .wait .waitMem
      | some e => .ok (s.post kind space 0 bs.length ea (.write bs tag (decide (kind = 7))) e)
  let near : Acc State :=
    match s.localCheck c off bs.length true with
    | some k => .trap k ea
    | none =>
      if s.ownWrites s.cur then .wait .waitMem
      else if red then (if s.me.bufFull then .leave (forced s i) else .ok ((s.ownWrite ea (unitOf s.cur) off bs tag kind).localPort off bs.length true))
      else .ok (s.localWrite off bs tag)
  match c.space with
  | 0 => near
  | 1 =>
    match reserveRule s.me c off bs.length with
    | some k => .trap k ea
    | none =>
      match s.resolveTile s.cur (ea.toNat % 2 ^ 30) with
      | none => .trap Cause.access ea
      | some v =>
        if migrates c s.cur v then startMigration s i v ea true
        else if staysLocal c s.cur v then near
        else if s.me.bufFull then .leave (forced s i)
        else if red && s.internal s.cur (ea.toNat % 2 ^ 30) then twinWrite s ea v off bs tag kind
        else post 1
  | _ => if s.me.bufFull then .leave (forced s i) else post 2

end Sys2Proof.Machine
end

