-- ==== Sys2Proof/Machine/Operands.lean ====
section
/-! DEFINITION. The operand forms: links, streams and registers as sources and destinations, the order of what an issuing
instruction does, and its retirement (R9, R15, R34, R35, R108, R112, R113, R145, R146, R155 to R158). -/

namespace Sys2Proof.Machine

/-- Where the result of an instruction goes. -/
inductive Sink where
  | none
  | dst (d : Dst)
  /-- a vector destination -/
  | vec (v : VReg)
  /-- a register that is written on some paths only (LOOP) -/
  | late (r : Reg)
  deriving DecidableEq, Repr

/-- A result. -/
inductive Result where
  | none
  | val (v : Val)
  | vec (q : BitVec 512)
  deriving DecidableEq, Repr

/-- What an instruction that completes has done: the state with its own effects, its result, and a pc when it writes one. -/
structure Done where
  s : State
  r : Result := .none
  pc : Option Word := Option.none
  /-- the register that the instruction has bound anew (R157) -/
  bound : Option Nat := Option.none

/-- A result without another effect. -/
def Done.value (s : State) (v : Val) : Acc Done := .ok { s := s, r := .val v }

/-! ### Links -/

/-- The operand code of a link (R34). -/
def linkCode (l : Link) : Nat := 32 + (linkIx l).val

/-- The links that the sources name. -/
def srcLinks : List Src → List Link
  | [] => []
  | .link l :: xs => l :: srcLinks xs
  | _ :: xs => srcLinks xs

/-- The link that the destination names. -/
def Sink.link? : Sink → Option Link
  | .dst (.link l) => some l
  | _ => Option.none

/-- Source links that have not been received from. -/
def linksWanted (x : Thread) (xs : List Src) : List Link :=
  (srcLinks xs).filter fun l => !x.held.links.any fun p => p.1 = l

/-- The destination link in which no place is held. -/
def placeWanted (x : Thread) (d : Sink) : Option Link := if x.held.place = d.link? then Option.none else d.link?

/-- A wait for a link (R108): signal 8 of R418 until the slot's next turn. -/
def linkWait (s : State) : State := (waitTurn s .waitMsg).modMe fun x => { x with linkWait := true }

/-- The link checks of an instruction before it issues (R108, R112, R113): a trap, a wait, or nothing. -/
def linkGate (s : State) (i : Instr) (xs : List Src) (d : Sink) : Option State :=
  let u := unitOf s.cur
  let x := s.me
  let src := linksWanted x xs
  let dst := (placeWanted x d).toList
  match (src ++ dst).find? fun l => (s.neighbour u l).isNone with
  | some l => some (trapAt s i Cause.access (BitVec.ofNat 64 (linkCode l)))
  | Option.none =>
    match src.find? fun l => !(s.linkQ u l).ready s.now with
    | some l =>
      if x.arch.status.form then some (trapAt s i Cause.linkEmpty (BitVec.ofNat 64 (linkCode l))) else some (linkWait s)
    | Option.none =>
      match dst.find? fun l => s.linkFull u l with
      | some l =>
        if x.arch.status.form then some (trapAt s i Cause.linkFull (BitVec.ofNat 64 (linkCode l))) else some (linkWait s)
      | Option.none => Option.none

/-- Receive from the source links, each once (R35). -/
def receiveLinks (s : State) : List Link → State
  | [] => s
  | l :: ls =>
    if s.me.held.links.any fun p => p.1 = l then receiveLinks s ls
    else
      let r := s.recvLink (unitOf s.cur) l
      receiveLinks (r.2.modMe fun x => { x with held := { x.held with links := x.held.links ++ [(l, r.1)] } }) ls

/-- Receive, and take the place in the destination link (R35). -/
def takeOperands (s : State) (xs : List Src) (d : Sink) : State :=
  let want := placeWanted s.me d
  let s := receiveLinks s (srcLinks xs)
  match want with
  | some l => (s.takePlace (unitOf s.cur) l).modMe fun x => { x with held := { x.held with place := some l } }
  | Option.none => s

/-! ### Streams (R155 to R158) -/

/-- Bytes of an element by ESZ. -/
def eszBytes (z : Nat) : Nat := if z = 5 then 64 else 2 ^ z

/-- The next address of a stream (R158). -/
def Stream.next (st : Stream) : Int := (st.cap.addr.toNat : Int) + ((st.idx.zip st.strides).map fun p => (p.1 : Int) * p.2).sum

/-- Advance the indices as an odometer, DIM0 first. -/
def odometer : List Nat → List Nat → List Nat
  | i :: is, n :: ns => if i + 1 < n then (i + 1) :: is else 0 :: odometer is ns
  | _, _ => []

/-- Advance one element. -/
def Stream.advance (st : Stream) : Stream := { st with idx := odometer st.idx st.counts, left := st.left - 1 }

/-- The stream bound to a register. -/
def Thread.stream (x : Thread) (r : Nat) : Option Stream := (x.streamOf r).bind fun g => x.streams[g]

/-- Advance the stream of a register. -/
def Thread.advance (x : Thread) (r : Nat) : Thread :=
  match x.streamOf r with
  | some g => { x with streams := x.streams.set g (x.streams[g].map Stream.advance) }
  | Option.none => x

/-- The traps of a pop or an append before its access (R158): misuse, the end of the stream, CapCheck, alignment. DEDUCED, log entry 14. -/
def streamCheck (x : Thread) (sys : Bool) (st : Stream) (vec write : Bool) : Option (Nat × Word) :=
  let ea := st.next
  let n := eszBytes st.esz
  if st.write ≠ write ∨ decide (st.esz = 5) ≠ vec then some (Cause.access, wordOf ea)
  else if st.left = 0 then some (Cause.capBounds, st.cap.addr)
  else
    match capCheck st.cap ea n (if write then permW else permR) x.arch.status.form sys with
    | some k => some (k, wordOf ea)
    | Option.none => if ea % n ≠ 0 then some (Cause.align, wordOf ea) else Option.none

/-- A pop of the register's stream: held already, at once, or asked for. -/
def popStream (s : State) (i : Instr) (r : Nat) (st : Stream) (vec : Bool) : Acc (BitVec 512 × State) :=
  match s.me.held.pops.find? fun p => p.1 = r with
  | some p => .ok (p.2, s)
  | Option.none =>
    match streamCheck s.me (isSys (unitOf s.cur)) st vec false with
    | some (k, a) => .trap k a
    | Option.none =>
      match memGet s i st.cap (wordOf st.next) (eszBytes st.esz) false with
      | .trap k a => .trap k a
      | .wait w => .wait w
      | .leave s => .leave s
      | .ok g =>
        let v : BitVec 512 := BitVec.ofNat 512 (leNat g.bytes)
        .ok (v, g.s.modMe fun x => { x with held := { x.held with pops := x.held.pops ++ [(r, v)], result := none } })

/-- The value of a scalar source (R34, R35). -/
def readSrc (s : State) (i : Instr) (x : Src) : Acc (Val × State) :=
  match x with
  | .zero => .ok ({}, s)
  | .pc => .ok (val64 s.me.arch.pc, s)
  | .link l => .ok (val128 (((s.me.held.links.find? fun p => p.1 = l).map (·.2)).getD 0), s)
  | .reg r =>
    match s.me.stream r.val with
    | Option.none => .ok (s.me.arch.reg r, s)
    | some st =>
      match popStream s i r.val st false with
      | .trap k a => .trap k a
      | .wait w => .wait w
      | .leave s => .leave s
      | .ok (v, s) => .ok (val128 (v.extractLsb' 0 128), s)

/-- Register j of quad q. -/
def quadReg (q : Fin 8) (j : Nat) : Nat := 4 * q.val + j

/-- The value of a quad: c(4q + j) holds bits [128j + 127 : 128j] (R145). -/
def Arch.quad (a : Arch) (q : Fin 8) : BitVec 512 :=
  let g (j : Nat) : Quad := (a.regs.toList.getD (quadReg q j) {}).data
  g 3 ++ (g 2 ++ (g 1 ++ g 0))

/-- A bound register of a quad other than its base (R158). -/
def Thread.quadMisuse (x : Thread) (q : Fin 8) : Option Word :=
  ([1, 2, 3].filterMap fun j => x.stream (quadReg q j)).head?.map fun st => wordOf st.next

/-- The value of a vector source (R145, R146, R158). -/
def readVec (s : State) (i : Instr) (x : VReg) : Acc (BitVec 512 × State) :=
  match x with
  | .zero => .ok (0, s)
  | .quad q =>
    match s.me.quadMisuse q with
    | some a => .trap Cause.access a
    | Option.none =>
      match s.me.stream (quadReg q 0) with
      | Option.none => .ok (s.me.arch.quad q, s)
      | some st => popStream s i (quadReg q 0) st true

/-- The values of the scalar sources, in field order. -/
def readSrcs (s : State) (i : Instr) : List Src → Acc (List Val × State)
  | [] => .ok ([], s)
  | x :: xs =>
    match readSrc s i x with
    | .trap k a => .trap k a
    | .wait w => .wait w
    | .leave s => .leave s
    | .ok (v, s) =>
      match readSrcs s i xs with
      | .trap k a => .trap k a
      | .wait w => .wait w
      | .leave s => .leave s
      | .ok (vs, s) => .ok (v :: vs, s)

/-- The values of the vector sources, in field order. -/
def readVecs (s : State) (i : Instr) : List VReg → Acc (List (BitVec 512) × State)
  | [] => .ok ([], s)
  | x :: xs =>
    match readVec s i x with
    | .trap k a => .trap k a
    | .wait w => .wait w
    | .leave s => .leave s
    | .ok (v, s) =>
      match readVecs s i xs with
      | .trap k a => .trap k a
      | .wait w => .wait w
      | .leave s => .leave s
      | .ok (vs, s) => .ok (v :: vs, s)

/-! ### Destinations -/

/-- The register that a destination writes, and whether as the base of a vector. -/
def Sink.reg? : Sink → Option (Nat × Bool)
  | .dst (.reg r) => some (r.val, false)
  | .late r => some (r.val, false)
  | .vec (.quad q) => some (quadReg q 0, true)
  | _ => Option.none

/-- The traps of writing a destination that is bound to a stream (R158). -/
def sinkCheck (x : Thread) (sys : Bool) (d : Sink) : Option (Nat × Word) :=
  let mis :=
    match d with
    | .vec (.quad q) => x.quadMisuse q
    | _ => Option.none
  match mis with
  | some a => some (Cause.access, a)
  | Option.none =>
    match d.reg? with
    | Option.none => Option.none
    | some (r, vec) =>
      match x.stream r with
      | Option.none => Option.none
      | some st => streamCheck x sys st vec true

/-- The low `n` bytes of a result. -/
def Result.bytes (r : Result) (n : Nat) : List Byte :=
  match r with
  | .none => []
  | .val v => leBytes n v.data.toNat
  | .vec q => leBytes n q.toNat

/-- Write the four registers of a quad, tags 0 (R145). -/
def Arch.setQuad (a : Arch) (q : Fin 8) (v : BitVec 512) : Arch :=
  let put (a : Arch) (j : Nat) : Arch :=
    { a with regs := a.regs.setIfInBounds (quadReg q j) (val128 (v.extractLsb' (128 * j) 128)) }
  put (put (put (put a 0) 1) 2) 3

/-- Write a result to its destination: a register, a link, a stream, or nowhere. -/
def writeSink (s : State) (i : Instr) (d : Sink) (r : Result) : Acc State :=
  match d.reg?.bind fun p => s.me.stream p.1 with
  | some st => memWrite s i st.cap (wordOf st.next) (r.bytes (eszBytes st.esz)) false 7
  | Option.none =>
    match d, r with
    | .dst (.reg k), .val v => .ok (s.modArch fun a => a.setReg k v)
    | .late k, .val v => .ok (s.modArch fun a => a.setReg k v)
    | .dst (.link l), .val v => .ok (s.sendLink (unitOf s.cur) l v.data)
    | .vec (.quad q), .vec v => .ok (s.modArch fun a => a.setQuad q v)
    | _, _ => .ok s

/-! ### Retirement -/

/-- The registers of the streams that the instruction popped or appended to. -/
def streamRegs (x : Thread) (xs : List Src) (vs : List VReg) (d : Sink) (r : Result) : List Nat :=
  let src := xs.filterMap fun x => match x with | .reg r => some r.val | _ => Option.none
  let vec := vs.filterMap fun v => match v with | .quad q => some (quadReg q 0) | _ => Option.none
  let dst := if r = .none then [] else (d.reg?.map (·.1)).toList
  ((src ++ vec ++ dst).eraseDups).filter fun r => (x.stream r).isSome

/-- The instruction is done: the pc, the streams, and nothing held any more (R14, R158). -/
def retire (s : State) (i : Instr) (regs : List Nat) (pc : Option Word) : State :=
  s.modMe fun x =>
    let x := (regs.foldl Thread.advance x).stepped
    { x with
      run := .running
      held := {}
      insn := Option.none
      engWait := false
      cls := .issued
      red := x.red.settle { x.arch with pc := pc.getD (nextPC x.arch.pc i.bytes) } x.streams
      arch := { x.arch with pc := pc.getD (nextPC x.arch.pc i.bytes) } }

/-- Signal 0 of R418: a slot issues, in a cycle of its phase (R105). -/
def issued (s : State) : State :=
  if slotOf s.cur = s.now % 16 then s.modTile (unitOf s.cur) fun x => x.signal 0 else s

/-- A precise trap of the body of an instruction. A timing deviation is taken before the instruction receives from a link (R108), any
other trap after (R35). -/
def trapBody (s0 s1 : State) (i : Instr) (cause : Nat) (a : Word) : State :=
  trapAt (if cause = Cause.timingDeviation then s0 else s1) i cause a

/-- The body has left the rotation. A forced checkpoint is taken before the instruction has any effect (R391, R394). -/
def leaveBody (s0 s' : State) (i : Instr) : State :=
  if s'.me.red.vote = some 0x0D then forced s0 i else if s'.me.cls = .issued then issued s' else s'

/-- Finish an instruction: write the result and retire; an append that finds the journal full waits before issue, or keeps
what it holds when the thread had left the rotation (R108, R158). DEDUCED, log entry 14. -/
def finish (s0 s1 : State) (i : Instr) (xs : List Src) (vs : List VReg) (d : Sink) (dn : Done) : State :=
  let chk := if dn.r = .none then Option.none else sinkCheck dn.s.me (isSys (unitOf dn.s.cur)) d
  match chk with
  | some (k, a) => trapAt s1 i k a
  | Option.none =>
    let regs := (streamRegs dn.s.me xs vs d dn.r).filter fun r => decide (some r ≠ dn.bound)
    match writeSink dn.s i d dn.r with
    | .trap k a => trapBody s0 s1 i k a
    | .wait w => waitTurn s0 w
    | .leave s => leaveBody s0 s i
    | .ok s => retire (issued s) i regs dn.pc

/-- The thread takes up an instruction again, or issues it: it is running. -/
def awake (s : State) : State := s.modMe fun x => { x with run := .running }

/-- What every issuing instruction does (R35, R108, R112, R158): the link checks, receiving, reading the sources, the checks
of a bound destination, its own steps, and its retirement. A wait leaves the state before it received anything. DEDUCED, log entry 14. -/
def issue (s : State) (i : Instr) (xs : List Src) (vs : List VReg) (d : Sink)
    (body : List Val → List (BitVec 512) → State → Acc Done) : State :=
  let s := awake s
  match linkGate s i xs d with
  | some s' => s'
  | Option.none =>
    let s1 := takeOperands s xs d
    match readVecs s1 i vs with
    | .trap k a => trapBody s s1 i k a
    | .wait w => waitTurn s w
    | .leave s' => setClass (issued s') .issued
    | .ok (qs, s2) =>
      match readSrcs s2 i xs with
      | .trap k a => trapBody s s1 i k a
      | .wait w => waitTurn s w
      | .leave s' => setClass (issued s') .issued
      | .ok (ws, s3) =>
        let late := match d with | .late _ => true | _ => false
        match if late then Option.none else sinkCheck s3.me (isSys (unitOf s3.cur)) d with
        | some (k, a) => trapAt s1 i k a
        | Option.none =>
          match body ws qs s3 with
          | .trap k a => trapBody s s1 i k a
          | .wait w => waitTurn s w
          | .leave s' => leaveBody s s' i
          | .ok dn => finish s s1 i xs vs d dn

/-- An instruction with scalar operands only. -/
def scalar (s : State) (i : Instr) (d : Dst) (xs : List Src) (f : List Val → State → Acc Done) : State :=
  issue s i xs [] (.dst d) fun ws _ s => f ws s

/-- An instruction that computes one value from its scalar sources. -/
def compute (s : State) (i : Instr) (d : Dst) (xs : List Src) (f : List Val → Val) : State :=
  scalar s i d xs fun ws s => Done.value s (f ws)

/-- Check 9 of R37: a form that needs handler or system mode. -/
def needPriv (s : State) (i : Instr) (k : State → State) : State :=
  if s.me.priv then k s else trapAt s i Cause.privilege i.low

/-- On a system core, an instruction outside the profile of R2 has been refused by the decoder. The first scalar value. -/
def arg (ws : List Val) (k : Nat) : Val := ws.getD k {}

/-- The first vector value. -/
def qarg (qs : List (BitVec 512)) (k : Nat) : BitVec 512 := qs.getD k 0

end Sys2Proof.Machine
end

