-- ==== Sys2Proof/Machine/Atomic.lean ====
section
/-! DEFINITION. Atomics, reductions and fences (R144, R167 to R170, R214, R215, R332, R400). -/

namespace Sys2Proof.Machine

/-! ### Fences (R170) -/

/-- The owning quarter of a GLOBAL address of a thread; none for host memory, another package, or no translation. -/
def State.ownerDie (s : State) (t va : Nat) : Option (Option Nat) :=
  match s.walkVa (s.partOf (unitOf t)) (s.pasidOf t) va with
  | .error _ => none
  | .ok (l, e) =>
    if pteHost e || decide (pteNode e ≠ s.nodeid.toNat) then some none
    else some (some (dramDie (ptePa e + va % 2 ^ levelLo l)))

/-- A target lies in a scope (R170). A GLOBAL address without translation lies in every scope that holds stations. DEDUCED, log entry 22. -/
def State.inScope (s : State) (t space : Nat) (ea : Word) (sc : Scope) : Bool :=
  let u := unitOf t
  match sc with
  | .slot | .tile => false
  | .sys => true
  | sc =>
    if space = 2 then
      match sc, s.ownerDie t (ea.toNat % 2 ^ 57) with
      | .cluster, _ => false
      | _, none => true
      | .pkg, some o => o.isSome
      | _, some o => decide (o = some (dieOf u))
    else
      let v := if space = 0 then u else (s.resolveTile t (ea.toNat % 2 ^ 30)).getD u
      match sc with
      | .cluster => sameCluster u v
      | .die => decide (dieOf u = dieOf v)
      | _ => true

/-- Every earlier posted operation of the thread whose target lies in the scope is acknowledged or refused (R170). At the scopes slot
and tile only what the thread has sent to its own tile through a TILE capability can be open. DEDUCED, log entry 22. -/
def State.fenced (s : State) (t : Nat) (sc : Scope) : Bool :=
  match sc with
  | .slot | .tile => !s.ownWrites t
  | sc =>
    (s.tile (unitOf t)).journal.all fun e =>
      !decide (e.2.thread = t) || decide (e.2.state = .refused) || decide (e.2.state = .free)
        || !s.inScope t e.2.space e.2.addr sc

/-- FENCE (R170): a release waits; an acquire completes. DEDUCED, log entry 22. -/
def fenceBody (s : State) (i : Instr) (k : FenceKind) (sc : Scope) : Acc Done :=
  match k with
  | .acq => .ok { s := s }
  | _ =>
    match atRelease s i 0x01 [] id with
    | some s' => .leave s'
    | none => if s.fenced s.cur sc then .ok { s := s } else .wait .waitMem

/-- FENCE (R170). -/
def execFence (k : FenceKind) (sc : Scope) (s : State) : Out :=
  fin s (issue s (.fence k sc) [] [] .none fun _ _ s => fenceBody s (.fence k sc) k sc)

/-! ### AMO and RED (R168, R169) -/

/-- Operand width in bytes. -/
def amoBytes : AmoSize → Nat
  | .w => 4
  | .d => 8

/-- An order with release semantics (R214). -/
def releases : Order → Bool
  | .rel | .ar => true
  | _ => false

/-- The operands of an AMO or RED once read. -/
structure AmoArgs where
  op : AmoOp
  n : Nat
  order : Order
  scope : Scope
  c : Val
  ea : Int
  b : Val
  cmp : Val := {}
  red : Bool := false

/-- The request. -/
def AmoArgs.req (x : AmoArgs) : Req := .amo x.op x.n x.b.lo x.cmp.lo x.red

/-- SUB code of an operation (R167). -/
def amoCode : AmoOp → Nat
  | .add => 0
  | .and => 1
  | .or => 2
  | .xor => 3
  | .min => 4
  | .max => 5
  | .minu => 6
  | .maxu => 7
  | .swap => 8
  | .cas => 9

/-- The bytes that the signature takes (R398). -/
def AmoArgs.fedBytes (x : AmoArgs) : List Byte :=
  if x.red then leBytes 8 x.b.lo.toNat
  else leBytes x.n x.b.lo.toNat ++ (if x.op = .cas then leBytes x.n x.cmp.lo.toNat else [])

/-- Feed the access (R397). -/
def AmoArgs.fed (x : AmoArgs) (s : State) : State :=
  feedAccess s (wordOf x.ea) (if x.red then 7 else 8) (sizeCode x.n) x.fedBytes

/-- The access of a redundant thread in its own replica: fed and recorded, unless its release has been agreed (R391, R400). -/
def AmoArgs.record (x : AmoArgs) (s : State) (u off : Nat) : State :=
  if s.me.redundant && !s.me.red.agreed then (x.fed s).undoPush u off x.n else s

/-- A requester holds or waits for the reservation of a word of a tile. -/
def State.reservedAt (s : State) (u off : Nat) : Bool :=
  s.pkts.any fun p => decide (p.stage = .reserved) && decide (p.target = .tile u) && decide (p.addr / 8 = off / 8)

/-- The writer that a packet is at a tile: one of no flits is a LOCAL AMO that waits at its own tile. -/
def Packet.writer (p : Packet) : Writer := { remote := decide (p.flits ≠ 0), slot := slotOf p.thread, epoch := p.epoch }

/-- An atomic takes effect at its port: a remote one is checked for races (R227) and a RED logged (R225) now, and a word with an error
that is not corrected refuses it (R189). -/
def State.amoAtPort (s : State) (u : Nat) (p : Packet) (op : AmoOp) (n : Nat) (b c : Word) (red : Bool) : Answer × State :=
  let x := s.tile u
  if p.writer.remote && x.raceRemote p.addr n p.epoch && !(red && s.ringOn u) then (.refused Cause.race, s)
  else if x.bad? p.addr n then (.refused Cause.access, s.readErrors u p.addr n)
  else
    let s := if p.writer.remote && red && x.raceAny p.addr n p.epoch && s.ringOn u then s.logRace u p.addr n 1 p else s
    let r := (s.readErrors u p.addr n).amoTile u p.addr op n b c p.writer
    (if red then .ack else .data (amoResult n r.1), r.2)

/-- The read-modify-write of a packet that holds the reservation: its answer and the state after it. -/
def State.atomicNow (s : State) (p : Packet) : Answer × State :=
  let ph : Phys := { node := p.node, host := p.host, pa := p.paddr }
  match p.req, p.target with
  | .amo op n b c red, .tile u => s.amoAtPort u p op n b c red
  | .amo op n b c red, .station _ =>
    let r := s.amoPhys ph op n b c
    (if red then .ack else .data (amoResult n r.1), r.2)
  | .qpool new?, .station _ =>
    let old := leNat (s.physRd ph 16)
    (.data (val128 (BitVec.ofNat 128 old)),
      match new? with
      | some (c, l) => s.physWr ph (leBytes 8 c.toNat ++ leBytes 8 l.toNat)
      | none => s)
  | _, _ => (.none, s)

/-- A LOCAL AMO that waited has its answer. -/
def localAtomicDone (s : State) (p : Packet) (a : Answer) : State :=
  let s := s.modPkt p.id fun q => { q with answer := a, back := true, stage := .answered, due := s.now }
  { s with agenda := .replyLands p.id :: s.agenda }

/-- A packet that holds the reservation takes effect and is answered. -/
def State.grant (s : State) (p : Packet) : State :=
  let r := s.atomicNow p
  if p.flits = 0 then localAtomicDone r.2 p r.1 else r.2.answer p.id r.1

/-- Whatever waits for the reservation of a word of a tile takes effect, oldest first. -/
def State.grantAll (s : State) (u off : Nat) : State :=
  (s.reservers { id := s.nextPkt, target := .tile u, addr := off }).foldl (fun s q => s.grant q) s

/-- On the own tile, now. -/
def amoNow (s : State) (i : Instr) (x : AmoArgs) : Acc Done :=
  let u := unitOf s.cur
  let off := (wordOf x.ea).toNat % 2 ^ 20
  if (s.tile u).bad? off x.n then .leave (badRead s i (wordOf x.ea) off x.n)
  else
    let s := x.record (s.readErrors u off x.n) u off
    let r := (s.localPort off x.n true).amoTile u off x.op x.n x.b.lo x.cmp.lo (s.localWriter s.cur)
    .ok { s := r.2, r := if x.red then .none else .val (amoResult x.n r.1) }

/-- On the own tile (R168, R169). An AMO whose word remote requesters hold waits for the reservation. A RED, which its port acknowledges
within 10 cycles, and an AMO of the form class, whose time the program alone fixes (R118), find what was queued before them done.
DEDUCED, log entry 22. -/
def amoNear (s : State) (i : Instr) (x : AmoArgs) : Acc Done :=
  let u := unitOf s.cur
  let ea := wordOf x.ea
  let off := ea.toNat % 2 ^ 20
  match s.localCheck x.c off x.n true with
  | some k => .trap k ea
  | none =>
    if s.ownWrites s.cur then .wait .waitMem
    else if s.me.bufFull then .leave (forced s i)
    else if !s.reservedAt u off then amoNow s i x
    else if x.red || s.me.arch.status.form then amoNow (s.grantAll u off) i x
    else if s.me.redundant && !s.me.red.agreed then .wait .waitMem
    else
      let p := { s.threadPkt s.cur with id := s.nextPkt, req := x.req, target := .tile u, addr := off, issue := s.now, born := s.now,
                                        due := s.now, stage := .reserved, flits := 0 }
      .leave (leaveFor { s with pkts := s.pkts ++ [p], nextPkt := s.nextPkt + 1 } i .reply)

/-- Post a RED (R169). -/
def redPost (s : State) (x : AmoArgs) (space : Nat) : Acc Done :=
  match s.freeEntry (unitOf s.cur) with
  | none => .wait .waitMem
  | some e =>
    let s := s.post 5 space (amoCode x.op) x.n (wordOf x.ea) x.req e
    .ok { s := s.modMe fun y => { y with redPending := y.redPending + 1 } }

/-- A redundant thread on another tile of its own replica: checked there as a remote request, fed, recorded and made at once (R227,
R391, R400). DEDUCED, log entry 31. -/
def amoTwin (s : State) (i : Instr) (x : AmoArgs) (u addr : Nat) : Acc Done :=
  let p := { s.threadPkt s.cur with target := .tile u, addr := addr }
  if s.me.bufFull then .leave (forced s i)
  else if s.reservedAt u addr then .wait .waitMem
  else
    let r := s.amoAtPort u p x.op x.n x.b.lo x.cmp.lo x.red
    match r.1, x.red with
    | .refused k, false => .leave (trapAt r.2 i k (wordOf x.ea))
    | .refused k, true => (r.2.refused k 5 1 (amoCode x.op) x.n (wordOf x.ea) x.req).andThen fun s => .ok { s := s }
    | a, red =>
      let r := (x.record s u addr).amoAtPort u p x.op x.n x.b.lo x.cmp.lo red
      .ok { s := r.2, r := if red then .none else .val { data := a.bits.extractLsb' 0 128, tag := false } }

/-- An AMO at another owner. DEDUCED, log entry 31. -/
def amoAsk (s : State) (i : Instr) (x : AmoArgs) (tg : Target) (addr : Nat) (ext : Bool) : Acc Done :=
  match
    if s.me.redundant && ext then atRelease s i 0x07 ([x.c, x.b] ++ if x.op = .cas then [x.cmp] else []) x.fed else none
  with
  | some s' => .leave s'
  | none =>
    if releases x.order && !s.fenced s.cur x.scope then .wait .waitMem
    else
      match tg with
      | .tile u => if s.me.redundant && !ext then amoTwin s i x u addr else .leave (askOnce s i tg addr x.req ext)
      | .station _ => .leave (askOnce s i tg addr x.req s.me.redundant)

/-- A RED as the region buffer keeps it (R391). -/
def AmoArgs.buffered (x : AmoArgs) (space : Nat) : Buffered :=
  { kind := 5, space := space, addr := wordOf x.ea, op := amoCode x.op, bytes := leBytes x.n x.b.lo.toNat }

/-- A RED at another owner. -/
def redFar (s : State) (i : Instr) (x : AmoArgs) (space : Nat) (tg : Target) (addr : Nat) (ext : Bool) : Acc Done :=
  let red := s.me.redundant
  match tg, red && !ext with
  | .tile u, true => amoTwin s i x u addr
  | _, _ =>
    if red && !releases x.order then
      if s.me.bufFull then .leave (forced s i) else .ok { s := (x.fed s).bufPush (x.buffered space) }
    else if !s.leads s.cur then .ok { s := s }
    else if releases x.order && !s.fenced s.cur x.scope then .wait .waitMem
    else if 8 ≤ s.me.redPending ∨ s.asyncFull s.cur then .wait .waitMem
    else redPost s x space

/-- At another owner. -/
def amoFar (s : State) (i : Instr) (x : AmoArgs) (space : Nat) (tg : Target) (addr : Nat) (ext : Bool) : Acc Done :=
  if x.red then redFar s i x space tg addr ext else amoAsk s i x tg addr ext

/-- The access in its space, once its checks have passed. -/
def amoSpace (s : State) (i : Instr) (x : AmoArgs) : Acc Done :=
  let ea := wordOf x.ea
  let near (s : State) : Acc Done :=
    if releases x.order && !s.fenced s.cur x.scope then .wait .waitMem
    else if x.red && (decide (8 ≤ s.me.redPending) || s.asyncFull s.cur) then .wait .waitMem
    else amoNear s i x
  let rel (ext : Bool) (k : Acc Done) : Acc Done :=
    if x.red && releases x.order then
      if ext && s.me.bufFull && !s.me.red.agreed then .leave (forced s i)
      else
        match
          atRelease s i 0x08 [x.c, x.b] fun s => if ext then (x.fed s).bufPush { x.buffered x.c.space with own := true } else x.fed s
        with
        | some s' => .leave s'
        | none => k
    else k
  match x.c.space with
  | 0 => rel false (near s)
  | 1 =>
    match s.resolveTile s.cur (ea.toNat % 2 ^ 30) with
    | none => .trap Cause.access ea
    | some t =>
      if migrates x.c s.cur t then (startMigration s i t ea true).andThen fun s => .leave s
      else if staysLocal x.c s.cur t then rel false (near s)
      else
        let ext := !s.internal s.cur (ea.toNat % 2 ^ 30)
        rel ext (amoFar s i x 1 (.tile t) (ea.toNat % 2 ^ 20) ext)
  | _ =>
    let va := ea.toNat % 2 ^ 57
    rel true (amoFar s i x 2 (.station (homeStation (unitOf s.cur) va)) va true)

/-- AMO and RED (R168). -/
def amoBody (s : State) (i : Instr) (x : AmoArgs) : Acc Done :=
  match accessCheck s x.c x.ea x.n (permR ||| permW) with
  | some (k, w) => .trap k w
  | none =>
    let w := wordOf x.ea
    match if x.c.space = 2 then none else reserveRule s.me x.c (w.toNat % 2 ^ 20) x.n with
    | some k => .trap k w
    | none =>
      match s.me.held.result with
      | some (.refused k) => .trap k w
      | some a => .ok { s := s, r := .val { data := a.bits.extractLsb' 0 128, tag := false } }
      | none => amoSpace s i x

/-- An AMO. -/
def amoForm (s : State) (i : Instr) (op : AmoOp) (z : AmoSize) (o : Order) (sc : Scope) (d : Dst) (a : Reg) (xs : List Src)
    (off : BitVec 10) : State :=
  issue s i (.reg a :: xs) [] (.dst d) fun ws _ s =>
    amoBody s i
      { op := op, n := amoBytes z, order := o, scope := sc, c := arg ws 0, ea := (arg ws 0).addr.toNat + off.toInt, b := arg ws 1,
        cmp := arg ws 2 }

/-- A RED. -/
def redForm (s : State) (i : Instr) (op : AmoOp) (z : AmoSize) (o : Order) (sc : Scope) (a : Reg) (b : Src) (off : BitVec 10) :
    State :=
  issue s i [.reg a, b] [] .none fun ws _ s =>
    amoBody s i
      { op := op, n := amoBytes z, order := o, scope := sc, c := arg ws 0, ea := (arg ws 0).addr.toNat + off.toInt, b := arg ws 1,
        red := true }

/-- AMO add (R168). -/
def execAmoAdd (z : AmoSize) (o : Order) (sc : Scope) (d : Dst) (a : Reg) (b : Src) (off : BitVec 10) (s : State) : Out :=
  fin s (amoForm s (.amoAdd z o sc d a b off) .add z o sc d a [b] off)

/-- AMO and (R168). -/
def execAmoAnd (z : AmoSize) (o : Order) (sc : Scope) (d : Dst) (a : Reg) (b : Src) (off : BitVec 10) (s : State) : Out :=
  fin s (amoForm s (.amoAnd z o sc d a b off) .and z o sc d a [b] off)

/-- AMO or (R168). -/
def execAmoOr (z : AmoSize) (o : Order) (sc : Scope) (d : Dst) (a : Reg) (b : Src) (off : BitVec 10) (s : State) : Out :=
  fin s (amoForm s (.amoOr z o sc d a b off) .or z o sc d a [b] off)

/-- AMO xor (R168). -/
def execAmoXor (z : AmoSize) (o : Order) (sc : Scope) (d : Dst) (a : Reg) (b : Src) (off : BitVec 10) (s : State) : Out :=
  fin s (amoForm s (.amoXor z o sc d a b off) .xor z o sc d a [b] off)

/-- AMO min (R168). -/
def execAmoMin (z : AmoSize) (o : Order) (sc : Scope) (d : Dst) (a : Reg) (b : Src) (off : BitVec 10) (s : State) : Out :=
  fin s (amoForm s (.amoMin z o sc d a b off) .min z o sc d a [b] off)

/-- AMO max (R168). -/
def execAmoMax (z : AmoSize) (o : Order) (sc : Scope) (d : Dst) (a : Reg) (b : Src) (off : BitVec 10) (s : State) : Out :=
  fin s (amoForm s (.amoMax z o sc d a b off) .max z o sc d a [b] off)

/-- AMO minu (R168). -/
def execAmoMinu (z : AmoSize) (o : Order) (sc : Scope) (d : Dst) (a : Reg) (b : Src) (off : BitVec 10) (s : State) : Out :=
  fin s (amoForm s (.amoMinu z o sc d a b off) .minu z o sc d a [b] off)

/-- AMO maxu (R168). -/
def execAmoMaxu (z : AmoSize) (o : Order) (sc : Scope) (d : Dst) (a : Reg) (b : Src) (off : BitVec 10) (s : State) : Out :=
  fin s (amoForm s (.amoMaxu z o sc d a b off) .maxu z o sc d a [b] off)

/-- AMO swap (R168). -/
def execAmoSwap (z : AmoSize) (o : Order) (sc : Scope) (d : Dst) (a : Reg) (b : Src) (off : BitVec 10) (s : State) : Out :=
  fin s (amoForm s (.amoSwap z o sc d a b off) .swap z o sc d a [b] off)

/-- AMO cas (R168). -/
def execAmoCas (z : AmoSize) (o : Order) (sc : Scope) (d : Dst) (a : Reg) (b c : Src) (off : BitVec 10) (s : State) : Out :=
  fin s (amoForm s (.amoCas z o sc d a b c off) .cas z o sc d a [b, c] off)

/-- RED add (R169). -/
def execRedAdd (z : AmoSize) (o : Order) (sc : Scope) (a : Reg) (b : Src) (off : BitVec 10) (s : State) : Out :=
  fin s (redForm s (.redAdd z o sc a b off) .add z o sc a b off)

/-- RED and (R169). -/
def execRedAnd (z : AmoSize) (o : Order) (sc : Scope) (a : Reg) (b : Src) (off : BitVec 10) (s : State) : Out :=
  fin s (redForm s (.redAnd z o sc a b off) .and z o sc a b off)

/-- RED or (R169). -/
def execRedOr (z : AmoSize) (o : Order) (sc : Scope) (a : Reg) (b : Src) (off : BitVec 10) (s : State) : Out :=
  fin s (redForm s (.redOr z o sc a b off) .or z o sc a b off)

/-- RED xor (R169). -/
def execRedXor (z : AmoSize) (o : Order) (sc : Scope) (a : Reg) (b : Src) (off : BitVec 10) (s : State) : Out :=
  fin s (redForm s (.redXor z o sc a b off) .xor z o sc a b off)

/-- RED min (R169). -/
def execRedMin (z : AmoSize) (o : Order) (sc : Scope) (a : Reg) (b : Src) (off : BitVec 10) (s : State) : Out :=
  fin s (redForm s (.redMin z o sc a b off) .min z o sc a b off)

/-- RED max (R169). -/
def execRedMax (z : AmoSize) (o : Order) (sc : Scope) (a : Reg) (b : Src) (off : BitVec 10) (s : State) : Out :=
  fin s (redForm s (.redMax z o sc a b off) .max z o sc a b off)

/-- RED minu (R169). -/
def execRedMinu (z : AmoSize) (o : Order) (sc : Scope) (a : Reg) (b : Src) (off : BitVec 10) (s : State) : Out :=
  fin s (redForm s (.redMinu z o sc a b off) .minu z o sc a b off)

/-- RED maxu (R169). -/
def execRedMaxu (z : AmoSize) (o : Order) (sc : Scope) (a : Reg) (b : Src) (off : BitVec 10) (s : State) : Out :=
  fin s (redForm s (.redMaxu z o sc a b off) .maxu z o sc a b off)

/-! ### At the owner (R168) -/

/-- The packet holds the reservation: it is the oldest in its location's queue. -/
def State.holdsReservation (s : State) (p : Packet) : Bool :=
  !s.pkts.any fun q =>
    decide (q.stage = .reserved) && sameWord p q && (decide (q.due < p.due) || (decide (q.due = p.due) && decide (q.id < p.id)))

/-- ATOMIC_AT_OWNER (R168): the oldest operation queued for a location takes effect. -/
def execAtomicAtOwner (p : Nat) (s : State) : Out :=
  fin s
    (match s.pkt p with
     | none => s
     | some q =>
       if q.stage = .reserved && s.holdsReservation q then s.grant q else s)

end Sys2Proof.Machine
end

