-- ==== Sys2Proof/Machine/Capability.lean ====
section
/-! DEFINITION. Capability instructions (R77 to R80). -/

namespace Sys2Proof.Machine

/-- CSETB (R79): the derived capability, or the cause of its trap. -/
def csetb (tight : Bool) (c : Val) (len : Word) : Except Nat Val :=
  if !c.tag ∨ c.resv ≠ 0 ∨ c.space = 3 then .error Cause.capTag
  else
    match offsetOf c.space c.addr.toNat with
    | none => .error Cause.capBounds
    | some base =>
      let pb := (bounds c).1
      let pt := (bounds c).2
      let top := base + len.toNat
      if base < pb ∨ pt < top then .error Cause.capBounds
      else
        match fitExp base top 44 0 with
        | none => .error Cause.capBounds
        | some e =>
          let nb := base / 2 ^ e
          let nt := (top + 2 ^ e - 1) / 2 ^ e
          if tight ∧ (nb * 2 ^ e ≠ base ∨ nt * 2 ^ e ≠ top) then .error Cause.capBounds
          else if nb * 2 ^ e < pb ∨ pt < min (nt * 2 ^ e) (2 ^ spaceWidth c.space) then .error Cause.capBounds
          else .ok (c.withWindow e nb nt)

/-- Both forms of CSETB. -/
def csetbForm (s : State) (i : Instr) (tight : Bool) (d : Dst) (a b : Src) : State :=
  scalar s i d [a, b] fun ws s =>
    match csetb tight (arg ws 0) (arg ws 1).lo with
    | .error k => .trap k (arg ws 0).addr
    | .ok v => Done.value s v

/-- CSETB (R79). -/
def execCsetb (d : Dst) (a b : Src) (s : State) : Out := fin s (csetbForm s (.csetb d a b) false d a b)

/-- CSETB.TIGHT (R79). -/
def execCsetbTight (d : Dst) (a b : Src) (s : State) : Out := fin s (csetbForm s (.csetbTight d a b) true d a b)

/-- CGETB (R80). -/
def execCgetb (d : Dst) (a : Src) (s : State) : Out :=
  fin s (compute s (.cgetb d a) d [a] fun ws =>
    let r := bounds (arg ws 0)
    val128 (BitVec.ofNat 64 r.2 ++ BitVec.ofNat 64 r.1))

/-- CGETA (R80). -/
def execCgeta (d : Dst) (a : Src) (s : State) : Out := fin s (compute s (.cgeta d a) d [a] fun ws => val64 (arg ws 0).lo)

/-- CTAG (R80). -/
def execCtag (d : Dst) (a : Src) (s : State) : Out :=
  fin s (compute s (.ctag d a) d [a] fun ws => val64 (if (arg ws 0).tag then 1 else 0))

/-- CINC with a register (R80). -/
def execCinc (d : Dst) (a b : Src) (s : State) : Out :=
  fin s (compute s (.cinc d a b) d [a, b] fun ws => (arg ws 0).withAddr ((arg ws 0).lo + (arg ws 1).lo))

/-- CINC with an immediate (R80). -/
def execCincImm (d : Dst) (a : Src) (imm : BitVec 18) (s : State) : Out :=
  fin s (compute s (.cincImm d a imm) d [a] fun ws => (arg ws 0).withAddr ((arg ws 0).lo + imm.signExtend 64))

/-- The value with its PERM field masked; the tag is kept (R80). -/
def Val.maskPerm (c : Val) (m : BitVec 8) : Val :=
  { data := c.data.extractLsb' 72 56 ++ (c.perm &&& m) ++ c.lo, tag := c.tag }

/-- CANDP with a register (R80). -/
def execCandp (d : Dst) (a b : Src) (s : State) : Out :=
  fin s (compute s (.candp d a b) d [a, b] fun ws => (arg ws 0).maskPerm ((arg ws 1).data.extractLsb' 0 8))

/-- CANDP with an immediate (R80). -/
def execCandpImm (d : Dst) (a : Src) (imm : BitVec 8) (s : State) : Out :=
  fin s (compute s (.candpImm d a imm) d [a] fun ws => (arg ws 0).maskPerm imm)

/-- CCLR (R80). -/
def execCclr (d : Dst) (a : Src) (s : State) : Out := fin s (compute s (.cclr d a) d [a] fun ws => val128 (arg ws 0).data)

/-- CMOV (R80). -/
def execCmov (d : Dst) (a : Src) (s : State) : Out := fin s (compute s (.cmov d a) d [a] fun ws => arg ws 0)

end Sys2Proof.Machine
end

