-- ==== Sys2Proof/Machine/Flags.lean ====
section
/-! DEFINITION. Conditions: the machine has no flag register, and every test is one of these (R67, R84, R149). -/

namespace Sys2Proof.Machine

/-- The conditions of R67 on values of `n` bits, read unsigned as a and b and signed as their sign extensions. -/
def condHolds (c : Cond) (n a b : Nat) : Bool :=
  let a := a % 2 ^ n
  let b := b % 2 ^ n
  match c with
  | .eq => decide (a = b)
  | .ne => decide (a ≠ b)
  | .lt => decide (sext a n < sext b n)
  | .ge => decide (sext b n ≤ sext a n)
  | .ltu => decide (a < b)
  | .geu => decide (b ≤ a)
  | .gt => decide (sext b n < sext a n)
  | .le => decide (sext a n ≤ sext b n)
  | .gtu => decide (b < a)
  | .leu => decide (a ≤ b)
  | .bs => decide (a &&& b ≠ 0)
  | .bc => decide (a &&& b = 0)

/-- The condition with a code of R67. -/
def condOf (k : Nat) : Cond :=
  match k with
  | 0 => .eq
  | 1 => .ne
  | 2 => .lt
  | 3 => .ge
  | 4 => .ltu
  | 5 => .geu
  | 6 => .gt
  | 7 => .le
  | 8 => .gtu
  | 9 => .leu
  | 10 => .bs
  | _ => .bc

/-- The float condition with a code of R84. -/
def fcondOf (k : Nat) : FCond :=
  match k with
  | 0 => .eq
  | 1 => .ne
  | 2 => .lt
  | 3 => .le
  | 4 => .gt
  | 5 => .ge
  | 6 => .un
  | _ => .ord

/-- The conditions of R84 on codes of a float format. -/
def fcondHolds (c : FCond) (f : Fmt) (a b : Nat) : Bool :=
  let x := f.num a
  let y := f.num b
  let nan := decide (x = .nan) || decide (y = .nan)
  match c with
  | .eq => !nan && !x.lt y && !y.lt x
  | .ne => nan || x.lt y || y.lt x
  | .lt => !nan && x.lt y
  | .le => !nan && !y.lt x
  | .gt => !nan && y.lt x
  | .ge => !nan && !x.lt y
  | .un => nan
  | .ord => !nan

end Sys2Proof.Machine
end

