-- ==== Sys2Proof/Machine/Control.lean ====
section
/-! DEFINITION. Control transfers (R71 to R76). -/

namespace Sys2Proof.Machine

/-- The target of a pc-relative transfer: address + 4 * offset (R71). -/
def target (a : Word) (off : Int) : Word := a + wordOf (4 * off)

/-- In FOLLOWING, an outcome that differs from the leader's ends the state: taken against not taken, or another target (R121). -/
def followCheck (s : State) (taken : Bool) (pc : Word) : State :=
  let l := s.th (16 * leaderOf (unitOf s.cur) + slotOf s.cur)
  if s.me.arch.status.following && (decide (l.arch.pc ≠ pc) || decide (l.issue.taken ≠ taken)) then leaveFollow s else s

/-- A transfer to `t`, or on to NextPC when `t` is none. -/
def transfer (s : State) (i : Instr) (r : Result) (t : Option Word) : Acc Done :=
  let pc := t.getD (nextPC s.me.arch.pc i.bytes)
  let s := (followCheck s t.isSome pc).modMe fun x => { x with issue := { x.issue with taken := t.isSome } }
  .ok { s := s, r := r, pc := some pc }

/-- BR with a register operand (R72). -/
def execBr (c : Cond) (a b : Src) (off : BitVec 18) (s : State) : Out :=
  fin s (issue s (.br c a b off) [a, b] [] .none fun ws _ s =>
    transfer s (.br c a b off) .none
      (if condHolds c 64 (arg ws 0).data.toNat (arg ws 1).data.toNat then some (target s.me.arch.pc off.toInt) else none))

/-- BR with an immediate operand (R72). -/
def execBrImm (c : Cond) (a : Src) (imm : BitVec 32) (off : BitVec 18) (s : State) : Out :=
  fin s (issue s (.brImm c a imm off) [a] [] .none fun ws _ s =>
    transfer s (.brImm c a imm off) .none
      (if condHolds c 64 (arg ws 0).data.toNat (imm.signExtend 64).toNat then some (target s.me.arch.pc off.toInt) else none))

/-- J and JL (R73): the link is NextPC, plain data (R71). -/
def jump (s : State) (i : Instr) (d : Dst) (off : Int) : State :=
  scalar s i d [] fun _ s =>
    transfer s i (.val (val64 (nextPC s.me.arch.pc i.bytes))) (some (target s.me.arch.pc off))

/-- J (R73). -/
def execJ (off : BitVec 18) (s : State) : Out := fin s (jump s (.j off) .zero off.toInt)

/-- J with a 32-bit offset (R73). -/
def execJExt (off : BitVec 32) (s : State) : Out := fin s (jump s (.jExt off) .zero off.toInt)

/-- JL (R73). -/
def execJl (d : Dst) (off : BitVec 18) (s : State) : Out := fin s (jump s (.jl d off) d off.toInt)

/-- JL with a 32-bit offset (R73). -/
def execJlExt (d : Dst) (off : BitVec 32) (s : State) : Out := fin s (jump s (.jlExt d off) d off.toInt)

/-- The capability checks of JR, in their order (R74). -/
def jrCheck (c : Val) : Option Nat :=
  if !c.tag then none
  else if c.resv ≠ 0 then some Cause.capTag
  else if c.space = 3 then some Cause.capTag
  else if c.space ≠ 2 then some Cause.capPerm
  else if !c.has permX then some Cause.capPerm
  else none

/-- JR (R74). -/
def execJr (d : Dst) (a : Src) (off : BitVec 18) (s : State) : Out :=
  fin s (scalar s (.jr d a off) d [a] fun ws s =>
    let c := arg ws 0
    let t := target c.lo off.toInt
    match jrCheck c with
    | some k => .trap k t
    | none =>
      let link := nextPC s.me.arch.pc 8
      let s := if c.tag then s.modArch fun x => { x with xcap := c } else s
      transfer s (.jr d a off) (.val (val64 link)) (some t))

/-- LOOP (R75). -/
def execLoop (d : Reg) (off : BitVec 18) (s : State) : Out :=
  fin s (issue s (.loop d off) [.reg d] [] (.late d) fun ws _ s =>
    let n := (arg ws 0).lo
    if n = 0 then transfer s (.loop d off) .none none
    else
      transfer s (.loop d off) (.val (val64 (n - 1))) (if n - 1 ≠ 0 then some (target s.me.arch.pc off.toInt) else none))

/-- The effects of HALT (R76): pc, the stop and its record. In a FORM launch the slot alone stops. DESIGN CHOICE, log entry 48. -/
def haltNow (s : State) (i : Instr) : State :=
  let pc := s.me.arch.pc
  let s := retire (issued s) i [] none
  let s := leaveFollow s
  let s := s.modMe fun x => { x with run := .halted }
  sendRecord s s.cur recStop Cause.debugHalt 1 pc

/-- HALT (R76). -/
def execHalt (s : State) : Out := fin s (needPriv (awake s) .halt fun s => haltNow s .halt)

end Sys2Proof.Machine
end

