-- ==== Sys2Proof/Machine/Pending.lean ====
section
/-! DEFINITION. Refused journal entries, those of saved gangs among them, and messages that wait for earlier ones (R173, R366 to R368,
R379). -/

namespace Sys2Proof.Machine

/-! ### Journal entries (R366 to R368) -/

/-- An entry becomes REFUSED, and its trap becomes pending; an entry of a thread that has exited is recorded and freed. -/
def State.refuseEntry (s : State) (u e cause trap : Nat) : State :=
  let j := s.jr u e
  let s := s.raise u j.thread j.inst trap (BitVec.ofNat 64 e)
  if s.alive j.thread j.inst || s.isSaved j.thread j.inst then s.setJr u e { j with state := .refused, cause := cause }
  else s.setJr u e {}

/-- Entries of saved gangs have numbers of their own in packets: 1000 + 32 * CTX + entry. -/
def savedEntry (ctx e : Nat) : Nat := 1000 + 32 * ctx + e

/-- Change entry e of the saved gang with context tag ctx. -/
def State.modSavedJr (s : State) (u ctx e : Nat) (f : JEntry → JEntry) : State :=
  s.modTile u fun x =>
    { x with
      saved := x.saved.map fun v =>
        if v.gang.ctx = ctx then { v with journal := v.journal.set e (f (v.journal.getD e {})) } else v }

/-- The saved entry of a number in a packet. -/
def State.savedJr (s : State) (u n : Nat) : JEntry :=
  match (s.tile u).saved.find? fun v => v.gang.ctx = (n - 1000) / 32 with
  | some v => v.journal.getD ((n - 1000) % 32) {}
  | none => {}

/-- The entry of a packet, live or saved. -/
def State.entry (s : State) (u n : Nat) : JEntry := if 1000 ≤ n then s.savedJr u n else s.jr u n

/-- Put the entry of a packet. -/
def State.setEntry (s : State) (u n : Nat) (j : JEntry) : State :=
  if 1000 ≤ n then s.modSavedJr u ((n - 1000) / 32) ((n - 1000) % 32) fun _ => j else s.setJr u n j

/-- The refusal of the entry of a packet lands (R368, R379). -/
def State.refuse (s : State) (u n cause trap : Nat) : State :=
  if 1000 ≤ n then
    let j := s.savedJr u n
    let s := s.setEntry u n { j with state := .refused, cause := cause }
    s.raise u j.thread j.inst trap (BitVec.ofNat 64 ((n - 1000) % 32))
  else s.refuseEntry u n cause trap

/-- Act for a thread that is not the present one. -/
def State.asThread (s : State) (t : Nat) (f : State → State) : State := { f { s with cur := t } with cur := s.cur }

/-! ### Mailbox messages held behind earlier ones (R173) -/

/-- Entry a is older than entry b. -/
def State.older (s : State) (a b : JEntry) : Bool :=
  let age (j : JEntry) : Nat := (s.now + 2 ^ 32 - j.issue.toNat) % 2 ^ 32
  decide (age b < age a)

/-- Two messages of one thread go to one mailbox. -/
def State.sameBox (s : State) (a b : JEntry) : Bool :=
  decide (a.kind = 6) && decide (b.kind = 6) && decide (a.thread = b.thread) && decide (a.op = b.op)
    && decide ((s.postTarget a.thread a.space a.addr).map (·.1) = (s.postTarget b.thread b.space b.addr).map (·.1))

/-- An earlier message to the same mailbox is being retried. -/
def State.behind (s : State) (u : Nat) (j : JEntry) : Bool :=
  (s.tile u).journal.any fun e =>
    s.sameBox e.2 j && s.older e.2 j
      && (decide (e.2.state = .retrying) || (decide (e.2.state = .pending) && (decide (0 < e.2.tries) || e.2.unsent)))

/-- Send the messages of a unit that are held and are behind no other any more; at most n of them. -/
def State.releaseHeld (s : State) (u : Nat) : Nat → State
  | 0 => s
  | n + 1 =>
    match (s.tile u).journal.find? fun e =>
      decide (e.2.kind = 6) && e.2.unsent && decide (e.2.state = .pending) && !s.behind u e.2 with
    | none => s
    | some (e, j) =>
      match j.req with
      | none => s
      | some req => ((s.setJr u e { j with unsent := false }).departEntry j.thread u e j.space j.addr req).releaseHeld u n

/-- An entry is freed. -/
def State.freeJr (s : State) (u e : Nat) : State := (s.setJr u e {}).releaseHeld u 32

end Sys2Proof.Machine
end

