-- ==== Sys2Proof/Machine/Message.lean ====
section
/-! DEFINITION. Mailboxes: MBCFG, SEND, delivery and resend (R171 to R173). -/

namespace Sys2Proof.Machine

/-! ### MBCFG (R171) -/

/-- Put a mailbox of a tile. -/
def Tile.setBox (x : Tile) (m : Fin 4) (b : Mailbox) : Tile := { x with mail := x.mail.set m b }

/-- Mark n words from an offset empty. -/
def markWords (s : State) (u off : Nat) : Nat → State
  | 0 => s
  | n + 1 => markWords (s.markEmpty u off) u (off + 8) n

/-- MBCFG on the value of the ring capability. DEDUCED, log entry 15. -/
def mbcfgBody (s : State) (i : Instr) (m : Fin 4) (c : Val) (size : Nat) : Acc Done :=
  match capTrap s c c.addr.toNat (8 * size) permW with
  | some (k, w) => .trap k w
  | none =>
    if c.space ≠ 0 then .trap Cause.access c.addr
    else if c.addr.toNat % 8 ≠ 0 then .trap Cause.align c.addr
    else
      let off := c.addr.toNat
      match s.localCheck c off (8 * size) false with
      | some k => .trap k c.addr
      | none =>
        if s.ownWrites s.cur then .wait .waitMem
        else if s.me.bufFull then .leave (forced s i)
        else
          let u := unitOf s.cur
          let s := s.undoPush u off (8 * size)
          .ok { s := (markWords s u off size).modTile u fun x => x.setBox m { on := true, base := off, size := size, tail := 0 } }

/-- MBCFG (R171). -/
def execMbcfg (m : Fin 4) (a : Reg) (size : BitVec 18) (s : State) : Out :=
  fin s (issue s (.mbcfg m a size) [.reg a] [] .none fun ws _ s =>
    mbcfgBody s (.mbcfg m a size) m (arg ws 0) size.toNat)

/-- MBCFG.OFF (R171). -/
def execMbcfgOff (m : Fin 4) (s : State) : Out :=
  fin s (issue s (.mbcfgOff m) [] [] .none fun _ _ s => .ok { s := s.modTile (unitOf s.cur) fun x => x.setBox m {} })

/-! ### SEND (R172) -/

/-- Read the words of a SEND, one after another; n are left. A system core waits for each at its home station. -/
def sendWords (s : State) (i : Instr) (c : Val) (src : Word) (k : Nat) : Nat → List Word → Acc (List Word × State)
  | 0, ws => .ok (ws, s)
  | n + 1, ws =>
    match s.me.held.pops.find? fun p => p.1 = wordSlot k with
    | some p => sendWords s i c src (k + 1) n (ws ++ [p.2.extractLsb' 0 64])
    | none =>
      (memGet s i c (src + BitVec.ofNat 64 (8 * k)) 8 false).andThen fun g =>
        let v := leNat g.bytes
        let s := g.s.modMe fun x =>
          { x with held := { x.held with pops := x.held.pops ++ [(wordSlot k, BitVec.ofNat 512 v)], result := none } }
        sendWords s i c src (k + 1) n (ws ++ [BitVec.ofNat 64 v])

/-- The words of a SEND from the own scratchpad: no word of it is checked for races (R227). -/
def sendLocal (s : State) (i : Instr) (c : Val) (src : Word) (n : Nat) : Acc (List Word × State) :=
  let off := src.toNat % 2 ^ 20
  match s.localCheck c off (8 * n) false with
  | some k => .trap k src
  | none =>
    if s.ownRead off (8 * n) then .wait .waitMem
    else if (s.tile (unitOf s.cur)).bad? off (8 * n) then .leave (badRead s i src off (8 * n))
    else
      let g := (s.readErrors (unitOf s.cur) off (8 * n)).localRead off (8 * n)
      .ok ((List.range n).map fun k => BitVec.ofNat 64 (leNat ((g.bytes.drop (8 * k)).take 8)), g.s)

/-- Post the message (R172): a release that covers the own scratchpad (R214). -/
def sendPost (s : State) (i : Instr) (m : Fin 4) (c b : Val) (ext : Bool) (ws : List Word) : Acc Done :=
  let bs := ws.flatMap fun w => leBytes 8 w.toNat
  let fed (s : State) : State :=
    let s := feedAccess s c.addr 10 (ws.length - 1) bs
    if ext then s.bufPush { kind := 6, space := c.space, addr := c.addr, op := m.val, bytes := bs, own := true } else s
  if ext && s.me.bufFull && !s.me.red.agreed then .leave (forced s i)
  else
    match atRelease s i 0x09 [c, b] fed with
    | some s' => .leave s'
    | none =>
      if s.ownWrites s.cur then .wait .waitMem
      else if ext && !s.leads s.cur then .ok { s := s }
      else if s.asyncFull s.cur then .wait .waitMem
      else
        match s.freeEntry (unitOf s.cur) with
        | none => .wait .waitMem
        | some e =>
          let u := unitOf s.cur
          let t := s.cur
          let j : JEntry :=
            { addr := c.addr, state := .pending, space := c.space, kind := 6, slot := slotField t, op := m.val, len := 8 * ws.length,
              issue := BitVec.ofNat 32 s.now, req := some (.message m.val ws), thread := t, inst := s.me.inst, unsent := true, born := s.now }
          .ok { s := (s.setJr u e j).releaseHeld u 32 }

/-- SEND on the values of its capabilities. A destination capability with MIGR names its tile and moves no thread. DESIGN CHOICE, log
entry 48. -/
def sendBody (s : State) (i : Instr) (m : Fin 4) (c b : Val) (off : Int) (n : Nat) : Acc Done :=
  match capTrap s c c.addr.toNat 8 permW with
  | some (k, w) => .trap k w
  | none =>
    if c.space = 2 then .trap Cause.capPerm c.addr
    else
      let dest := if c.space = 0 then some (unitOf s.cur) else s.resolveTile s.cur (c.addr.toNat % 2 ^ 30)
      match dest with
      | none => .trap Cause.access c.addr
      | some _ =>
        let src := (b.addr.toNat : Int) + off
        match capTrap s b src (8 * n) permR with
        | some (k, w) => .trap k w
        | none =>
          if b.space ≠ (if isSys (unitOf s.cur) then 2 else 0) then .trap Cause.capPerm (wordOf src)
          else if src % 8 ≠ 0 then .trap Cause.align (wordOf src)
          else
            (if b.space = 0 then sendLocal s i b (wordOf src) n else sendWords s i b (wordOf src) 0 n []).andThen fun (ws, s) =>
              sendPost s i m c b (decide (c.space ≠ 0) && !s.internal s.cur (c.addr.toNat % 2 ^ 30)) ws

/-- SEND (R172). -/
def execSend (m : Fin 4) (a b : Reg) (off : BitVec 14) (count : Fin 16) (s : State) : Out :=
  fin s (issue s (.send m a b off count) [.reg a, .reg b] [] .none fun ws _ s =>
    sendBody s (.send m a b off count) m (arg ws 0) (arg ws 1) off.toInt (count.val + 1))

/-! ### Delivery and resend (R173) -/

/-- A packet that has reached its tile and may be performed there: no earlier packet of its way is before it, and no operation of its
own thread on the tile must be performed first. -/
def State.arrived (s : State) (u : Nat) (p : Packet) : Bool :=
  decide (p.stage = .flying) && !p.back && decide (p.due ≤ s.now) && s.firstOut p && !s.held u p

/-- A packet that has reached its tile and may be served at the remote port. -/
def State.canServe (s : State) (u : Nat) (p : Packet) : Bool := s.arrived u p && !s.portBusy u

/-- A remote request at the port of its tile, with signal 2 of R418. -/
def State.portServe (s : State) (u : Nat) (p : Packet) : State := (s.modTile u fun x => x.signal 2).serveAt u p

/-- MAILBOX_DELIVERY (R173): a message reaches the tile of its mailbox, by the engine port, beside the remote port (R185). -/
def execMailboxDelivery (p : Nat) (s : State) : Out :=
  fin s
    (match s.pkt p with
     | none => s
     | some q =>
       match q.target, q.req with
       | .tile u, .message _ _ => if s.arrived u q then s.serveAt u q else s
       | _, _ => s)

/-- MAILBOX_RESEND (R173): the journal sends the same words again at a frame start, behind no older message of the mailbox. -/
def execMailboxResend (u e : Nat) (s : State) : Out :=
  let j := s.jr u e
  fin s
    (if j.state = .retrying ∧ j.again ≤ s.now ∧ s.now % 48 = 0 ∧ !s.behind u j then
       match j.req with
       | none => s
       | some req => (s.setJr u e { j with state := .pending, tries := j.tries + 1 }).departEntry j.thread u e j.space j.addr req
     else s)

end Sys2Proof.Machine
end

