-- ==== Sys2Proof/Machine/Gang.lean ====
section
/-! DEFINITION. Threads that exit, barriers, gangs that retire, and the context buffers (R113, R171, R180 to R182, R244, R245, R377,
R378, R384, R402, R426). -/

namespace Sys2Proof.Machine

/-! ### Members -/

/-- The threads of a gang that have not exited, wherever they run (R181): those whose home lies on the tile. -/
def State.gangMembers (s : State) (u inst sheet : Nat) : List (Nat × Thread) :=
  s.allThreads.filter fun e =>
    decide (unitOf e.2.home = u) && decide (e.2.inst = inst) && decide (e.2.sheet = sheet) && !e.2.red.dropped

/-- The threads of a sheet's replica that have not exited. -/
def State.sheetMembers (s : State) (inst sheet ridx : Nat) : List (Nat × Thread) :=
  s.allThreads.filter fun e =>
    decide (e.2.inst = inst) && decide (e.2.sheet = sheet) && decide (e.2.ridx = ridx) && !e.2.red.dropped

/-! ### Barriers (R181, R182, R186) -/

/-- The thread has arrived at a barrier of the kind. -/
def Thread.arrived (x : Thread) (field : Bool) : Bool :=
  match x.run with
  | .barrier f => f = field
  | _ => false

/-- Release the members of a barrier with a phase, from a cycle on (R182). -/
def State.releaseMembers (s : State) (phase from? : Nat) (ms : List (Nat × Thread)) : State :=
  ms.foldl (fun s e => s.modAny e.1 e.2.inst fun x => { x with run := .released phase from?, epoch := x.epoch + 1 }) s

/-- The first cycle from which a BAR.FIELD of a FORM launch whose last arrival counts at `a` lets its members go on: after the
first frame start at a + 96 or later (R182). DEDUCED, log entry 16. -/
def fieldRelease (a : Nat) : Nat := (a + 96 + 47) / 48 * 48 + 1

/-- BAR.GANG completes when every member has arrived (R181). DEDUCED, log entry 16. -/
def State.tryGang (s : State) (x : Thread) : State :=
  let u := unitOf x.home
  let ms := s.gangMembers u x.inst x.sheet
  if !ms.isEmpty && ms.all fun e => e.2.arrived false then
    let phase := ((s.gangOf x).map (·.gangPhase)).getD 0 + 1
    (s.modGang u x.inst x.sheet fun g => { g with gangPhase := phase }).releaseMembers phase (s.now + 1) ms
  else s

/-- BAR.FIELD completes when every member of the sheet has arrived (R181). DEDUCED, log entry 16. -/
def State.tryField (s : State) (x : Thread) : State :=
  let ms := s.sheetMembers x.inst x.sheet x.ridx
  if !ms.isEmpty && ms.all fun e => e.2.arrived true then
    let phase := ((s.gangOf x).map (·.fieldPhase)).getD 0 + 1
    let tiles := ((ms.map fun e => unitOf e.2.home) ++ ((s.gangOf x).map s.sheetTiles).getD []).eraseDups
    let s := tiles.foldl (fun s u => s.modGang u x.inst x.sheet fun g => { g with fieldPhase := phase }) s
    s.releaseMembers phase (if x.arch.status.form then fieldRelease s.now else s.now + 1) ms
  else s

/-! ### Context buffers (R377) -/

/-- The buffer of a context tag of a partition. -/
def State.ctxBase (s : State) (part ctx : Nat) : Nat := (s.partn part).ctxbase.toNat + (ctx - 1) * 0x200000

/-- One bit of a bitmap of dwords in DRAM. -/
def State.mapBit (s : State) (base n : Nat) : Bool := (s.dram.rdWord (base + n / 64 * 8)).getLsbD (n % 64)

/-- Set one bit of a bitmap of dwords in DRAM. -/
def State.setMapBit (s : State) (base n : Nat) (b : Bool) : State :=
  let a := base + n / 64 * 8
  let w := s.dram.rdWord a
  let m : Word := (1 : Word) <<< (n % 64)
  { s with dram := s.dram.wrWord a (if b then w ||| m else w &&& ~~~m) }

/-- SPILL bit of unit u in a buffer. -/
def State.spillBit (s : State) (base u : Nat) : Bool := s.mapBit (base + 0x50808) u

/-- PAGESPILL bit of page p in a buffer. -/
def State.pageBit (s : State) (base p : Nat) : Bool := s.mapBit (base + 0x50830) p

/-- Two bytes of metadata of a word: full bit and shadow state. -/
def metaBytes (x : Tile) (w : Nat) : List Byte := leBytes 2 (b2n (x.full (8 * w)) * 4096 + (x.shadowAt (8 * w)).toNat)

/-- One byte of tags: granules 8k to 8k + 7. -/
def tagByte (x : Tile) (k : Nat) : Byte :=
  BitVec.ofNat 8 (((List.range 8).map fun j => b2n (x.tagAt (16 * (8 * k + j))) * 2 ^ j).sum)

/-- Write page p of a tile out to a buffer (R378). -/
def State.pageOut (s : State) (u base p : Nat) : State :=
  let x := s.tile u
  let d := s.dram.wrN (base + 0x100000 + 4096 * p) (x.rd (4096 * p) 4096)
  let d := d.wrN (base + 0x80000 + 1024 * p) ((span (512 * p) 512).flatMap (metaBytes x))
  let d := d.wrN (base + 0xC0000 + 32 * p) ((span (32 * p) 32).map (tagByte x))
  { s with dram := d }.setMapBit (base + 0x50830) p true

/-- Put the metadata of a word back. -/
def putMeta (m : Memory) (base : Nat) (x : Tile) (w : Nat) : Tile :=
  let v := m.rdLe (base + 0x80000 + 2 * w) 2
  { x.setFull (8 * w) (decide (v / 4096 % 2 = 1)) with shadow := Sparse.set 0 x.shadow w (BitVec.ofNat 12 v) }

/-- Put the tag of a granule back. -/
def putTag (m : Memory) (base : Nat) (x : Tile) (g : Nat) : Tile :=
  x.setTag (16 * g) ((m.rd (base + 0xC0000 + g / 8)).getLsbD (g % 8))

/-- Read page p of a tile back from a buffer (R378). -/
def State.pageIn (s : State) (u base p : Nat) : State :=
  let s := s.modTile u fun x =>
    let x := x.wr (4096 * p) (s.dram.rdN (base + 0x100000 + 4096 * p) 4096)
    let x := (span (512 * p) 512).foldl (putMeta s.dram base) x
    (span (256 * p) 256).foldl (putTag s.dram base) x
  s.setMapBit (base + 0x50830) p false

/-- The cells of accumulator tile t, row by row. -/
def Matrix.tileCells (m : Matrix) (t : Nat) : List (BitVec 32) := (span (256 * t) 256).map fun k => Sparse.get 0 m.cells k

/-- Put the cells of accumulator tile t; their errors end (R189). -/
def Matrix.putCells (m : Matrix) (t : Nat) (cs : List (BitVec 32)) : Matrix :=
  { m with
    cells := ((span (256 * t) 256).zip cs).foldl (fun c p => Sparse.set 0 c p.1 p.2) m.cells
    bad := m.bad.filter fun e => !decide (e.1 / 256 = t) }

/-- The bytes of a buffer that hold unit t: their address and number (R377). -/
def unitPlace (base t : Nat) : Nat × Nat := if t = 256 then (base + 0x50000, 0x808) else (base + 0x10000 + 0x400 * t, 0x400)

/-- Write unit t (256 the latch) to a buffer (R377). DEDUCED, log entry 23. -/
def State.unitOut (s : State) (u base t : Nat) : State :=
  let m := (s.tile u).mx
  let d :=
    if t = 256 then
      let d := s.dram.wrN (base + 0x50000) (m.latch.getD [])
      d.wrWord (base + 0x50800) (BitVec.ofNat 64 (b2n m.latch.isSome * 16 + (Fmt.code m.fmt).toNat))
    else s.dram.wrN (base + 0x10000 + 0x400 * t) ((m.tileCells t).flatMap fun c => leBytes 4 c.toNat)
  { s with dram := d }.setMapBit (base + 0x50808) t true

/-- Bytes of a weight block of a format (R237). -/
def latchBytes (f : Fmt) : Nat := if f = .f32 then 1024 else 2048

/-- Load unit t from a buffer, and clear its SPILL bit. DEDUCED, log entry 23. -/
def State.unitIn (s : State) (u base t : Nat) : State :=
  let s :=
    if t = 256 then
      let w := s.dram.rdWord (base + 0x50800)
      let f := Fmt.ofCode (BitVec.ofNat 4 (bits w 3 0))
      s.modTile u fun x =>
        { x with
          mx := { x.mx with latch := if bit w 4 then some (s.dram.rdN (base + 0x50000) (latchBytes f)) else none, fmt := f } }
    else
      s.modTile u fun x =>
        { x with
          mx := x.mx.putCells t ((span 0 256).map fun k => BitVec.ofNat 32 (s.dram.rdLe (base + 0x10000 + 0x400 * t + 4 * k) 4)) }
  s.setMapBit (base + 0x50808) t false

/-- Claim unit t for a context: a claimed tile reads as zero, a claimed latch holds no block, SAVED is cleared (R244, R384).
DEDUCED, log entry 23. -/
def Matrix.claim (m : Matrix) (t : Nat) (ctx : BitVec 16) : Matrix :=
  let m := { m with owner := Sparse.set 0 m.owner t ctx, saved := Sparse.set false m.saved t false }
  if t = 256 then { m with latch := none } else m.putCells t (List.replicate 256 0)

/-- Owner tag of a unit. -/
def Matrix.ownerOf (m : Matrix) (t : Nat) : BitVec 16 := Sparse.get 0 m.owner t

/-- Free the units of a context (R245). -/
def Matrix.freeUnits (m : Matrix) (ctx : BitVec 16) : Matrix :=
  { m with
    owner := m.owner.filter fun e => e.2 ≠ ctx
    saved := m.saved.filter fun e => !decide (m.ownerOf e.1 = ctx) }

/-! ### Retirement (R180, R245, R378, R426) -/

/-- The gang on a tile retires: mailboxes off, units and pages free, the context tag given back, a waiting fence
set. -/
def State.retireGang (s : State) (u : Nat) : State :=
  s.modTile u fun x =>
    match x.gang with
    | none => x
    | some g =>
      { x with
        gang := some { g with ctx := 0, areas := 0 }
        mail := Vector.replicate 4 {}
        mx := x.mx.freeUnits (BitVec.ofNat 16 g.ctx)
        pages := x.pages.filter fun e => e.2 ≠ g.ctx
        fenced := x.fenced || (x.fenceAsk && x.saved.isEmpty)
        fenceAsk := x.fenceAsk && !x.saved.isEmpty }

/-- Values left in a link whose two gangs have retired are discarded (R113). -/
def State.dropLinks (s : State) (u : Nat) : State :=
  s.modTile u fun x =>
    { x with
      links := Vector.replicate 4 {}
      discarded := x.discarded || x.links.toList.any fun q => !q.vals.isEmpty }

/-- The gang on the tile has retired: its context tag is given back. -/
def Tile.retired (x : Tile) : Bool :=
  match x.gang with
  | some g => decide (g.ctx = 0)
  | none => false

/-- Discard what is left in the incoming queue of a tile from a link (R113). -/
def Tile.dropLink (x : Tile) (l : Link) : Tile :=
  { x with links := x.links.set (linkIx l) {}, discarded := x.discarded || !x.links[linkIx l].vals.isEmpty }

/-- The links of a tile whose two gangs have retired are emptied, in both directions (R113). -/
def State.closeLinks (s : State) (u : Nat) : State :=
  [Link.north, .east, .south, .west].foldl (fun s l =>
    match s.neighbour u l with
    | some v =>
      if (s.tile u).retired && (s.tile v).retired then
        (s.modTile u fun x => x.dropLink l).modTile v fun x => x.dropLink (opposite l)
      else s
    | none => s) s

/-- Every gang of a set of tiles retires when no thread of any is left. -/
def State.tryRetire (s : State) (inst sheet : Nat) (tiles : List Nat) : State :=
  if tiles.any fun u => !(s.gangMembers u inst sheet).isEmpty then s
  else tiles.foldl (fun s u => s.closeLinks u) (tiles.foldl (fun s u => s.retireGang u) s)

/-- The tiles whose gangs retire together: of one gang, or in a redundant instance of its replicas at one sheet position
(R402). -/
def State.retireSet (s : State) (x : Thread) : List Nat :=
  let u := unitOf x.home
  match s.inst x.inst with
  | none => [u]
  | some i =>
    if i.replicas = 1 then [u]
    else
      match i.sheet x.sheet with
      | none => [u]
      | some sh => match placeIn (sh.tiles.getD x.ridx []) u with
        | some k => sh.tiles.map fun ts => ts.getD k u
        | none => [u]

/-- The pending traps of a thread that exits, and its refused entries, go to the monitor core (R362, R368). -/
def State.orphans (s : State) (t : Nat) : State :=
  let u := unitOf t
  let s := (s.th t).pend.foldl (fun s p => sendRecord s t recOrphan p.cause p.taddr 0) s
  let s := (s.notices.filter fun p => p.1 = t).foldl (fun s p => sendRecord s t recOrphan p.2.cause p.2.taddr 0) s
  let s := { s with notices := s.notices.filter fun p => p.1 ≠ t }
  (span 0 32).foldl (fun s e =>
    let j := s.jr u e
    if j.thread = t ∧ j.state = .refused then
      (sendRecord s t recOrphan (if j.cause = Cause.mboxFull then Cause.mboxFull else Cause.remoteRefused) (BitVec.ofNat 64 e) 0).freeJr u e
    else s) s

/-- The slot without its thread: what belongs to the slot is kept (R411, R416). -/
def Thread.emptied (x : Thread) : Thread :=
  { run := .vacant, tcIssued := x.tcIssued, tcWmem := x.tcWmem, tcWmsg := x.tcWmsg, tcVac := x.tcVac, grant := x.grant,
    claim := x.claim, issue := { x.issue with pc := x.arch.pc, insn := none }, cls := .issued }

/-- The thread of a slot retires (R180): streams and monitors go, its orphans are recorded, barriers that waited for it
complete, and the gang retires with its last thread. -/
def State.exitThread (s : State) (t : Nat) : State :=
  let x := s.th t
  let s := s.orphans t
  let s := { s with monRegs := s.monRegs.filter fun r => r.thread ≠ t, monNotes := s.monNotes.filter fun r => r.thread ≠ t }
  let s := s.modTh t Thread.emptied
  let s := ((s.gangMembers (unitOf x.home) x.inst x.sheet).head?.map fun e => s.tryGang e.2).getD s
  let s := ((s.sheetMembers x.inst x.sheet x.ridx).head?.map fun e => s.tryField e.2).getD s
  s.tryRetire x.inst x.sheet (s.retireSet x)

end Sys2Proof.Machine
end

