-- ==== Sys2Proof/Machine/Product.lean ====
section
/-! DEFINITION. The arithmetic of the matrix engine: formats, values in accumulator tiles, products and conversions (R56, R57, R231
to R233, R240, R241, R260, R265, R266). -/

namespace Sys2Proof.Machine

/-! ### Formats (R231, R234) -/

/-- The row of the table of R234 that a format belongs to. -/
def mxClass : Fmt → Option Nat
  | .f64 => some 0
  | .f32 => some 1
  | .bf16 | .f16 => some 2
  | .e4m3 | .e5m2 | .t8 | .t6 => some 3
  | .i8 | .ui8 => some 4
  | _ => none

/-- Group size g (R231). -/
def mxGroup (f : Fmt) : Nat :=
  match mxClass f with
  | some 2 => 4
  | some 3 => 8
  | some 4 => 8
  | _ => 1

/-- Element width in bytes (R255). -/
def mxBytes (f : Fmt) : Nat := (f.width + 7) / 8

/-- M and N of a pattern (R240). -/
def patMN : Pat → Nat × Nat
  | .p2of4 => (4, 2)
  | .p4of8 => (8, 4)
  | .p2of8 => (8, 2)
  | .p1of8 => (8, 1)

/-- Index bits of a pattern (R240). -/
def patBits : Pat → Nat
  | .p2of4 => 2
  | _ => 3

/-- Logical elements of an activation row (R231, R240). -/
def mxRowLen (f : Fmt) (p : Option Pat) : Nat :=
  match p with
  | none => 16 * mxGroup f
  | some p => 16 * mxGroup f * (patMN p).1 / (patMN p).2

/-- L: logical bytes of an activation row (R237). -/
def mxRowBytes (f : Fmt) (p : Option Pat) : Nat := mxRowLen f p * mxBytes f

/-- Array cycles per row (R231, R240). -/
def mxRowCycles (f : Fmt) (p : Option Pat) : Nat :=
  match p with
  | some .p2of8 => 2
  | some .p1of8 => 4
  | _ => if f = .f64 then 2 else 1

/-- The accumulator format of a latched weight format (R57, R260). -/
def accFmt (w : Fmt) (wide : Bool) : Fmt :=
  match mxClass w with
  | some 0 => .f64
  | some 4 => if wide then .i64 else .i32
  | _ => .f32

/-- An accumulator format that takes a column pair (R233). -/
def isPair (f : Fmt) : Bool := decide (f.width = 64)

/-! ### Values of a tile (R233) -/

/-- The number of cell (i, j) of tile t. -/
def cellNo (t i j : Nat) : Nat := 256 * t + 16 * i + j

/-- Cell (i, j) of tile t. -/
def Matrix.cell (m : Matrix) (t i j : Nat) : BitVec 32 := Sparse.get 0 m.cells (cellNo t i j)

/-- Val(t, i, j) as a code (R233). -/
def Matrix.val (m : Matrix) (pair : Bool) (t i j : Nat) : Nat :=
  if pair then
    (m.cell (t + j / 8) i (2 * (j % 8))).toNat + 2 ^ 32 * (m.cell (t + j / 8) i (2 * (j % 8) + 1)).toNat
  else (m.cell t i j).toNat

/-- Write one cell. -/
def Matrix.setCell (m : Matrix) (t i j v : Nat) : Matrix :=
  { m with cells := Sparse.set 0 m.cells (cellNo t i j) (BitVec.ofNat 32 v) }

/-- Write Val(t, i, j). -/
def Matrix.setVal (m : Matrix) (pair : Bool) (t i j v : Nat) : Matrix :=
  if pair then
    (m.setCell (t + j / 8) i (2 * (j % 8)) v).setCell (t + j / 8) i (2 * (j % 8) + 1) (v / 2 ^ 32)
  else m.setCell t i j v

/-- The pairs (i, j) of a 16 by 16 tile, row by row. -/
def tileGrid : List (Nat × Nat) := (span 0 16).flatMap fun i => (span 0 16).map fun j => (i, j)

/-! ### Products (R56, R232, R240) -/

/-- Element k of a run of elements of a format. -/
def elemAt (f : Fmt) (bs : Array Byte) (k : Nat) : Nat :=
  let e := mxBytes f
  ((List.range e).map fun b => (bs.getD (k * e + b) 0).toNat * 256 ^ b).sum

/-- The element as a number. -/
def numAt (f : Fmt) (bs : Array Byte) (k : Nat) : Num := f.num (elemAt f bs k % 2 ^ f.width)

/-- AccAdd of a rounded group sum (R56 steps 3 and 4): the group is rounded to the accumulator format and added. DEDUCED, log entry 20. -/
def accStep (af : Fmt) (acc : Nat) (terms : List Num) : Nat :=
  let g := (sumNum false terms).sat af .rne 0
  (Num.add false (af.num acc) (af.num g)).sat af .rne 0

/-- What one cell of a product needs: the activation row and the weights. -/
structure MxOperands where
  af : Fmt
  fa : Fmt
  fw : Fmt
  g : Nat
  act : Array Byte
  wgt : Array Byte

/-- The terms of cell row p for result (m, n): the activation at k times the stored weight s, or -0 when masked. -/
def MxOperands.terms (x : MxOperands) (row : Nat) (n p : Nat) (on : Bool) (k : Nat → Nat) : List Num :=
  (span 0 x.g).map fun q =>
    let s := p * x.g + q
    if on then (numAt x.fa x.act (row + k s)).mul (numAt x.fw x.wgt (16 * s + n)) else .zero true

/-- The new value of result (m, n): cell rows in ascending order (R232, R240). DEDUCED, log entry 20. -/
def MxOperands.cell (x : MxOperands) (row n : Nat) (dmask : BitVec 16) (k : Nat → Nat) (old : Nat) : Nat :=
  (span 0 16).foldl (fun acc p => accStep x.af acc (x.terms row n p (dmask.getLsbD p) k)) old

/-- Logical row index of stored weight s of column n under a pattern (R240). -/
def sparseK (p : Pat) (g : Nat) (idx : Array Nat) (n s : Nat) : Nat :=
  s / (patMN p).2 * (patMN p).1 + idx.getD (n * (16 * g) + s) 0

/-- Errors of the cells of rows that are written end (R189). -/
def Matrix.mended (m : Matrix) (tiles : List Nat) (rows : Nat) : Matrix :=
  { m with bad := m.bad.filter fun e => !(tiles.any fun t => decide (e.1 / 256 = t) && decide (e.1 % 256 / 16 < rows)) }

/-- DenseProduct and SparseProduct on a whole tile (R232, R240): every selected cell of the first m rows. DEDUCED, log entry 20. -/
def Matrix.product (mx : Matrix) (x : MxMul) (data : List Byte) : Matrix :=
  let fw := mx.fmt
  let af := accFmt fw x.wide
  let g := mxGroup fw
  let o : MxOperands := { af := af, fa := x.f, fw := fw, g := g, act := data.toArray, wgt := (mx.latch.getD []).toArray }
  let len := mxRowLen x.f x.pat
  let idx := x.idx.toArray
  let cells := tileGrid.filter fun c => decide (c.1 < x.m) && x.rmask.getLsbD c.1 && x.cmask.getLsbD c.2
  cells.foldl (fun m c =>
    let k (s : Nat) : Nat := match x.pat with | some p => sparseK p g idx c.2 s | none => s
    m.setVal (isPair af) x.acc c.1 c.2 (o.cell (c.1 * len) c.2 x.dmask k (mx.val (isPair af) x.acc c.1 c.2))) mx

/-! ### Sparsity metadata (R241) -/

/-- Bits [lo + b - 1 : lo] of the metadata string. -/
def metaField (ws : Array Word) (b lo : Nat) : Nat :=
  ((List.range b).map fun i => b2n ((ws.getD ((lo + i) / 64) 0).getLsbD ((lo + i) % 64)) * 2 ^ i).sum

/-- Words of a metadata block (R241). -/
def metaWords (g : Nat) (p : Pat) : Nat := 16 * (16 * g * patBits p / 64)

/-- Idx(n, s) for every n and s. -/
def metaIdx (g : Nat) (p : Pat) (ws : Array Word) : List Nat :=
  (span 0 16).flatMap fun n => (span 0 (16 * g)).map fun s => metaField ws (patBits p) (patBits p * (16 * g * n + s))

/-- The first group whose indices do not rise (R241): the number of its first field. -/
def metaBad (g : Nat) (p : Pat) (idx : Array Nat) : Option Nat :=
  let n := (patMN p).2
  ((span 0 (256 * g / n)).find? fun h =>
    (span 0 (n - 1)).any fun i => decide (idx.getD (h * n + i + 1) 0 ≤ idx.getD (h * n + i) 0)).map fun h => h * n

/-! ### Tile arithmetic (R265) -/

/-- AccResult of MACC on codes: 0 add, 1 sub, 2 scale. -/
def maccCode (f : Fmt) (sub a b : Nat) : Nat :=
  let x := f.num a
  let y := f.num b
  (match sub with
   | 0 => Num.add false x y
   | 1 => Num.add false x y.neg
   | _ => x.mul y).sat f .rne 0

/-- MACC on whole tiles: every cell is read before any is written. -/
def Matrix.macc (mx : Matrix) (f : Fmt) (sub td ta tb : Nat) (s : Word) : Matrix :=
  let pair := isPair f
  tileGrid.foldl (fun m c =>
    let a := mx.val pair ta c.1 c.2
    let b := if sub = 2 then s.toNat % 2 ^ f.width else mx.val pair tb c.1 c.2
    m.setVal pair td c.1 c.2 (maccCode f sub a b)) mx

/-! ### Cells in memory (R266) -/

/-- The cell that a dword loads. -/
def cellOfDword (f : Fmt) (d : Nat) : Nat :=
  match f with
  | .f32 | .i32 | .ui32 => d % 2 ^ 32
  | .i8 | .i16 | .ui8 | .ui16 => convert f .i32 .rne 0 (d % 2 ^ f.width)
  | _ => convert f .f32 .rne 0 (d % 2 ^ f.width)

/-- The dword that a cell is stored as. -/
def dwordOfCell (f : Fmt) (c : BitVec 32) : Word :=
  match f with
  | .f32 | .ui32 => c.zeroExtend 64
  | .i32 => c.signExtend 64
  | .i8 | .i16 => wordOf (sext (convert .i32 f .rne 0 c.toNat) f.width)
  | .ui8 | .ui16 => BitVec.ofNat 64 (convert .i32 f .rne 0 c.toNat)
  | _ => BitVec.ofNat 64 (convert .f32 f .rne 0 c.toNat)

/-! ### Weight blocks (R237, R259) -/

/-- Rows of a weight block. -/
def latchRows (f : Fmt) : Nat := 16 * mxGroup f

/-- A block read by MTRL, row n holding W[0][n] to W[K-1][n], in the order of MWLD. -/
def transposeBlock (f : Fmt) (bs : List Byte) : List Byte :=
  let a := bs.toArray
  let e := mxBytes f
  (span 0 (latchRows f)).flatMap fun k => (span 0 16).flatMap fun n => (List.range e).map fun b => a.getD ((n * latchRows f + k) * e + b) 0

/-- Bytes as link values of 16 (R246). -/
def linkValues (bs : List Byte) : List Quad :=
  (span 0 (bs.length / 16)).map fun k => BitVec.ofNat 128 (leNat ((bs.drop (16 * k)).take 16))

/-- Link values as bytes. -/
def linkBytes (vs : List Quad) : List Byte := vs.flatMap fun v => leBytes 16 v.toNat

end Sys2Proof.Machine
end

