-- ==== Sys2Proof/Machine/Stream.lean ====
section
/-! DEFINITION. Stream instructions (R155 to R158). -/

namespace Sys2Proof.Machine

/-! ### Descriptors (R156) -/

/-- STRIDE of a dimension word. -/
def dimStride (w : Word) : Int := sext (bits w 63 24) 40
/-- COUNT of a dimension word: 0 means 2^24. -/
def dimCount (w : Word) : Nat := if bits w 23 0 = 0 then 2 ^ 24 else bits w 23 0

/-- Dword k of a block of bytes. -/
def dwordAt (bs : List Byte) (k : Nat) : Word := BitVec.ofNat 64 (leNat ((bs.drop (8 * k)).take 8))

/-- The generator that a descriptor sets up for register `r`; none when a reserved field is set (R156). DEDUCED, log entry 15. -/
def streamOfDesc (r : Nat) (cap : Val) (bs : List Byte) : Option Stream :=
  let dims := (List.range 6).map (dwordAt bs)
  let ctl := dwordAt bs 6
  if bits ctl 63 4 ≠ 0 ∨ dwordAt bs 7 ≠ 0 ∨ 6 ≤ bits ctl 2 0 then none
  else
    let counts := dims.map dimCount
    some
      { reg := r
        cap := cap
        strides := dims.map dimStride
        counts := counts
        idx := counts.map fun _ => 0
        esz := bits ctl 2 0
        write := bit ctl 3
        left := counts.foldl (· * ·) 1 }

/-- Release every binding of a register (R155). -/
def Thread.unbind (x : Thread) (r : Nat) : Thread :=
  { x with
    streams := x.streams.map fun o =>
      match o with
      | some st => if st.reg = r then none else o
      | none => none }

/-- Bind a generator; older bindings of the generator and of the register are released first (R155). -/
def Thread.bind (x : Thread) (g : Fin 4) (st : Stream) : Thread :=
  let x := x.unbind st.reg
  { x with streams := x.streams.set g (some st) }

/-! ### Advancing without access (R157) -/

/-- Indices after n elements: the odometer with DIM0 fastest; the last index wraps with its count. -/
def skipIdx : List Nat → List Nat → Nat → List Nat
  | i :: is, c :: cs, n => (i + n) % c :: skipIdx is cs ((i + n) / c)
  | _, _, _ => []

/-- Advance by n elements (SSKIP). -/
def Stream.skip (st : Stream) (n : Nat) : Stream :=
  let n := min n st.left
  { st with idx := skipIdx st.idx st.counts n, left := st.left - n }

/-- Advance the stream of a register by n elements. -/
def Thread.skip (x : Thread) (r n : Nat) : Thread :=
  { x with
    streams := x.streams.map fun o =>
      match o with
      | some st => if st.reg = r then some (st.skip n) else o
      | none => none }

/-! ### Instructions -/

/-- SBIND after its operands are read: CapCheck of 64 bytes at B, the space, alignment, and the read with the rules of a LOCAL
access (R22, R157). A descriptor outside LOCAL space is refused like that of the other forms that need a LOCAL block. DEDUCED, log entry 15. -/
def sbindBody (s : State) (i : Instr) (g : Fin 4) (d : Reg) (a b : Val) : Acc Done :=
  match capTrap s b b.addr.toNat 64 permR with
  | some (k, w) => .trap k w
  | none =>
    if b.space ≠ 0 then .trap Cause.access b.addr
    else if b.addr.toNat % 8 ≠ 0 then .trap Cause.align b.addr
    else
      (memGet s i b b.addr 64 false).andThen fun r =>
        match streamOfDesc d.val a r.bytes with
        | none => .trap Cause.access b.addr
        | some st => .ok { s := r.s.modMe fun x => x.bind g st }

/-- SBIND (R155 to R157). -/
def execSbind (g : Fin 4) (d a b : Reg) (s : State) : Out :=
  fin s (issue s (.sbind g d a b) [.reg a, .reg b] [] .none fun ws _ s =>
    sbindBody s (.sbind g d a b) g d (arg ws 0) (arg ws 1))

/-- SUNB (R157). -/
def execSunb (d : Reg) (s : State) : Out :=
  fin s (issue s (.sunb d) [] [] .none fun _ _ s => .ok { s := s.modMe fun x => x.unbind d.val })

/-- SSKIP (R157). -/
def execSskip (d a : Reg) (s : State) : Out :=
  fin s (issue s (.sskip d a) [.reg a] [] .none fun ws _ s =>
    .ok { s := s.modMe fun x => x.skip d.val (arg ws 0).lo.toNat })

end Sys2Proof.Machine
end

