-- ==== Sys2Proof/Machine/Matrix.lean ====
section
/-! DEFINITION. The matrix instructions and the commands of the matrix engine (R231 to R271). -/

namespace Sys2Proof.Machine

/-! ### The issue step (R244, R254) -/

/-- A trap that leaves the claims made so far (R254). -/
def mxTrap {α : Type} (s : State) (i : Instr) (cause : Nat) (addr : Word) : Acc α := .leave (trapAt s i cause addr)

/-- OwnerCheck of a unit (R244): TADDR of the trap, or the state with a free unit claimed. -/
def ownerCheck (s : State) (unit : Nat) : Except Word State :=
  let x := s.me
  let u := unitOf s.cur
  let ctx := x.arch.acctag
  let o := (s.tile u).mx.ownerOf unit
  if x.arch.status.guest then .error (BitVec.ofNat 64 (2 * 2 ^ 16 + unit))
  else if unit < 256 ∧ ((s.tile u).gang.map (·.acct)).getD 0 ≤ unit then .error (BitVec.ofNat 64 (2 ^ 16 + unit))
  else if o ≠ 0 ∧ o ≠ ctx then .error (BitVec.ofNat 64 unit)
  else if o = 0 then .ok (s.modTile u fun y => { y with mx := y.mx.claim unit ctx })
  else .ok s

/-- OwnerCheck of every unit that a form names. -/
def ownerAll (s : State) (i : Instr) : List Nat → Acc State
  | [] => .ok s
  | k :: ks =>
    match ownerCheck s k with
    | .error a => mxTrap s i Cause.accOwner a
    | .ok s => ownerAll s i ks

/-- A multiply command whose source is the shadow buffers. -/
def MxCmd.shadow (c : MxCmd) : Bool :=
  match c.op with
  | .mul x => decide (x.src = 3)
  | _ => false

/-- The format that a command will have latched. -/
def MxCmd.loads (c : MxCmd) : Option Fmt :=
  match c.op with
  | .load f _ _ _ => some f
  | _ => none

/-- The pending latch (R235): unknown while a command with a shadow source has not started; else its format, if it holds a
block. -/
def Matrix.pending (m : Matrix) : Option (Option Fmt) :=
  if m.queue.any fun c => c.shadow && c.start.isNone then none
  else
    match (m.queue.filterMap MxCmd.loads).getLast? with
    | some f => some (some f)
    | none => some (if m.latch.isSome then some m.fmt else none)

/-- FormatChecks 2 to 4 of R260. -/
def mulFmtOk (f fw : Fmt) (wide : Bool) (kind : Nat) : Bool :=
  decide (mxClass f = mxClass fw) && (mxClass fw).isSome && (!wide || decide (mxClass fw = some 4))
    && (decide (kind ≠ 1) || decide (mxGroup fw ≠ 1))

/-- The quadtree engine of some die holds the tile's array (R237, R290). -/
def State.qtHolds (s : State) (u : Nat) : Bool :=
  s.qt.toList.any fun q =>
    match q.running, (s.tile u).gang with
    | some c, some g => decide (c.inst = g.inst) && decide (c.sheet = g.sheet)
    | _, _ => false

/-- The engine is occupied, or its queue holds four commands (R237). -/
def Matrix.busy (m : Matrix) : Bool := (m.queue.any fun c => c.start.isSome) || decide (4 ≤ m.queue.length)

/-- The slot waits for the engine; what the instruction has done so far stands (R254). -/
def engineWait {α : Type} (s : State) (i : Instr) : Acc α :=
  .leave (waitEngine (s.modMe fun x =>
    { x with run := .running, insn := some i, held := { x.held with result := some .ack } }) .waitMem)

/-- The instruction has made its empty-marks at an earlier turn. -/
def State.marked (s : State) : Bool := decide (s.me.held.result = some .ack)

/-- WaitEngine (R237, R254). -/
def waitMatrix (s : State) (i : Instr) : Acc State :=
  let u := unitOf s.cur
  if s.qtHolds u then
    (if s.me.arch.status.form then mxTrap s i Cause.timingDeviation 0 else engineWait s i)
  else if (s.tile u).mx.busy then engineWait s i
  else .ok s

/-- Hand a command to the engine; it starts at once when the engine is free. -/
def State.submit (s : State) (u : Nat) (c : MxCmd) : State :=
  let idle := (s.tile u).mx.queue.isEmpty
  let s := s.modTile u fun x => { x with mx := { x.mx with queue := x.mx.queue ++ [c] } }
  if idle then { s with agenda := .matrixCommandStart u :: s.agenda } else s

/-- A command of the present thread. -/
def State.mxCmd (s : State) (op : MxOp) : MxCmd := { op := op, thread := s.cur, epoch := s.me.epoch }

/-- WaitEngine, then the command is recorded and the instruction issues. -/
def issueMatrix (s : State) (i : Instr) (op : MxOp) : Acc Done :=
  (waitMatrix s i).andThen fun s => .ok { s := s.submit (unitOf s.cur) (s.mxCmd op) }

/-- A matrix command that would be the 65th operation to raise an asynchronous trap waits (R362). -/
def roomFirst (s : State) (k : Acc Done) : Acc Done := if s.asyncFull s.cur && !s.marked then .wait .waitMem else k

/-! ### Operand checks (R255, R256) -/

/-- The checks of rows of `len` bytes in LOCAL space, in ascending order; the offsets. -/
def rowCheck (s : State) (i : Instr) (c : Val) (need : BitVec 8) (len align : Nat) : List Int → Acc (List Nat)
  | [] => .ok []
  | ea :: rest =>
    match capTrap s c ea len need with
    | some (k, a) => mxTrap s i k a
    | none =>
      if c.space ≠ 0 then mxTrap s i Cause.access (wordOf ea)
      else if ea % align ≠ 0 then mxTrap s i Cause.align (wordOf ea)
      else
        match s.localCheck c ea.toNat len false with
        | some k => mxTrap s i k (wordOf ea)
        | none => (rowCheck s i c need len align rest).andThen fun l => .ok (ea.toNat :: l)

/-- Addresses of n rows from ea on, S apart. -/
def rowAddrs (ea : Int) (stride n : Nat) : List Int := (span 0 n).map fun m => ea + ((m * stride : Nat) : Int)

/-- S of a stride operand: 0 means the row size. -/
def rowStride (b : Val) (len : Nat) : Nat := if bits b.lo 31 0 = 0 then len else bits b.lo 31 0

/-- The elements that a stream source takes (R256), and the generator after them. -/
def streamRows (s : State) (i : Instr) : Nat → Stream → Acc (List Nat)
  | 0, _ => .ok []
  | n + 1, st =>
    let ea := st.next
    if st.write || decide (st.esz ≠ 5) || decide (st.cap.space ≠ 0) then mxTrap s i Cause.access (wordOf ea)
    else if st.left = 0 then mxTrap s i Cause.capBounds (wordOf ea)
    else
      match capTrap s st.cap ea 64 permR with
      | some (k, a) => mxTrap s i k a
      | none =>
        if ea % 64 ≠ 0 then mxTrap s i Cause.align (wordOf ea)
        else
          match s.localCheck st.cap ea.toNat 64 false with
          | some k => mxTrap s i k (wordOf ea)
          | none => (streamRows s i n st.advance).andThen fun l => .ok (ea.toNat :: l)

/-- A closed link among these, in their order (R257, R263). -/
def closedLink (s : State) (ls : List Link) : Option Word :=
  (ls.find? fun l => (s.neighbour (unitOf s.cur) l).isNone).map fun l => BitVec.ofNat 64 (linkCode l)

/-- The pieces of scratchpad that hold the rows of a source, after its checks (R255 to R258). A register that is not bound has no
next address: TADDR is a free value. -/
def sourceCheck (s : State) (i : Instr) (src : MSrc) (a b : Val) (m len : Nat) : Acc (List (Nat × Nat)) :=
  match src with
  | .scratch _ _ off =>
    (rowCheck s i a permR len 64 (rowAddrs (a.addr.toNat + off.toInt) (rowStride b len) m)).andThen fun l =>
      .ok (l.map fun o => (o, len))
  | .stream r =>
    (match s.me.stream r.val with
     | none => let f := s.free; mxTrap f.2 i Cause.access f.1
     | some st => (streamRows s i (m * len / 64) st).andThen fun l => .ok (l.map fun o => (o, 64)))
  | .link l =>
    (match closedLink s [l] with
     | some a => mxTrap s i Cause.access a
     | none => .ok [])
  | .shadow => .ok []

/-- The code of a source (R251). -/
def srcCode : MSrc → Nat
  | .scratch _ _ _ => 0
  | .stream _ => 1
  | .link _ => 2
  | .shadow => 3

/-- The registers that a source reads (R252). -/
def srcRegs : MSrc → List Src
  | .scratch base stride _ => [.reg base, match stride with | .reg r => .reg r | .zero => .zero]
  | _ => [.zero, .zero]

/-- The register of a stream source and the elements it takes. -/
def srcStream (src : MSrc) (n : Nat) : Option (Nat × Nat) :=
  match src with
  | .stream r => some (r.val, n)
  | _ => none

/-- The link of a source. -/
def srcLink : MSrc → Option Link
  | .link l => some l
  | _ => none

/-! ### Metadata of MMAS (R242, R261) -/

/-- Read metadata words from an offset, in ascending order, each as LDF does; n are left. Words read are held, and a thread that waits at
one reads on when it is served there (R242). -/
def metaRead (s : State) (i : Instr) (addr : Nat) (k : Nat) : Nat → List Word → Acc (List Word × State)
  | 0, ws => .ok (ws, s)
  | n + 1, ws =>
    let off := addr + 8 * k
    let u := unitOf s.cur
    match s.me.held.pops.find? fun p => p.1 = wordSlot k with
    | some p => metaRead s i addr (k + 1) n (ws ++ [p.2.extractLsb' 0 64])
    | none =>
      match s.me.held.result with
      | some (.refused c) => mxTrap s i c (BitVec.ofNat 64 off)
      | _ =>
        if (s.tile u).bad? off 8 then .leave (badRead s i (BitVec.ofNat 64 off) off 8)
        else if (s.tile u).full off && ((s.tile u).feQueue off).isEmpty then
          let v := (s.tile u).word off
          metaRead ((s.readErrors u off 8).modMe fun x => x.holdWord k v) i addr (k + 1) n (ws ++ [v])
        else if s.me.arch.status.form then mxTrap s i Cause.timingDeviation (BitVec.ofNat 64 off)
        else
          let s := s.modTile u fun x =>
            x.setFeQueue off (x.feQueue off ++ [{ remote := false, key := s.cur, op := .ldf, v := BitVec.ofNat 64 k, rest := n + 1 }])
          .leave ((leaveFor s i (.feWait false)).modMe fun x => { x with cls := .waitMem })

/-- The operand checks that MMAS adds, its metadata, and the indices. -/
def metaCheck (s : State) (i : Instr) (c : Val) (g : Nat) (p : Pat) : Acc (List Nat × State) :=
  let w := metaWords g p
  let addr := c.addr.toNat
  match capTrap s c addr (8 * w) permR with
  | some (k, a) => mxTrap s i k a
  | none =>
    if c.space ≠ 0 then mxTrap s i Cause.access c.addr
    else if addr % 8 ≠ 0 then mxTrap s i Cause.align c.addr
    else
      match s.localCheck c addr (8 * w) false with
      | some k => mxTrap s i k c.addr
      | none =>
        (metaRead s i addr 0 w []).andThen fun (ws, s) =>
          let idx := metaIdx g p ws.toArray
          match metaBad g p idx.toArray with
          | some fno => mxTrap s i Cause.mxMeta (c.addr + BitVec.ofNat 64 (8 * (patBits p * fno / 64)))
          | none => .ok (idx, s.localPort addr (8 * w) false)

/-! ### Multiply forms (R260 to R263) -/

/-- Latch, format and tile checks of a multiply form (R254, R260). With a shadow source the format is not known yet: its checks are
made when the command starts (R258). -/
def mulUnits (s : State) (i : Instr) (f : Fmt) (src : MSrc) (wide : Bool) (kind acc : Nat) : Acc State :=
  (ownerAll s i [256]).andThen fun s =>
    if srcCode src = 3 then ownerAll s i [acc]
    else
      match (s.tile (unitOf s.cur)).mx.pending with
      | none => engineWait s i
      | some none => mxTrap s i Cause.mxFormat 0
      | some (some fw) =>
        if !mulFmtOk f fw wide kind then mxTrap s i Cause.mxFormat 0
        else if isPair (accFmt fw wide) then
          (if acc % 2 = 1 then mxTrap s i Cause.mxFormat (BitVec.ofNat 64 acc) else ownerAll s i [acc, acc + 1])
        else ownerAll s i [acc]

/-- The links that MMAR uses, in operand-code order (R263). -/
def mmarLinks (s : State) (i : Instr) (kind : Nat) : Acc State :=
  match if kind = 3 then closedLink s [.north, .east, .south, .west] else none with
  | some a => mxTrap s i Cause.access a
  | none => .ok s

/-- The metadata of MMAS, none for the other forms. -/
def mulMeta (s : State) (i : Instr) (c : Val) (f : Fmt) (pat : Option Pat) : Acc (List Nat × State) :=
  match pat with
  | some p => metaCheck s i c (mxGroup f) p
  | none => .ok ([], s)

/-- The receive directions that the matrix engine has to itself (R247, R257). -/
def State.engineTakes (s : State) (u : Nat) (l : Link) : Bool :=
  let m := (s.tile u).mx
  ((decide (l = .east) || decide (l = .south)) && !m.rot.transfers.isEmpty)
    || m.queue.any fun c =>
      match c.op with
      | .mul x => decide (x.link = some l) && decide (c.took.length < x.m * (mxRowBytes x.f x.pat / 16))
      | _ => false

/-- Mark the receive directions that the engine has. -/
def State.engineLinks (s : State) (u : Nat) : State :=
  [Link.north, .east, .south, .west].foldl (fun s l => s.modLinkQ u l fun q => { q with engine := s.engineTakes u l }) s

/-- A multiply form on the values of its operands. -/
def mulBody (s : State) (i : Instr) (f : Fmt) (src : MSrc) (wide : Bool) (m acc kind : Nat) (pat : Option Pat) (a b c : Val) :
    Acc Done :=
  roomFirst s <|
    (mulUnits s i f src wide kind acc).andThen fun s =>
      let len := mxRowBytes f pat
      (sourceCheck s i src a b m len).andThen fun chunks =>
        (mmarLinks s i kind).andThen fun s =>
          (mulMeta s i c f pat).andThen fun (idx, s) =>
            (waitMatrix s i).andThen fun s =>
              let full : BitVec 16 := 0xFFFF
              let x : MxMul :=
                { f := f, kind := kind, src := srcCode src, chunks := chunks, m := m, wide := wide, acc := acc,
                  rmask := if kind = 2 then c.data.extractLsb' 0 16 else full,
                  cmask := if kind = 2 then c.data.extractLsb' 16 16 else full,
                  dmask := if kind = 2 then c.data.extractLsb' 32 16 else full, idx := idx, pat := pat, link := srcLink src }
              let u := unitOf s.cur
              let s := s.submit u (s.mxCmd (.mul x))
              match srcStream src (m * len / 64) with
              | some (r, n) => .ok { s := s.modMe fun x => x.skip r n }
              | none => if 2 ≤ srcCode src then .leave (leaveFor (s.engineLinks u) i .matrix) else .ok { s := s }

/-- MMA (R260). -/
def execMma (f : Fmt) (src : MSrc) (wide : Bool) (rows : Fin 16) (acc : Fin 256) (s : State) : Out :=
  fin s (issue s (.mma f src wide rows acc) (srcRegs src) [] .none fun ws _ s =>
    mulBody s (.mma f src wide rows acc) f src wide (rows.val + 1) acc.val 0 none (arg ws 0) (arg ws 1) {})

/-- MMAS (R240 to R242, R261). -/
def execMmas (f : Fmt) (src : MSrc) (pat : Pat) (wide : Bool) (rows : Fin 16) (acc : Fin 256) (c : Reg) (s : State) : Out :=
  fin s (issue s (.mmas f src pat wide rows acc c) (srcRegs src ++ [.reg c]) [] .none fun ws _ s =>
    mulBody s (.mmas f src pat wide rows acc c) f src wide (rows.val + 1) acc.val 1 (some pat) (arg ws 0) (arg ws 1) (arg ws 2))

/-- MMAM (R243, R262). -/
def execMmam (f : Fmt) (src : MSrc) (wide : Bool) (rows : Fin 16) (acc : Fin 256) (c : Reg) (s : State) : Out :=
  fin s (issue s (.mmam f src wide rows acc c) (srcRegs src ++ [.reg c]) [] .none fun ws _ s =>
    mulBody s (.mmam f src wide rows acc c) f src wide (rows.val + 1) acc.val 2 none (arg ws 0) (arg ws 1) (arg ws 2))

/-- MMAR (R246, R247, R263). -/
def execMmar (f : Fmt) (src : MSrc) (wide : Bool) (acc : Fin 256) (s : State) : Out :=
  fin s (issue s (.mmar f src wide acc) (srcRegs src) [] .none fun ws _ s =>
    mulBody s (.mmar f src wide acc) f src wide 16 acc.val 3 none (arg ws 0) (arg ws 1) {})

/-! ### Weight loads (R259) -/

/-- The sources of a base and a stride. -/
def baseStride (a : Reg) (b : RegZ) : List Src := [.reg a, match b with | .reg r => .reg r | .zero => .zero]

/-- MWLD and MTRL. -/
def loadBody (s : State) (i : Instr) (f : Fmt) (transposed : Bool) (a b : Val) (off : Int) : Acc Done :=
  roomFirst s <|
    (ownerAll s i [256]).andThen fun s =>
      if (mxClass f).isNone then mxTrap s i Cause.mxFormat 0
      else
        let n := if transposed then 16 else latchRows f
        let len := if transposed then latchRows f * mxBytes f else 16 * mxBytes f
        (rowCheck s i a permR len 16 (rowAddrs (a.addr.toNat + off) (rowStride b len) n)).andThen fun rows =>
          issueMatrix s i (.load f transposed rows len)

/-- MWLD (R259). -/
def execMwld (f : Fmt) (a : Reg) (b : RegZ) (off : BitVec 32) (s : State) : Out :=
  fin s (issue s (.mwld f a b off) (baseStride a b) [] .none fun ws _ s =>
    loadBody s (.mwld f a b off) f false (arg ws 0) (arg ws 1) off.toInt)

/-- MTRL (R259). -/
def execMtrl (f : Fmt) (a : Reg) (b : RegZ) (off : BitVec 32) (s : State) : Out :=
  fin s (issue s (.mtrl f a b off) (baseStride a b) [] .none fun ws _ s =>
    loadBody s (.mtrl f a b off) f true (arg ws 0) (arg ws 1) off.toInt)

/-! ### MZERO and MACC (R264, R265) -/

/-- MZERO (R264). -/
def execMzero (count first : Fin 256) (s : State) : Out :=
  fin s (issue s (.mzero count first) [] [] .none fun _ _ s =>
    roomFirst s <|
      (ownerAll s (.mzero count first) (span first.val (count.val + 1))).andThen fun s =>
        issueMatrix s (.mzero count first) (.zero first.val (count.val + 1)))

/-- Insert a tile number in ascending order, once. -/
def insertTile (t : Nat) : List Nat → List Nat
  | [] => [t]
  | x :: xs => if t = x then x :: xs else if t < x then t :: x :: xs else x :: insertTile t xs

/-- MACC on its tiles, with the scale. -/
def maccBody (s : State) (i : Instr) (f : Fmt) (sub td ta tb : Nat) (v : Word) : Acc Done :=
  roomFirst s <|
    let named := if sub = 2 then [td, ta] else [td, ta, tb]
    match if isPair f then named.find? fun t => decide (t % 2 = 1) else none with
    | some t => mxTrap s i Cause.mxFormat (BitVec.ofNat 64 t)
    | none =>
      let units := (if isPair f then named.flatMap fun t => [t, t + 1] else named).foldl (fun l t => insertTile t l) []
      (ownerAll s i units).andThen fun s => issueMatrix s i (.macc f sub td ta tb v)

/-- MACC.ADD (R265). -/
def execMaccAdd (f : Fmt) (td ta tb : Fin 256) (s : State) : Out :=
  fin s (issue s (.maccAdd f td ta tb) [] [] .none fun _ _ s =>
    maccBody s (.maccAdd f td ta tb) f 0 td.val ta.val tb.val 0)

/-- MACC.SUB (R265). -/
def execMaccSub (f : Fmt) (td ta tb : Fin 256) (s : State) : Out :=
  fin s (issue s (.maccSub f td ta tb) [] [] .none fun _ _ s =>
    maccBody s (.maccSub f td ta tb) f 1 td.val ta.val tb.val 0)

/-- MACC.SCALE (R265). -/
def execMaccScale (f : Fmt) (td ta : Fin 256) (b : RegZ) (s : State) : Out :=
  fin s (issue s (.maccScale f td ta b) [match b with | .reg r => .reg r | .zero => .zero] [] .none fun ws _ s =>
    maccBody s (.maccScale f td ta b) f 2 td.val ta.val 0 (arg ws 0).lo)

/-! ### ACLD and ACST (R267, R268) -/

/-- ACLD (R267). -/
def execAcld (f : Fmt) (a : Reg) (b : RegZ) (tile : Fin 256) (off : BitVec 32) (s : State) : Out :=
  fin s (issue s (.acld f a b tile off) (baseStride a b) [] .none fun ws _ s =>
    roomFirst s <|
      (ownerAll s (.acld f a b tile off) [tile.val]).andThen fun s =>
        let ea : Int := (arg ws 0).addr.toNat + off.toInt
        (rowCheck s (.acld f a b tile off) (arg ws 0) permR 128 8 (rowAddrs ea (rowStride (arg ws 1) 128) 16)).andThen fun rows =>
          issueMatrix s (.acld f a b tile off) (.acld f rows tile.val))

/-- The offsets of the dwords that the masks select, with their cells. -/
def maskedWords (rows : List Nat) (rmask cmask : BitVec 16) : List (Nat × Nat × Nat) :=
  (rows.zipIdx).flatMap fun r =>
    if rmask.getLsbD r.2 then ((span 0 16).filter fun j => cmask.getLsbD j).map fun j => (r.1 + 8 * j, r.2, j) else []

/-- Mark words empty for a command of the present thread, with its undo records (R239, R391). -/
def State.markFor (s : State) (u : Nat) (offs : List Nat) : State :=
  offs.foldl (fun s o => (s.engUndoPush s.cur u o 8).markEmpty u o) s

/-- ACST on the values of its operands. -/
def acstBody (s : State) (i : Instr) (f : Fmt) (a b c : Val) (masked : Bool) (tile : Nat) (off : Int) : Acc Done :=
  roomFirst s <|
    (ownerAll s i [tile]).andThen fun s =>
      let ea : Int := a.addr.toNat + off
      let st := bits b.lo 31 0
      if st ≠ 0 ∧ (st % 8 ≠ 0 ∨ st < 128) then mxTrap s i Cause.access (wordOf ea)
      else
        (rowCheck s i a permW 128 8 (rowAddrs ea (rowStride b 128) 16)).andThen fun rows =>
          let rm : BitVec 16 := if masked then c.data.extractLsb' 0 16 else 0xFFFF
          let cm : BitVec 16 := if masked then c.data.extractLsb' 16 16 else 0xFFFF
          let s := if s.marked then s else s.markFor (unitOf s.cur) ((maskedWords rows rm cm).map (·.1))
          issueMatrix s i (.acst f rows tile rm cm)

/-- The source of an optional mask register. -/
def maskSrc : Option Reg → Src
  | some r => .reg r
  | none => .zero

/-- ACST (R268). -/
def execAcst (f : Fmt) (a : Reg) (b : RegZ) (c : Option Reg) (tile : Fin 256) (off : BitVec 32) (s : State) : Out :=
  fin s (issue s (.acst f a b c tile off) (baseStride a b ++ [maskSrc c]) [] .none fun ws _ s =>
    acstBody s (.acst f a b c tile off) f (arg ws 0) (arg ws 1) (arg ws 2) c.isSome tile.val off.toInt)

/-! ### MDRAIN (R248, R270) -/

/-- The operand checks of MDRAIN: cause and TADDR of the first that fails. -/
def drainCheck (s : State) (a b : Val) : Option (Nat × Word) :=
  match capTrap s a a.addr.toNat 2048 permW with
  | some p => some p
  | none =>
    if a.space ≠ 1 then some (Cause.capPerm, a.addr)
    else if a.addr.toNat % 64 ≠ 0 then some (Cause.align, a.addr)
    else
      match capTrap s b b.addr.toNat 8 permW with
      | some p => some p
      | none =>
        if b.space ≠ 1 then some (Cause.capPerm, b.addr)
        else if b.addr.toNat % 8 ≠ 0 then some (Cause.align, b.addr)
        else if b.addr.toNat / 2 ^ 20 ≠ a.addr.toNat / 2 ^ 20 then some (Cause.access, b.addr)
        else if (s.resolveTile s.cur (a.addr.toNat % 2 ^ 30)).isNone then some (Cause.access, a.addr)
        else
          match reserveRule s.me a (a.addr.toNat % 2 ^ 20) 2048 with
          | some k => some (k, a.addr)
          | none => (reserveRule s.me b (b.addr.toNat % 2 ^ 20) 8).map fun k => (k, b.addr)

/-- MDRAIN on the values of its operands. DEDUCED, log entry 21. -/
def drainBody (s : State) (i : Instr) (f : Fmt) (a b c : Val) (masked : Bool) (tile : Nat) : Acc Done :=
  roomFirst s <|
    (ownerAll s i [tile]).andThen fun s =>
      match drainCheck s a b with
      | some (k, w) => mxTrap s i k w
      | none =>
        match atRelease s i 0x0F (if masked then [a, b, c] else [a, b]) id with
        | some s' => .leave s'
        | none =>
          let v := (s.resolveTile s.cur (a.addr.toNat % 2 ^ 30)).getD 0
          if !s.leads s.cur && !s.internal s.cur (a.addr.toNat % 2 ^ 30) then .ok { s := s }
          else
            match s.freeEntry (unitOf s.cur) with
            | none => .wait .waitMem
            | some e =>
              (waitMatrix s i).andThen fun s =>
                let u := unitOf s.cur
                let j : JEntry :=
                  { addr := a.addr, state := .pending, space := 1, kind := 8, slot := slotField s.cur, issue := BitVec.ofNat 32 s.now,
                    thread := s.cur, inst := s.me.inst, left := 33, born := s.now }
                let rm : BitVec 16 := if masked then c.data.extractLsb' 0 16 else 0xFFFF
                let cm : BitVec 16 := if masked then c.data.extractLsb' 16 16 else 0xFFFF
                let op := MxOp.drain f (v * 2 ^ 20 + a.addr.toNat % 2 ^ 20) (b.addr.toNat % 2 ^ 20) tile rm cm e
                let s := s.setJr u e j
                .ok { s := s.submit u (s.mxCmd op) }

/-- MDRAIN (R270). -/
def execMdrain (f : Fmt) (a b : Reg) (c : Option Reg) (tile : Fin 256) (s : State) : Out :=
  fin s (issue s (.mdrain f a b c tile) [.reg a, .reg b, maskSrc c] [] .none fun ws _ s =>
    drainBody s (.mdrain f a b c tile) f (arg ws 0) (arg ws 1) (arg ws 2) c.isSome tile.val)

/-! ### The engine (R236 to R239, R246, R247, R257, R258) -/

/-- Change the head of a tile's matrix queue. -/
def State.modHead (s : State) (u : Nat) (f : MxCmd → MxCmd) : State :=
  s.modTile u fun x =>
    { x with
      mx := { x.mx with queue := match x.mx.queue with | c :: cs => f c :: cs | [] => [] } }

/-- Take the head off; the next command starts when it can. -/
def State.popHead (s : State) (u : Nat) : State :=
  let s := s.modTile u fun x => { x with mx := { x.mx with queue := x.mx.queue.tail } }
  if (s.tile u).mx.queue.isEmpty then s else { s with agenda := .matrixCommandStart u :: s.agenda }

/-- The head cannot go on: its slot, which has waited for it, traps, and the command is gone (R257, R258). -/
def State.headTrap (s : State) (u : Nat) (c : MxCmd) (cause : Nat) (addr : Word) : State :=
  let s := (s.popHead u).engineLinks u
  s.asThread c.thread fun s => match s.me.insn with | some i => trapAt s i cause addr | none => s

/-- The register that a matrix instruction with a link or shadow source reads. -/
def extraRegs : Instr → List Src
  | .mmas _ _ _ _ _ _ c => [.reg c]
  | .mmam _ _ _ _ _ c => [.reg c]
  | _ => []

/-- The slot that has waited for its command goes on behind its instruction, which may have popped a stream (R158, R257, R258). -/
def State.slotDone (s : State) (t : Nat) : State :=
  s.asThread t fun s =>
    match s.me.run, s.me.insn with
    | .matrix, some i => retire s i (streamRegs s.me (extraRegs i) [] .none .none) none
    | _, _ => s

/-- Link values that a command takes. -/
def MxMul.values (x : MxMul) : Nat := x.m * (mxRowBytes x.f x.pat / 16)

/-- Occupancy (R237). The rows of the shadow buffer arrive at 64 bytes per cycle. -/
def MxOp.cycles : MxOp → Nat
  | .load f _ _ _ => if f = .f32 then 16 else 32
  | .mul x =>
    let rate := if x.src = 2 then 16 else 64
    x.m * max (mxRowCycles x.f x.pat) ((mxRowBytes x.f x.pat + rate - 1) / rate)
  | .zero _ n => n
  | .macc f _ _ _ _ _ => if isPair f then 32 else 16
  | _ => 16

/-- The bytes that a command reads at its start (R238). -/
def State.mxRead (s : State) (u : Nat) : MxOp → List Byte
  | .load _ _ rows len => rows.flatMap fun o => (s.tile u).rd o len
  | .mul x => x.chunks.flatMap fun p => (s.tile u).rd p.1 p.2
  | .acld _ rows _ => rows.flatMap fun o => (s.tile u).rd o 128
  | _ => []

/-- The fills of an ACST: one for each row with selected cells (R268). -/
def State.acstFills (s : State) (u : Nat) (c : MxCmd) : List MxFill :=
  match c.op with
  | .acst f rows tile rm cm =>
    let form := ((s.tile u).gang.map (·.form)).getD false
    (span 0 16).filterMap fun r =>
      let ws := (maskedWords rows rm cm).filterMap fun p =>
        if p.2.1 = r then some (p.1, dwordOfCell f ((s.tile u).mx.cell tile r p.2.2)) else none
      if ws.isEmpty then none
      else some { row := r, thread := c.thread, epoch := c.epoch, words := ws, due := if form then some (s.now + 8 + r) else none }
  | _ => []

/-- The first byte that a command reads from scratchpad of each of its pieces, and their length. -/
def MxOp.pieces : MxOp → List (Nat × Nat)
  | .load _ _ rows len => rows.map fun o => (o, len)
  | .mul x => x.chunks
  | .acld _ rows _ => rows.map fun o => (o, 128)
  | _ => []

/-- The accumulator tiles, and the rows of each, that a command reads. -/
def MxOp.tilesRead (fw : Fmt) : MxOp → List Nat × Nat
  | .mul x => (if isPair (accFmt fw x.wide) then [x.acc, x.acc + 1] else [x.acc], x.m)
  | .macc f sub _ ta tb _ =>
    let ts := if sub = 2 then [ta] else [ta, tb]
    (if isPair f then ts.flatMap fun t => [t, t + 1] else ts, 16)
  | .acst _ _ t _ _ => ([t], 16)
  | .drain _ _ _ t _ _ _ => ([t], 16)
  | _ => ([], 0)

/-- The cells with an error that a command reads: number and error. -/
def Matrix.cellErrors (m : Matrix) (op : MxOp) : List (Nat × BitVec 2) :=
  let r := op.tilesRead m.fmt
  m.bad.filter fun e => r.1.any fun t => decide (e.1 / 256 = t) && decide (e.1 % 256 / 16 < r.2)

/-- Errors of cells that are read: those that are corrected are counted, of the others there are records (R189). -/
def State.readCells (s : State) (u : Nat) (es : List (Nat × BitVec 2)) : State :=
  es.foldl (fun s e => if e.2 = 1 then s.softError (16 * u) 1 e.1 else s.hardError (16 * u) 1) s

/-- A command ends without effect: the asynchronous trap ACCESS of its slot (R271). -/
def State.mxFail (s : State) (u : Nat) (c : MxCmd) (addr : Word) : State :=
  let s := match c.op with | .drain _ _ _ _ _ _ e => s.freeJr u e | _ => s
  (s.popHead u).raise u c.thread (((s.tile u).gang.map (·.inst)).getD 0) Cause.access addr

/-- The errors that a command meets in scratchpad when it starts: the state after them, and the first word that is not corrected
(R189, R271). -/
def State.mxBad (s : State) (u : Nat) (op : MxOp) : Option Nat × State :=
  if (s.tile u).bad.isEmpty then (none, s)
  else
    ((op.pieces.flatMap fun p => (s.tile u).badWords p.1 p.2).head?,
     op.pieces.foldl (fun s p => s.readErrors u p.1 p.2) s)

/-- Go on with a command unless a cell that it reads holds an error that is not corrected. A cell has no address: TADDR is free (R271).
DESIGN CHOICE, log entry 47. -/
def State.withCells (s : State) (u : Nat) (c : MxCmd) (k : State → State) : State :=
  let es := (s.tile u).mx.cellErrors c.op
  let s := s.readCells u es
  if es.any fun e => decide (e.2 ≠ 1) then let f := s.free; f.2.mxFail u c f.1 else k s

/-- The command starts: its operands are read, its occupancy fixed. -/
def State.startHead (s : State) (u : Nat) (c : MxCmd) (data : List Byte) : State :=
  let fills := s.acstFills u c
  let s := s.modHead u fun c => { c with start := some s.now, dur := c.op.cycles, data := data }
  s.modTile u fun x => { x with mx := { x.mx with fills := x.mx.fills ++ fills } }

/-- A value of a link can be taken by the running command: one has landed, and no MMAR transfer has the direction (R112, R247). -/
def State.receivable (s : State) (u : Nat) (l : Link) : Bool :=
  !((decide (l = .east) || decide (l = .south)) && !(s.tile u).mx.rot.transfers.isEmpty)
    && (match (s.linkQ u l).vals with | v :: _ => decide (v.at? ≤ s.now) | [] => false)

/-- Take one link value for the running command (R257). A missing one is a deviation in a FORM launch and else a wait. -/
def State.pumpLink (s : State) (u : Nat) : State :=
  match (s.tile u).mx.queue with
  | [] => s
  | c :: _ =>
    match c.op, c.start with
    | .mul x, some _ =>
      (match x.link with
       | none => s
       | some l =>
         if x.values ≤ c.took.length then s
         else
           if s.receivable u l then
             let r := s.recvLink u l
             let s := (r.2.modHead u fun c => { c with took := c.took ++ [r.1] }).engineLinks u
             if x.values ≤ c.took.length + 1 then s.slotDone c.thread else s
           else if (s.th c.thread).arch.status.form then s.headTrap u c Cause.linkEmpty (BitVec.ofNat 64 (linkCode l))
           else s.modHead u fun c => { c with dur := c.dur + 1 })
    | _, _ => s

/-- Change the rotation state of a tile. -/
def State.modRot (s : State) (u : Nat) (f : MxRot → MxRot) : State :=
  s.modTile u fun x => { x with mx := { x.mx with rot := f x.mx.rot } }

/-- Change the running transfer of a tile. -/
def MxRot.modFirst (r : MxRot) (f : MxTransfer → MxTransfer) : MxRot :=
  { r with transfers := match r.transfers with | t :: ts => f t :: ts | [] => [] }

/-- Change the rotation state of the gang at the other end of a tile's link, on its tile or saved there (R379). -/
def State.modPeerRot (s : State) (u : Nat) (l : Link) (f : MxRot → MxRot) : State :=
  match s.neighbour u l, (s.tile u).gang with
  | some v, some g =>
    if (s.tile v).holdsSheet g then s.modRot v f
    else
      s.modTile v fun x =>
        { x with saved := x.saved.map fun w => if sameSheet g w.gang then { w with rot := f w.rot } else w }
  | _, _ => s

/-- The neighbours learn the size, and the format, of the blocks of a transfer that begins. -/
def State.announce (s : State) (u : Nat) (t : MxTransfer) : State :=
  (s.modPeerRot u .west fun r => { r with actIn := r.actIn ++ [t.actLeft.length] }).modPeerRot u .north fun r =>
    { r with wgtIn := r.wgtIn ++ [(t.fmt, t.wgtLeft.length)] }

/-- Send the next value of one direction, if a place is free. -/
def State.rotSend (s : State) (u : Nat) (l : Link) (vs : List Quad) (f : List Quad → MxTransfer → MxTransfer) : State :=
  match vs with
  | v :: rest =>
    if s.noPlace u l then s
    else ((s.takePlace u l).sendLink u l v).modRot u fun r => r.modFirst (f rest)
  | [] => s

/-- Receive the next value of one direction, if one has landed. -/
def State.rotRecv (s : State) (u : Nat) (l : Link) (more : Bool) (f : Quad → MxTransfer → MxTransfer) : State :=
  match (s.linkQ u l).vals with
  | v :: _ =>
    if more && decide (v.at? ≤ s.now) then
      let r := s.recvLink u l
      r.2.modRot u fun x => x.modFirst (f r.1)
    else s
  | [] => s

/-- The running transfer has received both blocks: the shadow buffers are complete (R258). -/
def MxRot.received (r : MxRot) : Bool :=
  match r.transfers, r.actIn, r.wgtIn with
  | t :: _, n :: _, (_, k) :: _ => decide (t.actGot.length = n) && decide (t.wgtGot.length = k)
  | _, _, _ => false

/-- The running transfer has sent and received everything. -/
def MxRot.complete (r : MxRot) : Bool :=
  r.received && (match r.transfers with | t :: _ => t.actLeft.isEmpty && t.wgtLeft.isEmpty | [] => false)

/-- The blocks that the running transfer has received stand in the shadow buffers. -/
def MxRot.land (r : MxRot) : MxRot :=
  match r.transfers, r.wgtIn with
  | t :: ts, (f, _) :: _ =>
    if r.received && !t.landed then
      { r with
        transfers := { t with landed := true } :: ts
        shadow := { act := linkBytes t.actGot, wgt := linkBytes t.wgtGot, fmt := f, full := true } }
    else r
  | _, _ => r

/-- One cycle of the running transfer of a tile (R246). -/
def State.pumpRot (s : State) (u : Nat) : State :=
  match (s.tile u).mx.rot.transfers with
  | [] => s
  | t :: _ =>
    let s := s.rotSend u .west t.actLeft fun l t => { t with actLeft := l }
    let s := s.rotSend u .north t.wgtLeft fun l t => { t with wgtLeft := l }
    let r := (s.tile u).mx.rot
    let s := s.rotRecv u .east (decide (t.actGot.length < (r.actIn.head?).getD 0)) fun v t => { t with actGot := t.actGot ++ [v] }
    let s := s.rotRecv u .south (decide (t.wgtGot.length < ((r.wgtIn.head?).map (·.2)).getD 0)) fun v t =>
      { t with wgtGot := t.wgtGot ++ [v] }
    let fresh := (s.tile u).mx.rot.received && !t.landed
    let s := s.modRot u MxRot.land
    let s : State := if fresh then { s with agenda := .matrixCommandStart u :: s.agenda } else s
    if (s.tile u).mx.rot.complete then { s with agenda := .mmarTransferEnd u :: s.agenda } else s

/-- What the engine of a tile does on its links in one cycle; a tile that is being saved stops (R379). -/
def State.mxPump (s : State) (u : Nat) : State :=
  if (s.tile u).saving.isSome then s else (s.pumpLink u).pumpRot u

/-- A transfer is queued, and begins when it is the first. -/
def State.addTransfer (s : State) (u : Nat) (t : MxTransfer) : State :=
  let idle := (s.tile u).mx.rot.transfers.isEmpty
  let s := s.modRot u fun r => { r with transfers := r.transfers ++ [t] }
  if idle then ((s.announce u t).engineLinks u).pumpRot u else s

/-- A command with a shadow source at its start (R258): the buffers, the deferred checks, the swap. -/
def State.startShadow (s : State) (u : Nat) (c : MxCmd) (x : MxMul) : State :=
  let sh := (s.tile u).mx.rot.shadow
  let form := (s.th c.thread).arch.status.form
  if !sh.full then (if form then s.headTrap u c Cause.timingDeviation 0 else s)
  else if !mulFmtOk x.f sh.fmt x.wide x.kind then s.headTrap u c Cause.mxFormat 0
  else
    let go (s : State) : State :=
      let s := s.modTile u fun y => { y with mx := { y.mx with latch := some sh.wgt, fmt := sh.fmt } }
      let s := s.modRot u fun r => { r with shadow := {} }
      (s.startHead u c sh.act).slotDone c.thread
    if isPair (accFmt sh.fmt x.wide) then
      (if x.acc % 2 = 1 then s.headTrap u c Cause.mxFormat (BitVec.ofNat 64 x.acc)
       else
         match ownerCheck { s with cur := c.thread } (x.acc + 1) with
         | .error a => s.headTrap u c Cause.accOwner a
         | .ok s' => go { s' with cur := s.cur })
    else go s

/-- MATRIX_COMMAND_START (R236): the head of the queue starts when nothing runs. -/
def execMatrixCommandStart (u : Nat) (s : State) : Out :=
  fin s
    (match (s.tile u).mx.queue with
     | [] => s
     | c :: _ =>
       if c.start.isSome then s
       else
         match c.op with
         | .mul x =>
           if 2 ≤ x.src ∧ (s.tile u).saving.isSome then s
           else if x.src = 3 then s.startShadow u c x
           else
             (match s.mxBad u c.op with
              | (some k, s) => s.mxFail u c (BitVec.ofNat 64 (8 * k))
              | (none, s) => (s.startHead u c (s.mxRead u c.op)).pumpLink u)
         | .acst _ _ _ _ _ => s.withCells u c fun s => s.startHead u c []
         | op =>
           (match s.mxBad u op with
            | (some k, s) => s.mxFail u c (BitVec.ofNat 64 (8 * k))
            | (none, s) => s.startHead u c (s.mxRead u op)))

/-- The matrix engine's packets of a drain: 32 of 64 bytes, rows ascending (R248, R270). DEDUCED, log entry 21. -/
def drainReqs (m : Matrix) (f : Fmt) (off tile : Nat) (rm cm : BitVec 16) : List (Nat × Req) :=
  (span 0 16).flatMap fun r =>
    [0, 8].map fun j0 =>
      let bs := (span j0 8).flatMap fun j => leBytes 8 (dwordOfCell f (m.cell tile r j)).toNat
      (off + 128 * r + 8 * j0, Req.drain bs ((span j0 8).map fun j => rm.getLsbD r && cm.getLsbD j) false false)

/-- Change SENT of the gang that journal entry e of a unit belongs to, which may be saved (R140, R377). -/
def State.countDrain (s : State) (u e : Nat) (f : Nat → Nat) : State :=
  s.modTile u fun x =>
    if 1000 ≤ e then
      { x with saved := x.saved.map fun v => if v.gang.ctx = (e - 1000) / 32 then { v with sent := f v.sent } else v }
    else { x with sent := f x.sent }

/-- Send packets of a drain for journal entry e of a unit. -/
def State.sendDrain (s : State) (u e : Nat) (j : JEntry) (epoch dest : Nat) (reqs : List (Nat × Req)) : State :=
  reqs.foldl (fun s p =>
    (s.countDrain u e (· + 1)).sendPkt
      { src := u, thread := j.thread, owner := .journal u e, req := p.2, target := .tile (dest / 2 ^ 20), addr := p.1, part := s.partOf u,
        inst := j.inst, form := ((s.inst j.inst).map (·.form)).getD false, epoch := epoch, flits := max 1 p.2.flits }) s

/-- A drain sends its packets (R248, R270). In the form class its fill follows them in the window; in the free class, where no cycle is
promised, it is kept in the journal entry until all 32 are acknowledged. DEDUCED, log entry 21. -/
def State.startDrain (s : State) (u e epoch dest wakeOff : Nat) (reqs : List (Nat × Req)) : State :=
  let j := s.jr u e
  let fill : Req := .drain [] [] true true
  if ((s.inst j.inst).map (·.form)).getD false then s.sendDrain u e j epoch dest (reqs ++ [(wakeOff, fill)])
  else (s.sendDrain u e j epoch dest reqs).setJr u e { j with wake := some (dest / 2 ^ 20 * 2 ^ 20 + wakeOff, epoch) }

/-- The effect of a command at its end (R236, R260 to R267, R270). -/
def State.mxEffect (s : State) (u : Nat) (c : MxCmd) : State :=
  let put (f : Matrix → Matrix) : State := s.modTile u fun x => { x with mx := f x.mx }
  match c.op with
  | .load f tr _ _ => put fun m => { m with latch := some (if tr then transposeBlock f c.data else c.data), fmt := f }
  | .mul x =>
    let data := if x.src = 2 then linkBytes c.took else c.data
    let s := put fun m => (m.product x data).mended (MxOp.tilesRead m.fmt (.mul x)).1 x.m
    if x.kind = 3 then
      s.addTransfer u
        { actLeft := linkValues data, wgtLeft := linkValues ((s.tile u).mx.latch.getD []), fmt := (s.tile u).mx.fmt }
    else s
  | .zero t n => put fun m => (span t n).foldl (fun m k => m.putCells k (List.replicate 256 0)) m
  | .macc f sub td ta tb v => put fun m => (m.macc f sub td ta tb v).mended (if isPair f then [td, td + 1] else [td]) 16
  | .acld f _ t =>
    put fun m => m.putCells t ((span 0 256).map fun k => BitVec.ofNat 32 (cellOfDword f (leNat ((c.data.drop (8 * k)).take 8))))
  | .acst _ _ _ _ _ => s
  | .drain f dest wakeOff t rm cm e =>
    s.startDrain u e c.epoch dest wakeOff (drainReqs (s.tile u).mx f (dest % 2 ^ 20) t rm cm)

/-- The running command of a tile has had its cycles and its link values. -/
def MxCmd.closed (c : MxCmd) (now : Nat) : Bool :=
  match c.start with
  | none => false
  | some t =>
    decide (t + c.dur ≤ now) && (match c.op with | .mul x => x.link.isNone || decide (x.values ≤ c.took.length) | _ => true)

/-- MATRIX_COMMAND_END (R236): the results are written, and the next command starts. -/
def execMatrixCommandEnd (u : Nat) (s : State) : Out :=
  fin s
    (match (s.tile u).mx.queue with
     | [] => s
     | c :: _ =>
       if !c.closed s.now then s
       else
         match c.op with
         | .acst _ _ _ _ _ => s.popHead u
         | _ => s.withCells u c fun s => (s.mxEffect u c).popHead u)

/-- ACST_ROW_FILL (R239, R268): the words of a row are filled, the rows of a tile's stores in their order. -/
def execAcstRowFill (u row : Nat) (s : State) : Out :=
  fin s
    (match (s.tile u).mx.fills.head?.filter fun f => decide (f.row = row) && decide (f.due.getD 0 ≤ s.now) with
     | none => s
     | some f =>
       let s := s.modTile u fun x => { x with mx := { x.mx with fills := x.mx.fills.erase f } }
       f.words.foldl (fun s w =>
         (s.engUndoPush f.thread u w.1 8).fillWord u w.1 w.2 { remote := false, slot := slotOf f.thread, epoch := f.epoch }) s)

/-- MMAR_TRANSFER_END (R246): the received blocks stand in the shadow buffers, nothing is left to send, and a following transfer
begins. -/
def execMmarTransferEnd (u : Nat) (s : State) : Out :=
  let r := (s.tile u).mx.rot.land
  fin s
    (if r.complete then
       let ts := r.transfers.tail
       let s := s.modRot u fun _ => { r with transfers := ts, actIn := r.actIn.tail, wgtIn := r.wgtIn.tail }
       let s := match ts with | t :: _ => s.announce u t | [] => s
       let s := s.engineLinks u
       { s with agenda := .matrixCommandStart u :: s.agenda }
     else s)

/-! ### Packets of a drain (R248) -/

/-- A packet of the drain's journal entry has been refused. -/
def State.drainRefused (s : State) (p : Packet) : Bool :=
  s.pkts.any fun q =>
    decide (q.owner = p.owner) && decide (q.src = p.src) && (match q.answer with | .refused _ => true | _ => false)

/-- The selected dwords of a packet land: each word is written and filled (R239). -/
def State.drainWrite (s : State) (u off : Nat) (w : Writer) : List Byte → List Bool → State
  | bs, b :: rest =>
    let s := if b then s.fillWord u off (BitVec.ofNat 64 (leNat (bs.take 8))) w else s
    s.drainWrite u (off + 8) w (bs.drop 8) rest
  | _, [] => s

/-- A packet of a drain, or its wake-up fill, at the port of its tile. The value that the fill writes is a free value. -/
def State.serveDrain (s : State) (u : Nat) (p : Packet) (bs : List Byte) (sel : List Bool) (wake : Bool) : State :=
  let s := (s.modTile u fun x => x.signal 2).countRecv u p.inst
  let w : Writer := { remote := true, epoch := p.epoch }
  let s := if wake && (p.stale || s.drainRefused p) then s else s.engUndoPush p.thread u p.addr (if wake then 8 else 64)
  if wake && (p.stale || s.drainRefused p) then s.answer p.id .ack
  else if !s.portOpen u p.addr (if wake then 8 else 64) p then s.answer p.id (.refused Cause.remoteRefused)
  else if wake then
    let f := s.free
    (f.2.fillWord u p.addr f.1 w).answer p.id .ack
  else (s.drainWrite u p.addr w bs sel).answer p.id .ack

/-- MDRAIN_PACKET (R248): a packet of a drain reaches its tile. -/
def execMdrainPacket (p : Nat) (s : State) : Out :=
  fin s
    (match s.pkt p with
     | none => s
     | some q =>
       match q.target, q.req with
       | .tile u, .drain bs sel _ wake => if s.canServe u q then s.serveDrain u q bs sel wake else s
       | _, _ => s)

end Sys2Proof.Machine
end

