-- ==== Sys2Proof/Machine/Engine.lean ====
section
/-! DEFINITION. What the copy, index, quadtree and felting-array engines share: their blocks, their accesses to GLOBAL memory, their
completion words and traps (R199, R299, R301, R316 to R318, R321, R352, R399). -/

namespace Sys2Proof.Machine

/-! ### GLOBAL memory (R199) -/

/-- The pieces of a GLOBAL area that lie within one smallest page each: offset and length. -/
def pagePieces (va n : Nat) : List (Nat × Nat) :=
  (touched 0x20000 va n).map fun k =>
    let lo := max va (k * 0x20000)
    (lo, min (va + n) ((k + 1) * 0x20000) - lo)

/-- The physical place of a GLOBAL offset for an engine's access, or the cause of R199. -/
def State.engPhys (s : State) (part pasid va : Nat) (need : Bool × Bool × Bool) : Except Nat Phys :=
  match s.walkVa part pasid va with
  | .error c => .error c
  | .ok (l, e) =>
    match s.leafAccess part l e va need false false false with
    | .error c => .error c
    | .ok ph => if s.reachable ph && decide (ph.pa < ctlBase) then .ok ph else .error Cause.remoteRefused

/-- Read bytes from the pieces of an area: the cause and the offset of the first that fails. -/
def State.globalRdP (s : State) (part pasid : Nat) : List (Nat × Nat) → Except (Nat × Nat) (List Byte)
  | [] => .ok []
  | (va, n) :: ps =>
    match s.engPhys part pasid va (true, false, false) with
    | .error c => .error (c, va)
    | .ok ph =>
      match s.globalRdP part pasid ps with
      | .error e => .error e
      | .ok bs => .ok (s.physRd ph n ++ bs)

/-- Read an area of GLOBAL memory. -/
def State.globalRd (s : State) (part pasid va n : Nat) : Except (Nat × Nat) (List Byte) :=
  s.globalRdP part pasid (pagePieces va n)

/-- Write bytes to the pieces of an area. -/
def State.globalWrP (s : State) (part pasid : Nat) : List (Nat × Nat) → List Byte → Except (Nat × Nat) State
  | [], _ => .ok s
  | (va, n) :: ps, bs =>
    match s.engPhys part pasid va (false, true, false) with
    | .error c => .error (c, va)
    | .ok ph => (s.physWr ph (bs.take n)).globalWrP part pasid ps (bs.drop n)

/-- Write an area of GLOBAL memory. -/
def State.globalWr (s : State) (part pasid va : Nat) (bs : List Byte) : Except (Nat × Nat) State :=
  s.globalWrP part pasid (pagePieces va bs.length) bs

/-! ### Blocks in scratchpad (R297, R316) -/

/-- Dword k of a run of bytes. -/
def bytesWord (bs : List Byte) (k : Nat) : Word := BitVec.ofNat 64 (leNat ((bs.drop (8 * k)).take 8))

/-- The checks of the operand that names a command's block of 128 bytes (R299, R321). -/
def blockCheck (s : State) (c : Val) : Option (Nat × Word) :=
  match capTrap s c c.addr.toNat 128 (permR ||| permW) with
  | some p => some p
  | none =>
    if c.space ≠ 0 then some (Cause.access, c.addr)
    else if c.addr.toNat % 64 ≠ 0 then some (Cause.align, c.addr)
    else (reserveRule s.me c c.addr.toNat 128).map fun k => (k, c.addr)

/-- The dwords of a block from 0x08 on, read as LD reads them. -/
def blockRead (s : State) (i : Instr) (c : Val) (n : Nat) : Acc (List Word × State) :=
  (s.nearRead i c (c.addr + 8) (c.addr.toNat % 2 ^ 20 + 8) (8 * n)).andThen fun g =>
    .ok ((List.range n).map fun k => bytesWord g.bytes k, g.s)

/-! ### Completion words and traps (R301, R316, R352) -/

/-- A completion word. -/
def cwWord (state cmd cause reason count : Nat) : Word :=
  BitVec.ofNat 64 (state * 2 ^ 56 + cmd * 2 ^ 48 + cause * 2 ^ 40 + reason * 2 ^ 32 + count)

/-- The command runs in the leader alone: the issue of a replica makes its marks and no more (R399). -/
def State.leadOnly (s : State) (ext : Bool) : Bool := ext && s.me.redundant

/-- A replica's issue of a command that runs in the leader alone. -/
def State.followOnly (s : State) (ext : Bool) : Bool := ext && !s.leads s.cur

/-- Empty-marks of words of the present thread's tile: eight in each cycle from the issue on, and the slot waits for the last (R318). -/
def State.ownMarks (s : State) (ws : List Nat) : State :=
  (s.engMarks s.cur (unitOf s.cur) (ws.take 8)).modMe fun x =>
    { x with markUntil := s.now + (ws.length + 7) / 8 - 1, toMark := ws.drop 8 }

/-- The marks of the present cycle of every thread that has some left (R318). -/
def State.marksOn (s : State) : State :=
  (s.threads.filter fun e => !e.2.toMark.isEmpty).foldl (fun s e =>
    (s.engMarks e.1 (unitOf e.1) (e.2.toMark.take 8)).modTh e.1 fun x => { x with toMark := x.toMark.drop 8 }) s

/-- The slot waits for a place in an engine's queue: no asynchronous trap interrupts it (R364). -/
def queueWait {α : Type} (s : State) (i : Instr) : Acc α :=
  .leave (waitEngine (s.modMe fun x => { x with run := .running, insn := some i }) .waitMem)

/-- The asynchronous trap of a failed command on its issuing slot (R325, R352). -/
def State.engTrap (s : State) (t inst cause : Nat) (va : Word) : State := s.raise (unitOf t) t inst cause va

end Sys2Proof.Machine
end

