-- ==== Sys2Proof/Machine/Journal.lean ====
section
/-! DEFINITION. JRNL, the acknowledgement and refusal of posted operations, ACSPILL and ACFILL (R169, R173, R366 to R371, R384 to
R386). -/

namespace Sys2Proof.Machine

/-! ### JRNL (R367, R370, R371) -/

/-- STATE code of an entry (R367). -/
def jstateCode : JState → Nat
  | .free => 0
  | .pending => 1
  | .retrying => 2
  | .refused => 3

/-- An entry as JRNL returns it (R367). A free entry reads as zero. -/
def JEntry.word (j : JEntry) : Quad :=
  if j.state = .free then 0
  else
    BitVec.ofNat 128 (j.addr.toNat * 2 ^ 64 + j.cause * 2 ^ 56 + jstateCode j.state * 2 ^ 54 + j.space * 2 ^ 52 + j.kind * 2 ^ 48
      + j.slot * 2 ^ 44 + j.op * 2 ^ 40 + j.len * 2 ^ 32 + j.issue.toNat)

/-- Post the held operation of an entry again for the present thread, as if it issued it now (R371). -/
def State.retryEntry (s : State) (u e : Nat) : State :=
  let j := s.jr u e
  let j' : JEntry :=
    { j with state := .pending, cause := 0, slot := slotField s.cur, issue := BitVec.ofNat 32 s.now, thread := s.cur, inst := s.me.inst,
             tries := 0, born := s.now }
  let s := if j.kind = 5 then s.modMe fun x => { x with redPending := x.redPending + 1 } else s
  match j.req with
  | none => s.setJr u e j'
  | some req =>
    if j.kind = 6 then (s.setJr u e { j' with unsent := true }).releaseHeld u 32
    else (s.setJr u e j').departEntry s.cur u e j.space j.addr req

/-- What JRNL does. -/
inductive JAct where
  | look
  | rel
  | retry
  deriving DecidableEq, Repr

/-- A retry must wait as the operation would at its first issue: R362 bounds what a thread has in flight, and R169 the pending REDs,
while R371 lets JRNL complete within the rotation. DESIGN CHOICE, log entry 48. -/
def State.retryWaits (s : State) (j : JEntry) : Bool :=
  s.asyncFull s.cur || (decide (j.kind = 5) && decide (8 ≤ s.me.redPending))

/-- JRNL on the value of its index (R371). -/
def jrnlBody (s : State) (act : JAct) (a : Word) : Acc Done :=
  if 31 < a.toNat then .trap Cause.access a
  else
    let u := unitOf s.cur
    let e := a.toNat
    let j := s.jr u e
    let out (s : State) : Acc Done := Done.value s (val128 j.word)
    match act with
    | .look => out s
    | .rel =>
      if j.state = .free then out s
      else if !s.me.priv && decide (j.slot ≠ slotField s.cur) then .trap Cause.access a
      else if j.state ≠ .refused then .trap Cause.access a
      else out (s.freeJr u e)
    | .retry =>
      if !s.me.priv && decide (j.slot ≠ slotField s.cur) then .trap Cause.access a
      else if j.state ≠ .refused then .trap Cause.access a
      else if j.kind = 8 then .trap Cause.access a
      else if s.retryWaits j then .wait .waitMem
      else out (s.retryEntry u e)

/-- JRNL (R371). -/
def execJrnl (d : Dst) (a : Src) (s : State) : Out :=
  fin s (scalar s (.jrnl d a) d [a] fun ws s => jrnlBody s .look (arg ws 0).lo)

/-- JRNL.REL (R371). -/
def execJrnlRel (d : Dst) (a : Src) (s : State) : Out :=
  fin s (scalar s (.jrnlRel d a) d [a] fun ws s => jrnlBody s .rel (arg ws 0).lo)

/-- JRNL.RETRY (R371). -/
def execJrnlRetry (d : Dst) (a : Src) (s : State) : Out :=
  fin s (scalar s (.jrnlRetry d a) d [a] fun ws s => jrnlBody s .retry (arg ws 0).lo)

/-! ### Answers of posted operations (R169, R173, R368) -/

/-- The answer of a packet has travelled back and may land. -/
def State.lands (s : State) (p : Packet) : Bool :=
  p.back && decide (p.stage = .answered) && decide (p.due ≤ s.now) && s.firstBack p

/-- A RED of the entry leaves the pending count of its thread (R169). -/
def State.redDone (s : State) (j : JEntry) : State :=
  if j.kind = 5 then s.modAny j.thread j.inst fun x => { x with redPending := x.redPending - 1 } else s

/-- An entry is freed, live or saved. -/
def State.entryDone (s : State) (u e : Nat) : State := if 1000 ≤ e then s.setEntry u e {} else s.freeJr u e

/-- The wake-up fill of a drain's entry that has not departed yet. -/
def Packet.wakes (p : Packet) (u e : Nat) : Bool :=
  decide (p.owner = .journal u e) && decide (p.stage = .queued) && (match p.req with | .drain _ _ _ wake => wake | _ => false)

/-- The other packets of a drain belong to nobody any more, and its fill, if it has not departed, is not sent (R248). -/
def State.orphanPkts (s : State) (u e : Nat) : State :=
  let n := (s.pkts.filter fun p => p.wakes u e).length
  let s := s.countDrain u e (· - n)
  { s with
    pkts := (s.pkts.filter fun p => !p.wakes u e).map fun p =>
      if p.owner = .journal u e then { p with owner := .nobody, stale := true } else p }

/-- An acknowledgement lands: a drain counts its packets (R270), and after the last of them its fill is sent (R248). -/
def State.ackEntry (s : State) (u e : Nat) : State :=
  let j := s.entry u e
  if j.kind = 8 ∧ 1 < j.left then
    match j.left, j.wake with
    | 2, some w =>
      (s.setEntry u e { j with left := 1, wake := none }).sendDrain u e j w.2 w.1 [(w.1 % 2 ^ 20, .drain [] [] true true)]
    | n, _ => s.setEntry u e { j with left := n - 1 }
  else (s.redDone j).entryDone u e

/-- The context of a system core whose SCCTX a posted write has changed is in force from its acknowledgement on (R196). -/
def State.contextAcked (s : State) (p : Packet) : State :=
  if p.node = s.nodeid.toNat ∧ !p.host ∧ ctlBase + 0x480 ≤ p.paddr ∧ p.paddr < ctlBase + 0x500 then
    let n := (p.paddr - (ctlBase + 0x480)) / 8
    { s with coreCtx := s.coreCtx.setIfInBounds n (s.scctx.toList.getD n 0) }
  else s

/-- POSTED_ACK (R368). -/
def execPostedAck (p : Nat) (s : State) : Out :=
  fin s
    (match s.pkt p with
     | none => s
     | some q =>
       if !s.lands q then s
       else
         match q.owner, q.answer with
         | _, .refused _ => s
         | _, .full => s
         | .journal u e, _ => ((s.dropPkt p).contextAcked q).ackEntry u e
         | _, _ => s)

/-- A refusal lands: a mailbox without room is tried again at the next frame start, up to three times (R173). -/
def State.nackEntry (s : State) (u e : Nat) (a : Answer) : State :=
  let j := s.entry u e
  match a with
  | .full =>
    if j.tries < 3 then s.setEntry u e { j with state := .retrying, again := (s.now / 48 + 1) * 48 }
    else (s.refuse u e Cause.mboxFull Cause.mboxFull).releaseHeld u 32
  | .refused c => (((s.redDone j).refuse u e c Cause.remoteRefused).orphanPkts u e).releaseHeld u 32
  | _ => s

/-- POSTED_REFUSED (R368). -/
def execPostedRefused (p : Nat) (s : State) : Out :=
  fin s
    (match s.pkt p with
     | none => s
     | some q =>
       if !s.lands q then s
       else
         match q.owner, q.answer with
         | .journal u e, .refused c => (s.dropPkt p).nackEntry u e (.refused c)
         | .journal u e, .full => (s.dropPkt p).nackEntry u e .full
         | _, _ => s)

/-! ### ACSPILL and ACFILL (R384 to R386) -/

/-- Claim unit t for a context without a change of its data; its SAVED bit is cleared. -/
def Matrix.take (m : Matrix) (t : Nat) (ctx : BitVec 16) : Matrix :=
  { m with owner := Sparse.set 0 m.owner t ctx, saved := Sparse.set false m.saved t false }

/-- An error that is not corrected in the buffer of a unit: ACCESS with the unit's number, and an ERROR record (R386). -/
def bufferTrap (s : State) (i : Instr) (base t : Nat) : Acc Done :=
  mxTrap (s.dramError (unitPlace base t).1) i Cause.access (BitVec.ofNat 64 t)

/-- ACSPILL of unit t, engine idle (R386). -/
def spillUnit (s : State) (i : Instr) (t : Nat) : Acc Done :=
  let u := unitOf s.cur
  let m := (s.tile u).mx
  let o := m.ownerOf t
  if o = 0 ∨ o = s.me.arch.acctag ∨ Sparse.get false m.saved t = true then Done.value s (val64 0)
  else
    let base := s.ctxBase (s.partOf u) o.toNat
    if s.dramLost (unitPlace base t).1 (unitPlace base t).2 then bufferTrap s i base t
    else
      let s := s.unitOut u base t
      Done.value (s.modTile u fun x => { x with mx := { x.mx with saved := Sparse.set false x.mx.saved t true } }) (val64 1)

/-- ACFILL of unit t, engine idle (R386). -/
def fillUnit (s : State) (i : Instr) (t : Nat) : Acc Done :=
  let u := unitOf s.cur
  let m := (s.tile u).mx
  let o := m.ownerOf t
  let ctx := s.me.arch.acctag
  let base := s.ctxBase (s.partOf u) ctx.toNat
  if o = ctx then Done.value s (val64 2)
  else if o ≠ 0 ∧ Sparse.get false m.saved t = false then mxTrap s i Cause.accOwner (BitVec.ofNat 64 t)
  else if s.spillBit base t && s.dramLost (unitPlace base t).1 (unitPlace base t).2 then bufferTrap s i base t
  else if s.spillBit base t then
    Done.value ((s.modTile u fun x => { x with mx := x.mx.take t ctx }).unitIn u base t) (val64 1)
  else Done.value (s.modTile u fun x => { x with mx := x.mx.claim t ctx }) (val64 0)

/-- Both forms (R386): the number, the guest, the wait for the engine. -/
def spillForm (s : State) (i : Instr) (d : Dst) (a : Src) (k : State → Nat → Acc Done) : State :=
  needPriv (awake s) i fun s =>
    scalar s i d [a] fun ws s =>
      let v := (arg ws 0).lo
      if 256 < v.toNat then .trap Cause.access v
      else if s.me.arch.status.guest then .trap Cause.accOwner (v + 0x20000)
      else (waitMatrix s i).andThen fun s => k s v.toNat

/-- ACSPILL (R386). -/
def execAcspill (d : Dst) (a : Src) (s : State) : Out := fin s (spillForm s (.acspill d a) d a fun s t => spillUnit s (.acspill d a) t)

/-- ACFILL (R386). -/
def execAcfill (d : Dst) (a : Src) (s : State) : Out :=
  fin s (spillForm s (.acfill d a) d a fun s t => fillUnit s (.acfill d a) t)

end Sys2Proof.Machine
end

