-- ==== Sys2Proof/Machine/Fetch.lean ====
section
/-! DEFINITION. Fetch through the instruction cache, and the turn of a slot (R14, R29 to R31, R37, R95, R105 to R109, R119 to
R121, R207 to R209, R375, R412, R413). -/

namespace Sys2Proof.Machine

/-! ### Operands that an instruction takes from links (R120) -/

/-- The scalar sources and the destination of the instructions that can name a link. -/
def linkOperands : Instr → List Src × Sink
  | .add _ d a b | .sub _ d a b | .mul _ d a b | .mulh _ d a b | .mulhu _ d a b | .div _ d a b | .divu _ d a b
  | .rem _ d a b | .remu _ d a b | .and _ d a b | .or _ d a b | .xor _ d a b | .andn _ d a b | .shl _ d a b | .shr _ d a b
  | .sra _ d a b | .rot _ d a b | .min _ d a b | .max _ d a b | .minu _ d a b | .maxu _ d a b | .cmp _ _ d a b
  | .bext d a b | .csetb d a b | .csetbTight d a b | .cinc d a b | .candp d a b | .fadd _ _ d a b | .fsub _ _ d a b
  | .fmul _ _ d a b | .fdiv _ _ d a b | .fmin _ d a b | .fmax _ d a b | .fcmp _ _ d a b | .fsgnCpy _ d a b
  | .fsgnNeg _ d a b | .fsgnXor _ d a b => ([a, b], .dst d)
  | .clz _ d a | .ctz _ d a | .popc _ d a | .addi _ d a _ | .moviHi d a _ | .jr d a _ | .cgetb d a | .cgeta d a | .ctag d a
  | .cincImm d a _ | .candpImm d a _ | .cclr d a | .cmov d a | .fsqrt _ _ d a | .fclass _ d a | .frnd _ _ d a
  | .cvt _ _ _ d a | .mwait d a | .jrnl d a | .jrnlRel d a | .jrnlRetry d a | .acspill d a | .acfill d a => ([a], .dst d)
  | .bdep d a b c | .ffma _ _ d a b c => ([a, b, c], .dst d)
  | .movi d _ | .movi64 d _ | .jl d _ | .jlExt d _ | .srd d _ | .ld _ d _ _ | .ldExt _ d _ _ | .ldc d _ _ | .ldcExt d _ _
  | .ldf d _ _ | .ldfExt d _ _ | .ldt d _ _ | .ldtExt d _ _ | .probe d _ _ | .probeExt d _ _ | .marm d _ _ | .await d _ _
  | .awaitExt d _ _ | .barGang d | .barField d | .follow d _ | .tid d | .rstat d | .evrd d _ | .evrdClr d _
  | .vcmp _ _ d _ _ | .dcancel d _ => ([], .dst d)
  | .br _ a b _ => ([a, b], .none)
  | .brImm _ a _ _ | .swr _ a | .waiti a | .rsync a | .spawn a _ _ => ([a], .none)
  | .st _ _ b _ | .stExt _ _ b _ | .stc _ b _ | .stcExt _ b _ | .stf _ b _ | .stfExt _ b _ | .stw _ b _ | .stwExt _ b _
  | .redAdd _ _ _ _ b _ | .redAnd _ _ _ _ b _ | .redOr _ _ _ _ b _ | .redXor _ _ _ _ b _ | .redMin _ _ _ _ b _
  | .redMax _ _ _ _ b _ | .redMinu _ _ _ _ b _ | .redMaxu _ _ _ _ b _ => ([b], .none)
  | .amoAdd _ _ _ d _ b _ | .amoAnd _ _ _ d _ b _ | .amoOr _ _ _ d _ b _ | .amoXor _ _ _ d _ b _ | .amoMin _ _ _ d _ b _
  | .amoMax _ _ _ d _ b _ | .amoMinu _ _ _ d _ b _ | .amoMaxu _ _ _ d _ b _ | .amoSwap _ _ _ d _ b _ => ([b], .dst d)
  | .amoCas _ _ _ d _ b c _ => ([b, c], .dst d)
  | .vsel _ _ _ _ c => ([c], .none)
  | .vbcast _ _ a => ([a], .none)
  | .vred _ _ _ d _ b _ => ([b], .dst d)
  | .vscan _ _ _ _ _ b => ([b], .none)
  | .vdot _ _ d _ _ c => ([c], .dst d)
  | _ => ([], .none)

/-! ### FOLLOW (R119 to R121) -/

/-- The key of the same slot of the cluster leader. -/
def leadKey (t : Nat) : Nat := 16 * leaderOf (unitOf t) + slotOf t

/-- The slots of the cluster that follow a leader's slot. DEDUCED, log entry 19. -/
def State.followers (s : State) (t : Nat) : List Nat :=
  let u := unitOf t
  if isSys u ∨ leaderOf u ≠ u then []
  else ([u + 1, u + 12, u + 13].map fun v => 16 * v + slotOf t).filter fun k => (s.th k).arch.status.following

/-- The slot can issue no instruction for its followers any more (R121): it is vacant, halted or migrating. -/
def Thread.gone (x : Thread) : Bool :=
  match x.run with
  | .vacant => true
  | .halted => true
  | .migrating _ _ => true
  | _ => false

/-! ### Stops (R412, R413) -/

/-- Stop the slot under debug: its turns are VACANT from now on, and the monitor core gets a STOP record. -/
def stopSlot (s : State) (aux : Nat) : State :=
  let pc := s.me.arch.pc
  let s := leaveFollow s
  let s := s.modMe fun x =>
    { x with run := .halted, cls := .vacant, stopAsk := none, stepping := false, issue := { x.issue with pc := x.arch.pc } }
  sendRecord s s.cur recStop Cause.debugHalt (BitVec.ofNat 64 aux) pc

/-- A wait that a debug stop or a pre-emption abandons (R364, R375, R412). -/
def abandonable (x : Thread) : Bool :=
  match x.run with
  | .running => !x.engWait
  | .fetching => true
  | .feWait _ => true
  | .mwait _ => true
  | .waiti _ => true
  | _ => false

/-- Abandon the present slot's wait: it leaves the word's queue, and what it held is lost (R35, R364). -/
def abandonWait (s : State) : State :=
  let s := match s.me.run with | .feWait _ => s.unqueue (unitOf s.cur) false s.cur | _ => s
  (dropHeld s).modMe fun x => { x with run := .running }

/-- Stop one slot, which may not be the present one: at once, or, in a wait that nothing interrupts, at the boundary after it. -/
def stopAt (s : State) (aux t : Nat) : State :=
  if abandonable (s.th t) && decide ((s.th t).markUntil ≤ s.now) then { stopSlot (abandonWait { s with cur := t }) aux with cur := s.cur }
  else s.modTh t fun x => { x with stopAsk := some (x.stopAsk.getD aux) }

/-- Slots of the sheet of a FORM thread (R412): all of them stop at one cycle. -/
def State.sheetSlots (s : State) (t : Nat) : List Nat :=
  match s.sheetOf t with
  | some (i, x) =>
    ((s.threads.filter fun e => decide (e.2.inst = i.id) && decide (e.2.sheet = x.no) && !e.2.gone).map (·.1))
  | none => []

/-- A stop of the present slot; in a FORM instance the whole sheet stops (R412). -/
def stopNow (s : State) (aux : Nat) : State :=
  let others := if s.me.arch.status.form then (s.sheetSlots s.cur).filter fun k => k ≠ s.cur else []
  let s := stopSlot (dropHeld s) aux
  others.foldl (fun s k => stopAt s aux k) s

/-- The breakpoint that matches a slot at its pc (R413). -/
def Tile.breakAt (x : Tile) (slot : Nat) (pc : Word) : Option Nat :=
  (span 0 8).find? fun k =>
    match x.bps.toList.getD k none with
    | some b => (match b.slot with | some n => decide (n = slot) | none => true) && decide (b.pc = pc)
    | none => false

/-! ### The instruction cache (R207 to R209) -/

/-- The context under which a thread fetches: partition and PASID. DEDUCED, log entry 41. -/
def State.fetchCtx (s : State) (t : Nat) : Nat := ctxKey (s.partOf (unitOf t)) (s.pasidOf t)

/-- The block at a virtual offset: of the locked region, which serves every fetch in its range (R208), or of the general part,
which is keyed by address and context (R207). DEDUCED, log entry 41. -/
def Tile.block (x : Tile) (ctx va : Nat) : Option (List Byte) :=
  let general := (x.icache.find? fun b => decide (b.va = va / 32 * 32) && decide (b.ctx = ctx)).map (·.bytes)
  match x.lockVa with
  | some (lv, _) => if lv ≤ va ∧ va < lv + 0x2000 then some ((x.locked.drop (va / 32 * 32 - lv)).take 32) else general
  | none => general

/-- The block is the one used last (R207). DEDUCED, log entry 41. -/
def Tile.touch (x : Tile) (ctx va : Nat) : Tile :=
  match x.icache.find? fun b => decide (b.va = va / 32 * 32) && decide (b.ctx = ctx) with
  | some b => { x with icache := (x.icache.filter fun c => !decide (c = b)) ++ [b] }
  | none => x

/-- Put a block into its set of 7 ways; the least recently used makes room (R207). -/
def Tile.install (x : Tile) (b : CacheBlock) : Tile :=
  let set := x.icache.filter fun c => decide (c.va / 32 % 256 = b.va / 32 % 256)
  let victim := if 7 ≤ set.length then set.head? else none
  { x with icache := (x.icache.filter fun c => !decide (some c = victim)) ++ [b] }

/-- A miss: the block is asked for unless its miss is outstanding, and the slot leaves the rotation (R207, R209). DEDUCED, log entry 9. -/
def fetchMiss (s : State) (va : Nat) : State :=
  let u := unitOf s.cur
  let blk := va / 32 * 32
  let out := s.pkts.any fun p => decide (p.owner = .icache u) && !p.stale && decide (p.addr = blk) && decide (p.pasid = s.pasidOf s.cur)
    && decide (p.part = s.partOf u) && decide (p.form = s.me.arch.status.form)
  let s :=
    if out then s
    else
      s.sendPkt { s.threadPkt s.cur with owner := .icache u, req := .fetch, target := .station (homeStation u blk), addr := blk }
  s.modMe fun x => { x with run := .fetching, cls := .waitMem }

/-! ### The turn of a slot -/

/-- What a turn comes to. -/
inductive Turn where
  /-- the turn is over -/
  | done (s : State)
  /-- an instruction issues -/
  | issue (i : Instr) (s : State)
  /-- an instruction whose wait has ended completes, and the slot's turn then goes on (R108) -/
  | again (i : Instr) (s : State)

/-- An instruction issues at its pc: what FOLLOW and the stops need of it is kept. -/
def issueAt (s : State) (i : Instr) : Turn :=
  .issue i (s.modMe fun x =>
    { x with
      issue := { cyc := s.now, pc := x.arch.pc, insn := some i, trapped := false }
      passBp := false
      linkWait := false
      red := { x.red with boundary := false } })

/-- A decode trap (R37): TADDR holds the instruction's bits [63:0]. -/
def decodeTrap (s : State) (cause : Nat) (bs : List Byte) (n : Nat) : State :=
  (trapEntry (issued s) cause (BitVec.ofNat 64 (leNat (bs.take 8))) s.me.arch.pc (n / 4)).modMe Thread.stepped

/-- Decode (R37) of the bytes of one instruction, and its issue. -/
def decodeAt (s : State) (bs : List Byte) (n : Nat) : Turn :=
  match Fields.ofBytes bs with
  | none => .done (decodeTrap s Cause.illegalOpcode bs n)
  | some x =>
    if isSys (unitOf s.cur) && !inProfile x.major.toNat then .done (decodeTrap s Cause.illegalOpcode bs n)
    else
      match decodeFields x with
      | .error .illegalOpcode => .done (decodeTrap s Cause.illegalOpcode bs n)
      | .error .illegalOperand => .done (decodeTrap s Cause.illegalOperand bs n)
      | .ok i => issueAt s i

/-- The block that the present slot fetches from: the one it waited for, or one of the cache (R207). -/
def fetched (s : State) (va : Nat) : Option (List Byte) :=
  match s.me.held.result with
  | some (.bytes b) => some b
  | _ => (s.tile (unitOf s.cur)).block (s.fetchCtx s.cur) va

/-- Step (R14) of the present slot from its pc. -/
def fetchTurn (s : State) : Turn :=
  let x := s.me
  let a := x.arch.pc
  let va := a.toNat % 2 ^ 57
  match x.held.result with
  | some (.refused c) => .done (fetchFault s c a)
  | _ =>
    if a.toNat % 4 ≠ 0 then .done (fetchFault s Cause.align a)
    else if a.toNat % 32 = 28 then .done (fetchFault s Cause.illegalLen a)
    else
      match fetchCheck x.arch.xcap a 4 with
      | some c => .done (fetchFault s c a)
      | none =>
        match fetched s va with
        | none => .done (fetchMiss s va)
        | some blk =>
          let s := s.modMe fun x => { x with held := { x.held with result := none } }
          let s := s.modTile (unitOf s.cur) fun y => y.touch (s.fetchCtx s.cur) va
          let bs := blk.drop (va % 32)
          let n := lenBytes ((bs.getD 0 0).extractLsb' 0 2)
          if n = 0 then .done (fetchFault s Cause.illegalLen a)
          else if 32 < va % 32 + n then .done (fetchFault s Cause.illegalLen a)
          else
            match fetchCheck x.arch.xcap a n with
            | some c => .done (fetchFault s c a)
            | none => decodeAt s (bs.take n) n

/-- The slot has issued an instruction in the present cycle (R109). -/
def Thread.issued (x : Thread) (now : Nat) : Bool :=
  decide (x.issue.cyc = now) && decide (x.cls = .issued) && x.issue.insn.isSome

/-- The present slot follows its leader (R119 to R121); a breakpoint matches on the pc that it issues (R413). -/
def followTurn (s : State) : Turn :=
  let l := s.th (leadKey s.cur)
  if l.issued s.now ∧ !l.gone ∧ !l.issue.trapped then
    let s := s.modArch fun a => { a with pc := l.issue.pc }
    match if s.me.passBp then none else (s.tile (unitOf s.cur)).breakAt (slotOf s.cur) l.issue.pc, l.issue.insn with
    | some k, _ => .done (stopNow s (k * 256 + 3))
    | none, some i => issueAt s i
    | none, none => .done (waitTurn s .waitMsg)
  else if l.gone ∨ (l.issue.cyc = s.now ∧ l.issue.trapped) then
    .done (waitTurn (leaveFollow (s.modArch fun a => { a with pc := l.issue.pc })) .waitMsg)
  else .done (waitTurn s .waitMsg)

/-- Where a wait to join the leader at an address stands (R183): not yet, failed, or joined with the instruction issued there. -/
def joinState (s : State) (at? : Word) : Option (Option Instr) :=
  let l := s.th (leadKey s.cur)
  if l.gone ∨ l.inst ≠ s.me.inst then some none
  else if l.issued s.now ∧ l.issue.pc = at? ∧ !l.issue.trapped then some l.issue.insn
  else none

/-- The turn of a slot that waits to join its leader. -/
def joinTurn (s : State) (i : Instr) (at? : Word) : Turn :=
  match joinState s at? with
  | some _ => .issue i (awake s)
  | none => .done (waitTurn s .waitMsg)

/-- A pending asynchronous trap may be taken at this boundary (R95, R362, R401). -/
def Thread.canTrap (x : Thread) : Bool :=
  x.arch.status.ie && !x.pend.isEmpty && !x.engWait && (!x.redundant || (x.red.boundary && x.red.due))

/-- A triggered armed line. -/
def Thread.lines (x : Thread) : List Bool :=
  x.mons.toList.map fun m => match m with | some l => l.trig | none => false

/-- MWAIT can return (R165): a triggered line, a pending event, or RESET. -/
def Thread.mwaitReady (x : Thread) : Bool := x.lines.any id || !x.pend.isEmpty || x.monReset

/-- A matrix instruction with a link source. -/
def linkSource : Instr → Bool
  | .mma _ (.link _) _ _ _ => true
  | .mmas _ (.link _) _ _ _ _ _ => true
  | .mmam _ (.link _) _ _ _ _ => true
  | _ => false

/-- The class of the turns of a wait (R108, R257). -/
def waitClass (x : Thread) : TurnClass :=
  match x.insn with
  | some (.await _ _ _) => .waitMsg
  | some (.awaitExt _ _ _) => .waitMsg
  | some i => if linkSource i then .waitMsg else .waitMem
  | none => .waitMem

/-- The instruction that waits is taken up again: the present turn is the one on which it issues (R161). -/
def takeUp (s : State) (a : Answer) : Turn :=
  match s.me.insn with
  | some i =>
    .issue i (s.modMe fun x =>
      { x with
        run := .running
        held := { x.held with result := some a }
        issue := { cyc := s.now, pc := x.arch.pc, insn := some i, trapped := false } })
  | none => .done (awake s)

/-- The wait of an instruction has ended: it completes, and the thread rejoins at this turn (R108). -/
def rejoin (s : State) (a : Answer) : Turn :=
  match s.me.insn with
  | some i => .again i (s.modMe fun x => { x with run := .running, held := { x.held with result := some a } })
  | none => .done (awake s)

/-- The turn of a slot at a boundary between instructions (R95, R412, R413). -/
def boundaryTurn (s : State) : Turn :=
  let x := s.me
  let t := s.cur
  if x.canTrap then .issue (.asyncTrapEntry t) s
  else
    match x.insn with
    | some i => issueAt s i
    | none =>
      if x.arch.status.following then followTurn s
      else
        match if x.passBp then none else (s.tile (unitOf t)).breakAt (slotOf t) x.arch.pc with
        | some k => .done (stopNow s (k * 256 + 3))
        | none => fetchTurn s

/-- A replica that had not arrived when its vote was decided stops at this boundary; the vote goes on with its resync (R396). -/
def resyncStop (s : State) : State :=
  let s := (setClass (abandonWait (leaveFollow s)) .waitMem).modMe fun x => { x with run := .voting }
  { s with agenda := .voteDecision (s.leaderKey s.cur) :: s.agenda }

/-- The turn of the slot with key `t`. -/
def takeTurn (s : State) (t : Nat) : Turn :=
  let s := { s with cur := t }
  let x := s.me
  if x.gone then .done (setClass s .vacant)
  else if (s.tile (unitOf t)).saving.isSome then
    .done (setClass (if abandonable x then abandonWait (leaveFollow s) else s) .vacant)
  else if s.now < x.notBefore then .done (setClass s .waitMsg)
  else if s.now < x.markUntil then .done (setClass s .waitMem)
  else if x.red.stop && abandonable x then .done (resyncStop s)
  else
    match x.stopAsk, abandonable x with
    | some a, true => .done (stopNow (abandonWait s) a)
    | _, _ =>
      match x.run with
      | .running => boundaryTurn s
      | .fetching => .done (setClass s .waitMem)
      | .feWait msg =>
        if x.canTrap then .issue (.asyncTrapEntry t) s
        else .done (setClass s (if msg then .waitMsg else .waitMem))
      | .feServed a => takeUp s a
      | .mwait _ =>
        if x.canTrap then .issue (.asyncTrapEntry t) s
        else if x.mwaitReady then rejoin s (.data {})
        else .done (setClass s .waitMsg)
      | .waiti _ =>
        if x.canTrap then
          .issue (.asyncTrapEntry t)
            (s.modMe fun x => { x with run := .running, insn := none, arch := { x.arch with pc := nextPC x.arch.pc 8 } })
        else if !x.pend.isEmpty then rejoin s (.data {})
        else .done (setClass s .waitMsg)
      | .released ph frm => if frm ≤ s.now then rejoin s (.data (val64 (BitVec.ofNat 64 ph))) else .done (setClass s .waitMsg)
      | .barrier _ => .done (setClass s .waitMsg)
      | .joining a =>
        (match x.insn with
         | some i => joinTurn s i a
         | none => .done (awake s))
      | .reply =>
        (match x.held.result with
         | some a => rejoin s a
         | none => .done (setClass s (waitClass x)))
      | .matrix => .done (setClass s (waitClass x))
      | .leader =>
        (match s.leaderTake with
         | some (v, s) => rejoin s v.answer
         | none => .done (setClass s .waitMem))
      | _ => .done (setClass s .waitMem)

end Sys2Proof.Machine
end

