-- ==== Sys2Proof/Machine/System.lean ====
section
/-! DEFINITION. System instructions and the system registers (R24 to R28, R93 to R103, R365, R369, R403, R417). -/

namespace Sys2Proof.Machine

/-! ### What the leader of a redundant thread gives to its replicas (R399) -/

/-- A value that the leader produces: it makes the value, a replica waits for it. -/
def leaderValue (s : State) (i : Instr) (v : Val) : Acc (Val × State) :=
  if !s.me.redundant then .ok (v, s)
  else if s.leads s.cur then
    .ok (v, s.leaderPush (s.leaderKey s.cur) { data := v.data.zeroExtend 512, tag := v.tag })
  else
    match s.me.held.result with
    | some a => .ok ({ data := a.bits.extractLsb' 0 128, tag := a.tag }, s)
    | none => .leave (leaveFor s i .leader)

/-! ### Register values -/

/-- SLOTINFO of a thread key (R28). -/
def State.slotInfo (s : State) (t : Nat) : Word :=
  let u := unitOf t
  let part := if isSys u then bits (s.scctx.toList.getD (u - 576) 0) 29 25 else s.partOf u
  BitVec.ofNat 64 (part * 2 ^ 16 + b2n (isSys u) * 2 ^ 15 + dieOf u * 2 ^ 12 + yOf u * 2 ^ 8 + xOf u * 2 ^ 4
    + (if isSys u then (u - 576) % 4 else slotOf t))

/-- The journal entries of a unit that are not FREE. -/
def State.inUse (s : State) (u : Nat) : Nat := ((span 0 32).filter fun e => !decide ((s.jr u e).state = .free)).length

/-- REFMASK (R369). -/
def State.refMask (s : State) (u : Nat) : Nat :=
  ((span 0 32).map fun e => if (s.jr u e).state = .refused then 2 ^ e else 0).sum

/-- JRNLHEAD (R369). -/
def State.jrnlHead (s : State) (u : Nat) : Word := BitVec.ofNat 64 (s.inUse u * 2 ^ 32 + s.refMask u)

/-- REDSTAT (R403). -/
def Thread.redstat (x : Thread) : Word :=
  if x.redundant then
    BitVec.ofNat 64 (x.red.relno % 2 ^ 32 * 2 ^ 32 + min x.red.retry 255 * 2 ^ 24 + min x.red.resync 255 * 2 ^ 16
      + x.red.used * 2 ^ 8 + x.red.lastMin % 4 * 4 + x.red.last % 4)
  else 0

/-- A register of the measurement group (R417), for a slot of the unit. -/
def State.evGet (s : State) (u slot n : Nat) : Option Word :=
  let e := (s.tile u).ev
  let x := s.th (16 * u + slot)
  if n = 0x100 then some x.tcIssued
  else if n = 0x101 then some x.tcWmem
  else if n = 0x102 then some x.tcWmsg
  else if n = 0x103 then some x.tcVac
  else if n = 0x104 then some (if e.freeze then 1 else 0)
  else if 0x108 ≤ n ∧ n < 0x110 then some (e.defs.toList.getD (n - 0x108) 0)
  else if n = 0x110 then some e.hedge
  else if 0x118 ≤ n ∧ n < 0x120 then some (e.cnt.toList.getD (n - 0x118) 0)
  else if 0x120 ≤ n ∧ n < 0x128 then some (e.hist.toList.getD (n - 0x120) 0)
  else if 0x128 ≤ n ∧ n < 0x139 then some (e.rdyh.toList.getD (n - 0x128) 0)
  else none

/-- The fields of an EVDEF register: bits [63:31] and [24] are reserved (R8, R418). -/
def evdefMask : Word := 0x7EFFFFFF

/-- Write a register of the measurement group. -/
def State.evSet (s : State) (u slot n : Nat) (v : Word) : State :=
  let ev (f : Events → Events) : State := s.modTile u fun x => { x with ev := f x.ev }
  let th (f : Thread → Thread) : State := s.modTh (16 * u + slot) f
  if n = 0x100 then th fun x => { x with tcIssued := v }
  else if n = 0x101 then th fun x => { x with tcWmem := v }
  else if n = 0x102 then th fun x => { x with tcWmsg := v }
  else if n = 0x103 then th fun x => { x with tcVac := v }
  else if n = 0x104 then ev fun e => { e with freeze := v.getLsbD 0 }
  else if 0x108 ≤ n ∧ n < 0x110 then ev fun e => { e with defs := e.defs.setIfInBounds (n - 0x108) (v &&& evdefMask) }
  else if n = 0x110 then ev fun e => { e with hedge := v }
  else if 0x118 ≤ n ∧ n < 0x120 then ev fun e => { e with cnt := e.cnt.setIfInBounds (n - 0x118) v }
  else if 0x120 ≤ n ∧ n < 0x128 then ev fun e => { e with hist := e.hist.setIfInBounds (n - 0x120) v }
  else if 0x128 ≤ n ∧ n < 0x139 then ev fun e => { e with rdyh := e.rdyh.setIfInBounds (n - 0x128) v }
  else s

/-- The value of a system register of the present thread (R26); none for an unassigned number. -/
def State.sysReg (s : State) (n : Nat) : Option Val :=
  let x := s.me
  let a := x.arch
  let t := if x.redundant then s.leaderKey s.cur else s.cur
  match n with
  | 0x000 =>
    let st : Status := if x.redundant then { a.status with ridx := 0 } else a.status
    some (val64 (st.word (s.chkOf s.cur)))
  | 0x001 => some a.tvec
  | 0x002 => some (val64 a.tcause)
  | 0x003 => some (val64 a.taddr)
  | 0x004 => some a.tepc
  | 0x005 => some a.tstack
  | 0x006 => some a.tsave
  | 0x007 => some (val64 a.dcause)
  | 0x008 => some a.xcap
  | 0x010 => some (val64 (s.slotInfo t))
  | 0x011 => some (val64 x.fieldxy)
  | 0x012 => some (val64 x.stage)
  | 0x020 => some (val64 (s.cycleOf (unitOf s.cur)))
  | 0x021 => some (val64 (s.stampOf (unitOf s.cur)))
  | 0x030 => some (val64 (a.mlive.zeroExtend 64))
  | 0x031 => some (val64 a.deadline)
  | 0x032 => some (val64 a.rndseed)
  | 0x040 => some (val64 (a.acctag.zeroExtend 64))
  | 0x050 => some (val64 (s.jrnlHead (unitOf s.cur)))
  | 0x060 => some (val64 x.redstat)
  | n => (s.evGet (unitOf s.cur) (slotOf s.cur) n).map val64

/-- Registers that only handler and system mode read (R26). -/
def privRead (n : Nat) : Bool := decide (1 ≤ n) && decide (n ≤ 7)

/-- Registers that SWR never writes (R27, R417). -/
def readOnly (n : Nat) : Bool :=
  n = 0x007 || n = 0x008 || n = 0x010 || n = 0x011 || n = 0x012 || n = 0x020 || n = 0x021 || n = 0x060
    || (decide (0x108 ≤ n) && decide (n ≤ 0x110))

/-- Registers that user mode writes (R26). -/
def userWrite (n : Nat) : Bool := n = 0x030 || n = 0x031 || n = 0x032

/-- MODE and PMODE: a reserved value leaves the field as it was (R25). -/
def modeField (sys : Bool) (old v : BitVec 2) : BitVec 2 := if v = 3 ∨ (v = 2 ∧ !sys) then old else v

/-- SWR of STATUS (R25): MODE, PMODE, PIE, IE. -/
def Status.write (st : Status) (sys : Bool) (v : Word) : Status :=
  { st with
    pmode := modeField sys st.pmode (v.extractLsb' 6 2)
    pie := bit v 5
    ie := bit v 4
    mode := modeField sys st.mode (v.extractLsb' 0 2) }

/-- SWR of STATUS with the gang's CHK bit (R25). -/
def writeStatus (s : State) (v : Word) : State :=
  let s := s.modArch fun a => { a with status := a.status.write (isSys (unitOf s.cur)) v }
  s.modGang (unitOf s.me.home) s.me.inst s.me.sheet fun g => { g with chk := bit v 13 }

/-- Free the REFUSED entries of a mask (R369). -/
def freeRefused (s : State) (u : Nat) (mask : Word) : State :=
  (span 0 32).foldl (fun s e => if bit mask e && decide ((s.jr u e).state = .refused) then s.setJr u e {} else s) s

/-- Write a system register (R25, R26, R101, R365, R369, R417). -/
def State.setSysReg (s : State) (n : Nat) (v : Val) : State :=
  match n with
  | 0x000 => writeStatus s v.lo
  | 0x001 => s.modArch fun a => { a with tvec := v }
  | 0x002 => s.modArch fun a => { a with tcause := v.lo &&& 0xFFF, entryWindow := false }
  | 0x003 => s.modArch fun a => { a with taddr := v.lo }
  | 0x004 => s.modArch fun a => { a with tepc := v }
  | 0x005 => s.modArch fun a => { a with tstack := v }
  | 0x006 => s.modArch fun a => { a with tsave := v }
  | 0x030 => s.modArch fun a => { a with mlive := v.lo.extractLsb' 0 32 }
  | 0x031 =>
    s.modMe fun x =>
      { x with
        pend := x.pend.filter fun p => !decide (p.cause = Cause.timer)
        arch := { x.arch with deadline := v.lo, timerArmed := true } }
  | 0x032 => s.modArch fun a => { a with rndseed := v.lo }
  | 0x040 => s.modArch fun a => { a with acctag := v.lo.extractLsb' 0 16 }
  | 0x050 => freeRefused s (unitOf s.cur) v.lo
  | n => s.evSet (unitOf s.cur) (slotOf s.cur) n v.lo

/-! ### Instructions -/

/-- TRAP (R99). -/
def execTrap (code : BitVec 18) (s : State) : Out :=
  fin s (issue s (.trap code) [] [] .none fun _ _ _ => .trap Cause.trap (code.zeroExtend 64))

/-- Both forms of ERET (R100). -/
def eretForm (s : State) (i : Instr) (skip : Bool) : State :=
  needPriv (awake s) i fun s =>
    issue s i [] [] .none fun _ _ s =>
      let a := returnFrom skip s.me.arch
      .ok { s := s.modArch fun _ => a, pc := some a.pc }

/-- ERET (R100). -/
def execEret (s : State) : Out := fin s (eretForm s .eret false)

/-- ERET.SKIP (R100). -/
def execEretSkip (s : State) : Out := fin s (eretForm s .eretSkip true)

/-- Registers whose value the leader of a redundant thread gives (R399). -/
def leaderReg (n : Nat) : Bool := n = 0x020 || n = 0x021 || n = 0x060

/-- SRD (R27, R94, R96, R101, R399). -/
def srdForm (s : State) (i : Instr) (d : Dst) (n : Nat) : State :=
  let s := awake s
  if (s.sysReg n).isNone then trapAt s i Cause.illegalOpcode i.low
  else
    scalar s i d [] fun _ s =>
      if privRead n && !s.me.priv then .trap Cause.privilege i.low
      else
        let v := (s.sysReg n).getD {}
        let s := if n = 0x002 then s.modArch fun a => { a with entryWindow := false } else s
        if leaderReg n then (leaderValue s i v).andThen fun (v, s) => Done.value s v else Done.value s v

/-- SRD (R101). -/
def execSrd (d : Dst) (num : BitVec 12) (s : State) : Out := fin s (srdForm s (.srd d num) d num.toNat)

/-- SWR (R25, R27, R101). -/
def swrForm (s : State) (i : Instr) (n : Nat) (a : Src) : State :=
  let s := awake s
  if (s.sysReg n).isNone then trapAt s i Cause.illegalOpcode i.low
  else
    issue s i [a] [] .none fun ws _ s =>
      if readOnly n || (!s.me.priv && !userWrite n) then .trap Cause.privilege i.low
      else .ok { s := s.setSysReg n (arg ws 0) }

/-- SWR (R101). -/
def execSwr (num : BitVec 12) (a : Src) (s : State) : Out := fin s (swrForm s (.swr num a) num.toNat a)

/-- The instruction cache outside the locked region is emptied; blocks on their way are not put into it (R102). -/
def flushCache (s : State) (u : Nat) : State :=
  let s := s.modTile u fun x => { x with icache := [] }
  { s with pkts := s.pkts.map fun p => if p.owner = .icache u then { p with stale := true } else p }

/-- IFLUSH (R102). -/
def execIflush (s : State) : Out :=
  fin s (issue s .iflush [] [] .none fun _ _ s => .ok { s := flushCache s (unitOf s.cur) })

/-- BRK under a claim (R99): the slot stops, its pc past the BRK. -/
def claimStop (s : State) (i : Instr) : State :=
  let pc := s.me.arch.pc
  (stopNow (issued s) 5).modMe fun x => { x with cls := .issued, arch := { x.arch with pc := nextPC pc i.bytes } }

/-- BRK (R99). -/
def execBrk (code : BitVec 18) (s : State) : Out :=
  fin s (issue s (.brk code) [] [] .none fun _ _ s =>
    if s.me.claim then .leave (claimStop s (.brk code)) else .trap Cause.brk (code.zeroExtend 64))

/-- WAITI (R103): the wait ends at once when an event is pending, and else leaves the rotation. -/
def waitiBody (s : State) (i : Instr) (a : Val) : Acc Done :=
  if !s.leads s.cur then (leaderValue s i {}).andThen fun r => .ok { s := r.2 }
  else if s.me.held.result.isSome || !s.me.pend.isEmpty then (leaderValue s i {}).andThen fun r => .ok { s := r.2 }
  else .leave (leaveFor s i (.waiti (if a.lo = 0 then none else some (s.now + a.lo.toNat))))

/-- WAITI (R103). -/
def execWaiti (a : Src) (s : State) : Out :=
  fin s (issue s (.waiti a) [a] [] .none fun ws _ s => waitiBody s (.waiti a) (arg ws 0))

end Sys2Proof.Machine
end

