-- ==== Sys2Proof/Machine/Monitor.lean ====
section
/-! DEFINITION. Monitors: MARM, MWAIT and MDISARM (R163 to R166, R399). -/

namespace Sys2Proof.Machine

/-- The 64-byte line of an effective address in a space. -/
def lineOf (sp : Nat) (ea : Int) : Option Word := (offsetOf sp ea).map fun off => BitVec.ofNat 64 (off / 64 * 64)

/-- The index under which the thread has armed a line. A line is named by its space and its address in it: one physical line that is
armed through two names is two armed lines. DESIGN CHOICE, log entry 48. -/
def Thread.armed (x : Thread) (sp : Nat) (line : Word) : Option (Fin 4) :=
  (List.finRange 4).find? fun j =>
    match x.mons[j] with
    | some m => decide (m.space = sp) && decide (m.line = line)
    | none => false

/-- The lowest free index. -/
def Thread.freeLine (x : Thread) : Option (Fin 4) := (List.finRange 4).find? fun j => x.mons[j].isNone

/-- Hold a line at an index, its trigger bit clear. -/
def Thread.arm (x : Thread) (j : Fin 4) (sp : Nat) (line : Word) : Thread :=
  { x with mons := x.mons.set j (some { space := sp, line := line, trig := false }) }

/-- The value that MARM writes. -/
def indexVal (j : Fin 4) : Result := .val (val64 (BitVec.ofNat 64 j.val))

/-- A new line is armed: at once on the own tile, or through its owner (R164). DEDUCED, log entry 42. -/
def armLine (s : State) (i : Instr) (c : Val) (ea : Word) (line : Word) (j : Fin 4) : Acc Done :=
  let hold (s : State) : State := s.modMe fun x => x.arm j c.space line
  let u := unitOf s.cur
  let near : Acc Done :=
    .ok
      { s := hold { s with monRegs := s.monRegs ++ [{ key := lineKey u (ea.toNat % 2 ^ 20), thread := s.cur, idx := j.val, own := true }] }
        r := indexVal j }
  match c.space with
  | 0 => near
  | 1 =>
    match s.resolveTile s.cur (ea.toNat % 2 ^ 30) with
    | none => .trap Cause.access ea
    | some t =>
      if migrates c s.cur t then (startMigration s i t ea true).andThen fun s => .leave s
      else if staysLocal c s.cur t then near
      else if s.me.redundant && !s.internal s.cur (ea.toNat % 2 ^ 30) then
        .leave (askLeader (hold s) i ea 11 0 [] (.tile t) (ea.toNat % 2 ^ 20) (.arm j.val))
      else .leave (askOnce (hold s) i (.tile t) (ea.toNat % 2 ^ 20) (.arm j.val) false)
  | _ =>
    let va := ea.toNat % 2 ^ 57
    .leave (askLeader (hold s) i ea 11 0 [] (.station (homeStation u va)) va (.arm j.val))

/-- MARM (R164) on the value of its base, with the handler-reserve rule for LOCAL and TILE (R22). -/
def marmBody (s : State) (i : Instr) (c : Val) (ea : Int) : Acc Done :=
  match capTrap s c ea 1 permR with
  | some (k, w) => .trap k w
  | none =>
    match if c.space = 2 then none else reserveRule s.me c ((wordOf ea).toNat % 2 ^ 20) 1 with
    | some k => .trap k (wordOf ea)
    | none =>
      match s.me.held.result, lineOf c.space ea with
      | some (.refused k), _ => .trap k (wordOf ea)
      | _, none => .trap Cause.capBounds (wordOf ea)
      | _, some line =>
        match s.me.armed c.space line with
        | some j => .ok { s := s, r := indexVal j }
        | none =>
          match s.me.freeLine with
          | none => .trap Cause.access (wordOf ea)
          | some j => armLine s i c (wordOf ea) line j

/-- MARM (R164). -/
def execMarm (d : Dst) (a : Reg) (off : BitVec 18) (s : State) : Out :=
  fin s (issue s (.marm d a off) [.reg a] [] (.dst d) fun ws _ s =>
    marmBody s (.marm d a off) (arg ws 0) ((arg ws 0).addr.toNat + off.toInt))

/-- LINES of R165. -/
def Thread.lineMask (x : Thread) : Nat := ((x.lines.zip [1, 2, 4, 8]).map fun p => if p.1 then p.2 else 0).sum

/-- The result of MWAIT (R165). -/
def Thread.mwaitValue (x : Thread) (timeout : Bool) : Val :=
  val64 (BitVec.ofNat 64 (b2n x.monReset * 64 + b2n (!x.pend.isEmpty && !x.arch.status.ie) * 32 + b2n timeout * 16 + x.lineMask))

/-- MWAIT clears what it reports. -/
def Thread.clearLines (x : Thread) (mask : Nat) (reset : Bool) : Thread :=
  { x with
    monReset := x.monReset && !reset
    mons := x.mons.zip #v[1, 2, 4, 8] |>.map fun p =>
      if mask / p.2 % 2 = 1 then p.1.map fun m => { m with trig := false } else p.1 }

/-- MWAIT returns with a value. -/
def mwaitReturn (s : State) (i : Instr) (v : Val) : Acc Done :=
  (leaderValue s i v).andThen fun (v, s) =>
    .ok { s := s.modMe fun x => x.clearLines (bits v.lo 3 0) (bit v.lo 6), r := .val v }

/-- MWAIT (R165) on the value of its timeout. -/
def mwaitBody (s : State) (i : Instr) (a : Val) : Acc Done :=
  let x := s.me
  if !s.leads s.cur then mwaitReturn s i {}
  else
    match x.held.result with
    | some r => mwaitReturn s i (x.mwaitValue (decide (r.bits = 1)))
    | none =>
      if x.mwaitReady then mwaitReturn s i (x.mwaitValue false)
      else if (x.mons.toList.all Option.isNone) && decide (a.lo = 0) then mwaitReturn s i {}
      else if x.arch.status.form then .trap Cause.timingDeviation 0
      else
        .leave (leaveFor s i (.mwait (if a.lo = 0 then none else some (s.now + a.lo.toNat))))

/-- MWAIT (R165). -/
def execMwait (d : Dst) (a : Src) (s : State) : Out :=
  fin s (issue s (.mwait d a) [a] [] (.dst d) fun ws _ s => mwaitBody s (.mwait d a) (arg ws 0))

/-- Remove lines of the present thread, their registrations and the notices on their way. -/
def disarm (s : State) (js : List (Fin 4)) : State :=
  let gone (r : MonReg) : Bool := decide (r.thread = s.cur) && js.any fun j => j.val = r.idx
  let s := { s with monRegs := s.monRegs.filter fun r => !gone r, monNotes := s.monNotes.filter fun r => !gone r }
  s.modMe fun x => { x with mons := js.foldl (fun m (j : Fin 4) => m.set j none) x.mons }

/-- MDISARM (R165): a line that is not armed is ignored. -/
def execMdisarm (a : Reg) (off : BitVec 18) (s : State) : Out :=
  fin s (issue s (.mdisarm a off) [.reg a] [] .none fun ws _ s =>
    let c := arg ws 0
    match (lineOf c.space (c.addr.toNat + off.toInt)).bind fun line => s.me.armed c.space line with
    | some j => .ok { s := disarm s [j] }
    | none => .ok { s := s })

/-- MDISARM.ALL (R165). -/
def execMdisarmAll (s : State) : Out :=
  fin s (issue s .mdisarmAll [] [] .none fun _ _ s => .ok { s := disarm s (List.finRange 4) })

end Sys2Proof.Machine
end

