-- ==== Sys2Proof/Machine/Copy.lean ====
section
/-! DEFINITION. The copy engine of a tile: DCOPY, DFILL, DCANCEL, the acknowledgement of empty-marks, and the start, elements and end of its
commands (R316 to R326). -/

namespace Sys2Proof.Machine

/-! ### Descriptors (R319, R321) -/

/-- The six dimensions of a copied descriptor, source and destination; its dwords start at 0x08. -/
def descDims (p : List Word) (dst : Bool) : List Word := (span (if dst then 7 else 1) 6).map fun k => p.getD k 0

/-- Element size code. -/
def descEsz (p : List Word) : Nat := bits (p.getD 0 0) 2 0

/-- The element count. -/
def descTotal (p : List Word) : Nat := ((descDims p false).map dimCount).foldl (· * ·) 1

/-- A descriptor that R319 refuses. -/
def badDesc (p : List Word) (fill : Bool) : Bool :=
  decide (bits (p.getD 0 0) 63 3 ≠ 0) || decide (6 ≤ descEsz p) || decide (2 ^ 40 < descTotal p)
    || (descDims p true).any (fun w => decide (bits w 23 0 ≠ 0))
    || (fill && (descDims p false).any fun w => decide (bits w 63 24 ≠ 0))

/-- The lowest address and the length of the footprint of an area. -/
def footprint (addr : Word) (z : Nat) (counts : List Nat) (strides : List Int) : Int × Nat :=
  let ts := (counts.zip strides).map fun p => ((p.1 : Int) - 1) * p.2
  let lo : Int := addr.toNat + (ts.map fun t => min 0 t).sum
  let hi : Int := addr.toNat + (ts.map fun t => max 0 t).sum + z
  (lo, (hi - lo).toNat)

/-- The checks of one area: CapCheck over its footprint, alignment, the handler reserve. DEDUCED, log entry 27. -/
def areaCheck (s : State) (c : Val) (z : Nat) (counts : List Nat) (strides : List Int) (need : BitVec 8) : Option (Nat × Word) :=
  let f := footprint c.addr z counts strides
  match capTrap s c f.1 f.2 need with
  | some p => some p
  | none =>
    if c.addr.toNat % z ≠ 0 ∨ (counts.zip strides).any fun p => decide (1 < p.1) && decide (p.2 % (z : Int) ≠ 0) then
      some (Cause.align, c.addr)
    else if c.space = 2 then none
    else (reserveRule s.me c f.1.toNat f.2).map fun k => (k, wordOf f.1)

/-! ### Elements (R322) -/

/-- The distance of element k from the first, in odometer order. -/
def eltAt : List Nat → List Int → Nat → Int
  | n :: ns, st :: sts, k => ((k % n : Nat) : Int) * st + eltAt ns sts (k / n)
  | _, _, _ => 0

/-- Address of element k in the source. -/
def CopyCmd.srcAddr (c : CopyCmd) (k : Nat) : Word := wordOf (c.src.addr.toNat + eltAt c.counts c.sstr k)
/-- Address of element k in the destination. -/
def CopyCmd.dstAddr (c : CopyCmd) (k : Nat) : Word := wordOf (c.dst.addr.toNat + eltAt c.counts c.dstr k)
/-- Offset of element k in the destination's space. -/
def CopyCmd.dstOff (c : CopyCmd) (k : Nat) : Nat := (offsetOf c.dst.space (c.dstAddr k).toNat).getD 0
/-- Offset of element k in the source's space. -/
def CopyCmd.srcOff (c : CopyCmd) (k : Nat) : Nat := (offsetOf c.src.space (c.srcAddr k).toNat).getD 0

/-- Element k writes a byte of the word at an offset. -/
def CopyCmd.touches (c : CopyCmd) (k w : Nat) : Bool :=
  decide (c.dstOff k < w / 8 * 8 + 8) && decide (w / 8 * 8 < c.dstOff k + c.z)

/-- The words that element k touches. -/
def CopyCmd.words (c : CopyCmd) (k : Nat) : List Nat := (touched 8 (c.dstOff k) c.z).map fun w => 8 * w

/-- The words that the command may write (R317). -/
def CopyCmd.allWords (c : CopyCmd) : List Nat := ((List.range c.total).flatMap c.words).eraseDups

/-- The command issues no further element. -/
def CopyCmd.stopped (c : CopyCmd) : Bool := c.cancelled || c.failed.isSome

/-- Every element has been issued, or no further one will be. -/
def CopyCmd.spent (c : CopyCmd) : Bool := c.stopped || decide (c.total ≤ c.issued)

/-- The bytes of an element of a fill (R322). -/
def CopyCmd.fillBytes (c : CopyCmd) : List Byte :=
  if c.z ≤ 16 then leBytes c.z c.src.data.toNat
  else (List.range 4).flatMap fun _ => leBytes 16 c.src.data.toNat

/-! ### Issue (R317, R318, R321) -/

/-- Queue a command at the tail. -/
def State.copyPush (s : State) (u : Nat) (c : CopyCmd) : State :=
  { (s.modTile u fun x => { x with copies := x.copies ++ [{ c with no := s.nextCmd }] }) with nextCmd := s.nextCmd + 1 }

/-- The blocks of a TILE destination with the tile that each reaches, and the offsets marked in it. -/
def State.markBlocks (s : State) (c : CopyCmd) : List (Nat × Option Nat × List Nat) :=
  if c.dst.space ≠ 1 then []
  else
    let ws := c.allWords
    (ws.map fun w => w / 64).eraseDups.map fun b =>
      (64 * b, s.resolveTile s.cur (64 * b), (ws.filter fun w => decide (w / 64 = b)).map fun w => w % 2 ^ 20)

/-- The scratchpad of the command's own tile that it marks: CW and the words of a LOCAL destination. -/
def CopyCmd.localMarks (c : CopyCmd) : List Nat := (c.cw :: if c.dst.space = 0 then c.allWords else []).eraseDups

/-- Some access of the command leaves the thread's replica (R399). -/
def State.copyExternal (s : State) (c : CopyCmd) : Bool :=
  let out (sp : Nat) (off : Nat → Nat) : Bool :=
    match sp with
    | 0 => false
    | 1 =>
      (List.range c.total).any fun k =>
        match s.resolveTile s.cur (off k) with
        | some _ => !s.internal s.cur (off k)
        | none => true
    | _ => true
  (!c.fill && out c.src.space c.srcOff) || out c.dst.space c.dstOff

/-- Make marks in tiles of the thread's own replica at once. DEDUCED, log entry 13. -/
def State.nearMarks (s : State) : List (Nat × Option Nat × List Nat) → State
  | [] => s
  | (_, some v, offs) :: bs => (s.engMarks s.cur v offs).nearMarks bs
  | (_, none, _) :: bs => s.nearMarks bs

/-- Send mark requests (R318). DEDUCED, log entry 13. -/
def State.sendMarks (s : State) : List (Nat × Option Nat × List Nat) → State
  | [] => s
  | (b, some v, offs) :: bs =>
    (s.sendPkt { s.threadPkt s.cur with owner := .marks s.cur, req := .mark offs, target := .tile v, addr := b % 2 ^ 20 }).sendMarks bs
  | (_, none, _) :: bs => s.sendMarks bs

/-- EmptyMarks and the place in the queue. DEDUCED, log entry 13. -/
def copyMarks (s : State) (i : Instr) (c : CopyCmd) (push : Bool) : Acc Done :=
  let t := s.cur
  let u := unitOf t
  let ls := c.localMarks
  let bs := s.markBlocks c
  match bs.find? fun b => b.2.1.isNone with
  | some b => .trap Cause.access (BitVec.ofNat 64 b.1)
  | none =>
    let c := { c with ready := s.now + (ls.length + 7) / 8 }
    let s := s.ownMarks ls
    let mine (b : Nat × Option Nat × List Nat) : Bool := s.internal t b.1
    let near := if s.me.redundant then bs.filter mine else []
    let far := if !push then [] else if s.me.redundant then bs.filter fun b => !mine b else bs
    let s := s.nearMarks near
    if far.isEmpty then .ok { s := if push then s.copyPush u c else s }
    else
      let s := (leaveFor (s.sendMarks far) i .reply).modMe fun x => { x with engWait := true, held := { x.held with copy := some c } }
      .leave s

/-- CopyIssue (R321) on the values of the operands: destination, source or fill value, descriptor. DEDUCED, log entry 27. -/
def copyBody (s : State) (i : Instr) (fill : Bool) (a b c : Val) : Acc Done :=
  match s.me.held.copy with
  | some cmd =>
    (match s.me.held.badMark with
     | some blk => .trap Cause.remoteRefused blk
     | none => .ok { s := s.copyPush (unitOf s.cur) { cmd with ready := max cmd.ready (s.now + 1) } })
  | none =>
    match blockCheck s c with
    | some (k, w) => .trap k w
    | none =>
      (blockRead s i c 13).andThen fun (p, s) =>
        if badDesc p fill then .trap Cause.access c.addr
        else
          let z := eszBytes (descEsz p)
          let counts := (descDims p false).map dimCount
          let sstr := (descDims p false).map dimStride
          let dstr := (descDims p true).map dimStride
          match if fill then none else areaCheck s b z counts sstr permR with
          | some (k, w) => .trap k w
          | none =>
            match areaCheck s a z counts dstr permW with
            | some (k, w) => .trap k w
            | none =>
              match atRelease s i 0x0F [a, b, c] id with
              | some s' => .leave s'
              | none =>
                let x := s.me
                let u := unitOf s.cur
                let cmd : CopyCmd :=
                  { thread := s.cur, inst := x.inst, epoch := x.epoch, part := s.partOf u, pasid := s.pasidOf s.cur,
                    form := x.arch.status.form, fill := fill, dst := a, src := b, cw := c.addr.toNat % 2 ^ 20, z := z,
                    counts := counts, sstr := sstr, dstr := dstr, total := descTotal p }
                let ext := s.copyExternal cmd
                if s.followOnly ext then copyMarks s i cmd false
                else if 8 ≤ ((s.tile u).copies.filter fun c => !c.started).length then queueWait s i
                else if s.asyncFull s.cur then .wait .waitMem
                else copyMarks s i { cmd with lead := s.leadOnly ext } true

/-- DCOPY (R321). -/
def execDcopy (a b c : Reg) (s : State) : Out :=
  fin s (issue s (.dcopy a b c) [.reg a, .reg b, .reg c] [] .none fun ws _ s =>
    copyBody s (.dcopy a b c) false (arg ws 0) (arg ws 1) (arg ws 2))

/-- DFILL (R321). -/
def execDfill (a : Reg) (b : RegZ) (c : Reg) (s : State) : Out :=
  fin s
    (match b with
     | .reg r =>
       issue s (.dfill a b c) [.reg a, .reg r, .reg c] [] .none fun ws _ s =>
         copyBody s (.dfill a b c) true (arg ws 0) (arg ws 1) (arg ws 2)
     | .zero =>
       issue s (.dfill a b c) [.reg a, .reg c] [] .none fun ws _ s => copyBody s (.dfill a b c) true (arg ws 0) {} (arg ws 1))

/-! ### Marks (R318) -/

/-- Take up again the instruction that a thread waits with, on an answer (R108). -/
def State.resume (s : State) (t : Nat) (a : Answer) : State :=
  let s := s.modTh t fun x => { x with run := .running, held := { x.held with result := some a } }
  match (s.th t).insn with
  | some i => { s with cur := t, agenda := i :: s.agenda }
  | none => s

/-- EMPTY_MARK_ACK (R318): the first refused block is kept, and with the last answer the instruction goes on. -/
def execEmptyMarkAck (u n : Nat) (s : State) : Out :=
  fin s
    (match s.pkt n with
     | none => s
     | some p =>
       match p.owner with
       | .marks t =>
         if p.src ≠ u || !s.lands p then s
         else
           let s := s.dropPkt n
           let blk : Word :=
             match p.target with
             | .tile v => BitVec.ofNat 64 ((s.partn p.part).tileId v * 2 ^ 20 + p.addr)
             | .station _ => 0
           let s :=
             match p.answer with
             | .refused _ => s.modTh t fun x => { x with held := { x.held with badMark := some (x.held.badMark.getD blk) } }
             | _ => s
           if s.pkts.any fun q => decide (q.owner = .marks t) then s else s.resume t .ack
       | _ => s)

/-! ### Elements on their way -/

/-- The copy command with a number. -/
def Tile.copyCmd (x : Tile) (no : Nat) : Option CopyCmd := x.copies.find? fun c => c.no = no

/-- Change a copy command. -/
def Tile.modCopy (x : Tile) (no : Nat) (f : CopyCmd → CopyCmd) : Tile :=
  { x with copies := x.copies.map fun c => if c.no = no then f c else c }

/-- Remove an element in flight. -/
def Tile.dropElt (x : Tile) (n : Nat) : Tile := { x with copyElts := x.copyElts.filter fun e => e.n ≠ n }

/-- Change an element in flight. -/
def Tile.modElt (x : Tile) (n : Nat) (f : CopyElt → CopyElt) : Tile :=
  { x with copyElts := x.copyElts.map fun e => if e.n = n then f e else e }

/-- A command with nothing left to issue and nothing in flight fills CW in the next cycle (R317). -/
def State.copySettle (s : State) (u no : Nat) : State :=
  s.modTile u fun x =>
    x.modCopy no fun c =>
      if c.spent && c.fillAt.isNone && !x.copyElts.any fun e => e.no = no then { c with fillAt := some (s.now + 1) } else c

/-- An element has failed (R325). -/
def State.copyFail (s : State) (u : Nat) (e : CopyElt) (cause : Nat) (va : Word) : State :=
  (s.modTile u fun x =>
    (x.dropElt e.n).modCopy e.no fun c => { c with failed := some (c.failed.getD (cause, va)), missed := c.missed ++ [e.k] }).copySettle
      u e.no

/-- The word is complete once the elements of `x` in flight, those not issued and those that failed leave it alone. -/
def Tile.copyWordDone (x : Tile) (c : CopyCmd) (k w : Nat) : Bool :=
  !((span c.issued (c.total - c.issued)).any fun j => c.touches j w)
    && !(x.copyElts.any fun e => decide (e.no = c.no) && decide (e.k ≠ k) && c.touches e.k w)
    && !(c.missed.any fun j => c.touches j w)

/-- The words that a packet of element k completes: those that no later element touches, none of whose elements has failed. -/
def CopyCmd.lastWords (c : CopyCmd) (k : Nat) : List Nat :=
  (c.words k).filter fun w =>
    !((span (k + 1) (c.total - (k + 1))).any fun j => c.touches j w) && !(c.missed.any fun j => c.touches j w)

/-- No earlier element of the command stands in the way of the write of e (R322): to the same bytes, or to the same word of a
tile that fills it. Writes that are sent keep their order in a window, and in form class at a station (R323). -/
def Tile.copyOrder (x : Tile) (c : CopyCmd) (e : CopyElt) : Bool :=
  !x.copyElts.any fun d =>
    decide (d.no = e.no) && decide (d.k < e.k)
      && (if c.dst.space = 1 then !d.sent && (c.words e.k).any fun w => c.touches d.k w
          else
            !(d.sent && c.form) && decide (c.dstOff d.k < c.dstOff e.k + c.z) && decide (c.dstOff e.k < c.dstOff d.k + c.z))

/-- A packet of a copy command. -/
def CopyCmd.pkt (c : CopyCmd) (u : Nat) (e : CopyElt) (req : Req) (tg : Target) (addr : Nat) : Packet :=
  { src := u, thread := c.thread, owner := .copy u e.n, req := req, target := tg, addr := addr, part := c.part, pasid := c.pasid,
    inst := c.inst, form := c.form, epoch := c.epoch, flits := max 1 req.flits }

/-- Put a packet on the net, padded in form class from a cycle of issue that the caller gives. -/
def State.sendFrom (s : State) (p : Packet) (issue : Nat) : State := (s.sendPkt p).modPkt s.nextPkt fun q => { q with issue := issue }

/-- The data of element e are there: a LOCAL word is written, or the write is sent; else it waits. -/
def State.copyWrite (s : State) (u : Nat) (c : CopyCmd) (e : CopyElt) : State :=
  let x := s.tile u
  if !e.ready || e.sent || !x.copyOrder c e || decide (s.now < e.due) then s
  else
    let off := c.dstOff e.k
    match c.dst.space with
    | 0 =>
      if x.heldAny off c.z then s.copyFail u e Cause.access (c.dstAddr e.k)
      else
        let fill := (c.words e.k).filter fun w => x.copyWordDone c e.k w
        let s := s.engPut c.thread u off e.bytes fill c.lead c.epoch
        (s.modTile u fun x => (x.dropElt e.n).modCopy c.no fun c => { c with landed := c.landed + 1 }).copySettle u c.no
    | 1 =>
      match s.resolveTile c.thread off with
      | none => s.copyFail u e Cause.access (c.dstAddr e.k)
      | some v =>
        let req : Req := .engWrite e.bytes ((c.lastWords e.k).map fun w => w % 2 ^ 20) c.lead
        (s.modTile u fun x => x.modElt e.n fun e => { e with sent := true }).sendPkt (c.pkt u e req (.tile v) (off % 2 ^ 20))
    | _ =>
      (s.modTile u fun x => x.modElt e.n fun e => { e with sent := true }).sendFrom
        (c.pkt u e (.engWrite e.bytes [] false) (.station (homeStation u off)) off) e.issue

/-- The answer of a packet of the copy engine lands: the data of an element, its acknowledgement, or a refusal. -/
def State.copyReply (s : State) (u n : Nat) (a : Answer) : State :=
  match (s.tile u).copyElts.find? fun e => e.n = n with
  | none => s
  | some e =>
    match (s.tile u).copyCmd e.no with
    | none => s
    | some c =>
      match a with
      | .refused k => s.copyFail u e k (if e.ready then c.dstAddr e.k else c.srcAddr e.k)
      | .ack => (s.modTile u fun x => (x.dropElt n).modCopy c.no fun c => { c with landed := c.landed + 1 }).copySettle u c.no
      | a =>
        let e' := { e with bytes := leBytes c.z a.bits.toNat, ready := true }
        (s.modTile u fun x => x.modElt n fun _ => e').copyWrite u c e'

/-! ### Events -/

/-- The command that starts next: the first that has not started, once every earlier one has issued its last request. -/
def Tile.nextCopy (x : Tile) (now : Nat) : Option CopyCmd :=
  match x.copies.find? fun c => !c.started && !c.stopped with
  | some c =>
    if c.ready ≤ now ∧ (x.copies.takeWhile fun d => decide (d.no ≠ c.no)).all CopyCmd.spent then some c else none
  | none => none

/-- COPY_COMMAND_START (R321). -/
def execCopyCommandStart (u : Nat) (s : State) : Out :=
  fin s
    (match (s.tile u).nextCopy s.now with
     | some c => if (s.tile u).saving.isSome then s else s.modTile u fun x => x.modCopy c.no fun c => { c with started := true }
     | none => s)

/-- Issue element e, whose own number is new. -/
def State.copyIssueElt (s : State) (u : Nat) (c : CopyCmd) (e : CopyElt) : State :=
  let off := c.srcOff e.k
  if c.fill then
    let e := { e with bytes := c.fillBytes, ready := true }
    (s.modTile u fun x => x.modElt e.n fun _ => e).copyWrite u c e
  else
    match c.src.space with
    | 0 =>
      if (s.tile u).heldAny off c.z then s.copyFail u e Cause.access (c.srcAddr e.k)
      else if (s.tile u).bad? off c.z then (s.readErrors u off c.z).copyFail u e Cause.access (c.srcAddr e.k)
      else
        let s := s.readErrors u off c.z
        let e := { e with bytes := (s.tile u).rd off c.z, ready := true }
        (s.modTile u fun x => x.modElt e.n fun _ => e).copyWrite u c e
    | 1 =>
      match s.resolveTile c.thread off with
      | none => s.copyFail u e Cause.access (c.srcAddr e.k)
      | some v => s.sendPkt (c.pkt u e (.engRead c.z) (.tile v) (off % 2 ^ 20))
    | _ =>
      let p := c.pkt u e (.engRead c.z) (.station (homeStation u off)) off
      -- in form class an element between two GLOBAL areas is acknowledged 720 cycles after its issue (R323)
      if c.dst.space = 2 then s.sendFrom p (s.now - 600) else s.sendPkt p

/-- The copy command whose next element is issued now: one element a cycle, and at most 64 of a command in flight (R322). -/
def Tile.issuing (x : Tile) (now : Nat) : Option CopyCmd :=
  if x.saving.isSome || x.copyElts.any fun e => e.issue = now then none
  else
    (x.copies.find? fun c => c.started && !c.spent).filter fun c =>
      decide ((x.copyElts.filter fun e => e.no = c.no).length < 64)

/-- COPY_ELEMENT_ISSUE (R322): one element a cycle, at most 64 in flight. From LOCAL or a value to LOCAL in form class it lands 12
cycles later (R323), in free class at a later cycle that the inputs give. -/
def execCopyElementIssue (u : Nat) (s : State) : Out :=
  fin s
    (match (s.tile u).issuing s.now with
     | none => s
     | some c =>
       let near := decide (c.dst.space = 0) && (c.fill || decide (c.src.space = 0))
       let e : CopyElt :=
         { n := s.nextCmd + 1, no := c.no, k := c.issued, issue := s.now, due := if near then s.now + (if c.form then 12 else 1) else s.now }
       let s := { s with nextCmd := s.nextCmd + 1 }
       let c' := { c with issued := c.issued + 1 }
       let s := s.modTile u fun x => { (x.modCopy c.no fun _ => c') with copyElts := x.copyElts ++ [e] }
       s.copyIssueElt u c' e)

/-- RES0, FAULTVA, CW and the trap of a failed command (R316, R325). -/
def State.copyEnd (s : State) (u : Nat) (c : CopyCmd) : State :=
  let va : Word := (c.failed.map (·.2)).getD 0
  let cause := (c.failed.map (·.1)).getD 0
  let st := if c.failed.isSome then 4 else if c.cancelled then 5 else 3
  let s := s.engPut c.thread u (c.cw + 0x70) (leBytes 8 c.landed ++ leBytes 8 va.toNat) [] c.lead c.epoch
  let s := s.engFill c.thread u c.cw (cwWord st (if c.fill then 0xD1 else 0xD0) cause 0 (c.landed % 2 ^ 32)) c.lead c.epoch
  let s := s.modTile u fun x => { x with copies := x.copies.filter fun d => d.no ≠ c.no }
  if c.failed.isSome then s.engTrap c.thread c.inst cause va else s

/-- COPY_ELEMENT_LANDS (R317, R322): element n lands, or its write is sent; n = 0 is the fill of CW. -/
def execCopyElementLands (u n : Nat) (s : State) : Out :=
  fin s
    (if n = 0 then
       match (s.tile u).copies.find? fun c => match c.fillAt with | some f => decide (f ≤ s.now) | none => false with
       | some c => s.copyEnd u c
       | none => s
     else
       match (s.tile u).copyElts.find? fun e => e.n = n with
       | none => s
       | some e =>
         match (s.tile u).copyCmd e.no with
         | some c => s.copyWrite u c e
         | none => s)

/-! ### DCANCEL (R324) -/

/-- DCANCEL on the value of its operand. DEDUCED, log entry 27. -/
def dcancelBody (s : State) (i : Instr) (a : Val) : Acc Done :=
  match capTrap s a a.addr.toNat 8 permW with
  | some (k, w) => .trap k w
  | none =>
    if a.space ≠ 0 then .trap Cause.access a.addr
    else if a.addr.toNat % 64 ≠ 0 then .trap Cause.align a.addr
    else
      let u := unitOf s.cur
      let c? := (s.tile u).copies.find? fun c => decide (c.cw = a.addr.toNat % 2 ^ 20) && c.fillAt.isNone && !c.stopped
      (leaderValue s i (val64 (if c?.isSome then 1 else 0))).andThen fun (v, s) =>
        match c? with
        | none => Done.value s v
        | some c => Done.value ((s.modTile u fun x => x.modCopy c.no fun c => { c with cancelled := true }).copySettle u c.no) v

/-- DCANCEL (R324). -/
def execDcancel (d : Dst) (a : Reg) (s : State) : Out :=
  fin s (scalar s (.dcancel d a) d [.reg a] fun ws s => dcancelBody s (.dcancel d a) (arg ws 0))

end Sys2Proof.Machine
end

