-- ==== Sys2Proof/Machine/Index.lean ====
section
/-! DEFINITION. The index engine of a tile: IXWALK, IXGATH, IXSCAT, IXMARK, and the start, rows and end of its commands (R316 to R318,
R327 to R336). -/

namespace Sys2Proof.Machine

/-! ### Blocks (R328) -/

/-- Dword at a byte offset of the command's block; the copied dwords start at 0x08. -/
def IxCmd.par (c : IxCmd) (off : Nat) : Nat := (c.params.getD (off / 8 - 1) 0).toNat

/-- KIND, or SEL. -/
def IxCmd.flag (c : IxCmd) : Bool := decide (c.par 0x08 % 2 = 1)
/-- N, or COUNT. -/
def IxCmd.count (c : IxCmd) : Nat := c.par 0x10
/-- OUT of a walk. -/
def IxCmd.out (c : IxCmd) : Nat := c.par 0x28
/-- ROWS of a walk. -/
def IxCmd.rows (c : IxCmd) : Nat := c.par 0x30
/-- CAP of a walk. -/
def IxCmd.room (c : IxCmd) : Nat := c.par 0x38
/-- The index list of a gather or scatter. -/
def IxCmd.idx (c : IxCmd) : Nat := c.par 0x18
/-- The stride of the index list: 0 means 8. -/
def IxCmd.istr (c : IxCmd) : Nat := if c.par 0x20 = 0 then 8 else c.par 0x20
/-- The row base in A's space. -/
def IxCmd.base (c : IxCmd) : Nat := c.par 0x28
/-- The row stride in A's space. -/
def IxCmd.bstr (c : IxCmd) : Nat := c.par 0x30
/-- The LOCAL rows. -/
def IxCmd.near (c : IxCmd) : Nat := c.par 0x38
/-- The stride of the LOCAL rows. -/
def IxCmd.nstr (c : IxCmd) : Nat := c.par 0x40
/-- Row bytes. -/
def IxCmd.len (c : IxCmd) : Nat := c.par 0x48

/-- A LOCAL area lies outside the bounds of C or in the handler reserve. DEDUCED, log entry 28. -/
def badArea (c : Val) (off n : Nat) : Bool :=
  decide (off < (bounds c).1) || decide ((bounds c).2 < off + n) || decide (0xF0000 < off + n)

/-- A copied block breaks R328. -/
def badBlock (c : Val) (x : IxCmd) : Bool :=
  if x.op = 0 then
    decide (1 < x.par 0x08) || decide (2 ^ 32 ≤ x.count) || decide (x.out % 16 ≠ 0) || decide (x.rows % 8 ≠ 0)
      || decide (x.room = 0) || decide (65536 < x.room)
      || ([0x40, 0x48, 0x50, 0x58, 0x60, 0x68].any fun o => decide (x.par o ≠ 0))
      || badArea c x.out (16 * x.room) || badArea c x.rows (8 * x.room)
  else
    decide (1 < x.par 0x08) || decide (65536 < x.count) || decide (x.idx % 8 ≠ 0) || decide (x.istr % 8 ≠ 0)
      || decide (x.base % 8 ≠ 0) || decide (2 ^ 40 ≤ x.bstr) || decide (x.bstr % 8 ≠ 0) || decide (x.near % 8 ≠ 0)
      || decide (x.nstr % 8 ≠ 0) || decide (x.nstr < x.len) || decide (x.len % 8 ≠ 0) || decide (x.len < 8) || decide (4096 < x.len)
      || ([0x50, 0x58, 0x60, 0x68].any fun o => decide (x.par o ≠ 0))
      || (decide (0 < x.count)
          && (badArea c x.idx (x.istr * (x.count - 1) + 8) || badArea c x.near (x.nstr * (x.count - 1) + x.len)))
      || (decide (x.op = 3) && decide (x.len % (x.fmt.width / 8) ≠ 0))

/-- The words that n bytes from an aligned offset hold. -/
def wordsOf (off n : Nat) : List Nat := (touched 8 off n).map fun k => 8 * k

/-- The words of row j of a gather. -/
def IxCmd.rowWords (c : IxCmd) (j : Nat) : List Nat := wordsOf (c.near + c.nstr * j) c.len

/-- The words that a command marks (R329). -/
def IxCmd.marks (c : IxCmd) : List Nat :=
  c.cw ::
    (match c.op with
     | 0 => wordsOf c.out (16 * c.room) ++ wordsOf c.rows (8 * c.room)
     | 1 => (List.range c.count).flatMap c.rowWords
     | _ => [])

/-! ### Issue (R329, R334) -/

/-- Enter a command in the log of the present thread's open region (R334), and queue it where it runs. -/
def State.ixPush (s : State) (c : IxCmd) : State :=
  let c := { c with no := s.nextCmd }
  let s := if c.idle then s else s.modTile (unitOf s.cur) fun x => { x with indexes := x.indexes ++ [c] }
  let s := s.modMe fun x => if x.region.isOpen then { x with region := { x.region with log := x.region.log ++ [c] } } else x
  { s with nextCmd := s.nextCmd + 1 }

/-- Some tile that A reaches lies outside the thread's replica (R399); where the indices lead is not known at issue, so the bounds of
A decide. DEDUCED, log entry 30. -/
def State.ixExternal (s : State) (a : Val) : Bool :=
  match a.space with
  | 0 => false
  | 1 => (touched (2 ^ 20) (bounds a).1 ((bounds a).2 - (bounds a).1)).any fun k => !s.internal s.cur (k * 2 ^ 20)
  | _ => true

/-- The checks of the operand that names the block: as for a descriptor, but a block that is not aligned to 64 traps ACCESS (R328). -/
def ixBlockCheck (s : State) (c : Val) : Option (Nat × Word) :=
  (blockCheck s c).map fun p => if p.1 = Cause.align then (Cause.access, p.2) else p

/-- The issue step (R329) on the values of the operands. DEDUCED, log entry 28. -/
def ixBody (s : State) (i : Instr) (op : Nat) (f : Fmt) (a c : Val) : Acc Done :=
  if s.me.arch.status.form then .trap Cause.timingDeviation c.addr
  else
    match ixBlockCheck s c with
    | some (k, w) => .trap k w
    | none =>
      (blockRead s i c 13).andThen fun (p, s) =>
        let x := s.me
        let u := unitOf s.cur
        let cmd : IxCmd :=
          { op := op, fmt := f, thread := s.cur, inst := x.inst, epoch := x.epoch, part := s.partOf u, pasid := s.pasidOf s.cur,
            tidx := bits x.fieldxy 31 16, tcount := max 1 (bits x.fieldxy 47 40 * bits x.fieldxy 39 32), cap := a,
            cw := c.addr.toNat % 2 ^ 20, params := p, priv := x.priv }
        if badBlock c cmd then .trap Cause.access c.addr
        else if x.region.isOpen && decide (op = 3) then .trap Cause.ixScatterAdd c.addr
        else if x.region.isOpen && decide (16 ≤ x.region.log.length) then .trap Cause.access c.addr
        else
          match atRelease s i 0x0F [a, c] id with
          | some s' => .leave s'
          | none =>
            let ext := s.ixExternal a
            let ls := cmd.marks.eraseDups
            if s.followOnly ext then .ok { s := (s.ownMarks ls).ixPush { cmd with idle := true } }
            else if 8 ≤ ((s.tile u).indexes.filter fun c => !c.started).length then queueWait s i
            else if s.asyncFull s.cur then .wait .waitMem
            else .ok { s := (s.ownMarks ls).ixPush { cmd with lead := s.leadOnly ext, ready := s.now + (ls.length + 7) / 8 } }

/-- A form of the index engine. -/
def ixForm (s : State) (i : Instr) (op : Nat) (f : Fmt) (a c : Reg) : State :=
  issue s i [.reg a, .reg c] [] .none fun ws _ s => ixBody s i op f (arg ws 0) (arg ws 1)

/-- IXWALK (R330). -/
def execIxwalk (a c : Reg) (s : State) : Out := fin s (ixForm s (.ixwalk a c) 0 .i32 a c)

/-- IXGATH (R331). -/
def execIxgath (a c : Reg) (s : State) : Out := fin s (ixForm s (.ixgath a c) 1 .i32 a c)

/-- IXSCAT (R331). -/
def execIxscat (a c : Reg) (s : State) : Out := fin s (ixForm s (.ixscat a c) 2 .i32 a c)

/-- IXSCAT.add (R332). -/
def execIxscatAdd (f : Fmt) (a c : Reg) (s : State) : Out := fin s (ixForm s (.ixscatAdd f a c) 3 f a c)

/-- IXMARK and IXMARK.END (R334): the log is discarded, and the region is open or closed. -/
def markForm (s : State) (i : Instr) (on : Bool) : State :=
  issue s i [] [] .none fun _ _ s =>
    if s.me.arch.status.form then .trap Cause.timingDeviation 0
    else .ok { s := s.modMe fun x => { x with region := { isOpen := on, log := [] } } }

/-- IXMARK (R334). -/
def execIxmark (s : State) : Out := fin s (markForm s .ixmark true)

/-- IXMARK.END (R334). -/
def execIxmarkEnd (s : State) : Out := fin s (markForm s .ixmarkEnd false)

/-! ### Accesses in A's space (R333) -/

/-- Where an access in A's space goes. -/
inductive IxPlace where
  | tile (u off : Nat)
  | mem (va : Nat)
  deriving DecidableEq, Repr

/-- The checks of an access before it leaves the tile: CapCheck, alignment, the handler reserve, the tile's name. -/
def State.ixPlace (s : State) (c : IxCmd) (u : Nat) (ea : Int) (n al : Nat) (need : BitVec 8) : Except (Nat × Word) IxPlace :=
  let w := wordOf ea
  match capCheck c.cap ea n need false false with
  | some k => .error (k, w)
  | none =>
    if ea % (al : Int) ≠ 0 then .error (Cause.align, w)
    else
      let off := ea.toNat % 2 ^ 20
      if c.cap.space = 2 then .ok (.mem (ea.toNat % 2 ^ 57))
      else
        match reserveRule { arch := { status := { mode := if c.priv then 1 else 0 } } } c.cap off n with
        | some k => .error (k, w)
        | none =>
          if c.cap.space = 0 then (if (s.tile u).heldAny off n then .error (Cause.access, w) else .ok (.tile u off))
          else
            match s.resolveTile c.thread (ea.toNat % 2 ^ 30) with
            | none => .error (Cause.access, w)
            | some v => if s.portOpen v off n {} then .ok (.tile v off) else .error (Cause.remoteRefused, w)

/-- The address at which an access of GLOBAL memory fails. -/
def faultWord (ea : Int) (va at? : Nat) : Word := wordOf (ea + ((at? : Int) - (va : Int)))

/-- Read n bytes of a place, whose first byte has address ea; an error that is not corrected is a failure (R189). -/
def State.ixRead (s : State) (c : IxCmd) (ea : Int) (n : Nat) : IxPlace → Except (Nat × Word) (List Byte)
  | .tile v off => if (s.tile v).bad? off n then .error (Cause.access, wordOf ea) else .ok ((s.tile v).rd off n)
  | .mem va =>
    match s.globalRd c.part c.pasid va n with
    | .error (k, at?) => .error (k, faultWord ea va at?)
    | .ok bs => .ok bs

/-- Write bytes to a place; full/empty bits stay (R331). -/
def State.ixWrite (s : State) (c : IxCmd) (ea : Int) (bs : List Byte) : IxPlace → Except (Nat × Word) State
  | .tile v off => .ok (s.engPut c.thread v off bs [] c.lead c.epoch)
  | .mem va =>
    match s.globalWr c.part c.pasid va bs with
    | .error (k, at?) => .error (k, faultWord ea va at?)
    | .ok s => .ok s

/-- An index word of a list: 4 bytes. -/
def State.ixWord (s : State) (c : IxCmd) (u : Nat) (ea : Nat) : Except (Nat × Word) Nat :=
  match s.ixPlace c u ea 4 4 permR with
  | .error e => .error e
  | .ok p =>
    match s.ixRead c ea 4 p with
    | .error e => .error e
    | .ok bs => .ok (leNat bs)

/-- The errors met in reading n bytes of a place are corrected and counted, or recorded (R189). -/
def State.placeErrors (s : State) (n : Nat) : IxPlace → State
  | .tile v off => s.readErrors v off n
  | .mem _ => s

/-- The errors met in reading list words at addresses. -/
def State.wordErrors (s : State) (c : IxCmd) (u : Nat) (eas : List Int) : State :=
  eas.foldl (fun s ea => match s.ixPlace c u ea 4 4 permR with | .ok p => s.placeErrors 4 p | .error _ => s) s

/-! ### The walk (R330) -/

/-- The pointer of a row: read already, or read now. -/
def State.ixPtr (s : State) (u : Nat) (c : IxCmd) (i : Nat) : Except (Nat × Word) (Nat × IxCmd) :=
  match c.ptrs.find? fun p => p.1 = i with
  | some p => .ok (p.2, c)
  | none =>
    match s.ixWord c u (c.par 0x18 + 4 * i) with
    | .error e => .error e
    | .ok v => .ok (v, { c with ptrs := (i, v) :: c.ptrs })

/-- FirstRow: at most n steps of the bisection between rows a and b. -/
def State.firstRow (s : State) (u p : Nat) : Nat → Nat → Nat → IxCmd → Except (Nat × Word) (Nat × IxCmd)
  | 0, a, _, c => .ok (a, c)
  | n + 1, a, b, c =>
    if b - a ≤ 1 then .ok (a, c)
    else
      let mid := (a + b) / 2
      match s.ixPtr u c mid with
      | .error e => .error e
      | .ok (v, c) => if v ≤ p then s.firstRow u p n mid b c else s.firstRow u p n a mid c

/-- The row that holds entry p, from row r on; at most n rows are passed over. -/
def State.nextRow (s : State) (u p : Nat) : Nat → Nat → IxCmd → Except (Nat × Word) (Nat × IxCmd)
  | 0, r, c => .ok (r, c)
  | n + 1, r, c =>
    if c.count - 1 ≤ r then .ok (r, c)
    else
      match s.ixPtr u c (r + 1) with
      | .error e => .error e
      | .ok (v, c) => if v ≤ p then s.nextRow u p n (r + 1) c else .ok (r, c)

/-- A walk that ends with a REASON. -/
def IxCmd.stop (c : IxCmd) (reason : Nat) : IxCmd := { c with closed := true, reason := reason }

/-- A command that an access has ended. -/
def IxCmd.fail (c : IxCmd) (e : Nat × Word) : IxCmd := { c with closed := true, failed := some e }

/-- The range of a command of n entries. -/
def IxCmd.range (c : IxCmd) (n : Nat) : IxCmd :=
  let lo := c.tidx * n / c.tcount
  let hi := (c.tidx + 1) * n / c.tcount
  { c with lo := lo, hi := hi, cursor := lo, closed := decide (hi ≤ lo) }

/-- The start of a walk: its range, and for CSR the row of its first entry. -/
def State.walkStart (s : State) (u : Nat) (c : IxCmd) : IxCmd :=
  if !c.flag then c.range c.count
  else
    match s.ixPtr u c 0 with
    | .error e => c.fail e
    | .ok (p0, c) =>
      match s.ixPtr u c c.count with
      | .error e => c.fail e
      | .ok (pn, c) =>
        if pn < p0 then c.stop 1
        else
          let c := c.range (pn - p0)
          if c.hi ≤ c.lo then c
          else
            match s.firstRow u (p0 + c.lo) 33 0 c.count c with
            | .error e => c.fail e
            | .ok (r, c) => { c with row := r }

/-- Row and column of the entry at the cursor; none when it lies in no row. -/
def State.walkEntry (s : State) (u : Nat) (c : IxCmd) : Except (Nat × Word) (Option (Nat × Nat) × IxCmd) :=
  if !c.flag then
    match s.ixWord c u (c.par 0x18 + 4 * c.cursor) with
    | .error e => .error e
    | .ok r =>
      match s.ixWord c u (c.par 0x20 + 4 * c.cursor) with
      | .error e => .error e
      | .ok k => .ok (some (r, k), c)
  else
    match s.ixPtr u c 0 with
    | .error e => .error e
    | .ok (p0, c) =>
      let p := p0 + c.cursor
      match s.nextRow u p c.count c.row c with
      | .error e => .error e
      | .ok (r, c) =>
        match s.ixPtr u c r with
        | .error e => .error e
        | .ok (rl, c) =>
          match s.ixPtr u c (r + 1) with
          | .error e => .error e
          | .ok (rh, c) =>
            if p < rl ∨ rh ≤ p then .ok (none, c)
            else
              match s.ixWord c u (c.par 0x20 + 4 * p) with
              | .error e => .error e
              | .ok k => .ok (some (r, k), { c with row := r })

/-- Change an index command. -/
def Tile.modIx (x : Tile) (no : Nat) (f : IxCmd → IxCmd) : Tile :=
  { x with indexes := x.indexes.map fun c => if c.no = no then f c else c }

/-- Write dwords of a walk and set their words full. -/
def State.ixPut (s : State) (u : Nat) (c : IxCmd) (off : Nat) (ws : List Nat) : State :=
  let bs := ws.flatMap fun w => leBytes 8 w
  s.engPut c.thread u off bs (wordsOf off bs.length) c.lead c.epoch

/-- The marked words, CW apart, that a command has not filled. -/
def IxCmd.unfilled (c : IxCmd) : List Nat :=
  match c.op with
  | 0 => wordsOf (c.out + 16 * c.done) (16 * (c.room - c.done)) ++ wordsOf (c.rows + 8 * c.q) (8 * (c.room - c.q))
  | 1 =>
    (((c.work.map (·.1)) ++ span c.cursor (c.count - c.cursor)).flatMap c.rowWords).filter fun o =>
      !c.moved.any fun d => decide (o = c.near + c.nstr * (c.work.headD (0, 0)).1 + 8 * d)
  | _ => []

/-- What the end of a command writes before CW: the sentinels of a walk (R330), or the bits of the words that a failed access left
empty (R333). -/
def State.ixTail (s : State) (u : Nat) (c : IxCmd) : State :=
  if c.op = 0 then c.unfilled.foldl (fun s o => s.ixPut u c o [2 ^ 64 - 1]) s
  else if c.failed.isSome then
    (s.places c.thread u c.lead).foldl (fun s e =>
      c.unfilled.foldl (fun s o => (s.engUndoPush e.1 e.2 o 8).engSetFull e.1 e.2 o c.epoch) s) s
  else s

/-- Put an index command; when it closes, its last fills are made, and CW may be filled one cycle later (R317). -/
def State.putIx (s : State) (u : Nat) (c : IxCmd) : State :=
  let put (s : State) (c : IxCmd) : State := s.modTile u fun x => x.modIx c.no fun _ => c
  if c.closed && decide (c.endAt = 0) then put (s.ixTail u c) { c with endAt := s.now + 1 } else put s c

/-- The list words that a walk has read between two of its states, the entry at the cursor among them. -/
def walkReads (c c' : IxCmd) (p : Nat) : List Int :=
  ((c'.ptrs.take (c'.ptrs.length - c.ptrs.length)).map fun e => ((c.par 0x18 + 4 * e.1 : Nat) : Int))
    ++ (if c.flag then [] else [((c.par 0x18 + 4 * c.cursor : Nat) : Int)]) ++ [((c.par 0x20 + 4 * p : Nat) : Int)]

/-- The number of the entry at the cursor among the words of its list. -/
def IxCmd.entryAt (c c' : IxCmd) : Nat :=
  if c.flag then (match c'.ptrs.find? fun e => e.1 = 0 with | some e => e.2 | none => 0) + c.cursor else c.cursor

/-- The next entry of a walk (R330). -/
def State.walkStep (s : State) (u : Nat) (c : IxCmd) : State :=
  let s :=
    match s.walkEntry u c with
    | .error (_, w) => s.wordErrors c u [(w.toNat : Int)]
    | .ok (_, c') => s.wordErrors c u (walkReads c c' (c.entryAt c'))
  match s.walkEntry u c with
  | .error e => s.putIx u (c.fail e)
  | .ok (none, c) => s.putIx u (c.stop 1)
  | .ok (some (r, k), c) =>
    if (match c.last with | some l => decide (r < l) | none => false) then s.putIx u (c.stop 1)
    else if c.cursor - c.lo = c.room then s.putIx u (c.stop 2)
    else
      let new := decide (c.last ≠ some r)
      let q := if new then c.q + 1 else c.q
      let s := if new then s.ixPut u c (c.rows + 8 * c.q) [r] else s
      let s := s.ixPut u c (c.out + 16 * c.done) [k * 2 ^ 32 + r, (q - 1) * 2 ^ 32 + c.cursor]
      s.putIx u
        { c with q := q, done := c.done + 1, last := some r, cursor := c.cursor + 1, closed := decide (c.hi ≤ c.cursor + 1) }

/-! ### Rows (R331, R332) -/

/-- The element sum of IXSCAT.add on raw codes: integers wrap, floats round once to nearest (R332). -/
def addCode (f : Fmt) (a b : Nat) : Nat :=
  if f.isInt then (a + b) % 2 ^ f.width else fArith .add f .rne 0 a b 0

/-- The sums of n elements of z bytes. -/
def addBytesRow (f : Fmt) (z : Nat) : Nat → List Byte → List Byte → List Byte
  | 0, _, _ => []
  | n + 1, a, b => leBytes z (addCode f (leNat (a.take z)) (leNat (b.take z))) ++ addBytesRow f z n (a.drop z) (b.drop z)

/-- An atomic that waits for its read-modify-write lies among n bytes of a place. -/
def State.ixBusy (s : State) (c : IxCmd) (p : IxPlace) (n : Nat) : Bool :=
  match p with
  | .tile v off =>
    s.pkts.any fun q => decide (q.stage = .reserved) && decide (q.target = .tile v) && decide (off / 8 * 8 ≤ q.addr) && decide (q.addr < off + n)
  | .mem va =>
    (pagePieces va n).any fun e =>
      match s.engPhys c.part c.pasid e.1 (true, true, false) with
      | .ok ph =>
        s.pkts.any fun q =>
          decide (q.stage = .reserved) && (match q.target with | .station _ => true | _ => false) && decide (q.node = ph.node)
            && decide (q.host = ph.host) && decide (ph.pa / 8 * 8 ≤ q.paddr) && decide (q.paddr < ph.pa + e.2)
      | .error _ => false

/-- A float sum on a HOST page, which PCIe does not carry (R332). -/
def State.ixHostFloat (s : State) (c : IxCmd) (p : IxPlace) (n : Nat) : Bool :=
  match p with
  | .tile _ _ => false
  | .mem va =>
    !c.fmt.isInt && (pagePieces va n).any fun e =>
      match s.engPhys c.part c.pasid e.1 (true, true, false) with
      | .ok ph => ph.host
      | .error _ => false

/-- Dword d of row j, the first that is not done, has been moved. -/
def IxCmd.movedOn (c : IxCmd) (d : Nat) : IxCmd :=
  let m := d :: c.moved
  if 8 * m.length < c.len then { c with moved := m }
  else
    let w := c.work.tail
    { c with done := c.done + 1, work := w, moved := [], closed := w.isEmpty && decide (c.count ≤ c.cursor) }

/-- Dword d of a place. -/
def IxPlace.dword (d : Nat) : IxPlace → IxPlace
  | .tile v off => .tile v (off + 8 * d)
  | .mem va => .mem (va + 8 * d)

/-- The place of a row in A's space: every byte of it may be accessed, else none of it is (R333). DEDUCED, log entry 28. -/
def State.ixRow (s : State) (c : IxCmd) (u : Nat) (ea : Int) (need : BitVec 8) : Except (Nat × Word) IxPlace :=
  match s.ixPlace c u ea c.len 8 need with
  | .ok (.mem va) =>
    let r := need &&& permR ≠ 0
    let w := need &&& permW ≠ 0
    match (pagePieces va c.len).findSome? fun e =>
        match s.engPhys c.part c.pasid e.1 (r, w, false) with | .error k => some (k, faultWord ea va e.1) | .ok _ => none with
    | some e => .error e
    | none => .ok (.mem va)
  | x => x

/-- Dword d of row j of index i of a gather. -/
def State.gatherWord (s : State) (u : Nat) (c : IxCmd) (j i d : Nat) : State :=
  let ea : Int := ((c.base + i * c.bstr : Nat) : Int)
  let off := c.near + c.nstr * j + 8 * d
  match s.ixRow c u ea permR with
  | .error e => s.putIx u (c.fail e)
  | .ok p =>
    let p := p.dword d
    let s' := s.placeErrors 8 p
    match s.ixRead c (ea + 8 * d) 8 p with
    | .error e => s'.putIx u (c.fail e)
    | .ok bs => (s'.engPut c.thread u off bs [off] c.lead c.epoch).putIx u (c.movedOn d)

/-- Dword d of row j of index i of a scatter. DEDUCED, log entry 28. -/
def State.scatterWord (s : State) (u : Nat) (c : IxCmd) (j i d : Nat) : State :=
  let ea : Int := ((c.base + i * c.bstr : Nat) : Int)
  let off := c.near + c.nstr * j + 8 * d
  let need := if c.op = 2 then permW else permR ||| permW
  match s.ixRow c u ea need with
  | .error e => s.putIx u (c.fail e)
  | .ok p =>
    let p := p.dword d
    if c.op = 3 ∧ s.ixBusy c p 8 then s
    else
      let s' := s.readErrors u off 8
      if (s.tile u).bad? off 8 then s'.putIx u (c.fail (Cause.access, BitVec.ofNat 64 off))
      else
        let bs := (s.tile u).rd off 8
        let ea := ea + 8 * d
        if c.op = 2 then
          match s'.ixWrite c ea bs p with
          | .error e => s'.putIx u (c.fail e)
          | .ok s => s.putIx u (c.movedOn d)
        else if s.ixHostFloat c p 8 then s'.putIx u (c.fail (Cause.access, wordOf ea))
        else
          let z := c.fmt.width / 8
          match s.ixRead c ea 8 p with
          | .error e => (s'.placeErrors 8 p).putIx u (c.fail e)
          | .ok old =>
            match (s'.placeErrors 8 p).ixWrite c ea (addBytesRow c.fmt z (8 / z) old bs) p with
            | .error e => s'.putIx u (c.fail e)
            | .ok s => s.putIx u (c.movedOn d)

/-! ### Events -/

/-- The running index command of a tile that is not being saved. -/
def Tile.ixRunning (x : Tile) : Option IxCmd := if x.saving.isSome then none else x.indexes.find? fun c => c.started

/-- The command that starts next. -/
def Tile.nextIx (x : Tile) (now : Nat) : Option IxCmd :=
  if x.saving.isSome || x.indexes.any (fun c => c.started) then none
  else
    match x.indexes.head? with
    | some c => if c.ready ≤ now then some c else none
    | none => none

/-- The list words that the start of a walk reads. -/
def IxCmd.startReads (c c' : IxCmd) : List Int :=
  (c'.ptrs.map fun e => ((c.par 0x18 + 4 * e.1 : Nat) : Int))
    ++ (match c'.failed with | some e => if c.flag then [(e.2.toNat : Int)] else [] | none => [])

/-- INDEX_COMMAND_START (R329): commands run one at a time, in queue order. -/
def execIndexCommandStart (u : Nat) (s : State) : Out :=
  fin s
    (match (s.tile u).nextIx s.now with
     | none => s
     | some c =>
       let c := { c with started := true }
       let w := s.walkStart u c
       if c.op = 0 then (s.wordErrors c u (c.startReads w)).putIx u w
       else s.putIx u { c with closed := c.closed || (c.work.isEmpty && decide (c.count ≤ c.cursor)) })

/-- INDEX_WORD_FILLED (R331): the next index word is full and is read, once. -/
def execIndexWordFilled (u : Nat) (s : State) : Out :=
  fin s
    (match (s.tile u).ixRunning with
     | none => s
     | some c =>
       let off := c.idx + c.istr * c.cursor
       if c.op = 0 || c.closed || decide (c.count ≤ c.cursor) || !(s.tile u).full off then s
       else
         let s := s.readErrors u off 8
         let w := (s.tile u).word off
         let i := if c.flag then bits w 63 32 else bits w 31 0
         if (s.tile u).bad? off 8 then s.putIx u (c.fail (Cause.access, BitVec.ofNat 64 off))
         else s.putIx u { c with work := c.work ++ [(c.cursor, i)], cursor := c.cursor + 1 })

/-- INDEX_ROW_LANDS (R317, R330, R331): entry n of a walk, or dword n mod 512 of row n / 512 of a gather or scatter, whose rows go in
ascending order and whose dwords in any. DEDUCED, log entry 28. -/
def execIndexRowLands (u n : Nat) (s : State) : Out :=
  fin s
    (match (s.tile u).ixRunning with
     | none => s
     | some c =>
       if c.closed then s
       else if c.op = 0 then (if c.cursor = n then s.walkStep u c else s)
       else
         match c.work with
         | [] => s
         | (j, i) :: _ =>
           let d := n % 512
           if n / 512 ≠ j ∨ c.len ≤ 8 * d ∨ c.moved.any fun m => m = d then s
           else if c.op = 1 then s.gatherWord u c j i d
           else s.scatterWord u c j i d)

/-- RES0, FAULTVA, CW and the trap of a failed command (R316, R325, R333). -/
def State.ixFinish (s : State) (u : Nat) (c : IxCmd) : State :=
  let va : Word := (c.failed.map (·.2)).getD 0
  let cause := (c.failed.map (·.1)).getD 0
  let st := if c.failed.isSome ∨ c.reason ≠ 0 then 4 else 3
  let res := if c.op = 0 then c.q else c.done
  let s := s.engPut c.thread u (c.cw + 0x70) (leBytes 8 res ++ leBytes 8 va.toNat) [] c.lead c.epoch
  let s := s.engFill c.thread u c.cw (cwWord st (0xD8 + min c.op 2) cause c.reason c.done) c.lead c.epoch
  let s := s.modTile u fun x => { x with indexes := x.indexes.filter fun d => d.no ≠ c.no }
  if c.failed.isSome then s.engTrap c.thread c.inst cause va else s

/-- INDEX_COMMAND_END (R316, R317, R330, R333): CW, one cycle after the last fill. -/
def execIndexCommandEnd (u : Nat) (s : State) : Out :=
  fin s
    (match (s.tile u).ixRunning with
     | none => s
     | some c =>
       if !c.closed || decide (s.now < c.endAt) then s else s.ixFinish u c)

end Sys2Proof.Machine
end

