-- ==== Sys2Proof/Machine/QtTree.lean ====
section
/-! DEFINITION. Quadtrees: node records and their shape, views, the accesses of a command, and its pool (R275 to R281, R286 to R288). -/

namespace Sys2Proof.Machine

/-! ### Node records (R275 to R277) -/

/-- A node: the fields of its record. Types: 0 ZERO, 1 IDENT, 2 DIAG, 3 LOWRANK, 4 DENSE, 5 INTERNAL. -/
structure QNode where
  typ : Nat := 0
  fmt : Nat := 0
  level : Nat := 0
  rank : Nat := 0
  lg : Nat := 0
  prov : Bool := false
  reg : Bool := false
  inc : Bool := false
  scale : Word := 0
  kids : List Word := []
  pay0 : Word := 0
  pay1 : Word := 0
  ld : Word := 0
  done : Nat := 0
  expect : Nat := 0
  deriving DecidableEq, Repr

/-- FP64 1.0. -/
def one64 : Word := 0x3FF0000000000000

/-- A node from the dwords of its record. -/
def QNode.ofWords (w : List Word) : QNode :=
  let h := w.getD 0 0
  { typ := bits h 63 60, fmt := bits h 59 56, level := bits h 55 52, rank := bits h 51 46, lg := bits h 45 40, prov := bit h 34,
    reg := bit h 33, inc := bit h 32, scale := w.getD 1 0, kids := (w.drop 2).take 4, pay0 := w.getD 2 0, pay1 := w.getD 3 0,
    ld := w.getD 4 0, done := bits (w.getD 6 0) 31 0, expect := bits (w.getD 6 0) 63 32 }

/-- HDR (R276). -/
def QNode.hdr (n : QNode) : Word :=
  BitVec.ofNat 64 (n.typ * 2 ^ 60 + n.fmt * 2 ^ 56 + n.level * 2 ^ 52 + n.rank * 2 ^ 46 + n.lg * 2 ^ 40 + b2n n.prov * 2 ^ 34
    + b2n n.reg * 2 ^ 33 + b2n n.inc * 2 ^ 32)

/-- The dwords of a record. -/
def QNode.words (n : QNode) : List Word :=
  [n.hdr, n.scale] ++ (if n.typ = 5 then (n.kids ++ [0, 0, 0, 0]).take 4 else [n.pay0, n.pay1, n.ld, 0])
    ++ [BitVec.ofNat 64 (n.expect * 2 ^ 32 + n.done), 0]

/-- The format. -/
def QNode.f (n : QNode) : Fmt := Fmt.ofCode (BitVec.ofNat 4 n.fmt)
/-- The element width e in bytes. -/
def QNode.e (n : QNode) : Nat := mxBytes n.f
/-- The dimension d. -/
def QNode.d (n : QNode) : Nat := 2 ^ n.lg
/-- The row stride in bytes. -/
def QNode.stride (n : QNode) : Nat := if n.ld = 0 then n.d * n.e else n.ld.toNat
/-- A leaf. -/
def QNode.leaf (n : QNode) : Bool := decide (n.typ ≠ 5)

/-- A record breaks R275 to R277: `lvl`, `lg` and `fmt` are what its place in the tree asks for, `opnd` for an operand tree. -/
def badRecord (w : List Word) (lvl lg fmt : Nat) (opnd : Bool) : Bool :=
  let n := QNode.ofWords w
  let h := w.getD 0 0
  let x := fun k => w.getD k 0
  decide (5 < n.typ) || decide (n.fmt < 4) || decide (10 < n.fmt) || decide (n.fmt ≠ fmt) || decide (n.level ≠ lvl)
    || decide (n.lg ≠ lg) || decide (n.lg < 4) || decide (23 < n.lg)
    || decide (bits h 39 35 ≠ 0) || decide (bits h 31 0 ≠ 0) || decide (x 7 ≠ 0)
    || (opnd && (n.prov || n.inc || decide (x 6 ≠ 0)))
    || (if n.typ = 5 then
          decide (15 ≤ lvl) || decide (n.lg < 5) || decide (n.scale ≠ one64) || decide (n.rank ≠ 0)
        else
          decide (8 < n.lg) || decide (x 5 ≠ 0)
            || (if n.typ = 3 then decide (n.rank = 0) || decide (32 < n.rank) else decide (n.rank ≠ 0))
            || (decide (n.typ = 0) && decide (n.scale ≠ 0))
            || (decide (n.typ ≤ 1) && decide (n.pay0 ≠ 0))
            || (decide (n.typ ≠ 3) && decide (n.pay1 ≠ 0))
            || (decide (n.typ ≠ 4) && decide (n.ld ≠ 0))
            || (decide (n.typ = 4) && (decide (n.pay0.toNat % 64 ≠ 0) || decide (n.ld.toNat % 8 ≠ 0)
                  || (decide (n.ld ≠ 0) && decide (n.ld.toNat < n.d * n.e))))
            || (decide (n.typ = 3) && (decide (n.pay0.toNat % 8 ≠ 0) || decide (n.pay1.toNat % 8 ≠ 0))))

/-! ### Views (R281) -/

/-- An address moved by bytes. -/
def addBytes (a : Word) (n : Nat) : Word := a + BitVec.ofNat 64 n

/-- Quadrant q of a leaf. A view of a DENSE leaf keeps the row stride of the whole. -/
def QNode.quadrant (n : QNode) (q : Nat) : QNode :=
  let i := q / 2
  let j := q % 2
  let h := n.d / 2
  let c : QNode := { n with lg := n.lg - 1, level := n.level + 1, prov := false, reg := false, inc := false, done := 0, expect := 0 }
  match n.typ with
  | 1 => if i = j then c else { c with typ := 0, scale := 0 }
  | 2 => if i = j then { c with pay0 := addBytes n.pay0 (i * h * n.e) } else { c with typ := 0, scale := 0, pay0 := 0 }
  | 3 => { c with pay0 := addBytes n.pay0 (i * h * n.rank * n.e), pay1 := addBytes n.pay1 (j * h * n.rank * n.e) }
  | 4 => { c with pay0 := addBytes n.pay0 (i * h * n.stride + j * h * n.e), ld := BitVec.ofNat 64 n.stride }
  | _ => c

/-! ### The accesses of a command (R278, R286, R288) -/

/-- Why a leaf operation stops: the command parks or fails, with a cause and an address. -/
inductive QStop where
  | park (cause : Nat) (va : Word)
  | fail (cause : Nat) (va : Word)
  deriving DecidableEq, Repr

/-- A leaf operation under way: what it has allocated stands in the state, what it will commit is gathered. -/
structure QOp where
  s : State
  c : QtCmd
  die : Nat
  run : QtRun
  recs : List (Word × QNode) := []
  pays : List (Word × List Byte) := []

/-- A computation of the engine: it may stop, and keeps what it has allocated. -/
abbrev QM := ExceptT QStop (StateM QOp)

/-- Stop with what a failed access means (R288): a translation fault parks. -/
def stopAccess {α : Type} (cause : Nat) (va : Word) : QM α :=
  throw (if cause = Cause.pageFault then .park cause va else .fail cause va)

/-- The address of a GLOBAL offset that lies `off` bytes or less above the offset `o` of address `a`. -/
def backAddr (a : Word) (o off : Nat) : Word := addBytes a (off - o)

/-- CapCheck of an address against a capability of the command: its GLOBAL offset. -/
def qCheck (cap : Val) (a : Word) (n : Nat) (need : BitVec 8) : QM Nat := do
  let o ← get
  match capCheck cap a.toNat n need o.c.form false with
  | some k => throw (.fail k a)
  | none =>
    match offsetOf 2 a.toNat with
    | some off => return off
    | none => throw (.fail Cause.capBounds a)

/-- Read bytes under the tree capability. -/
def qRead (a : Word) (n : Nat) : QM (List Byte) := do
  let o ← get
  let off ← qCheck o.c.tree a n permR
  match o.s.globalRd o.c.part o.c.pasid off n with
  | .ok bs => return bs
  | .error (k, va) => stopAccess k (backAddr a off va)

/-- The node at a record: one that the operation has made, or one in memory. -/
def qNode (a : Word) : QM QNode := do
  let o ← get
  match o.recs.find? fun r => r.1 = a with
  | some r => return r.2
  | none =>
    if a.toNat % 64 ≠ 0 then throw (.fail Cause.qshape a)
    else
      let bs ← qRead a 64
      return QNode.ofWords ((List.range 8).map fun k => bytesWord bs k)

/-- Gather a record to commit. -/
def qPut (a : Word) (n : QNode) : QM Unit := modify fun o => { o with recs := (a, n) :: o.recs.filter fun r => r.1 ≠ a }

/-- Gather bytes to commit. -/
def qPay (a : Word) (bs : List Byte) : QM Unit := modify fun o => { o with pays := o.pays ++ [(a, bs)] }

/-- Reserve n bytes of the pool (R286). -/
def qAlloc (n : Nat) : QM Word := do
  let o ← get
  match o.c.pool with
  | none => throw (.fail Cause.qshape (BitVec.ofNat 64 o.c.block))
  | some pool =>
    let a := addBytes pool.addr (16 * o.die)
    let off ← qCheck pool a 16 (permR ||| permW)
    let size := (n + 63) / 64 * 64
    match o.s.globalRd o.c.part o.c.pasid off 16 with
    | .error (k, _) => stopAccess k a
    | .ok bs =>
      let cur := bytesWord bs 0
      let lim := bytesWord bs 1
      if cur.toNat % 64 ≠ 0 then throw (.fail Cause.qshape a)
      else if lim.toNat < cur.toNat + size then throw (.park Cause.qpool pool.addr)
      else
        let _ ← qCheck pool cur size (permR ||| permW)
        match o.s.globalWr o.c.part o.c.pasid off (leBytes 8 (cur.toNat + size)) with
        | .error (k, _) => stopAccess k a
        | .ok s =>
          modify fun o => { o with s := s }
          return cur

/-- The node that a reference means. -/
def QRef.view (r : QRef) : QM QNode := do
  let n ← qNode r.node
  return r.path.foldl QNode.quadrant n

/-- Quadrant q of a reference: of its transpose when it means that. -/
def QRef.kid (r : QRef) (q : Nat) : QM QRef := do
  let n ← r.view
  let q := if r.trans then 2 * (q % 2) + q / 2 else q
  if n.typ = 5 then return { r with node := n.kids.getD q 0, path := [] } else return { r with path := r.path ++ [q] }

/-- The children of a result node: of an INTERNAL one its own, of a leaf four records made now (R281). -/
def qSplit (a : Word) : QM (List Word) := do
  let n ← qNode a
  if n.typ = 5 then return n.kids
  else
    let k0 ← qAlloc 64
    let k1 ← qAlloc 64
    let k2 ← qAlloc 64
    let k3 ← qAlloc 64
    qPut k0 (n.quadrant 0)
    qPut k1 (n.quadrant 1)
    qPut k2 (n.quadrant 2)
    qPut k3 (n.quadrant 3)
    let kids := [k0, k1, k2, k3]
    qPut a { n with typ := 5, rank := 0, scale := one64, kids := kids, done := 0, expect := 0, prov := false }
    return kids

/-! ### The walk before the first commit (R279) -/

/-- Check a record and everything below it: `n` levels are left. The records of the tree, by address. -/
def qWalk (need : BitVec 8) (opnd : Bool) (lvl lg fmt : Nat) (a : Word) : Nat → QM (List Word)
  | 0 => throw (.fail Cause.qshape a)
  | n + 1 => do
    if a.toNat % 64 ≠ 0 then throw (.fail Cause.qshape a)
    let o ← get
    let _ ← qCheck o.c.tree a 64 need
    let bs ← qRead a 64
    let w := (List.range 8).map fun k => bytesWord bs k
    if badRecord w lvl lg fmt opnd then throw (.fail Cause.qshape a)
    let x := QNode.ofWords w
    if x.typ = 5 then
      let l0 ← qWalk need opnd (lvl + 1) (lg - 1) fmt (x.kids.getD 0 0) n
      let l1 ← qWalk need opnd (lvl + 1) (lg - 1) fmt (x.kids.getD 1 0) n
      let l2 ← qWalk need opnd (lvl + 1) (lg - 1) fmt (x.kids.getD 2 0) n
      let l3 ← qWalk need opnd (lvl + 1) (lg - 1) fmt (x.kids.getD 3 0) n
      return a :: (l0 ++ l1 ++ l2 ++ l3)
    else return [a]

/-- Walk a tree from its crown: the crown and the records. -/
def qTree (need : BitVec 8) (opnd : Bool) (a : Word) : QM (QNode × List Word) := do
  let c ← qNode a
  let l ← qWalk need opnd 0 c.lg c.fmt a 16
  return (c, l)

/-! ### Commits (R289) -/

/-- Check that an area can be written: every page is translated with W before the operation begins (R289). -/
def qCommitCheck (a : Word) (n : Nat) : QM Unit := do
  let o ← get
  let off ← qCheck o.c.tree a n (permR ||| permW)
  match o.s.globalWr o.c.part o.c.pasid off (List.replicate n 0) with
  | .ok _ => return ()
  | .error (k, va) => stopAccess k (backAddr a off va)

/-- What the operation has gathered, as areas to write: payloads, then records. -/
def QOp.areas (o : QOp) : List (Word × List Byte) :=
  o.pays ++ o.recs.map fun r => (r.1, r.2.words.flatMap fun w => leBytes 8 w.toNat)

/-- Check areas one after another. -/
def qCheckAll : List (Word × List Byte) → QM Unit
  | [] => return ()
  | (a, bs) :: l => do
    qCommitCheck a bs.length
    qCheckAll l

/-- Write areas of a commit one after another, up to one that is refused: its address, and the state. DEDUCED, log entry 24. -/
def State.qtWrite (s : State) (c : QtCmd) : List (Word × List Byte) → Option Word × State
  | [] => (none, s)
  | (a, bs) :: l =>
    let off := (offsetOf 2 a.toNat).getD 0
    match s.globalWr c.part c.pasid off bs with
    | .ok s => s.qtWrite c l
    | .error (_, va) => (some (backAddr a off va), s)

end Sys2Proof.Machine
end

