-- ==== Sys2Proof/Machine/QtArith.lean ====
section
/-! DEFINITION. The arithmetic of the quadtree engine on leaves: loading, products, sums, conversion, factors and triangular solves
(R277, R282 to R285, R291, R304 to R308). -/

namespace Sys2Proof.Machine

/-! ### Leaves as numbers -/

/-- A leaf's content: type, rank, scale, and the payloads row by row (DIAG: the diagonal; LOWRANK: U and V). -/
structure QLeaf where
  typ : Nat := 0
  rank : Nat := 0
  scale : Num := .zero false
  p0 : Array Num := #[]
  p1 : Array Num := #[]

/-- A content in a result format, as codes: a scale in FP64, payloads in the format. -/
structure QCont where
  typ : Nat := 0
  rank : Nat := 0
  scale : Word := one64
  p0 : Array Nat := #[]
  p1 : Array Nat := #[]

/-- An m by n table, row by row. -/
def table {α : Type} (m n : Nat) (f : Nat → Nat → α) : Array α := ((List.range (m * n)).map fun k => f (k / n) (k % n)).toArray

/-- Entry (i, j) of a table of n columns. -/
def entry (p : Array Num) (n i j : Nat) : Num := p.getD (n * i + j) .nan

/-- A code of a table. -/
def code (p : Array Nat) (n i j : Nat) : Nat := p.getD (n * i + j) 0

/-- The transpose of a table of m rows and n columns. -/
def flip {α : Type} (p : Array α) (m n : Nat) (z : α) : Array α := table n m fun i j => p.getD (n * j + i) z

/-- Elements of a format in bytes. -/
def elems (f : Fmt) (bs : List Byte) : List Nat :=
  (List.range (bs.length / mxBytes f)).map fun k => leNat ((bs.drop (k * mxBytes f)).take (mxBytes f)) % 2 ^ f.width

/-- Rows of n elements of a format, a stride apart, from an address on. -/
def qRows (f : Fmt) (a : Word) (n stride : Nat) : Nat → QM (List Nat)
  | 0 => return []
  | m + 1 => do
    let bs ← qRead a (n * mxBytes f)
    let l ← qRows f (addBytes a stride) n stride m
    return elems f bs ++ l

/-- The payload codes of a leaf. -/
def QNode.codes (n : QNode) : QM (Array Nat × Array Nat) := do
  match n.typ with
  | 2 => do
    let l ← qRows n.f n.pay0 n.d 0 1
    return (l.toArray, #[])
  | 3 => do
    let u ← qRows n.f n.pay0 (n.d * n.rank) 0 1
    let v ← qRows n.f n.pay1 (n.d * n.rank) 0 1
    return (u.toArray, v.toArray)
  | 4 => do
    let l ← qRows n.f n.pay0 n.d n.stride n.d
    return (l.toArray, #[])
  | _ => return (#[], #[])

/-- Load a leaf, transposed when asked. -/
def QNode.load (n : QNode) (trans : Bool) : QM QLeaf := do
  let (c0, c1) ← n.codes
  let p0 := c0.map n.f.num
  let p1 := c1.map n.f.num
  let x : QLeaf := { typ := n.typ, rank := n.rank, scale := Fmt.f64.num n.scale.toNat, p0 := p0, p1 := p1 }
  if trans then
    match n.typ with
    | 3 => return { x with p0 := p1, p1 := p0 }
    | 4 => return { x with p0 := flip p0 n.d n.d .nan }
    | _ => return x
  else return x

/-- The content of a leaf as codes. -/
def QNode.cont (n : QNode) : QM QCont := do
  let (c0, c1) ← n.codes
  return { typ := n.typ, rank := n.rank, scale := n.scale, p0 := c0, p1 := c1 }

/-! ### Rounding (R55 to R57, R283) -/

/-- Round an exact value once to a format. -/
def rnd (f : Fmt) (x : Num) : Nat := x.sat f .rne 0

/-- Round an exact sum once. -/
def rndSum (f : Fmt) (ts : List Num) : Nat := rnd f (sumNum false ts)

/-- An element of a matrix-engine product: groups of g in ascending k, each rounded, then added (R56). -/
def meDot (f : Fmt) (g n : Nat) (term : Nat → Num) : Nat :=
  (List.range ((n + g - 1) / g)).foldl (fun acc p =>
    accStep f acc ((List.range (min g (n - p * g))).map fun q => term (p * g + q))) (f.signed true 0)

/-! ### Leaf products (R282, R283) -/

/-- A leaf times a factor, every factor folded in and each element rounded once; for LOWRANK into U alone. -/
def scaled (f : Fmt) (fac : Num) (x : QLeaf) : QCont :=
  match x.typ with
  | 1 => { typ := 1, scale := BitVec.ofNat 64 (rnd .f64 fac) }
  | 3 => { typ := 3, rank := x.rank, p0 := x.p0.map fun v => rnd f (fac.mul v), p1 := x.p1.map (rnd f) }
  | t => { typ := t, p0 := x.p0.map fun v => rnd f (fac.mul v) }

/-- The contribution of a pair of leaves of dimension d; none when the product is skipped. `neg` for a subtraction. -/
def leafProduct (f : Fmt) (g d : Nat) (neg : Bool) (a b : QLeaf) : Option QCont :=
  let fac0 := a.scale.mul b.scale
  let fac := if neg then fac0.neg else fac0
  let r := rnd f
  match a.typ, b.typ with
  | 0, _ => none
  | _, 0 => none
  | 1, _ => some (scaled f fac b)
  | _, 1 => some (scaled f fac a)
  | 2, 2 => some { typ := 2, p0 := table d 1 fun i _ => r (fac.mul ((entry a.p0 1 i 0).mul (entry b.p0 1 i 0))) }
  | 2, 3 =>
    some
      { typ := 3, rank := b.rank
        p0 := table d b.rank fun i k => r (fac.mul ((entry a.p0 1 i 0).mul (entry b.p0 b.rank i k)))
        p1 := b.p1.map r }
  | 3, 2 =>
    some
      { typ := 3, rank := a.rank
        p0 := a.p0.map fun v => r (fac.mul v)
        p1 := table d a.rank fun j k => r ((entry b.p0 1 j 0).mul (entry a.p1 a.rank j k)) }
  | 2, _ => some { typ := 4, p0 := table d d fun i j => r (fac.mul ((entry a.p0 1 i 0).mul (entry b.p0 d i j))) }
  | _, 2 => some { typ := 4, p0 := table d d fun i j => r (fac.mul ((entry a.p0 d i j).mul (entry b.p0 1 j 0))) }
  | 3, 3 =>
    let m := table a.rank b.rank fun k l => meDot f g d fun j => (entry a.p1 a.rank j k).mul (entry b.p0 b.rank j l)
    let mv := fun k l => f.num (code m b.rank k l)
    if a.rank ≤ b.rank then
      some
        { typ := 3, rank := a.rank
          p0 := a.p0.map fun v => r (fac.mul v)
          p1 := table d a.rank fun j k => rndSum f ((List.range b.rank).map fun l => (entry b.p1 b.rank j l).mul (mv k l)) }
    else
      some
        { typ := 3, rank := b.rank
          p0 := table d b.rank fun i l => rndSum f ((List.range a.rank).map fun k => fac.mul ((entry a.p0 a.rank i k).mul (mv k l)))
          p1 := b.p1.map r }
  | 3, _ =>
    some
      { typ := 3, rank := a.rank
        p0 := a.p0.map fun v => r (fac.mul v)
        p1 := table d a.rank fun j k => meDot f g d fun i => (entry b.p0 d i j).mul (entry a.p1 a.rank i k) }
  | _, 3 =>
    some
      { typ := 3, rank := b.rank
        p0 := table d b.rank fun i k => meDot f g d fun j => fac.mul ((entry a.p0 d i j).mul (entry b.p0 b.rank j k))
        p1 := b.p1.map r }
  | _, _ => some { typ := 4, p0 := table d d fun i j => meDot f g d fun k => fac.mul ((entry a.p0 d i k).mul (entry b.p0 d k j)) }

/-! ### Sums (R283, R284) -/

/-- The terms of element (i, j) of a content of dimension d. What lies outside a diagonal is +0. -/
def QCont.terms (c : QCont) (f : Fmt) (d i j : Nat) : List Num :=
  match c.typ with
  | 1 => [if i = j then Fmt.f64.num c.scale.toNat else .zero false]
  | 2 => [if i = j then f.num (code c.p0 1 i 0) else .zero false]
  | 3 => (List.range c.rank).map fun k => (f.num (code c.p0 c.rank i k)).mul (f.num (code c.p1 c.rank j k))
  | 4 => [f.num (code c.p0 d i j)]
  | _ => []

/-- The content as a dense one, each element rounded once. -/
def QCont.dense (c : QCont) (f : Fmt) (d : Nat) : QCont := { typ := 4, p0 := table d d fun i j => rndSum f (c.terms f d i j) }

/-- C with its scale folded in (R283). -/
def QCont.normal (c : QCont) (f : Fmt) : QCont :=
  if c.typ < 2 ∨ c.scale = one64 then c
  else { c with scale := one64, p0 := c.p0.map fun v => rnd f ((Fmt.f64.num c.scale.toNat).mul (f.num v)) }

/-- Rows of two LOWRANK factors side by side. -/
def beside (d r1 r2 : Nat) (p1 p2 : Array Nat) : Array Nat :=
  table d (r1 + r2) fun i k => if k < r1 then code p1 r1 i k else code p2 r2 i (k - r1)

/-- Element (i, j) of C + P in a DENSE sum; with `low` what lies above the diagonal is left as it is (R284, R305). -/
def QCont.sumAt (c p : QCont) (f : Fmt) (d : Nat) (low : Bool) (i j : Nat) : Nat :=
  if low && decide (i < j) then
    (match c.typ with
     | 4 => code c.p0 d i j
     | 0 => 0
     | _ => rndSum f (c.terms f d i j))
  else rndSum f (c.terms f d i j ++ p.terms f d i j)

/-- C + P: the content, and whether it takes a new payload (R284). With `low`, elements above the diagonal stay (R305). -/
def addCont (f : Fmt) (d : Nat) (low : Bool) (c p : QCont) : QCont × Bool :=
  if c.typ = 0 ∧ !(low && decide (3 ≤ p.typ)) then (p, decide (2 ≤ p.typ))
  else if c.typ = 1 ∧ p.typ = 1 then
    ({ typ := 1, scale := BitVec.ofNat 64 (rndSum .f64 (c.terms f d 0 0 ++ p.terms f d 0 0)) }, false)
  else if (c.typ = 1 ∨ c.typ = 2) ∧ (p.typ = 1 ∨ p.typ = 2) then
    ({ typ := 2, p0 := table d 1 fun i _ => rndSum f (c.terms f d i i ++ p.terms f d i i) }, decide (c.typ = 1))
  else if c.typ = 3 ∧ p.typ = 3 ∧ c.rank + p.rank ≤ 32 ∧ !low then
    ({ typ := 3, rank := c.rank + p.rank, p0 := beside d c.rank p.rank c.p0 p.p0, p1 := beside d c.rank p.rank c.p1 p.p1 }, true)
  else
    ({ typ := 4
       p0 := table d d (c.sumAt p f d low) },
      decide (c.typ ≠ 4))

/-! ### Committing a leaf (R284 to R286, R289) -/

/-- Codes of a format as bytes. -/
def codeBytes (f : Fmt) (l : List Nat) : List Byte := l.flatMap fun c => leBytes (mxBytes f) c

/-- Gather rows of n codes, a stride apart. -/
def payRows (f : Fmt) (p : Array Nat) (n stride : Nat) (a : Word) : List Nat → QM Unit
  | [] => return ()
  | i :: is => do
    qPay (addBytes a (stride * i)) (codeBytes f ((List.range n).map fun j => code p n i j))
    payRows f p n stride a is

/-- Bytes of a packed payload. -/
def QCont.size (c : QCont) (d e : Nat) : Nat :=
  match c.typ with
  | 2 => d * e
  | 3 => 2 * d * c.rank * e
  | 4 => d * d * e
  | _ => 0

/-- Gather a leaf's record and payload for a content: a new payload is packed, with LD 0, or, where `ld` asks for it, d·e (R304). -/
def qLeafPut (a : Word) (n : QNode) (c : QCont) (fresh : Bool) (ld : Bool := false) : QM Unit := do
  let d := n.d
  let e := n.e
  let m : QNode := { n with typ := c.typ, rank := c.rank, scale := c.scale, pay0 := 0, pay1 := 0, ld := 0 }
  if c.typ < 2 then qPut a { m with scale := if c.typ = 0 then 0 else c.scale }
  else if fresh then
    let p ← qAlloc (c.size d e)
    match c.typ with
    | 2 =>
      qPay p (codeBytes n.f c.p0.toList)
      qPut a { m with pay0 := p }
    | 3 =>
      let v := addBytes p (d * c.rank * e)
      qPay p (codeBytes n.f c.p0.toList)
      qPay v (codeBytes n.f c.p1.toList)
      qPut a { m with pay0 := p, pay1 := v }
    | _ =>
      payRows n.f c.p0 d (d * e) p (List.range d)
      qPut a { m with pay0 := p, ld := if ld then BitVec.ofNat 64 (d * e) else 0 }
  else
    match c.typ with
    | 2 =>
      qPay n.pay0 (codeBytes n.f c.p0.toList)
      qPut a { m with pay0 := n.pay0 }
    | 3 =>
      qPay n.pay0 (codeBytes n.f c.p0.toList)
      qPay n.pay1 (codeBytes n.f c.p1.toList)
      qPut a { m with pay0 := n.pay0, pay1 := n.pay1 }
    | _ =>
      payRows n.f c.p0 d n.stride n.pay0 (List.range d)
      qPut a { m with pay0 := n.pay0, ld := n.ld }

/-- The record of a result leaf with one more product counted (R285). -/
def QNode.counted (n : QNode) (first last skipped : Bool) : QNode :=
  let dn := (if first then 0 else n.done) + 1
  { n with done := dn, expect := if last then dn else 0, prov := !last && ((n.prov && !first) || !skipped) }

/-- Commit a contribution to a result leaf. -/
def qAddTo (a : Word) (p : Option QCont) (first last count low : Bool) : QM Unit := do
  let n ← qNode a
  let n := if count then n.counted first last p.isNone else n
  match p with
  | none => if count then qPut a n else return ()
  | some p =>
    let c ← n.cont
    let r := addCont n.f n.d low (c.normal n.f) p
    qLeafPut a n r.1 r.2

/-! ### Conversion (R304) -/

/-- Convert a leaf into a record of another format, or to DENSE. -/
def qConvert (n : QNode) (dst : Word) (f : Fmt) (rm : Rm) (dense : Bool) : QM Unit := do
  let m : QNode := { n with fmt := (Fmt.code f).toNat, prov := false, reg := false, inc := false, done := 0, expect := 0 }
  if dense then
    let x ← n.load false
    let d := n.d
    let el (i j : Nat) : List Num :=
      match x.typ with
      | 1 => [if i = j then x.scale else .zero false]
      | 2 => [if i = j then x.scale.mul (entry x.p0 1 i 0) else .zero false]
      | 3 => (List.range x.rank).map fun k => x.scale.mul ((entry x.p0 x.rank i k).mul (entry x.p1 x.rank j k))
      | 4 => [x.scale.mul (entry x.p0 d i j)]
      | _ => [.zero false]
    qLeafPut dst { m with typ := 4 } { typ := 4, p0 := table d d fun i j => (sumNum (decide (rm = .rdn)) (el i j)).sat f rm 0 }
      true true
  else
    let c ← n.cont
    let cv := fun v => convert n.f f rm 0 v
    qLeafPut dst m { c with p0 := c.p0.map cv, p1 := c.p1.map cv } true true

/-! ### Triangular solves (R306, R308) -/

/-- Element (i, j) of a leaf's content, scale included. -/
def QLeaf.elem (x : QLeaf) (d i j : Nat) : Num :=
  match x.typ with
  | 0 => .zero false
  | 1 => if i = j then x.scale else .zero false
  | 2 => if i = j then x.scale.mul (entry x.p0 1 i 0) else .zero false
  | 3 => sumNum false ((List.range x.rank).map fun k => x.scale.mul ((entry x.p0 x.rank i k).mul (entry x.p1 x.rank j k)))
  | _ => x.scale.mul (entry x.p0 d i j)

/-- A division rounded once, as FDIV of R83 under RNE. -/
def divRnd (f : Fmt) (a b : Num) : Nat := (a.div b).arith f .rne 0

/-- One column of a triangular system: pivot k, then every element that depends on it, each update exact and rounded once. -/
def solveStep (f : Fmt) (t : Nat → Nat → Num) (unit : Bool) (v : Array Nat) (k : Nat) (rest : List Nat) : Array Nat :=
  let x := if unit then v.getD k 0 else divRnd f (f.num (v.getD k 0)) (t k k)
  rest.foldl (fun v i => v.setIfInBounds i (rndSum f [f.num (v.getD i 0), ((t i k).mul (f.num x)).neg])) (v.setIfInBounds k x)

/-- Solve a triangular system of dimension d for one column: pivots in ascending order below a lower triangle, in descending
order above an upper one. -/
def solveCol (f : Fmt) (d : Nat) (t : Nat → Nat → Num) (upper unit : Bool) (v : Array Nat) : Array Nat :=
  if upper then
    (List.range d).foldl (fun v q =>
      let k := d - 1 - q
      solveStep f t unit v k (List.range k)) v
  else (List.range d).foldl (fun v k => solveStep f t unit v k ((List.range d).filter fun i => k < i)) v

/-- Columns of a table of n columns solved one by one. -/
def solveTable (f : Fmt) (d n : Nat) (t : Nat → Nat → Num) (upper unit : Bool) (p : Array Nat) : Array Nat :=
  let cols := (List.range n).map fun j => solveCol f d t upper unit ((List.range d).map fun i => code p n i j).toArray
  table d n fun i j => (cols.getD j #[]).getD i 0

/-- X with op(T)·X = B, or X·op(T) = B when `right`, on leaves: the content and whether it takes a new payload. -/
def solveLeaf (f : Fmt) (d : Nat) (t : QLeaf) (upper unit right : Bool) (b : QCont) : QCont × Bool :=
  let tt (i j : Nat) : Num := if unit && decide (i = j) then .real { m := 1, e := 0 } else if right then t.elem d j i else t.elem d i j
  let up := if right then !upper else upper
  if b.typ = 0 then (b, false)
  else if b.typ = 1 ∧ (t.typ = 1 ∨ (unit ∧ t.typ ≤ 2)) then
    ({ b with scale := if unit then b.scale else BitVec.ofNat 64 (divRnd .f64 (Fmt.f64.num b.scale.toNat) t.scale) }, false)
  else if (b.typ = 1 ∨ b.typ = 2) ∧ t.typ ≤ 2 then
    ({ typ := 2
       p0 := table d 1 fun i _ => if unit then rndSum f (b.terms f d i i) else divRnd f (sumNum false (b.terms f d i i)) (tt i i) },
      decide (b.typ = 1))
  else if b.typ = 3 then
    (if right then { b with p1 := solveTable f d b.rank tt up unit b.p1 } else { b with p0 := solveTable f d b.rank tt up unit b.p0 }, false)
  else
    let x := if b.typ = 4 then b else b.dense f d
    let p := if right then flip x.p0 d d 0 else x.p0
    let q := solveTable f d d tt up unit p
    ({ x with p0 := if right then flip q d d 0 else q }, decide (b.typ ≠ 4))

/-! ### Factors (R291, R305) -/

/-- A leaf being factorised: the codes, the replaced pivots, and whether it broke down. -/
structure QFac where
  p : Array Nat
  piv : List Nat := []
  broken : Bool := false

/-- A pivot after the rules of R291: its value, and whether it was replaced; none at a breakdown, which a pivot of zero, or with Cholesky
one that is not positive, is only with τ = 0. DEDUCED, log entry 25. -/
def pivotOf (f : Fmt) (lu : Bool) (thr : Num × Bool) (p : Num) : Option (Num × Bool) :=
  let none? := thr.2
  let thr := thr.1
  let small :=
    if lu then (match p with | .nan => false | .inf _ => false | _ => (if p.neg? then p.neg else p).lt thr) else p.lt thr
  let minus := match p with | .real x => lu && decide (x.m < 0) | _ => false
  let q : Num := if small then f.num (rnd f (if minus then thr.neg else thr)) else p
  match q with
  | .nan => none
  | .zero _ => if none? then none else some (q, small)
  | _ => if none? && !lu && q.neg? then none else some (q, small)

/-- Pivot k of a dense leaf: its column, its row for LU, and every element that depends on it. -/
def facStep (f : Fmt) (d : Nat) (lu : Bool) (thr : Num × Bool) (row : Nat) (x : QFac) (k : Nat) : QFac :=
  if x.broken then x
  else
    match pivotOf f lu thr (f.num (code x.p d k k)) with
    | none => { x with broken := true }
    | some (q, rep) =>
      let dk := if lu then rnd f q else (q.sqrt).arith f .rne 0
      let below := (List.range d).filter fun i => k < i
      let p := x.p.setIfInBounds (d * k + k) dk
      let p := below.foldl (fun p i => p.setIfInBounds (d * i + k) (divRnd f (f.num (code p d i k)) (f.num dk))) p
      let upd (i j : Nat) : Bool := lu || decide (j ≤ i)
      let p := below.foldl (fun p i =>
        below.foldl (fun p' j =>
          if upd i j then
            let l := f.num (code p d i k)
            let u := if lu then f.num (code p d k j) else f.num (code p d j k)
            p'.setIfInBounds (d * i + j) (rndSum f [f.num (code p d i j), (l.mul u).neg])
          else p') p) p
      { x with p := p, piv := if rep then x.piv ++ [row + k] else x.piv }

/-- Pivot k of a diagonal. -/
def facDiag (f : Fmt) (lu : Bool) (thr : Num × Bool) (row : Nat) (x : QFac) (k : Nat) : QFac :=
  if x.broken then x
  else
    match pivotOf f lu thr (f.num (x.p.getD k 0)) with
    | none => { x with broken := true }
    | some (q, rep) =>
      { x with
        p := x.p.setIfInBounds k (if lu then rnd f q else (q.sqrt).arith f .rne 0)
        piv := if rep then x.piv ++ [row + k] else x.piv }

/-- Factorise a leaf: its content, whether it takes a new payload, the replaced pivots and a breakdown. -/
def facLeaf (f : Fmt) (d : Nat) (lu : Bool) (thr : Num × Bool) (row : Nat) (c : QCont) : QCont × Bool × List Nat × Bool :=
  match c.typ with
  | 0 | 1 =>
    let s := if c.typ = 0 then 0 else c.scale.toNat
    (match pivotOf .f64 lu thr (Fmt.f64.num s) with
     | none => (c, false, [], true)
     | some (q, rep) =>
       ({ typ := 1, scale := BitVec.ofNat 64 (if lu then rnd .f64 q else (q.sqrt).arith .f64 .rne 0) }, false,
         (if rep then span row d else []), false))
  | 2 =>
    let x := (List.range d).foldl (facDiag f lu thr row) { p := c.p0 }
    ({ c with p0 := x.p }, false, x.piv, x.broken)
  | _ =>
    let y := if c.typ = 4 then c else c.dense f d
    let x := (List.range d).foldl (facStep f d lu thr row) { p := y.p0 }
    ({ y with p0 := x.p }, decide (c.typ ≠ 4), x.piv, x.broken)

/-- Magnitude of a value, none for NaN. -/
def numMag : Num → Num
  | .nan => .zero false
  | x => if x.neg? then x.neg else x

/-- The larger of two magnitudes. -/
def numLarger (a b : Num) : Num := if a.lt b then b else a

/-- The largest magnitude on the diagonal of a tree, `n` levels left (R291). -/
def qScale (r : QRef) : Nat → QM Num
  | 0 => return .zero false
  | n + 1 => do
    let x ← r.view
    if x.typ = 5 then
      let a ← r.kid 0
      let b ← r.kid 3
      let m0 ← qScale a n
      let m1 ← qScale b n
      return numLarger m0 m1
    else
      let l ← x.load r.trans
      return (List.range x.d).foldl (fun m i => numLarger m (numMag (l.elem x.d i i))) (.zero false)

end Sys2Proof.Machine
end

