-- ==== Sys2Proof/Machine/QtRun.lean ====
section
/-! DEFINITION. What a quadtree command does, leaf operation by leaf operation (R280, R285, R291, R292, R302 to R308). -/

namespace Sys2Proof.Machine

/-! ### Fields of a command (R297, R298) -/

/-- Dword k of the block, k = 1 at offset 0x08. -/
def QtCmd.param (c : QtCmd) (k : Nat) : Word := c.params.getD (k - 1) 0
/-- HOOD. -/
def QtCmd.hood (c : QtCmd) : Word := c.param 1
/-- OP0 to OP4. -/
def QtCmd.op? (c : QtCmd) (k : Nat) : Word := c.param (2 + k)
/-- CTL. -/
def QtCmd.ctl (c : QtCmd) : Word := c.param 7
/-- TOL as a number. -/
def QtCmd.tol (c : QtCmd) : Num := Fmt.f64.num (c.param 8).toNat
/-- TAU as a number. -/
def QtCmd.tau (c : QtCmd) : Num := Fmt.f64.num (c.param 9).toNat
/-- COUNT. -/
def QtCmd.count (c : QtCmd) : Nat := (c.param 10).toNat
/-- CTL.LU. -/
def QtCmd.lu (c : QtCmd) : Bool := bit c.ctl 4
/-- CTL.METHOD is refinement. -/
def QtCmd.refine (c : QtCmd) : Bool := decide (bits c.ctl 6 5 = 1)
/-- CTL.REFACT. -/
def QtCmd.refact (c : QtCmd) : Bool := bit c.ctl 7
/-- The MAJOR of a command. -/
def qMajor (op : Nat) : Nat := 0xC0 + op
/-- QFACT or QSOLVE. -/
def QtCmd.solver (c : QtCmd) : Bool := decide (c.op = 3) || decide (c.op = 5)
/-- The crown of the factor that a command makes. -/
def QtCmd.crown (c : QtCmd) : Word := if c.op = 3 then c.op? 0 else c.op? 1

/-- A reference to a record. -/
def atRec (a : Word) : QRef := { node := a }

/-! ### Vectors (R307, R308) -/

/-- The vector format: FP64 when A's format is FP64, else FP32. -/
def qVecFmt : QM Fmt := do
  let o ← get
  let a ← qNode (o.c.op? 0)
  return if a.f = .f64 then .f64 else .f32

/-- The dimension of A. -/
def qDim : QM Nat := do
  let o ← get
  let a ← qNode (o.c.op? 0)
  return a.d

/-- The address of a vector of the workspace: 0 r, 1 p, 2 q, 3 z, 4 xbest. -/
def qWork (k : Nat) : QM Word := do
  let o ← get
  let f ← qVecFmt
  let d ← qDim
  return addBytes (o.c.op? 4) (k * d * mxBytes f)

/-- Read a whole vector. -/
def qVec (a : Word) : QM (List Nat) := do
  let f ← qVecFmt
  let d ← qDim
  qRows f a d 0 1

/-- Gather a whole vector. -/
def qVecPut (a : Word) (l : List Nat) : QM Unit := do
  let f ← qVecFmt
  qPay a (codeBytes f l)

/-- x + k·y, each element exact and rounded once. -/
def axpy (f : Fmt) (k : Num) (x y : List Nat) : List Nat := (x.zip y).map fun p => rndSum f [f.num p.1, k.mul (f.num p.2)]

/-- A dot product, exact and rounded once to FP64. -/
def dot (f : Fmt) (x y : List Nat) : Nat := rndSum .f64 ((x.zip y).map fun p => (f.num p.1).mul (f.num p.2))

/-- A two-norm, exact and rounded once to FP64. -/
def norm (f : Fmt) (x : List Nat) : Nat := rnd .f64 (sumNum false (x.map fun c => (f.num c).mul (f.num c))).sqrt

/-- An FP64 code as a number. -/
def num64 (w : Word) : Num := Fmt.f64.num w.toNat

/-! ### Solver stages (R292, R308) -/

/-- Change the run. -/
def qRunSet (f : QtRun → QtRun) : QM Unit := modify fun o => { o with run := f o.run }

/-- The solver ends with a reason: x holds the best iterate (R292), which is given. -/
def qSolvedAs (best : List Nat) (reason : Nat) : QM (List QTask) := do
  let o ← get
  qVecPut (o.c.op? 3) best
  qRunSet fun r => { r with closed := true, reason := reason }
  return []

/-- The solver ends with a reason and the best iterate that the workspace holds. -/
def qSolved (reason : Nat) : QM (List QTask) := do
  let w ← qWork 4
  let best ← qVec w
  qSolvedAs best reason

/-- The tasks of the preconditioner or the correction solve on z (R307). -/
def qSolveZ : QM (List QTask) := do
  let o ← get
  let z ← qWork 3
  let a := atRec (o.c.op? 1)
  if o.c.op? 1 = 0 then return []
  else if o.c.refine && o.c.lu then return [.tsv a z false true, .tsv a z true false]
  else return [.tsv a z false false, .tsv { a with trans := true } z false false]

/-- q := A·v as tasks. -/
def qTimes (v : Word) : QM (List QTask) := do
  let o ← get
  let q ← qWork 2
  return [.stage 9, .mv (atRec (o.c.op? 0)) v q false true 0 0]

/-- What follows an iterate that is not the last: 0 after iterate 0, 2 after a step of CG, 6 after one of a refinement. -/
def qGoOn (n : Nat) : QM (List QTask) := do
  let o ← get
  if o.c.refine then
    if n = 0 ∧ o.c.refact then
      let f := Fmt.ofCode (BitVec.ofNat 4 (bits o.c.ctl 15 12))
      return [.conv (atRec (o.c.op? 0)) (o.c.op? 1) f .rne false, .factorise (o.c.op? 1) o.c.lu, .stage 4]
    else return [.stage 4]
  else
    let pre ← qSolveZ
    return [.stage 11] ++ pre ++ [.stage (if n = 0 then 1 else 3)]

/-- An iterate's residual r has been formed: best iterate, convergence, the iteration limit. The tasks that go on are given. -/
def qJudge (n : Nat) : QM (List QTask) := do
  let o ← get
  let f ← qVecFmt
  let ra ← qWork 0
  let r ← qVec ra
  let w ← qWork 4
  let nm := norm f r
  let nn := num64 (BitVec.ofNat 64 nm)
  let better := !o.run.begun || nn.lt (num64 o.run.best) || (decide (num64 o.run.best = .nan) && !decide (nn = .nan))
  let best ← qVec (if better then o.c.op? 3 else w)
  if better then
    qVecPut w best
    qRunSet fun r => { r with best := BitVec.ofNat 64 nm }
  let late := o.run.late && !o.run.begun
  qRunSet fun r => { r with begun := true }
  let goal := o.c.tol.mul (num64 o.run.bnorm)
  if late then qSolvedAs best 2
  else if !decide (nn = .nan) && !decide (goal = .nan) && !goal.lt nn then qSolvedAs best 1
  else if o.c.count ≤ o.run.iter then qSolvedAs best 3
  else qGoOn n

/-- A stage of QSOLVE: what it writes is committed before the next one. Stages 20, 22 and 26 judge an iterate. -/
def qStage (n : Nat) : QM (List QTask) := do
  let o ← get
  let f ← qVecFmt
  let d ← qDim
  let ra ← qWork 0
  let pa ← qWork 1
  let qa ← qWork 2
  let za ← qWork 3
  let xa := o.c.op? 3
  match n with
  -- r := b − A·x of iterate 0
  | 0 =>
    let b ← qVec (o.c.op? 2)
    let q ← qVec qa
    qVecPut ra (axpy f (.real { m := -1, e := 0 }) b q)
    qRunSet fun x => { x with bnorm := BitVec.ofNat 64 (norm f b) }
    return [.stage 20]
  -- p := z and r·z
  | 1 =>
    let r ← qVec ra
    let z ← qVec za
    qVecPut pa z
    qRunSet fun x => { x with rz := BitVec.ofNat 64 (dot f r z) }
    let l ← qTimes pa
    return l ++ [.stage 2]
  -- the step along p
  | 2 =>
    let p ← qVec pa
    let q ← qVec qa
    let pq := num64 (BitVec.ofNat 64 (dot f p q))
    if decide (pq = .nan) || !(Num.zero false).lt pq then qSolved 4
    else
      let al := num64 (BitVec.ofNat 64 (divRnd .f64 (num64 o.run.rz) pq))
      let x ← qVec xa
      let r ← qVec ra
      qVecPut xa (axpy f al x p)
      qVecPut ra (axpy f al.neg r q)
      qRunSet fun x => { x with iter := x.iter + 1 }
      return [.stage 22]
  -- the next direction
  | 3 =>
    let r ← qVec ra
    let z ← qVec za
    let p ← qVec pa
    let rz := BitVec.ofNat 64 (dot f r z)
    let be := num64 (BitVec.ofNat 64 (divRnd .f64 (num64 rz) (num64 o.run.rz)))
    qVecPut pa (axpy f be z p)
    qRunSet fun x => { x with rz := rz }
    let l ← qTimes pa
    return l ++ [.stage 2]
  -- the correction of a refinement
  | 4 =>
    let r ← qVec ra
    qVecPut za r
    let l ← qSolveZ
    return l ++ [.stage 5]
  | 5 =>
    let x ← qVec xa
    let z ← qVec za
    qVecPut xa (axpy f (.real { m := 1, e := 0 }) x z)
    qRunSet fun x => { x with iter := x.iter + 1 }
    let l ← qTimes xa
    return l ++ [.stage 6]
  | 6 =>
    let b ← qVec (o.c.op? 2)
    let q ← qVec qa
    qVecPut ra (axpy f (.real { m := -1, e := 0 }) b q)
    return [.stage 26]
  | 8 => qTimes xa
  -- q before any contribution: an element that gets none is +0
  | 9 =>
    qVecPut qa (List.replicate d 0)
    return []
  -- z := r
  | 11 =>
    let r ← qVec ra
    qVecPut za r
    return []
  | n => qJudge (n - 20)

/-! ### Tasks -/

/-- Quadrants (i, j) of a result, row-major. -/
def quads : List (Nat × Nat) := [(0, 0), (0, 1), (1, 0), (1, 1)]

/-- The four children of a reference. -/
def QRef.kids (r : QRef) : QM (List QRef) := do
  let a ← r.kid 0
  let b ← r.kid 1
  let c ← r.kid 2
  let d ← r.kid 3
  return [a, b, c, d]

/-- The eight products of a split, k ascending within each quadrant (R280). -/
def prodKids (a b : List QRef) (c : List Word) (first last neg count low : Bool) : List QTask :=
  quads.flatMap fun (i, j) =>
    if low && decide (i = 0) && decide (j = 1) then []
    else [0, 1].map fun k =>
      .prod (a.getD (2 * i + k) {}) (b.getD (2 * k + j) {}) (c.getD (2 * i + j) 0) (first && decide (k = 0)) (last && decide (k = 1)) neg
        count (low && decide (i = j))

/-- The steps of a triangular solve on quadrants, in row-major order of the quadrants of B as far as their dependence allows (R306): those
that T's first diagonal quadrant solves, and of the others each its update and its solve. DEDUCED, log entry 25. -/
def trsmKids (t : List QRef) (b : List Word) (upper unit right trans count fresh : Bool) : List QTask :=
  let eff := upper ^^ trans
  let first := if eff ^^ right then 1 else 0
  let second := 1 - first
  let t0 := t.getD (3 * first) {}
  let t1 := t.getD (3 * second) {}
  let off := t.getD (if right then 2 * first + second else 2 * second + first) {}
  let bq (k m : Nat) : Word := b.getD (if right then 2 * m + k else 2 * k + m) 0
  let head (m : Nat) : List QTask := [.trsm t0 (bq first m) upper unit right count fresh]
  let rest (m : Nat) : List QTask :=
    [if right then .prod (atRec (bq first m)) off (bq second m) fresh false true count false
     else .prod off (atRec (bq first m)) (bq second m) fresh false true count false,
     .trsm t1 (bq second m) upper unit right count false]
  if right then [0, 1].flatMap fun m => head m ++ rest m else [0, 1].flatMap head ++ [0, 1].flatMap rest

/-- The record of a leaf that a triangular solve has solved: no further product reaches it (R285). -/
def QNode.solved (n : QNode) (count fresh : Bool) : QNode := if count && !fresh then { n with expect := n.done, prov := false } else n

/-- The pivot threshold τ·scale, and whether τ is 0. -/
def QOp.threshold (o : QOp) : Num × Bool :=
  let scale : Num :=
    if o.run.scaleInf then .inf false else if o.run.scaleM = 0 then .zero false else .real { m := o.run.scaleM, e := o.run.scaleE }
  (o.c.tau.mul scale, match o.c.tau with | .zero _ => true | _ => false)

/-- Pivots have been replaced in a leaf (R291): the count, the log, and REGULARISED on the leaf and the crown. -/
def qPivots (leaf : Word) (l : List Nat) : QM Unit := do
  if l.isEmpty then return ()
  else
    let o ← get
    qRunSet fun r => { r with piv := r.piv + l.length, pivlog := (r.pivlog ++ l).take 16 }
    let n ← qNode leaf
    qPut leaf { n with reg := true }
    let c ← qNode o.c.crown
    qPut o.c.crown { c with reg := true }

/-- The factor is flagged INCOMPLETE (R291). -/
def qIncomplete : QM Unit := do
  let o ← get
  let c ← qNode o.c.crown
  qPut o.c.crown { c with inc := true }

/-- Which of n rows of a matrix, from a row on, have a leaf other than ZERO that begins left of a column; k levels are left. Rows and
column count from the node. -/
def qHas (r : QRef) (row n col : Nat) : Nat → QM (List Bool)
  | 0 => return List.replicate n false
  | k + 1 => do
    let x ← r.view
    if col = 0 ∨ n = 0 then return List.replicate n false
    else if x.leaf then return List.replicate n (decide (x.typ ≠ 0))
    else
      let h := x.d / 2
      let up := min n (h - row)
      let part (i m from? : Nat) : QM (List Bool) := do
        let a ← r.kid (2 * i)
        let b ← r.kid (2 * i + 1)
        let l ← qHas a from? m (min col h) k
        let l' ← qHas b from? m (col - h) k
        return (l.zip l').map fun p => p.1 || p.2
      let top ← part 0 up row
      let low ← part 1 (n - up) (row + up - h)
      return top ++ low

/-- One task: its parts when it is not a leaf operation, else its leaf operation. -/
def qTask (t : QTask) : QM (Option (List QTask)) := do
  match t with
  | .prod a b c first last neg count low =>
    let x ← a.view
    let y ← b.view
    let z ← qNode c
    if x.leaf && y.leaf && z.leaf then
      let p ←
        if x.typ = 0 ∨ y.typ = 0 then pure none
        else do
          let l ← x.load a.trans
          let m ← y.load b.trans
          pure (leafProduct z.f (mxGroup x.f) z.d neg l m)
      qAddTo c p first last count low
      return none
    else
      let kc ← qSplit c
      let ka ← a.kids
      let kb ← b.kids
      return some (prodKids ka kb kc first last neg count low)
  | .add a c =>
    let x ← a.view
    let z ← qNode c
    if x.leaf && z.leaf then
      let p ← if x.typ = 0 then pure none else do
        let l ← x.load false
        pure (some (scaled z.f l.scale l))
      qAddTo c p true true true false
      return none
    else
      let kc ← qSplit c
      let ka ← a.kids
      return some ((ka.zip kc).map fun p => .add p.1 p.2)
  | .conv a dst f rm dense =>
    let x ← a.view
    if x.leaf then
      qConvert x dst f rm dense
      return none
    else
      let k0 ← qAlloc 64
      let k1 ← qAlloc 64
      let k2 ← qAlloc 64
      let k3 ← qAlloc 64
      let kids := [k0, k1, k2, k3]
      qPut dst { x with fmt := (Fmt.code f).toNat, kids := kids, prov := false, reg := false, inc := false, done := 0, expect := 0 }
      let ka ← a.kids
      return some ((ka.zip kids).map fun p => .conv p.1 p.2 f rm dense)
  | .factorise c lu =>
    let m ← qScale (atRec c) 17
    match m with
    | .real x => qRunSet fun r => { r with scaleM := x.m.natAbs, scaleE := x.e, scaleInf := false }
    | m => qRunSet fun r => { r with scaleM := 0, scaleE := 0, scaleInf := decide (m = .inf false) }
    return some [.factor c lu 0]
  | .factor c lu row =>
    let n ← qNode c
    if n.leaf then
      let x ← n.cont
      let o ← get
      let y := facLeaf n.f n.d lu o.threshold row (x.normal n.f)
      if y.2.2.2 then
        qPivots c y.2.2.1
        qIncomplete
        if o.c.op = 5 then
          let _ ← qSolved 4
        else qRunSet fun r => { r with closed := true, reason := 4 }
      else
        qLeafPut c n y.1 y.2.1
        qPivots c y.2.2.1
      return none
    else
      let k (q : Nat) : Word := n.kids.getD q 0
      let schur : QTask :=
        .prod (atRec (k 2)) (if lu then atRec (k 1) else { atRec (k 2) with trans := true }) (k 3) true true true false (!lu)
      let mid : List QTask :=
        if lu then [.trsm (atRec (k 0)) (k 1) false true false false true, .trsm (atRec (k 0)) (k 2) true false true false true]
        else [.trsm { atRec (k 0) with trans := true } (k 2) false false true false true]
      return some ([.factor (k 0) lu row] ++ mid ++ [schur, .factor (k 3) lu (row + n.d / 2)])
  | .trsm t b upper unit right count fresh =>
    let x ← t.view
    let n ← qNode b
    if x.leaf && n.leaf then
      let l ← x.load t.trans
      let c ← n.cont
      let n := n.solved count fresh
      let r := solveLeaf n.f n.d l (upper ^^ t.trans) unit right (c.normal n.f)
      qLeafPut b n r.1 r.2
      return none
    else
      let kb ← qSplit b
      let kt ← t.kids
      return some (trsmKids kt kb upper unit right t.trans count fresh)
  | .mv a v out neg sum row col =>
    let x ← a.view
    let f ← qVecFmt
    let h := x.d / 2 * mxBytes f
    if x.leaf then
      if x.typ = 0 then return none
      else
        let l ← x.load a.trans
        let vs ← qRows f v x.d 0 1
        let os ← qRows f out x.d 0 1
        let o ← get
        let has ← if sum then qHas (atRec (o.c.op? 0)) row x.d col 17 else pure (List.replicate x.d true)
        let va := vs.toArray
        let term (i : Nat) : Num :=
          let c := f.num (rndSum f ((List.range x.d).map fun j => (l.elem x.d i j).mul (f.num (va.getD j 0))))
          if neg then c.neg else c
        qPay out (codeBytes f (os.zipIdx.map fun p =>
          rndSum f (if has.getD p.2 true then [f.num p.1, term p.2] else [term p.2])))
        return none
    else
      let ka ← a.kids
      return some (quads.map fun (i, j) =>
        .mv (ka.getD (2 * i + j) {}) (addBytes v (j * h)) (addBytes out (i * h)) neg sum (row + i * (x.d / 2)) (col + j * (x.d / 2)))
  | .tsv t v upper unit =>
    let x ← t.view
    let f ← qVecFmt
    let h := x.d / 2 * mxBytes f
    let eff := upper ^^ t.trans
    if x.leaf then
      let l ← x.load t.trans
      let vs ← qRows f v x.d 0 1
      let tt (i j : Nat) : Num := l.elem x.d i j
      qPay v (codeBytes f (solveCol f x.d tt eff unit vs.toArray).toList)
      return none
    else
      let kt ← t.kids
      let first := if eff then 1 else 0
      let second := 1 - first
      return some
        [.tsv (kt.getD (3 * first) {}) (addBytes v (first * h)) upper unit,
         .mv (kt.getD (2 * second + first) {}) (addBytes v (first * h)) (addBytes v (second * h)) true false 0 0,
         .tsv (kt.getD (3 * second) {}) (addBytes v (second * h)) upper unit]
  | .stage n =>
    let l ← qStage n
    return some l

/-- Take tasks apart until a leaf operation has been performed, or a stage is due; at most n of them. What is left, and whether a leaf
operation has been performed. -/
def qNext : Nat → List QTask → QM (List QTask × Bool)
  | 0, l => return (l, false)
  | _, [] => return ([], false)
  | _, .stage k :: l => return (.stage k :: l, false)
  | n + 1, t :: l => do
    match ← qTask t with
    | some sub =>
      let o ← get
      if o.run.closed then return ([], false) else qNext n (sub ++ l)
    | none =>
      let o ← get
      return (if o.run.closed then [] else l, true)

/-- The tasks of a command at a fresh start. -/
def QtCmd.tasks (c : QtCmd) : List QTask :=
  match c.op with
  | 0 => [.prod (atRec (c.op? 0)) (atRec (c.op? 1)) (c.op? 2) true true false true false]
  | 1 => [.add (atRec (c.op? 0)) (c.op? 2)]
  | 2 => [.conv (atRec (c.op? 0)) (c.op? 2) c.fmt c.rm (bit c.ctl 8)]
  | 3 => [.factorise (c.op? 0) c.lu]
  | 4 => [.trsm { node := c.op? 0, trans := bit c.ctl 1 } (c.op? 1) (bit c.ctl 0) (bit c.ctl 3) (bit c.ctl 2) true true]
  | _ => [.stage 8, .stage 0]

end Sys2Proof.Machine
end

