-- ==== Sys2Proof/Machine/Quadtree.lean ====
section
/-! DEFINITION. The quadtree instructions, and the start, commits, parks and ends of quadtree commands (R279, R286 to R290, R292, R294 to
R312). -/

namespace Sys2Proof.Machine

/-! ### Issue (R297 to R299) -/

/-- Offsets whose dwords a form must leave zero, as indices of the copied block (index 1 at 0x08). -/
def qZero : Nat → List Nat
  | 0 => [5, 6, 7, 8, 9, 10]
  | 1 => [3, 5, 6, 7, 8, 9, 10]
  | 2 => [3, 5, 6, 8, 9, 10]
  | 3 => [3, 4, 5, 6, 8, 10]
  | 4 => [4, 5, 6, 8, 9, 10]
  | _ => []

/-- Offsets that hold a crown or a record. -/
def qRecords : Nat → List Nat
  | 0 => [2, 3, 4]
  | 1 => [2, 4]
  | 2 => [2, 4]
  | 3 => [2]
  | 4 => [2, 3]
  | _ => [2, 3]

/-- The bits of CTL that a form uses. -/
def qCtlMask : Nat → Nat
  | 2 => 0x100
  | 3 => 0x10
  | 4 => 0xF
  | 5 => 0xF0F0
  | _ => 0

/-- A TOL or TAU that R297 refuses: a NaN or a negative number; −0 counts as 0. -/
def badPositive (w : Word) : Bool :=
  match num64 w with
  | .nan => true
  | .zero _ => false
  | x => x.neg?

/-- Dword k of a block is 0 as R297 asks; in TOL and TAU −0 counts as 0. -/
def zeroParam (k : Nat) (w : Word) : Bool := decide (w = 0) || (decide (8 ≤ k ∧ k ≤ 9) && decide (w = 0x8000000000000000))

/-- A copied block breaks R297 or R298. -/
def badParams (op : Nat) (noPool : Bool) (p : List Word) : Bool :=
  let w (k : Nat) : Word := p.getD (k - 1) 0
  let c : QtCmd := { op := op, params := p }
  decide (c.hood.toNat % 64 ≠ 0)
    || ((qZero op).any fun k => !zeroParam k (w k))
    || ((span 11 5).any fun k => decide (w k ≠ 0))
    || ((qRecords op).any fun k => decide ((w k).toNat % 64 ≠ 0))
    || decide (c.ctl.toNat &&& qCtlMask op ≠ c.ctl.toNat)
    || badPositive (w 8) || badPositive (w 9)
    || (decide (op = 5)
        && (decide (2 ≤ bits c.ctl 6 5) || decide (2 ^ 32 ≤ c.count)
            || (if c.refine then decide (c.op? 1 = 0) else c.refact || c.lu)
            || (if c.refact then decide (bits c.ctl 15 12 ≠ 4) && decide (bits c.ctl 15 12 ≠ 5)
                else decide (bits c.ctl 15 12 ≠ 0) || !zeroParam 9 (w 9))
            || (c.refact && noPool)))

/-- Change the quadtree engine of a die. -/
def State.modQt (s : State) (die : Nat) (f : Quadtree → Quadtree) : State :=
  { s with qt := s.qt.set (die % 4) (f s.qt[die % 4]) (Nat.mod_lt _ (by decide)) }

/-- The quadtree engine of a die. -/
def State.qtOf (s : State) (die : Nat) : Quadtree := s.qt.toList.getD (die % 4) {}

/-- The checks of the tree and pool capabilities (R299). -/
def qCapCheck (s : State) (b : Val) (c : Option Val) : Option (Nat × Word) :=
  match capTrap s b b.addr.toNat 1 permR with
  | some p => some p
  | none =>
    if b.space ≠ 2 then some (Cause.capPerm, b.addr)
    else
      match c with
      | none => none
      | some c =>
        match capTrap s c c.addr.toNat 64 (permR ||| permW) with
        | some p => some p
        | none =>
          if c.space ≠ 2 then some (Cause.capPerm, c.addr)
          else if c.addr.toNat % 64 ≠ 0 then some (Cause.align, c.addr)
          else none

/-- QIssue (R299) on the values of the operands. -/
def qIssueBody (s : State) (i : Instr) (op : Nat) (f : Fmt) (rm : Rm) (a b : Val) (c : Option Val) : Acc Done :=
  let blk := a.addr
  match blockCheck s a with
  | some (k, w) => .trap k w
  | none =>
    match qCapCheck s b c with
    | some (k, w) => .trap k w
    | none =>
      (blockRead s i a 15).andThen fun (p, s) =>
        if badParams op c.isNone p then .trap Cause.qshape blk
        else
          match atRelease s i 0x0F ([a, b] ++ c.toList) id with
          | some s' => .leave s'
          | none =>
            let die := dieOf (unitOf s.cur)
            let off := blk.toNat % 2 ^ 20
            if s.followOnly true then .ok { s := s.engMark s.cur (unitOf s.cur) off }
            else if 16 ≤ (s.qtOf die).queue.length then
              (if s.me.arch.status.form then .trap Cause.timingDeviation blk else queueWait s i)
            else if s.asyncFull s.cur then .wait .waitMem
            else
              (s.nearRead i a blk off 8).andThen fun g =>
                let s := g.s.engMark g.s.cur (unitOf g.s.cur) off
                let x := s.me
                let dl := x.arch.deadline
                let cmd : QtCmd :=
                  { op := op, tile := unitOf s.cur, thread := s.cur, inst := x.inst, sheet := x.sheet, block := off, params := p, fmt := f,
                    rm := rm, tree := b, pool := c, deadline := dl, late := decide (dl.toNat ≤ s.tstamp.toNat), part := s.partOf (unitOf s.cur),
                    pasid := s.pasidOf s.cur, form := x.arch.status.form, epoch := x.epoch,
                    lead := s.leadOnly true }
                .ok { s := s.modQt die fun q => { q with queue := q.queue ++ [cmd] } }

/-- A command form. -/
def qForm (s : State) (i : Instr) (op : Nat) (f : Fmt) (rm : Rm) (a b : Reg) (c : RegZ) : State :=
  match c with
  | .reg c =>
    issue s i [.reg a, .reg b, .reg c] [] .none fun ws _ s => qIssueBody s i op f rm (arg ws 0) (arg ws 1) (some (arg ws 2))
  | .zero => issue s i [.reg a, .reg b] [] .none fun ws _ s => qIssueBody s i op f rm (arg ws 0) (arg ws 1) none

/-- QMUL (R302). -/
def execQmul (a b c : Reg) (s : State) : Out := fin s (qForm s (.qmul a b c) 0 .f32 .rne a b (.reg c))

/-- QADD (R303). -/
def execQadd (a b c : Reg) (s : State) : Out := fin s (qForm s (.qadd a b c) 1 .f32 .rne a b (.reg c))

/-- QCONV (R304). -/
def execQconv (f : Fmt) (rm : Rm) (a b c : Reg) (s : State) : Out := fin s (qForm s (.qconv f rm a b c) 2 f rm a b (.reg c))

/-- QFACT (R305). -/
def execQfact (a b c : Reg) (s : State) : Out := fin s (qForm s (.qfact a b c) 3 .f32 .rne a b (.reg c))

/-- QTRSM (R306). -/
def execQtrsm (a b c : Reg) (s : State) : Out := fin s (qForm s (.qtrsm a b c) 4 .f32 .rne a b (.reg c))

/-- QSOLVE (R307). -/
def execQsolve (a b : Reg) (c : RegZ) (s : State) : Out := fin s (qForm s (.qsolve a b c) 5 .f32 .rne a b c)

/-! ### QSTAT, QNODE and QPOOL (R309 to R311) -/

/-- A command holds the hood of an address. -/
def QtCmd.holds (c : QtCmd) (part pasid : Nat) (a : Word) : Bool :=
  decide (c.part = part) && decide (c.pasid = pasid) && decide (c.hood = a)

/-- What QSTAT answers to a thread of a tile about the hood at an address (R309). -/
def State.qstatValue (s : State) (die part pasid : Nat) (a : Word) : Quad :=
  let q := s.qtOf die
  let out (seq estate cmd pos iter : Nat) : Quad :=
    BitVec.ofNat 128 (seq % 2 ^ 64 * 2 ^ 64 + estate * 2 ^ 56 + cmd * 2 ^ 48 + pos * 2 ^ 40 + iter % 2 ^ 32)
  match q.running.filter fun c => c.holds part pasid a with
  | some c => out q.run.seq 1 (qMajor c.op) 0 (if c.op = 5 then q.run.iter else 0)
  | none =>
    match q.queue.findIdx? fun c => c.holds part pasid a with
    | some k => out 0 2 (qMajor ((q.queue.getD k {}).op)) (k + 1) 0
    | none => 0

/-- Ask the quadtree engine of the die, whose answer the slot waits for; what it answered is taken up (R309, R310). DEDUCED, log entry 26. -/
def askEngine (s : State) (i : Instr) (a : Nat) (req : Req) : Acc Done :=
  match s.me.held.result with
  | some (.trapped k w) => .trap k w
  | some (.refused k) => .trap k (BitVec.ofNat 64 a)
  | some r => Done.value s (val128 (r.bits.extractLsb' 0 128))
  | none => .leave (askOnce s i (.station (24 * dieOf (unitOf s.cur))) a req true)

/-- QSTAT (R309) on the value of its operand. -/
def qstatBody (s : State) (i : Instr) (a : Val) : Acc Done :=
  match capTrap s a a.addr.toNat 8 permR with
  | some (k, w) => .trap k w
  | none =>
    if a.space ≠ 2 then .trap Cause.capPerm a.addr
    else if a.addr.toNat % 8 ≠ 0 then .trap Cause.align a.addr
    else if s.me.arch.status.form then .trap Cause.timingDeviation a.addr
    else askEngine s i a.addr.toNat .qstat

/-- QSTAT (R309). -/
def execQstat (d a : Reg) (s : State) : Out :=
  fin s (issue s (.qstat d a) [.reg a] [] (.dst (.reg d)) fun ws _ s => qstatBody s (.qstat d a) (arg ws 0))

/-- The node of a walk's record. -/
def QWalk.record (w : QWalk) : QNode := QNode.ofWords w.words

/-- The payload elements that element (i, j) of a leaf needs. -/
def QWalk.places (w : QWalk) : List Word :=
  let x := w.record
  match x.typ with
  | 2 => if w.i = w.j then [addBytes x.pay0 (w.i * x.e)] else []
  | 3 =>
    ((span 0 x.rank).map fun k => addBytes x.pay0 ((w.i * x.rank + k) * x.e))
      ++ (span 0 x.rank).map fun k => addBytes x.pay1 ((w.j * x.rank + k) * x.e)
  | 4 => [addBytes x.pay0 (w.i * x.stride + w.j * x.e)]
  | _ => []

/-- Element (i, j) of a leaf, its scale included, from the payload elements that it needs (R277, R310). -/
def QWalk.value (w : QWalk) : Num :=
  let x := w.record
  let sc := Fmt.f64.num x.scale.toNat
  let v (k : Nat) : Num := x.f.num (w.vals.getD k 0)
  match x.typ with
  | 1 => if w.i = w.j then sc else .zero false
  | 2 => if w.i = w.j then sc.mul (v 0) else .zero false
  | 3 => sumNum false ((span 0 x.rank).map fun k => sc.mul ((v k).mul (v (x.rank + k))))
  | 4 => sc.mul (v 0)
  | _ => .zero false

/-- D of a QNODE whose walk has all it needs. -/
def QWalk.answer (w : QWalk) : Answer :=
  .data (val128 (BitVec.ofNat 128 (w.value.arith .f64 .rne 0 * 2 ^ 64 + w.node.toNat)))

/-- What a walk whose record has been read does next: a trap, the quadrant's record, or the leaf. -/
def QWalk.next (w : QWalk) : Except (Nat × Word) QWalk :=
  let x := w.record
  let top := decide (w.lvl = 0)
  if badRecord w.words w.lvl (if top then x.lg else w.lg) (if top then x.fmt else w.fmt) false then .error (Cause.qshape, w.node)
  else if top ∧ (x.d ≤ w.i ∨ x.d ≤ w.j) then .error (Cause.access, w.node)
  else if x.typ ≠ 5 then .ok w
  else
    let h := x.d / 2
    .ok
      { w with
        i := w.i % h
        j := w.j % h
        lvl := w.lvl + 1
        lg := x.lg - 1
        fmt := x.fmt
        node := x.kids.getD (2 * b2n (decide (h ≤ w.i)) + b2n (decide (h ≤ w.j))) 0
        words := [] }

/-- QNODE (R310) on the values of its operands. -/
def qnodeBody (s : State) (i : Instr) (a : Val) (b : Word) : Acc Done :=
  if s.me.arch.status.form then .trap Cause.timingDeviation a.addr
  else
    match capTrap s a a.addr.toNat 64 permR with
    | some (k, w) => .trap k w
    | none =>
      if a.space ≠ 2 then .trap Cause.capPerm a.addr
      else askEngine s i a.addr.toNat (.qnode { cap := a, i := bits b 31 0, j := bits b 63 32, node := a.addr })

/-- QNODE (R310). -/
def execQnode (d a b : Reg) (s : State) : Out :=
  fin s (issue s (.qnode d a b) [.reg a, .reg b] [] (.dst (.reg d)) fun ws _ s =>
    qnodeBody s (.qnode d a b) (arg ws 0) (arg ws 1).lo)

/-- Checks of QPOOL (R311); `new?` holds the pair of the set form. -/
def qpoolCheck (s : State) (a : Val) (new? : Option (Word × Word)) : Option (Nat × Word) :=
  match capTrap s a a.addr.toNat 64 (permR ||| permW) with
  | some p => some p
  | none =>
    if a.space ≠ 2 then some (Cause.capPerm, a.addr)
    else if a.addr.toNat % 64 ≠ 0 then some (Cause.align, a.addr)
    else
      match new? with
      | none => none
      | some (c, l) =>
        if c.toNat % 64 ≠ 0 then some (Cause.align, c)
        else if l.toNat % 64 ≠ 0 then some (Cause.align, l)
        else if l.toNat < c.toNat ∨ c.toNat < a.addr.toNat + 64 ∨ (bounds a).2 < l.toNat - a.addr.toNat + a.addr.toNat % 2 ^ 57 then
          some (Cause.capBounds, c)
        else none

/-- QPOOL (R311) on the values of its operands: one atomic access at the owning station. -/
def qpoolBody (s : State) (i : Instr) (a : Val) (new? : Option (Word × Word)) (ops : List Val) (q : Nat) : Acc Done :=
  match qpoolCheck s a new? with
  | some (k, w) => .trap k w
  | none =>
    match s.me.held.result with
    | some (.refused k) => .trap k (a.addr + BitVec.ofNat 64 (16 * q))
    | some r => Done.value s (val128 (r.bits.extractLsb' 0 128))
    | none =>
      let ea := a.addr + BitVec.ofNat 64 (16 * q)
      let va := ea.toNat % 2 ^ 57
      match if s.me.redundant then atRelease s i 0x07 ops id else none with
      | some s' => .leave s'
      | none => .leave (askOnce s i (.station (homeStation (unitOf s.cur) va)) va (.qpool new?) true)

/-- QPOOL, read form (R311). -/
def execQpoolRd (d a : Reg) (q : Fin 4) (s : State) : Out :=
  fin s (issue s (.qpoolRd d a q) [.reg a] [] (.dst (.reg d)) fun ws _ s =>
    qpoolBody s (.qpoolRd d a q) (arg ws 0) none [arg ws 0] q.val)

/-- QPOOL, set form (R311). -/
def execQpoolSet (d a b c : Reg) (q : Fin 4) (s : State) : Out :=
  fin s (issue s (.qpoolSet d a b c q) [.reg a, .reg b, .reg c] [] (.dst (.reg d)) fun ws _ s =>
    qpoolBody s (.qpoolSet d a b c q) (arg ws 0) (some ((arg ws 1).lo, (arg ws 2).lo)) ws q.val)

/-! ### The hood (R287) -/

/-- The first 256 bytes of a hood. -/
def hoodFields (c : QtCmd) (r : QtRun) (state cause reason : Nat) (va : Word) : List Word :=
  let pool := match c.pool with | some p => p.addr | none => 0
  [BitVec.ofNat 64 (state * 2 ^ 56 + qMajor c.op * 2 ^ 48 + cause * 2 ^ 40 + reason * 2 ^ 32), va, BitVec.ofNat 64 r.seq,
    BitVec.ofNat 64 r.iter, c.op? 0, c.op? 1, c.op? 2, pool, r.best, BitVec.ofNat 64 r.piv]
    ++ ((r.pivlog.map fun k => BitVec.ofNat 64 k) ++ List.replicate 16 0).take 16 ++ List.replicate 6 0

/-- Write the hood: its fields, and frames and engine-private dwords whose layout the manual leaves to the engine. The bytes, or the
cause and offset of a failure. DEDUCED, log entry 26. -/
def State.hoodWrite (s : State) (c : QtCmd) (r : QtRun) (state cause reason : Nat) (va : Word) : Except Nat (List Byte × State) :=
  match capCheck c.tree c.hood.toNat 4096 (permR ||| permW) c.form false, offsetOf 2 c.hood.toNat with
  | none, some off =>
    let fr := s.frees 480
    let bs := (hoodFields c r state cause reason va ++ fr.1).flatMap fun w => leBytes 8 w.toNat
    (match fr.2.globalWr c.part c.pasid off bs with
     | .error e => .error e.1
     | .ok s => .ok (bs, s))
  | some k, _ => .error k
  | _, none => .error Cause.capBounds

/-- Fill the completion word of a command (R301). -/
def State.qtFill (s : State) (c : QtCmd) (w : Word) : State := s.engFill c.thread c.tile c.block w c.lead c.epoch

/-- COUNT of a completion word (R301). -/
def qtCount (c : QtCmd) (r : QtRun) : Nat := if c.op = 5 then r.iter % 2 ^ 32 else if c.op = 3 then r.piv % 2 ^ 32 else 0

/-- The engine of a die is free again. -/
def State.qtFree (s : State) (die : Nat) : State := s.modQt die fun q => { q with running := none, run := {}, next := none }

/-! ### Start (R279, R300) -/

/-- The checks between crowns (R279): OP1 against OP0 for the dimension and the format pair, then OP2 against OP0 for the dimension
and the result format. -/
def qCrowns (c : QtCmd) (a : QNode) (b res : Option QNode) : QM Unit := do
  let want : Fmt := if a.f = .f64 then .f64 else .f32
  match b with
  | some x => if x.lg ≠ a.lg ∨ mxClass x.f ≠ mxClass a.f then throw (.fail Cause.qshape (c.op? 1)) else pure ()
  | none => pure ()
  match res with
  | some x =>
    if x.lg ≠ a.lg ∨ x.f ≠ want then throw (.fail Cause.qshape (c.op? (if c.op = 4 then 1 else 2))) else pure ()
  | none => pure ()

/-- A vector is aligned to 64 (R307). -/
def qAligned (a : Word) : QM Unit := if a.toNat % 64 ≠ 0 then throw (.fail Cause.qshape a) else pure ()

/-- The walk of every tree that a command names, before its first commit (R279, R304, R305). -/
def qShape (c : QtCmd) : QM Unit := do
  let rw : BitVec 8 := permR ||| permW
  match c.op with
  | 0 =>
    let (a, _) ← qTree permR true (c.op? 0)
    let (b, _) ← qTree permR true (c.op? 1)
    let (r, _) ← qTree rw false (c.op? 2)
    qCrowns c a (some b) (some r)
  | 1 =>
    let (a, _) ← qTree permR true (c.op? 0)
    let (r, _) ← qTree rw false (c.op? 2)
    qCrowns c a none (some r)
  | 2 =>
    let (_, l) ← qTree permR true (c.op? 0)
    if l.any fun x => x = c.op? 2 then throw (.fail Cause.qshape (c.op? 2))
    let _ ← qCheck c.tree (c.op? 2) 64 rw
  | 3 =>
    let (a, _) ← qTree rw true (c.op? 0)
    if a.f ≠ .f64 ∧ a.f ≠ .f32 then throw (.fail Cause.qshape (c.op? 0))
  | 4 =>
    let (a, _) ← qTree permR true (c.op? 0)
    let (b, _) ← qTree rw false (c.op? 1)
    qCrowns c a (some b) (some b)
  | _ =>
    let (a, l) ← qTree permR true (c.op? 0)
    if c.refact then
      if l.any fun x => x = c.op? 1 then throw (.fail Cause.qshape (c.op? 1))
      let _ ← qCheck c.tree (c.op? 1) 64 rw
    else if c.op? 1 ≠ 0 then
      let (b, _) ← qTree permR true (c.op? 1)
      qCrowns c a (some b) none
    qAligned (c.op? 2)
    qAligned (c.op? 3)
    qAligned (c.op? 4)

/-- Run a computation of the running command of a die; what it allocated stands even when it stops, and a stop is noted.
DEDUCED, log entry 24. -/
def State.qtDo (s : State) (die : Nat) (c : QtCmd) (m : QM Unit) : State :=
  let r := (s.qtOf die).run
  let x := m.run { s := s, c := c, die := die, run := r }
  match x.1 with
  | .ok () => x.2.s.modQt die fun q => { q with run := x.2.run }
  | .error (.park k va) => x.2.s.modQt die fun q => { q with run := { r with parked := some (k, va) } }
  | .error (.fail k va) => x.2.s.modQt die fun q => { q with run := { r with failed := some (k, va) } }

/-- Begin a leaf operation, or a stage: what it writes is gathered, every page of it is translated with W, and its commit is to come
(R288, R289). DEDUCED, log entry 24. -/
def State.qtBegin (s : State) (die : Nat) (c : QtCmd) (m : QM Unit) : State :=
  let r := (s.qtOf die).run
  let x := (do m; let o ← get; qCheckAll o.areas : QM Unit).run { s := s, c := c, die := die, run := r }
  match x.1 with
  | .ok () => x.2.s.modQt die fun q => { q with next := some (x.2.areas, x.2.run) }
  | .error (.park k va) => x.2.s.modQt die fun q => { q with run := { r with parked := some (k, va) } }
  | .error (.fail k va) => x.2.s.modQt die fun q => { q with run := { r with failed := some (k, va) } }

/-- The commit of the operation under way; a write that is refused now, because a translation has changed meanwhile, ends the command
(R289). -/
def State.qtCommit (s : State) (die : Nat) (c : QtCmd) (areas : List (Word × List Byte)) (r : QtRun) : State :=
  match s.qtWrite c areas with
  | (none, s) => s.modQt die fun q => { q with run := r, next := none }
  | (some va, s) => s.modQt die fun q => { q with run := { q.run with failed := some (Cause.access, va) }, next := none }

/-- A start failure (R300): the completion word alone is filled. -/
def State.qtStartFail (s : State) (die : Nat) (c : QtCmd) (cause : Nat) : State :=
  (s.qtFill c (cwWord 4 (qMajor c.op) cause 0 0)).qtFree die

/-- What a parked hood stands for: its engine-private part is untouched and its crowns and pool are the command's (R300). -/
def State.qtResume (s : State) (c : QtCmd) (bs : List Byte) : Option QtRun :=
  let w (k : Nat) : Word := bytesWord bs k
  let pool := match c.pool with | some p => p.addr | none => 0
  match s.hoods.find? fun h => h.1 = bs with
  | some h => if w 4 = c.op? 0 ∧ w 5 = c.op? 1 ∧ w 6 = c.op? 2 ∧ w 7 = pool then some h.2 else none
  | none => none

/-- Claim the hood of a command that starts or resumes, with the run. -/
def State.qtClaim (s : State) (die : Nat) (c : QtCmd) (off : Nat) (r : QtRun) : State :=
  let w := BitVec.ofNat 64 (2 ^ 56 + qMajor c.op * 2 ^ 48)
  match s.globalWr c.part c.pasid off (leBytes 8 (w : Word).toNat) with
  | .error e => s.qtStartFail die c e.1
  | .ok s =>
    let s := s.modQt die fun q => { q with run := r }
    if r.seq = 0 then
      s.qtDo die c do
        qShape c
        modify fun o => { o with run := { o.run with tasks := c.tasks } }
    else s

/-- Reach n bytes of the hood of a command: its offset and the bytes, or the cause of the failure (R300). DEDUCED, log entry 26. -/
def State.hoodReach (s : State) (c : QtCmd) (n : Nat) : Except Nat (Nat × List Byte) :=
  match capCheck c.tree c.hood.toNat n (permR ||| permW) c.form false, offsetOf 2 c.hood.toNat with
  | some k, _ => .error k
  | none, none => .error Cause.capBounds
  | none, some off =>
    match s.globalRd c.part c.pasid off n with
    | .error e => .error e.1
    | .ok bs => .ok (off, bs)

/-- The head command of a die starts: the first dword of its hood alone decides, and a resume reads the rest (R300). DEDUCED, log entry 26. -/
def State.qtStart (s : State) (die : Nat) : State :=
  let q := s.qtOf die
  match q.running, q.queue with
  | none, c :: cs =>
    let s := s.modQt die fun q => { q with running := some c, run := {}, queue := cs }
    (match s.hoodReach c 8 with
     | .error k => s.qtStartFail die c k
     | .ok (off, bs) =>
       let h := bytesWord bs 0
       let st := bits h 63 56
       if st = 0 ∨ st = 3 ∨ st = 4 then s.qtClaim die c off { deadline := c.deadline, late := c.late }
       else if st = 2 ∧ bits h 55 48 = qMajor c.op ∧ (bits h 47 40 = Cause.preempt → c.fromRestore) then
         match s.hoodReach c 4096 with
         | .error k => s.qtStartFail die c k
         | .ok (_, all) =>
           match s.qtResume c all with
           | some r => s.qtClaim die c off { r with parked := none, failed := none }
           | none => s.qtStartFail die c Cause.qshape
       else s.qtStartFail die c Cause.qshape)
  | _, _ => s

/-- QT_COMMAND_START (R300). -/
def execQtCommandStart (die : Nat) (s : State) : Out := fin s (s.qtStart (die % 4))

/-! ### Leaf operations (R280, R292) -/

/-- The deadline stops a solver at this leaf boundary (R292). -/
def QtRun.stops (r : QtRun) (c : QtCmd) (tstamp : Word) : Bool :=
  c.solver && decide (r.deadline.toNat ≤ tstamp.toNat) && (decide (c.op = 3) || r.begun)

/-- The refactorisation of a solve is under way: the copy's crown has been written, and its factor is not complete (R292). DEDUCED, log
entry 25. -/
def QtRun.factoring (r : QtRun) (c : QtCmd) : Bool :=
  (match r.tasks with
   | .conv _ d _ _ _ :: _ => decide (d ≠ c.crown)
   | _ => true)
    && r.tasks.any fun x => match x with | .factor _ _ _ => true | .factorise _ _ => true | _ => false

/-- The stop at the deadline: the factor under way is incomplete, a solve keeps its best iterate. -/
def qDeadline (c : QtCmd) (r : QtRun) : QM Unit := do
  if c.op = 3 ∨ r.factoring c then qIncomplete else pure ()
  if c.op = 5 then
    let _ ← qSolved 2
  else qRunSet fun r => { r with closed := true, reason := 2 }

/-- One leaf operation, which SEQ counts, or one stage of a solver between two of them. DEDUCED, log entry 24. -/
def qLeafOp (r : QtRun) : QM Unit := do
  match r.tasks with
  | .stage n :: l =>
    let sub ← qStage n
    qRunSet fun x => { x with tasks := if x.closed then [] else sub ++ l }
  | ts =>
    let (l, did) ← qNext 64 ts
    qRunSet fun x => { x with tasks := l, seq := x.seq + b2n did, closed := x.closed || l.isEmpty,
                              reason := if l.isEmpty && decide (x.reason = 0) then 1 else x.reason }

/-- The run stands at a boundary of leaf operations, with no stage due. -/
def QtRun.boundary (r : QtRun) : Bool := match r.tasks with | .stage _ :: _ => false | _ => true

/-- QT_LEAF_COMMIT (R280, R289): a leaf operation begins, or the one under way is committed. DEDUCED, log entry 24. -/
def execQtLeafCommit (die : Nat) (s : State) : Out :=
  let die := die % 4
  let q := s.qtOf die
  fin s
    (match q.running with
     | none => s
     | some c =>
       if q.run.closed || q.run.failed.isSome || q.run.parked.isSome then s
       else
         match q.next with
         | some (areas, r) => s.qtCommit die c areas r
         | none =>
           if q.run.boundary && q.run.stops c s.tstamp then s.qtBegin die c (qDeadline c q.run) else s.qtBegin die c (qLeafOp q.run))

/-! ### Parks and ends (R288, R301) -/

/-- A park for a cause at an address. -/
def State.qtParkNow (s : State) (die : Nat) (c : QtCmd) (cause : Nat) (va : Word) : State :=
  let r := (s.qtOf die).run
  match s.hoodWrite c r 2 cause 0 va with
  | .error k => (s.qtFill c (cwWord 4 (qMajor c.op) k 0 (qtCount c r))).qtFree die
  | .ok (bs, s) =>
    let s : State := { s with hoods := (bs, { r with parked := none }) :: s.hoods.filter fun h => h.1 ≠ bs }
    let s := s.qtFree die
    if cause = Cause.preempt then s.modQt die fun q => { q with saved := q.saved ++ [{ c with fromRestore := true }] }
    else
      (s.qtFill c (cwWord 2 (qMajor c.op) cause 0 (qtCount c r))).engTrap c.thread c.inst cause
        (if cause = Cause.qpool then (match c.pool with | some p => p.addr | none => 0) else va)

/-- A tile of the issuing sheet of a command is being saved, or has been (R288). -/
def State.qtPreempted (s : State) (c : QtCmd) : Bool :=
  s.tiles.any fun e =>
    (match e.2.gang with
     | some g => decide (g.inst = c.inst) && decide (g.sheet = c.sheet) && e.2.saving.isSome
     | none => false)
      || e.2.saved.any fun v => decide (v.gang.inst = c.inst) && decide (v.gang.sheet = c.sheet)

/-- The running command of a die parks: for what its last leaf operation met, or for a pre-emption. -/
def State.qtParkOn (s : State) (die cause : Nat) (va : Word) : State :=
  let q := s.qtOf die
  match q.running with
  | none => s
  | some c =>
    match q.run.parked with
    | some (k, a) => s.qtParkNow die c k a
    | none =>
      if cause = Cause.preempt ∧ s.qtPreempted c ∧ !q.run.closed ∧ q.run.failed.isNone then s.qtParkNow die c Cause.preempt va else s

/-- QT_PARK (R288). -/
def execQtPark (die cause : Nat) (va : Word) (s : State) : Out := fin s (s.qtParkOn (die % 4) cause va)

/-- The end of a command with a state, a cause and an address. -/
def State.qtEndNow (s : State) (die : Nat) (c : QtCmd) (state cause : Nat) (va : Word) : State :=
  let r := (s.qtOf die).run
  let reason := if c.solver ∧ state = 3 then r.reason else 0
  let s' :=
    match s.hoodWrite c r state cause reason va with
    | .error k => s.qtFill c (cwWord 4 (qMajor c.op) k 0 (qtCount c r))
    | .ok (_, s) => s.qtFill c (cwWord state (qMajor c.op) cause reason (qtCount c r))
  s'.qtFree die

/-- QT_COMMAND_END (R301). -/
def execQtCommandEnd (die : Nat) (s : State) : Out :=
  let die := die % 4
  let q := s.qtOf die
  fin s
    (match q.running with
     | none => s
     | some c =>
       match q.run.failed with
       | some (k, va) => s.qtEndNow die c 4 k va
       | none => if q.run.closed then s.qtEndNow die c 3 0 0 else s)

end Sys2Proof.Machine
end

