-- ==== Sys2Proof/Machine/Sched.lean ====
section
/-! DEFINITION. The graph scheduler: enqueue, placement, dispatch, completion and abort (R122 to R143, R377, R378, R388, R389). -/

namespace Sys2Proof.Machine

/-! ### Node records (R126 to R128) -/

/-- Offset of node i of a die in scheduler memory. -/
def nodeBase (die i : Nat) : Nat := 0x200000 * (die % 4) + 512 * (i % 4096)

/-- The 64 dwords of a record. -/
def State.record (s : State) (die i : Nat) : List Word := (span 0 64).map fun k => s.nodes.rdWord (nodeBase die i + 8 * k)

/-- Dword k of a record. -/
def recWord (r : List Word) (k : Nat) : Word := r.getD k 0

/-- A record as an instance that is not yet enqueued, to read its fields. -/
def recInst (r : List Word) : Inst := { recw := r }

/-- CWKIND (R127). -/
def cwKind (r : List Word) : Nat := bits (recWord r 7) 1 0

/-- Every reserved field of a record is zero (step 2 of R131). -/
def reservedZero (r : List Word) : Bool :=
  let w := recWord r
  decide (bits (w 0) 59 56 = 0) && decide (bits (w 0) 34 32 = 0)
    && decide (bits (w 1) 63 41 = 0) && decide (bits (w 1) 31 17 = 0)
    && (if (recInst r).form then decide (bits (w 2) 63 32 = 0) else decide (w 2 = 0))
    && decide (bits (w 7) 63 9 = 0) && decide (bits (w 7) 7 2 = 0)
    && decide (bits (w 8) 63 32 = 0)
    && decide (bits (w 10) 63 44 = 0) && decide (bits (w 10) 31 28 = 0) && decide (bits (w 10) 15 4 = 0)
    && ([w 11, w 12].all fun v => [15, 31, 47, 63].all fun h => decide (bits v h (h - 3) = 0))
    && decide (bits (w 13) 63 16 = 0)
    && (span 14 18).all fun k => decide (w k = 0)

/-- W, H, NSHEETS, NSTAGE and RLEVEL hold values of R128. Step 2 does not name GM1: a field of 16 to 31 is a gang of 17 to 32.
DESIGN CHOICE, log entry 48. -/
def shapeOk (i : Inst) : Bool :=
  decide (1 ≤ i.w) && decide (i.w ≤ 24) && decide (1 ≤ i.h) && decide (i.h ≤ 24) && decide (1 ≤ i.nsheets)
    && decide (i.nsheets ≤ 65535) && decide (1 ≤ i.nstage) && decide (i.nstage ≤ i.w) && decide (i.rlevel ≠ 1)

/-- The code region of a record: base offset and end. -/
def codeRegion (r : List Word) : Option (Nat × Nat) :=
  match offsetOf 2 (recWord r 4).toNat with
  | none => none
  | some b =>
    let n := (recWord r 5).toNat
    if n = 0 ∨ 2 ^ 56 < n ∨ 2 ^ 57 < b + n then none else (exactWindow b (b + n)).map fun _ => (b, b + n)

/-- Step 2 of R131, with the refusals of R388. -/
def step2 (r : List Word) : Bool :=
  let i := recInst r
  reservedZero r && decide (cwKind r ≠ 3) && shapeOk i
    && !(i.form && (decide (i.nsheets ≠ 1) || i.migr || i.preempt))
    && !(decide (1 < i.replicas) && (i.form || i.preempt || i.migr))
    && (decide (i.kind = 2) || (codeRegion r).isSome)

/-! ### Patches (R130) -/

/-- A patch entry: its four dwords. -/
abbrev Patch := List Word

/-- Reserved fields of an entry are zero. -/
def patchOk (e : Patch) : Bool :=
  decide (bits (recWord e 0) 63 9 = 0) && decide (bits (recWord e 0) 7 4 = 0) && decide (recWord e 1 = 0)

/-- ARG j of a record, a capability when ATAGS says so. -/
def argOf (r : List Word) (j : Nat) : Val :=
  { data := recWord r (33 + 2 * j) ++ recWord r (32 + 2 * j), tag := (recWord r 13).getLsbD j }

/-- Apply patches in list order. -/
def applyPatches (args : List Val) (ps : List Patch) : List Val :=
  ps.foldl (fun args e =>
    args.set (bits (recWord e 0) 3 0) { data := recWord e 3 ++ recWord e 2, tag := bit (recWord e 0) 8 }) args

/-- Step 4 of R131 on an argument that is a capability. -/
def argOk (v : Val) : Bool := !v.tag || (decide (v.resv = 0) && (decide (v.space = 1) || decide (v.space = 2)) && !v.has permSYS)

/-! ### Rectangles (R132, R389) -/

/-- Width and height of a partition in tiles. -/
def Partition.size (p : Partition) : Nat × Nat := (4 * p.uw, 6 * p.uh)

/-- The tiles of a W × H rectangle at an origin of a partition, row by row. -/
def Partition.rect (p : Partition) (w h ox oy : Nat) : List Nat :=
  (span 0 h).flatMap fun fy => (span 0 w).map fun fx => tileAtP (4 * p.ux + ox + fx) (6 * p.uy + oy + fy)

/-- The origins at which a rectangle fits, in scan order: oy rising, ox rising within it. -/
def Partition.origins (p : Partition) (w h : Nat) : List (Nat × Nat) :=
  if p.size.1 < w ∨ p.size.2 < h then []
  else (span 0 (p.size.2 - h + 1)).flatMap fun oy => (span 0 (p.size.1 - w + 1)).map fun ox => (ox, oy)

/-- The first rectangle of which every tile is usable. -/
def Partition.firstRect (p : Partition) (w h : Nat) (ok : List Nat → Bool) : Option (List Nat) :=
  ((p.origins w h).map fun o => p.rect w h o.1 o.2).find? ok

/-- Replicas after the first (R389). -/
def Partition.nextReplica (p : Partition) (w h l : Nat) (ok : Nat → Bool) (earlier : List (List Nat)) : Option (List Nat) :=
  let free (ts : List Nat) : Bool := ts.all fun u => ok u && !earlier.any fun e => e.any fun v => u = v
  if l ≤ p.quarters.length then
    p.firstRect w h fun ts =>
      free ts && (ts.all fun u => decide (dieOf u = dieOf (ts.headD 0)))
        && !earlier.any fun e => e.any fun v => decide (dieOf v = dieOf (ts.headD 0))
  else p.firstRect w h fun ts => free ts && ts.all fun u => earlier.all fun e => e.all fun v => decide (6 ≤ hops u v)

/-- Place the replicas k and later; n are left. -/
def Partition.replicasFrom (p : Partition) (w h l : Nat) (ok : Nat → Bool) : Nat → List (List Nat) → Option (List (List Nat))
  | 0, done => some done
  | n + 1, done =>
    match p.nextReplica w h l ok done with
    | some ts => p.replicasFrom w h l ok n (done ++ [ts])
    | none => none

/-- The rectangles of a sheet's replicas on usable tiles (R132, R133, R389). DEDUCED, log entry 12. -/
def Partition.placeSheet (p : Partition) (i : Inst) (ok : Nat → Bool) : Option (List (List Nat)) :=
  if i.form then
    let place := recWord i.recw 2
    let ox := bits place 7 0
    let oy := bits place 15 8
    if p.size.1 < ox + i.w ∨ p.size.2 < oy + i.h then none
    else
      let ts := p.rect i.w i.h ox oy
      if ts.all ok then some [ts] else none
  else
    match p.firstRect i.w i.h fun ts => ts.all ok with
    | none => none
    | some ts => p.replicasFrom i.w i.h i.replicas ok (i.replicas - 1) [ts]

/-- BIND of a FORM node, or the first G slots (R132, R133); of a G above 16, all 16. DESIGN CHOICE, log entry 48. -/
def Inst.bindMask (i : Inst) : BitVec 16 :=
  if i.form then BitVec.ofNat 16 (bits (recWord i.recw 2) 31 16) else BitVec.ofNat 16 (2 ^ i.g - 1)

/-- The set bits of a 16-bit mask. -/
def maskBits (m : BitVec 16) : List Nat := (span 0 16).filter fun k => m.getLsbD k

/-- Step 6 of R131. -/
def State.fits (s : State) (i : Inst) : Bool :=
  ((s.partn i.part).placeSheet i fun u => !(s.tile u).fenced).isSome
    && (!i.form || decide ((maskBits i.bindMask).length = i.g))

/-! ### Completion words (R139) -/

/-- A COMPLETION record of a quarter with CAUSE 0. -/
def completionRecord (s : State) (die : Nat) (aux : Word) : State := sendQuarter s die recCompletion 0 aux

/-- Signal the MSI-X vector of a virtual-function window. -/
def State.signal (s : State) (win : Nat) : State :=
  if win < 384 then { s with msix := Sparse.set 0 s.msix win (Sparse.get 0 s.msix win + 1) } else s

/-- The tile and offset of a TILE completion word; none when it cannot be written. -/
def State.cwTile (s : State) (part : Nat) (cw : Word) : Option (Nat × Nat) :=
  match offsetOf 1 cw.toNat with
  | none => none
  | some o =>
    if o % 8 ≠ 0 then none
    else
      match (s.partn part).tile (o / 2 ^ 20) with
      | none => none
      | some u => if (s.tile u).fenced || (s.tile u).heldPage (o % 2 ^ 20) then none else some (u, o % 2 ^ 20)

/-- A GLOBAL completion word's place: none when the write fails by R199. -/
def State.cwPhys (s : State) (part pasid : Nat) (cw : Word) : Option Phys :=
  match offsetOf 2 cw.toNat with
  | none => none
  | some va =>
    match s.walkVa part pasid va with
    | .error _ => none
    | .ok (l, e) =>
      match s.leafAccess part l e va (false, true, false) false false false with
      | .error _ => none
      | .ok ph => if s.reachable ph then some ph else none

/-- A writer that is no thread, as the scheduler or the monitor core: the epoch of its shadow records is a free value. -/
def State.agentWriter (s : State) : Writer × State :=
  let f := s.free
  ({ remote := true, epoch := bits f.1 5 0 }, f.2)

/-- A completion word that cannot be written is recorded. The manual states neither AUX, which is free (log entry 7), nor CAUSE, which
is 0 as in the two cases of R131. DESIGN CHOICE, log entry 48. -/
def cwFailed (s : State) (die : Nat) : State := let r := s.free; completionRecord r.2 die r.1

/-- Write the completion word of a record with a status (R139). A GLOBAL address need not be aligned: its 8 bytes are written where it
points. DESIGN CHOICE, log entry 48. -/
def State.complete (s : State) (r : List Word) (die win part pasid : Nat) (tag : BitVec 32) (status : Nat) : State :=
  let w : Word := BitVec.ofNat 64 (tag.toNat * 2 ^ 32 + status)
  let irq := bit (recWord r 7) 8
  let cw := recWord r 6
  match cwKind r with
  | 0 => if irq then s.signal win else s
  | 1 =>
    (match s.cwPhys part pasid cw with
     | none => cwFailed s die
     | some ph =>
       let s := s.physWr ph (leBytes 8 w.toNat)
       if irq then s.signal win else s)
  | 2 =>
    (match s.cwTile part cw with
     | none => cwFailed s die
     | some (u, off) => let a := s.agentWriter; a.2.fillWord u off w a.1)
  | _ => s

/-- A TILE completion word is set empty at enqueue (R131). -/
def State.cwEmpty (s : State) (r : List Word) (part : Nat) : State :=
  if cwKind r = 2 then
    match s.cwTile part (recWord r 6) with
    | some (u, off) => s.markEmpty u off
    | none => s
  else s

/-! ### Enqueue (R131) -/

/-- Where a launch comes from. -/
structure Launch where
  win : Nat := 0
  die : Nat := 0
  part : Nat := 0
  pasid : Nat := 0
  nbase : Nat := 0
  ncount : Nat := 0
  node : Nat := 0
  tag : BitVec 32 := 0
  /-- AUX of the record of a launch without a word to write -/
  aux : Word := 0
  /-- the patch list, none when it cannot be read -/
  patches : Option (List Patch) := some []
  /-- system software launches it: TEST nodes are allowed -/
  sys : Bool := false
  deriving DecidableEq, Repr

/-- The status of the first failing step, 2 to 7 of R131 and the kind check of step 1. DEDUCED, log entry 45. -/
def State.launchStatus (s : State) (l : Launch) (r : List Word) : Option Nat :=
  let i := { recInst r with die := l.die, part := l.part }
  if !(i.kind = 1 ∨ (i.kind = 2 ∧ l.sys)) then some 0x02
  else if !step2 r then some 0x02
  else
    match l.patches with
    | none => some 0x07
    | some ps =>
      if !ps.all patchOk || !((applyPatches ((span 0 16).map (argOf r)) ps).all argOk) then some 0x03
      else if 61440 < bits (recWord r 1) 16 0 ∨ 256 < bits (recWord r 1) 40 32 ∨ (i.migr ∧ 12 < i.g) then some 0x01
      else if !s.fits i then some 0x05
      else if 1024 ≤ (s.insts.filter fun x => x.die = l.die).length then some 0x04
      else none

/-- Enqueue (R131). -/
def State.enqueue (s : State) (l : Launch) : State :=
  if l.ncount ≤ l.node then completionRecord s l.die l.aux
  else
    let r := s.record l.die (l.nbase + l.node)
    match s.launchStatus l r with
    | some st =>
      if cwKind r = 3 then completionRecord s l.die l.aux else s.complete r l.die l.win l.part l.pasid l.tag st
    | none =>
      let args := applyPatches ((span 0 16).map (argOf r)) (l.patches.getD [])
      let i : Inst :=
        { id := s.nextInst, die := l.die, win := l.win, pasid := l.pasid, part := l.part, tag := l.tag, node := l.node,
          nbase := l.nbase, ncount := l.ncount, recw := r, args := args }
      let s := { s with insts := s.insts ++ [i], nextInst := s.nextInst + 1 }
      s.cwEmpty r l.part

/-- What a window's WCFG says (R433). -/
def Window.launch (w : Window) (win : Nat) : Launch :=
  { win := win, die := bits w.wcfg 35 34, part := bits w.wcfg 33 29, pasid := bits w.wcfg 55 36, nbase := bits w.wcfg 27 16,
    ncount := bits w.wcfg 12 0, sys := decide (384 ≤ win) }

/-- The patch list of a LAUNCH, read in the PASID of the window (R129). DEDUCED, log entry 45. -/
def State.readPatches (s : State) (part pasid : Nat) (va : Nat) : Nat → Option (List Patch)
  | 0 => some []
  | n + 1 =>
    match offsetOf 2 va with
    | none => none
    | some o =>
      match s.walkVa part pasid o with
      | .error _ => none
      | .ok (l, e) =>
        match s.leafAccess part l e o (true, false, false) false false false with
        | .error _ => none
        | .ok ph =>
          if !s.reachable ph || s.hostAborts ph then none
          else
            let bs := s.physRd ph 32
            (s.readPatches part pasid (va + 32) n).map fun ps => ((List.range 4).map fun k => BitVec.ofNat 64 (leNat ((bs.drop (8 * k)).take 8))) :: ps

/-- LAUNCH of a window (R129, R433): discarded while the window is not enabled. DEDUCED, log entry 45. -/
def State.launch (s : State) (win : Nat) (v : Word) : State :=
  let w := s.window win
  if !bit w.wcfg 28 then s
  else
    let l := w.launch win
    let ps := s.readPatches l.part l.pasid (w.lpatch.toNat / 32 * 32) (bits v 23 16)
    let s := s.enqueue { l with node := bits v 11 0, tag := v.extractLsb' 32 32, aux := v, patches := ps }
    s.modWindow win fun w => { w with lcount := w.lcount + 1 }

/-! ### Dispatch (R133, R134, R377, R378) -/

/-- Slots whose share or area belongs to a gang's footprint: shares from the lowest to the highest bound slot. -/
def shareMask (bind : BitVec 16) (migr : Bool) : List Nat :=
  let bs := maskBits bind
  (span 0 16).filter fun k =>
    (decide (bs.headD 16 ≤ k) && decide (k ≤ bs.getLastD 0) && !bs.isEmpty) || (migr && decide (12 ≤ k))

/-- Slots whose handler-reserve area belongs to the footprint. -/
def areaMask (bind : BitVec 16) (migr : Bool) : List Nat :=
  (span 0 16).filter fun k => bind.getLsbD k || (migr && decide (12 ≤ k))

/-- The pages of a footprint: 15 of each share, one of each area. -/
def footPages (bind : BitVec 16) (migr : Bool) : List Nat :=
  (shareMask bind migr).flatMap (fun k => span (15 * k) 15) ++ (areaMask bind migr).map fun k => 240 + k

/-- The context tags in use in a partition. -/
def State.ctxUsed (s : State) (part : Nat) : List Nat :=
  s.tiles.flatMap fun e =>
    if e.2.part = some part then (e.2.gang.map (·.ctx)).toList ++ e.2.saved.map (·.gang.ctx) else []

/-- The lowest `n` free context tags of a partition; none when fewer are free. -/
def State.freeCtx (s : State) (part n : Nat) : Option (List Nat) :=
  let used := s.ctxUsed part
  let l := ((span 1 (min (s.partn part).nctx.toNat (used.length + n))).filter fun c => !used.any fun u => u = c).take n
  if l.length = n then some l else none

/-- Write out the held pages among a list of pages (R378): the state and how many were written. -/
def State.pagesOut (s : State) (u part ctx : Nat) : List Nat → Nat × State
  | [] => (0, s)
  | p :: ps =>
    let o := Sparse.get 0 (s.tile u).pages p
    let r := s.pagesOut u part ctx ps
    if o ≠ ctx ∧ (s.tile u).heldPage (4096 * p) then (r.1 + 1, r.2.pageOut u (s.ctxBase part o) p) else r

/-- A page of a footprint starts full, untagged, its shadow records cleared (R134). -/
def Tile.freshPage (x : Tile) (ctx p : Nat) : Tile :=
  { x with
    empty := x.empty.filter fun e => !decide (e.1 / 512 = p)
    tags := x.tags.filter fun e => !decide (e.1 / 256 = p)
    shadow := x.shadow.filter fun e => !decide (e.1 / 512 = p)
    pages := Sparse.set 0 x.pages p ctx }

/-- The architectural state of a thread at its first instruction (R134). -/
def firstArch (i : Inst) (p : Partition) (tstamp : Word) (slot tindex ctx ridx : Nat) (bind : BitVec 16) (grant : Bool) : Arch :=
  let bs := maskBits bind
  let lo := 0xF000 * bs.headD 0
  let hi := 0xF000 * (bs.getLastD 0 + 1)
  let rwcc := permR ||| permW ||| permLC ||| permSC
  let share := 0xF000 * slot
  let c0 := exactCap 0 rwcc share (share + 0xF000) (BitVec.ofNat 64 share)
  let c1 := exactCap 0 rwcc lo hi (BitVec.ofNat 64 lo)
  let entry := recWord i.recw 3
  let code := (codeRegion i.recw).getD (0, 0)
  let area := 0xF0000 + 0x1000 * slot
  let dead := recWord i.recw 9
  { regs := Vector.ofFn fun (k : Fin 32) =>
      if k.val = 0 then c0 else if k.val = 1 then c1 else if k.val < 16 then {} else i.args.getD (k.val - 16) {}
    pc := entry
    xcap := exactCap 2 (permR ||| permX) code.1 code.2 entry
    status :=
      { rlevel := BitVec.ofNat 2 i.rlevel, ridx := BitVec.ofNat 2 ridx, pri := BitVec.ofNat 2 i.pri, form := i.form, ie := true,
        dbg := grant }
    tvec := { data := p.hvechi ++ p.hveclo, tag := true }
    tstack := exactCap 0 (permR ||| permW ||| permSYS) area (area + 0x1000) (BitVec.ofNat 64 area)
    mlive := 0xFFFFFFFF
    deadline := if dead = 0 then 0xFFFFFFFFFFFFFFFF else tstamp + dead
    timerArmed := true
    rndseed := BitVec.ofNat 64 ((bits (recWord i.recw 8) 31 0 + tindex) % 2 ^ 32 * 2 ^ 32)
    acctag := BitVec.ofNat 16 ctx }

/-- The thread of slot `slot`, rank `rank`, of a gang (R123 to R125, R134). -/
def State.firstThread (s : State) (i : Inst) (no ridx k u slot rank ctx notBefore : Nat) : Thread :=
  let x := s.th (16 * u + slot)
  let tindex := (no * (i.w * i.h) + k) * i.g + rank
  let fx := k % i.w
  let fy := k / i.w
  let arch := firstArch i (s.partn i.part) s.tstamp slot tindex ctx ridx i.bindMask x.grant
  { run := .running, arch := arch, grant := x.grant, claim := x.claim, inst := i.id, sheet := no, ridx := ridx
    fieldxy := BitVec.ofNat 64 (no * 2 ^ 48 + i.h * 2 ^ 40 + i.w * 2 ^ 32 + k * 2 ^ 16 + fy * 2 ^ 8 + fx)
    stage := BitVec.ofNat 64 (i.nstage * 2 ^ 8 + fx % i.nstage)
    tindex := BitVec.ofNat 32 tindex, rank := rank, gm1 := i.g - 1, home := 16 * u + slot, notBefore := notBefore
    red := { ckpt := some arch } }

/-- Dispatch the gang of tile number k of a replica (R134): pages, event registers, links, mailboxes, threads. `at?` is the cycle
of the first fetch of slot 0. -/
def State.dispatchTile (s : State) (i : Inst) (no ridx k u ctx at? : Nat) : State :=
  let bind := i.bindMask
  let pages := footPages bind i.migr
  let r := s.pagesOut u i.part ctx pages
  let s := r.2
  let wait := if i.form then at? else max at? (s.now + 64 * r.1)
  let g : Gang :=
    { inst := i.id, sheet := no, ridx := ridx, fx := k % i.w, fy := k / i.w, ctx := ctx, bind := bind,
      foot := BitVec.ofNat 16 ((shareMask bind i.migr).map fun b => 2 ^ b).sum,
      areas := BitVec.ofNat 16 ((areaMask bind i.migr).map fun b => 2 ^ b).sum, chk := i.chk, chkLive := i.chk,
      acct := bits (recWord i.recw 1) 40 32, form := i.form }
  let s := s.modTile u fun x =>
    { pages.foldl (fun x p => x.freshPage ctx p) x with
      gang := some g, saving := none, ev := {}, links := Vector.replicate 4 {}, mail := Vector.replicate 4 {}
      arrivals := []
      mx := { x.mx with rot := {} }
      icache := if i.form then [] else x.icache, sent := 0, recv := 0, discarded := false }
  let s := if i.form then s.dropFetches u else s
  let base := s.ctxBase i.part ctx
  let s := (span 0 9).foldl (fun s j => { s with dram := s.dram.wrWord (base + 0x50808 + 8 * j) 0 }) s
  let s := (span 0 16).foldl (fun s slot => s.modTh (16 * u + slot) fun x => { x.emptied with tcIssued := 0, tcWmem := 0, tcWmsg := 0, tcVac := 0, cls := .vacant }) s
  if i.kind = 2 then s
  else
    ((maskBits bind).zipIdx).foldl (fun s p =>
      s.setTh (16 * u + p.1) (s.firstThread i no ridx k u p.1 p.2 ctx (if i.form then wait + p.1 else wait))) s

/-- Dispatch every tile of the replicas of a sheet; the replicas at one position share a tag. -/
def State.dispatchSheet (s : State) (i : Inst) (sh : Sheet) (ctxs : List Nat) (at? : Nat) : State :=
  (sh.tiles.zipIdx).foldl (fun s r =>
    (r.1.zipIdx).foldl (fun s p => s.dispatchTile i sh.no r.2 p.2 p.1 (ctxs.getD p.2 0) at?) s) s

/-! ### Placement (R132, R133, R136, R137) -/

/-- Change an instance. -/
def State.modInst (s : State) (n : Nat) (f : Inst → Inst) : State :=
  { s with insts := s.insts.map fun i => if i.id = n then f i else i }

/-- Change a sheet of an instance. -/
def Inst.modSheet (i : Inst) (no : Nat) (f : Sheet → Sheet) : Inst :=
  { i with sheets := i.sheets.map fun x => if x.no = no then f x else x }

/-- The tile is taken by a sheet that has been placed and has not ended. -/
def State.taken (s : State) (u : Nat) : Bool :=
  s.insts.any fun i => i.sheets.any fun x => !x.ended && x.tiles.any fun ts => ts.any fun v => v = u

/-- The tile is kept for a FORM sheet that has not dispatched yet (R133). -/
def State.reserved (s : State) (u : Nat) : Bool :=
  s.insts.any fun i => i.sheets.any fun x => x.dispatch.isSome && x.tiles.any fun ts => ts.any fun v => v = u

/-- A tile is free for a new gang: unfenced, holding no gang, being saved or restored for none. -/
def State.tileFree (s : State) (u : Nat) : Bool :=
  let x := s.tile u
  !x.fenced && !x.fenceAsk && x.gang.isNone && x.saving.isNone && (x.saved.all fun v => v.due.isNone) && !s.reserved u && (!s.taken u || x.saved.any fun v => v.ready)

/-- Number of the next sheet of an instance. -/
def Inst.nextSheet (i : Inst) : Nat := i.sheets.length

/-- An instance has a sheet not yet placed. -/
def Inst.unplaced (i : Inst) : Bool := decide (i.nextSheet < i.nsheets) && !i.aborted

/-- An instance has a gang that was pre-empted and waits to resume. -/
def State.waiting (s : State) (i : Inst) : Bool := s.tiles.any fun e => e.2.saved.any fun v => decide (v.gang.inst = i.id)

/-- The head of a level of a die (R136). -/
def State.head (s : State) (die level : Nat) : Option Inst :=
  s.insts.find? fun i => decide (i.die = die) && decide (i.pri = level) && (i.unplaced || s.waiting i)

/-- The rectangles that an instance's next sheet can take at once, and the context tags. A tile on which a gang of the same
instance waits to resume is not taken, and a TEST node takes no tile with
a saved gang (R422, DEDUCED, log entry 12). -/
def State.canPlace (s : State) (i : Inst) : Option (List (List Nat) × List Nat) :=
  if !i.unplaced then none
  else
    match (s.partn i.part).placeSheet i fun u =>
      s.tileFree u && !(s.tile u).saved.any fun v => decide (v.gang.inst = i.id) || decide (i.kind = 2) with
    | none => none
    | some rs => (s.freeCtx i.part (i.w * i.h)).map fun cs => (rs, cs)

/-- Place the next sheet of an instance: a free sheet dispatches at once, a FORM sheet at a frame start after the write-out of
its pages (R133, R378). DEDUCED, log entry 12. -/
def State.placeNow (s : State) (i : Inst) (rs : List (List Nat)) (ctxs : List Nat) : State :=
  let no := i.nextSheet
  let held (u : Nat) : Nat := ((footPages i.bindMask i.migr).filter fun p => (s.tile u).heldPage (4096 * p)).length
  let wait := ((rs.flatMap id).map fun u => 64 * held u).foldl max 0
  let d := (s.now + wait + 48) / 48 * 48
  let sh : Sheet := { no := no, tiles := rs, dispatch := if i.form then some d else none }
  let s := s.modInst i.id fun i => { i with sheets := i.sheets ++ [sh] }
  if i.form then s else s.dispatchSheet i sh ctxs (s.now + 1)

/-- Try the levels from n - 1 down to 0: the first head that can place its next sheet places it (R136). DEDUCED, log entry 12. -/
def State.tryPlace (s : State) (die : Nat) : Nat → State
  | 0 => s
  | n + 1 =>
    match s.head die n with
    | none => s.tryPlace die n
    | some i =>
      match s.canPlace i with
      | some (rs, cs) => s.placeNow i rs cs
      | none => s.tryPlace die n

/-- The tiles that the head of a level would have pre-empted for its next sheet (R137). -/
def State.victims (s : State) (die level : Nat) : List Nat :=
  match s.head die level with
  | none => []
  | some i =>
    if !i.unplaced || (s.canPlace i).isSome || decide (i.kind = 2) then []
    else
      let victim (u : Nat) : Bool :=
        match (s.tile u).gang with
        | some g => (s.inst g.inst).any fun j => j.preempt && decide (j.pri < level) && !j.form && decide (j.kind ≠ 2)
        | none => false
      match (s.partn i.part).placeSheet i fun u => s.tileFree u || (!(s.tile u).fenced && !(s.tile u).fenceAsk && victim u) with
      | none => []
      | some rs => (rs.flatMap id).filter fun u => !s.tileFree u && (s.tile u).saving.isNone

/-! ### Release, end and abort (R140, R141, R378) -/

/-- A tile is released (R140), and with it a replica that was dropped (R396). -/
def State.releaseTile (s : State) (u : Nat) : State :=
  let s := (s.retireGang u).dropLinks u
  let s := (span (16 * u) 16).foldl (fun s t => s.modTh t fun x => if x.red.dropped then x.emptied else x) s
  s.modTile u fun x => { x with gang := none, saving := none, sent := 0, recv := 0, arrivals := [] }

/-- Count what the tiles of an ended sheet sent and received into the instance. -/
def State.bank (s : State) (inst : Nat) (tiles : List Nat) : State :=
  let a := (tiles.map fun u => (s.tile u).sent).sum
  let b := (tiles.map fun u => (s.tile u).recv).sum
  s.modInst inst fun i => { i with sentX := i.sentX + a, recvX := i.recvX + b }

/-- A sheet ends: its tiles are released at once. -/
def State.endSheet (s : State) (i : Inst) (x : Sheet) : State :=
  let ts := x.tiles.flatMap id
  let s := s.bank i.id ts
  let s := ts.foldl (fun s u => s.releaseTile u) s
  s.modInst i.id fun i => i.modSheet x.no fun y => { y with ended := true }

/-- Count an end of a predecessor in a successor's record (R141). A TEST record is no COMPUTE record and was launched by no write of system
software: it is refused. DESIGN CHOICE, log entry 48. -/
def State.successor (s : State) (i : Inst) (idx : Nat) : State :=
  let l : Launch :=
    { win := i.win, die := i.die, part := i.part, pasid := i.pasid, nbase := i.nbase, ncount := i.ncount, node := idx,
      tag := i.tag, aux := BitVec.ofNat 64 (i.tag.toNat * 2 ^ 32 + idx) }
  if i.ncount ≤ idx then s.enqueue l
  else
    let a := nodeBase i.die (i.nbase + idx) + 0x50
    let w := s.nodes.rdWord a
    let n := if bits w 27 16 = 0 then bits w 43 32 else bits w 27 16
    let put (v : Nat) : State := { s with nodes := s.nodes.wrWord a (BitVec.ofNat 64 (w.toNat - bits w 27 16 * 2 ^ 16 + v * 2 ^ 16)) }
    if n ≤ 1 then (put 0).enqueue l else put (n - 1)

/-- The successors of an instance: up to eight of SUCCA and SUCCB. An NSUCC of 9 to 15, which no step of R131 checks, is 8.
DESIGN CHOICE, log entry 48. -/
def Inst.successors (i : Inst) : List Nat :=
  (span 0 (min 8 (bits (recWord i.recw 10) 3 0))).map fun k =>
    bits (recWord i.recw (11 + k / 4)) (16 * (k % 4) + 11) (16 * (k % 4))

/-- An instance ends with DONE: its completion word, then its successors (R141). -/
def State.endInst (s : State) (i : Inst) : State :=
  let s := s.complete i.recw i.die i.win i.part i.pasid i.tag 0x00
  let s := { s with insts := s.insts.filter fun j => j.id ≠ i.id }
  i.successors.foldl (fun s k => s.successor i k) s

/-- The commands of an instance on a tile's engines and in its journal are gone, and so are its saved gangs; a fence that has
waited for those takes effect (R426). -/
def Tile.cancel (x : Tile) (inst : Nat) : Tile :=
  let rest := x.saved.filter fun v => v.gang.inst ≠ inst
  let now := x.fenceAsk && rest.isEmpty && x.gang.isNone
  { x with
    fenced := x.fenced || now
    fenceAsk := x.fenceAsk && !now
    copies := x.copies.filter fun c => c.inst ≠ inst
    copyElts := x.copyElts.filter fun e => (x.copies.filter fun c => c.inst ≠ inst).any fun c => c.no = e.no
    indexes := x.indexes.filter fun c => c.inst ≠ inst
    journal := x.journal.filter fun e => e.2.inst ≠ inst
    saved := rest }

/-- An instance is aborted with a status in its completion word (R141). -/
def State.abort (s : State) (n : Nat) : State :=
  match s.inst n with
  | none => s
  | some i =>
    let mine (t : Nat) : Bool := decide ((s.th t).inst = n)
    let keys := (s.threads.filter fun e => decide (e.2.inst = n)).map (·.1)
    let tiles := (i.sheets.filter fun x => !x.ended).flatMap fun x => x.tiles.flatMap id
    let held := (s.tiles.filter fun e => e.2.saved.any fun v => decide (v.gang.inst = n)).map (·.1)
    -- waiters leave the words' queues
    let s := keys.foldl (fun s t => s.unqueue (unitOf t) false t) s
    let pages (s : State) (u : Nat) : State :=
      (s.tile u).saved.foldl (fun s v =>
        if v.gang.inst = n then
          s.modTile u fun x =>
            { x with
              pages := x.pages.filter fun e => e.2 ≠ v.gang.ctx
              mx := x.mx.freeUnits (BitVec.ofNat 16 v.gang.ctx) }
        else s) s
    let s := held.foldl pages s
    let s := s.tiles.keys.foldl (fun s u => s.modTile u fun x => x.cancel n) s
    let own (o : Owner) : Bool := match o with | .icache _ => false | .nobody => false | _ => true
    let pkts := s.pkts.map fun p => if p.inst = n && own p.owner then { p with owner := .nobody, stale := true } else p
    let qt := s.qt.map fun q =>
      { q with
        running := if (q.running.map (·.inst)) = some n then none else q.running
        queue := q.queue.filter fun c => c.inst ≠ n
        saved := q.saved.filter fun c => c.inst ≠ n }
    let fa := s.fa.map fun f =>
      { f with queue := f.queue.filter fun c => c.inst ≠ n, running := f.running.filter fun c => decide (c.2.inst ≠ n) || c.2.dropped }
    let s : State :=
      { s with
        pkts := pkts
        qt := qt
        fa := fa
        notices := s.notices.filter fun x => !mine x.1
        monRegs := s.monRegs.filter fun r => !mine r.thread
        monNotes := s.monNotes.filter fun r => !mine r.thread }
    let s := keys.foldl (fun s t => s.modTh t Thread.emptied) s
    let s := tiles.foldl (fun s u =>
      if ((s.tile u).gang.map (·.inst)) = some n then
        (s.modTile u fun x => { x with mx := { x.mx with queue := [], rot := {}, fills := [] } }).releaseTile u
      else s) s
    let s := s.complete i.recw i.die i.win i.part i.pasid i.tag 0x06
    { s with insts := s.insts.filter fun j => j.id ≠ n }

end Sys2Proof.Machine
end

