-- ==== Sys2Proof/Machine/Task.lean ====
section
/-! DEFINITION. Migration, SPAWN, EXIT, barriers, FOLLOW and TID (R124, R125, R166, R174 to R184, R206). -/

namespace Sys2Proof.Machine

/-! ### Migration (R174 to R176, R206) -/

/-- MIGR on the value of its base: CapCheck with MIGR, then the space. On the own tile nothing is to be done. DEDUCED, log entry 18. -/
def migrBody (s : State) (i : Instr) (c : Val) (ea : Int) : Acc Done :=
  match capTrap s c ea 1 permMIGR with
  | some (k, w) => .trap k w
  | none =>
    if c.space ≠ 1 then .trap Cause.capPerm (wordOf ea)
    else
      match s.resolveTile s.cur (ea.toNat % 2 ^ 30) with
      | none => .trap Cause.access (wordOf ea)
      | some v =>
        if v = unitOf s.cur then .ok { s := s }
        else (startMigration s i v (wordOf ea) false).andThen fun s => .leave s

/-- MIGR (R174). -/
def execMigr (a : Reg) (off : BitVec 18) (s : State) : Out :=
  fin s (issue s (.migr a off) [.reg a] [] .none fun ws _ s =>
    migrBody s (.migr a off) (arg ws 0) ((arg ws 0).addr.toNat + off.toInt))

/-- The registration of an armed line of a thread (R164, R166): none when its address reaches nothing. -/
def State.lineReg (s : State) (t idx : Nat) (m : MonLine) : Option MonReg :=
  match m.space with
  | 0 => some { key := lineKey (unitOf t) (m.line.toNat % 2 ^ 20), thread := t, idx := idx, own := true }
  | 1 =>
    (s.resolveTile t (m.line.toNat % 2 ^ 30)).map fun v =>
      { key := lineKey v (m.line.toNat % 2 ^ 20), thread := t, idx := idx, own := decide (v = unitOf t) }
  | _ =>
    match s.walkVa (s.partOf (unitOf t)) (s.pasidOf t) m.line.toNat with
    | .error _ => none
    | .ok (l, e) =>
      some
        { key := physKey (pteNode e) (pteHost e) (ptePa e + m.line.toNat % 2 ^ levelLo l), thread := t, idx := idx, own := false }

/-- Register every armed line of a thread again; every trigger bit and RESET are set (R166). -/
def State.rearm (s : State) (t : Nat) : State :=
  let regs := ((s.th t).mons.toList.zipIdx).filterMap fun p => p.1.bind fun m => s.lineReg t p.2 m
  let s : State :=
    { s with
      monRegs := (s.monRegs.filter fun r => r.thread ≠ t) ++ regs
      monNotes := s.monNotes.filter fun r => r.thread ≠ t }
  s.modTh t fun x => { x with monReset := true, mons := x.mons.map fun m => m.map fun l => { l with trig := true } }

/-- Give the engine commands and notices of a thread the key it has from now on. -/
def State.rekey (s : State) (t nt : Nat) : State :=
  let k (n : Nat) : Nat := if n = t then nt else n
  let s :=
    s.modTile (unitOf t) fun x =>
      { x with
        copies := x.copies.map fun c => { c with thread := k c.thread }
        indexes := x.indexes.map fun c => { c with thread := k c.thread }
        mx := { x.mx with queue := x.mx.queue.map fun c => { c with thread := k c.thread } } }
  { s with
    notices := s.notices.map fun p => (k p.1, p.2)
    qt := s.qt.map fun q =>
      { q with
        running := q.running.map fun c => { c with thread := k c.thread }
        queue := q.queue.map fun c => { c with thread := k c.thread } }
    fa := s.fa.map fun f =>
      { f with
        queue := f.queue.map fun c => { c with thread := k c.thread }
        running := f.running.map fun c => (c.1, { c.2 with thread := k c.2.thread }) } }

/-- Carry the REFUSED entries es of a thread from unit u into the lowest free entries of the destination, and rewrite the TADDR of
their pending traps (R206). -/
def State.carryEntries (s : State) (u t nt : Nat) : List Nat → State
  | [] => s
  | e :: es =>
    match s.freeEntry (unitOf nt) with
    | none => s
    | some f =>
      let j := s.jr u e
      let s := (s.setJr (unitOf nt) f { j with thread := nt, slot := slotOf nt }).setJr u e {}
      let s :=
        s.modTh nt fun x =>
          { x with
            pend := x.pend.map fun p =>
              if (p.cause = Cause.remoteRefused ∨ p.cause = Cause.mboxFull) ∧ p.taddr.toNat = e then
                { p with taddr := BitVec.ofNat 64 (f + 2 ^ 32) }
              else p }
      s.carryEntries u t nt es

/-- The marks that carryEntries leaves on rewritten indices are taken off again. -/
def plainIndex (x : Thread) : Thread :=
  { x with
    pend := x.pend.map fun p =>
      if (p.cause = Cause.remoteRefused ∨ p.cause = Cause.mboxFull) ∧ 2 ^ 32 ≤ p.taddr.toNat then
        { p with taddr := BitVec.ofNat 64 (p.taddr.toNat - 2 ^ 32) }
      else p }

/-- The architectural state of a thread that arrives in a guest slot (R176). ACCTAG is not carried and has a free value.
DEDUCED, log entry 18. -/
def arriveArch (a : Arch) (slot : Nat) (grant : Bool) (acct : BitVec 16) : Arch :=
  let area := 0xF0000 + 0x1000 * slot
  { a with
    regs := Vector.ofFn fun k => if a.mlive.getLsbD k.val then a.regs[k] else {}
    status := { a.status with guest := true, following := false, dbg := grant }
    tstack := exactCap 0 (permR ||| permW ||| permSYS) area (area + 0x1000) (BitVec.ofNat 64 area)
    tcause := 0
    taddr := 0
    tepc := {}
    tsave := {}
    dcause := 0
    acctag := acct }

/-- The destination of a migration runs a gang of the thread's instance whose node has MIGR (R175). -/
def State.takesGuests (s : State) (v inst : Nat) : Bool :=
  match (s.tile v).gang, s.inst inst with
  | some g, some i => decide (g.inst = inst) && i.migr && (s.tile v).saving.isNone
  | _, _ => false

/-- A refused migration: the thread stays and traps (R175). -/
def migrationRefused (s : State) (t : Nat) : State :=
  let x := s.th t
  let ea : Word := match x.held.result with | some a => a.bits.extractLsb' 0 64 | none => 0
  let s := s.modTile (unitOf t) fun y => { y with sent := y.sent - 1 }
  let ilen := match x.insn with | some i => i.bytes / 4 | none => 0
  { trapEntry { s with cur := t } Cause.remoteRefused ea x.arch.pc ilen with cur := s.cur }

/-- The thread takes guest slot k of its destination. DEDUCED, log entry 18. -/
def State.arrive (s : State) (t nt : Nat) (again : Bool) : State :=
  let u := unitOf t
  let x := s.th t
  let y := s.th nt
  let r := s.free
  let s := r.2
  let s :=
    match x.held.place with
    | some l => s.freePlace u l
    | none => s
  let arch := arriveArch x.arch (slotOf nt) y.grant (r.1.extractLsb' 0 16)
  let pc := match x.insn with | some i => if again then arch.pc else nextPC arch.pc i.bytes | none => arch.pc
  let z : Thread :=
    { x with
      run := .running
      arch := { arch with pc := pc }
      held := if again then { links := x.held.links, pops := x.held.pops } else {}
      insn := if again then x.insn else none
      issue := { y.issue with insn := none }
      engWait := false
      cls := y.cls
      tcIssued := y.tcIssued
      tcWmem := y.tcWmem
      tcWmsg := y.tcWmsg
      tcVac := y.tcVac
      grant := y.grant
      claim := y.claim
      stopAsk := none
      stepping := false
      passBp := false }
  let refused := (span 0 32).filter fun e => decide ((s.jr u e).thread = t) && decide ((s.jr u e).state = .refused)
  let s := { s with monRegs := s.monRegs.filter fun r => r.thread ≠ t, monNotes := s.monNotes.filter fun r => r.thread ≠ t }
  let s := (s.setTh nt z).modTh t Thread.emptied
  let s := (s.carryEntries u t nt refused).modTh nt plainIndex
  ((s.rekey t nt).rearm nt).countRecv (unitOf nt) x.inst

/-- The lowest free guest slot of a tile. -/
def State.guestSlot (s : State) (v : Nat) : Option Nat :=
  (span 12 4).find? fun k => match (s.th (16 * v + k)).run with | .vacant => true | _ => false

/-- The REFUSED entries that a thread takes along (R206). -/
def State.carried (s : State) (t : Nat) : Nat :=
  ((span 0 32).filter fun e => decide ((s.jr (unitOf t) e).thread = t) && decide ((s.jr (unitOf t) e).state = .refused)).length

/-- A migration joins those that wait at the interface of a tile, which holds four; a further one waits at its sender (R206).
DEDUCED, log entry 18. -/
def State.waitArrival (s : State) (v t : Nat) : State :=
  s.modTile v fun x => if x.arrivals.length < 4 then { x with arrivals := x.arrivals ++ [t] } else x

/-- A migration waits at the interface of a tile no more. -/
def State.unArrive (s : State) (v t : Nat) : State := s.modTile v fun x => { x with arrivals := x.arrivals.filter fun k => k ≠ t }

/-- MIGRATION_ARRIVAL (R175, R176, R206): the thread lands in a guest slot, waits for one or for journal entries behind those that
came before it, or is refused. -/
def execMigrationArrival (t : Nat) (s : State) : Out :=
  fin s
    (match (s.th t).run with
     | .migrating v again =>
       let q := (s.tile v).arrivals
       if !s.takesGuests v (s.th t).inst then migrationRefused (s.unArrive v t) t
       else if q.any fun k => k = t then
         (if q.head? ≠ some t then s
          else
            match s.guestSlot v with
            | none => s
            | some k => if 32 < s.inUse v + s.carried t then s else (s.unArrive v t).arrive t (16 * v + k) again)
       else if !q.isEmpty then s.waitArrival v t
       else
         (match s.guestSlot v with
          | none => s.waitArrival v t
          | some k => if 32 < s.inUse v + s.carried t then s.waitArrival v t else s.arrive t (16 * v + k) again)
     | _ => s)

/-! ### SPAWN (R178) -/

/-- The checks of the patch capability. -/
def spawnCheck (s : State) (b : Val) (n : Nat) : Option (Nat × Word) :=
  if n = 0 then none
  else
    match capTrap s b b.addr.toNat (32 * n) permR with
    | some p => some p
    | none =>
      if b.space ≠ 0 then some (Cause.access, b.addr)
      else if b.addr.toNat % 32 ≠ 0 then some (Cause.align, b.addr)
      else (s.localCheck b b.addr.toNat (32 * n) false).map fun k => (k, b.addr)

/-- The patch entries in the own scratchpad. -/
def spawnPatches (x : Tile) (off n : Nat) : List Patch :=
  (List.range n).map fun k => (List.range 4).map fun j => x.word (off + 32 * k + 8 * j)

/-- SPAWN on the values of its operands. -/
def spawnBody (s : State) (i : Instr) (a b : Val) (n : Nat) : Acc Done :=
  match spawnCheck s b n with
  | some (k, w) => .trap k w
  | none =>
    match atRelease s i 0x10 [a, b] id with
    | some s' => .leave s'
    | none =>
      if !s.fenced s.cur .sys || s.ownWrites s.cur then .wait .waitMem
      else if !s.leads s.cur then .ok { s := s }
      else
        match s.inst s.me.inst with
        | none => .ok { s := s }
        | some x =>
          if n ≠ 0 ∧ (s.tile (unitOf s.cur)).bad? b.addr.toNat (32 * n) then .leave (badRead s i b.addr b.addr.toNat (32 * n))
          else
            let ps := spawnPatches (s.tile (unitOf s.cur)) b.addr.toNat n
            let s := if n = 0 then s else (s.readErrors (unitOf s.cur) b.addr.toNat (32 * n)).localPort b.addr.toNat (32 * n) false
            .ok
              { s :=
                  s.enqueue
                    { win := x.win, die := x.die, part := x.part, pasid := x.pasid, nbase := x.nbase, ncount := x.ncount,
                      node := bits a.lo 11 0, tag := a.lo.extractLsb' 32 32, aux := a.lo, patches := some ps, sys := false } }

/-- SPAWN (R178). -/
def execSpawn (a : Src) (b : Reg) (pcount : BitVec 8) (s : State) : Out :=
  fin s (issue s (.spawn a b pcount) [a, .reg b] [] .none fun ws _ s =>
    spawnBody s (.spawn a b pcount) (arg ws 0) (arg ws 1) pcount.toNat)

/-! ### EXIT (R180) -/

/-- EXIT (R180). -/
def execExit (s : State) : Out :=
  fin s (issue s .exit [] [] .none fun _ _ s =>
    match atRelease s .exit 0x0C [] id with
    | some s' => .leave s'
    | none => .leave ((s.exitThread s.cur).modMe fun x => { x with cls := .issued }))

/-! ### Barriers (R181, R182) -/

/-- A barrier: the vote of a redundant thread, the wait of FENCE.REL, the arrival, and the phase at release. -/
def barBody (s : State) (i : Instr) (field : Bool) : Acc Done :=
  match s.me.held.result with
  | some a => Done.value s (val64 (a.bits.extractLsb' 0 64))
  | none =>
    match atRelease s i (if field then 0x0B else 0x0A) [] id with
    | some s' => .leave s'
    | none =>
      if !s.fenced s.cur (if field then .pkg else .tile) then .wait .waitMem
      else
        let s := leaveFor s i (.barrier field)
        .leave (if field then s.tryField s.me else s.tryGang s.me)

/-- BAR.GANG (R181). -/
def execBarGang (d : Dst) (s : State) : Out :=
  fin s (scalar s (.barGang d) d [] fun _ s => barBody s (.barGang d) false)

/-- BAR.FIELD (R181). -/
def execBarField (d : Dst) (s : State) : Out :=
  fin s (scalar s (.barField d) d [] fun _ s => barBody s (.barField d) true)

/-! ### FOLLOW (R183) -/

/-- The thread's tile may follow: it is a follower tile whose leader lies in the thread's sheet. DEDUCED, log entry 19. -/
def State.mayFollow (s : State) (t : Nat) : Bool :=
  let u := unitOf t
  match s.sheetOf t with
  | some (_, x) =>
    decide (leaderOf u ≠ u) && !isSys u && (x.tiles.getD (s.th t).ridx []).any fun v => decide (v = leaderOf u)
  | none => false

/-- FOLLOW with its join address: it waits, fails, or joins and issues the leader's instruction at once. DEDUCED, log entry 19. -/
def followBody (s : State) (i : Instr) (join : Word) : Acc Done :=
  if !s.mayFollow s.cur then .trap Cause.access 0
  else
    match joinState s join with
    | none => .leave ((leaveFor s i (.joining join)).modMe fun x => { x with cls := .waitMsg })
    | some none => Done.value s (val64 0)
    | some (some j) =>
      let s :=
        s.modMe fun x =>
          { x with
            arch := { x.arch with status := { x.arch.status with following := true } }
            issue := { cyc := s.now, pc := join, insn := some j, trapped := false } }
      .ok { s := { s with agenda := j :: s.agenda }, r := .val (val64 1), pc := some join }

/-- FOLLOW (R183). -/
def execFollow (d : Dst) (off : BitVec 18) (s : State) : Out :=
  fin s (scalar s (.follow d off) d [] fun _ s =>
    followBody s (.follow d off) (s.me.arch.pc + wordOf (4 * off.toInt)))

/-! ### TID (R184) -/

/-- The identity of a thread. The G of a node with GM1 16 to 31 reaches into bit 40. DESIGN CHOICE, log entry 48. -/
def Thread.tid (x : Thread) : Word := BitVec.ofNat 64 (x.gm1 * 2 ^ 36 + x.rank * 2 ^ 32 + x.tindex.toNat)

/-- TID (R184). -/
def execTid (d : Dst) (s : State) : Out := fin s (scalar s (.tid d) d [] fun _ s => Done.value s (val64 s.me.tid))

end Sys2Proof.Machine
end

