-- ==== Sys2Proof/Machine/Delivery.lean ====
section
/-! DEFINITION. What arrives: requests at ports and stations, answers, instruction-cache blocks, link values, notices, timeouts, and
asynchronous traps (R95, R103, R108, R112, R114 to R117, R161, R164, R165, R168, R192, R199 to R203, R207, R216, R362 to R365, R399). -/

namespace Sys2Proof.Machine

/-! ### Form windows (R115) -/

/-- FORM_WINDOW_DEPARTURE (R115). -/
def execFormWindowDeparture (p : Nat) (s : State) : Out :=
  fin s
    (match s.pkt p with
     | none => s
     | some q => if s.departs q then s.modPkt p fun q => q.leave s.now else s)

/-! ### Ports of tiles (R116) -/

/-- Order of service of two arrived packets of the form class: arrival cycle, then source row and column. -/
def arrivesBefore (q p : Packet) : Bool :=
  decide (q.due < p.due)
    || (decide (q.due = p.due)
        && (decide (pyOf q.src < pyOf p.src)
            || (decide (pyOf q.src = pyOf p.src)
                && (decide (pxOf q.src < pxOf p.src) || (decide (pxOf q.src = pxOf p.src) && decide (q.id < p.id))))))

/-- A message, which the engine port takes (R185). -/
def Req.isMessage : Req → Bool
  | .message _ _ => true
  | _ => false

/-- No form packet waits at the remote port of a tile that is served before this one; messages go by the engine port, and a request
that must follow another of its own thread is not ready (R185, R216). -/
def State.portFirst (s : State) (u : Nat) (p : Packet) : Bool :=
  !(p.form && s.pkts.any fun q =>
    q.form && decide (q.stage = .flying) && !q.back && decide (q.target = .tile u) && decide (q.due ≤ s.now) && !q.req.isMessage
      && !s.held u q && arrivesBefore q p)

/-- REMOTE_PORT_SERVICE (R116, R161, R192): a tile's port serves a request that has arrived. Messages and packets of a drain have
events of their own. -/
def execRemotePortService (p : Nat) (s : State) : Out :=
  fin s
    (match s.pkt p with
     | none => s
     | some q =>
       match q.target, q.req with
       | _, .message _ _ => s
       | _, .drain _ _ _ _ => s
       | .tile u, _ => if s.canServe u q && s.portFirst u q then s.portServe u q else s
       | .station _, _ => s)

/-! ### Stations (R199 to R203, R216) -/

/-- Where a GLOBAL request goes as the translation stands, and the ORD of its page. -/
def State.peek (s : State) (p : Packet) : Option (Phys × Nat) :=
  let at? (l : Nat) (e : Word) : Phys × Nat :=
    ({ node := pteNode e, host := pteHost e, pa := ptePa e + p.addr % 2 ^ levelLo l }, pteOrd e)
  match p.target with
  | .tile _ => none
  | .station k =>
    match (s.station k).find (ctxKey p.part p.pasid) p.addr with
    | some e => some (at? e.level e.leaf)
    | none => match s.walkVa p.part p.pasid p.addr with | .ok (l, e) => some (at? l e) | .error _ => none

/-- Two requests of one thread stay in order: they touch one dword, or both go to pages of ORD 0 (rows 1 and 4 of R216).
DEDUCED, log entry 5. -/
def State.keptOrder (s : State) (q p : Packet) : Bool :=
  match s.peek q, s.peek p with
  | some (a, oa), some (b, ob) =>
    (decide (a.node = b.node) && decide (a.host = b.host) && decide (a.pa / 8 ≤ (b.pa + p.req.size - 1) / 8)
        && decide (b.pa / 8 ≤ (a.pa + q.req.size - 1) / 8))
      || (decide (oa = 0) && decide (ob = 0))
  | _, _ => decide (q.addr / 8 = p.addr / 8)

/-- A request to a station that its thread has issued and that has not been performed. -/
def Packet.unperformed (q : Packet) : Bool :=
  !q.back && (match q.target with | .station _ => true | .tile _ => false)
    && (match q.owner with | .thread _ => true | .journal _ _ => true | _ => false)
    && (decide (q.stage = .flying) || decide (q.stage = .queued) || decide (q.stage = .walking) || decide (q.stage = .reserved))

/-- An earlier request of the same thread must be performed first. DEDUCED, log entry 5. -/
def State.heldBack (s : State) (p : Packet) : Bool :=
  (match p.owner with | .thread _ => true | .journal _ _ => true | _ => false)
    && s.pkts.any fun q => decide (q.id < p.id) && decide (q.thread = p.thread) && q.unperformed && s.keptOrder q p

/-- A request of the form class is served in time for its answer to land 720 cycles after its issue, whatever the traffic
(R117, R202). DESIGN CHOICE, log entry 6. -/
def Packet.pressing (p : Packet) (now : Nat) : Bool :=
  p.form && (decide (p.stage = .queued) || decide (p.stage = .flying)) && decide (p.issue + 719 ≤ now)

/-- A request has come to its station. -/
def Packet.atStation (p : Packet) (now : Nat) : Bool :=
  !p.back && ((decide (p.stage = .flying) && decide (p.due ≤ now)) || p.pressing now)

/-- One read of the quadtree engine for a QNODE: n bytes at an address under the walk's capability, which follow what the thread has
written there before; a failure is the instruction's trap (R310). DEDUCED, log entry 26. -/
def State.qnodeRead (s : State) (p : Packet) (w : QWalk) (a : Word) (n : Nat) (k : Nat → State) : State :=
  let va := a.toNat % 2 ^ 57
  if s.heldBack { p with addr := va, req := .read n false } then s
  else
    match s.globalRd p.part p.pasid va n with
    | .ok bs => k (leNat bs)
    | .error e => s.answer p.id (.trapped e.1 (if w.words.length < 8 then w.node else a))

/-- The walk of a QNODE goes on from what it has read (R310). -/
def State.qnodeNext (s : State) (p : Packet) (w : QWalk) : State :=
  let go (w : QWalk) : State :=
    if w.words.length = 8 ∧ w.places.length ≤ w.vals.length then s.answer p.id w.answer
    else s.modPkt p.id fun q => { q with req := .qnode w }
  if w.words.length = 8 ∧ w.vals = [] then
    match w.next with
    | .error (k, a) => s.answer p.id (.trapped k a)
    | .ok w => go w
  else go w

/-- The next read of the walk of a QNODE: a dword of a record, or a payload element (R310). -/
def State.qnodeStep (s : State) (p : Packet) (w : QWalk) : State :=
  let need (a : Word) (n : Nat) : Option Nat := capCheck w.cap a.toNat n permR false p.sys
  if w.words.length < 8 then
    match need w.node 64 with
    | some k => s.answer p.id (.trapped k w.node)
    | none =>
      if w.node.toNat % 64 ≠ 0 then s.answer p.id (.trapped Cause.qshape w.node)
      else
        s.qnodeRead p w (w.node + BitVec.ofNat 64 (8 * w.words.length)) 8 fun v =>
          s.qnodeNext p { w with words := w.words ++ [BitVec.ofNat 64 v] }
  else
    match w.places[w.vals.length]? with
    | none => s.answer p.id w.answer
    | some a =>
      match need a w.record.e with
      | some k => s.answer p.id (.trapped k a)
      | none => s.qnodeRead p w a w.record.e fun v => s.qnodeNext p { w with vals := w.vals ++ [v] }

/-- STATION_ACCESS (R199, R203): the home station serves a request that has arrived, or the quadtree engine of the die answers
(R309, R310). DEDUCED, log entry 5. -/
def execStationAccess (p : Nat) (s : State) : Out :=
  fin s
    (match s.pkt p with
     | none => s
     | some q =>
       match q.target, q.req with
       | .station _, .qstat =>
         if q.atStation s.now then s.answer p (.data (val128 (s.qstatValue (dieOf q.src) q.part q.pasid (BitVec.ofNat 64 q.addr)))) else s
       | .station _, .qnode w => if q.atStation s.now then s.qnodeStep q w else s
       | .station k, _ => if q.atStation s.now && s.firstOut q && !s.heldBack q then s.stationServe k q else s
       | .tile _, _ => s)

/-- The requests that are joined to a walk of a station, in arrival order. -/
def State.joined (s : State) (k : Nat) (w : Walk) : List Packet :=
  let ps := s.pkts.filter fun p =>
    decide (p.stage = .walking) && decide (p.target = .station k) && decide (ctxKey p.part p.pasid = w.ctx)
      && s.samePage p.part p.pasid w.va p.addr
  ps.foldr (fun p l =>
    let before := l.takeWhile fun q => decide (q.due < p.due) || (decide (q.due = p.due) && decide (q.id < p.id))
    before ++ [p] ++ l.drop before.length) []

/-- Answer the requests of a walk that has found a leaf; one that must follow an earlier request of its thread comes again.
DEDUCED, log entry 39. -/
def State.walkAnswer (s : State) (level : Nat) (leaf : Word) : List Packet → State
  | [] => s
  | p :: ps =>
    (if s.heldBack p then s.modPkt p.id fun q => { q with stage := .flying } else s.leafPerform p level leaf).walkAnswer level leaf ps

/-- Requests that wait for a walk which no station runs any more come again. -/
def State.unjoin (s : State) (k : Nat) : State :=
  { s with
    pkts := s.pkts.map fun p =>
      if p.stage = .walking ∧ p.target = .station k ∧ !s.walkFor k p then { p with stage := .flying } else p }

/-- Walk n of a station, one of the 64 that run, ends: its translation is cached, and every joined request is answered. -/
def State.walkEnd (s : State) (st n : Nat) : State :=
  match if n < 64 then (s.station st).walks[n]? else none with
  | none => s
  | some w =>
    let ps := s.joined st w
    let s := s.modStation st fun x => { x with walks := x.walks.eraseIdx n }
    let part := w.ctx / 2 ^ 20
    let s :=
      match s.walkVa part (w.ctx % 2 ^ 20) w.va with
      | .error c => ps.foldl (fun (s : State) (p : Packet) => s.answer p.id (.refused c)) s
      | .ok (l, e) =>
        let s :=
          if w.noCache then s
          else s.modStation st fun x => x.cache { ctx := w.ctx, level := l, vpn := w.va / 2 ^ levelLo l, leaf := e }
        s.walkAnswer l e ps
    s.unjoin st

/-- PAGE_WALK_END (R199 to R201). -/
def execPageWalkEnd (st n : Nat) (s : State) : Out := fin s (s.walkEnd st n)

/-! ### Answers (R108, R207, R399) -/

/-- The leader of a redundant thread hands the answer of an external request to the other replicas (R399). -/
def State.handOn (s : State) (t : Nat) (p : Packet) : State :=
  let x := s.th t
  let ext := match p.target with | .station _ => true | .tile v => !(s.leaderTiles t).any fun w => w = v
  if x.redundant && s.leads t && ext then s.leaderPush (s.leaderKey t) p.answer.wide else s

/-- What the answer of a request leaves in a thread that keeps it for later (R379). A refused MARM has armed nothing. -/
def Thread.keepReply (x : Thread) (p : Packet) : Thread :=
  let x := { x with held := { x.held with result := some p.answer } }
  match p.req, p.answer with
  | .arm k, .refused _ => { x with mons := x.mons.setIfInBounds k none }
  | _, _ => x

/-- The answer of a thread's request lands: in a running thread the instruction completes; a thread that is saved, or whose tile
is being saved, keeps the answer (R379). -/
def State.threadReply (s : State) (t : Nat) (p : Packet) : State :=
  if s.isSaved t p.inst && !s.alive t p.inst then s.modSaved t p.inst fun x => x.keepReply p
  else if p.stale then s
  else
    let s := (s.handOn t p).modTh t fun x => x.keepReply p
    if (s.tile (unitOf t)).saving.isSome then s else s.resume t p.answer

/-- REPLY_LANDS (R108): the answer of an off-tile request lands, at a thread or at the copy engine. -/
def execReplyLands (p : Nat) (s : State) : Out :=
  fin s
    (match s.pkt p with
     | none => s
     | some q =>
       if !s.lands q then s
       else
         match q.owner with
         | .thread t => (s.dropPkt p).threadReply t q
         | .copy u n => (s.dropPkt p).copyReply u n q.answer
         | .nobody => s.dropPkt p
         | _ => s)

/-- ICACHE_MISS_FILL (R207): a block lands, and every slot that waits for it goes on; a refusal is the fault of each. -/
def execIcacheMissFill (p : Nat) (s : State) : Out :=
  fin s
    (match s.pkt p with
     | none => s
     | some q =>
       match q.owner with
       | .icache u =>
         if !s.lands q then s
         else
           let s := s.dropPkt p
           let ctx := ctxKey q.part q.pasid
           let s :=
             match q.answer with
             | .bytes b => if q.stale then s else s.modTile u fun x => x.install { va := q.addr, ctx := ctx, bytes := b }
             | _ => s
           let waits (t : Nat) : Bool :=
             decide ((s.th t).run = .fetching) && decide ((s.th t).arch.pc.toNat % 2 ^ 57 / 32 * 32 = q.addr) && decide (s.fetchCtx t = ctx)
           ((span (16 * u) 16).filter waits).foldl (fun s t =>
             s.modTh t fun x => { x with run := .running, held := { x.held with result := some q.answer } }) s
       | _ => s)

/-! ### Waits that end (R103, R108, R112, R164, R165) -/

/-- LINK_VALUE_ARRIVAL (R112): a value that has landed is receivable from its cycle on, by what `State.linkQ` holds of it; the matrix
engine of the tile takes one in each cycle at the cycle's beginning (R246, R257). -/
def execLinkValueArrival (_ : Nat) (_ : Link) (s : State) : Out := fin s s

/-- THREAD_REJOIN (R108): a thread whose wait has ended completes its instruction at its turn. -/
def execThreadRejoin (t : Nat) (s : State) : Out :=
  let x := s.th t
  fin s
    (if slotOf t ≠ s.now % 16 || x.canTrap || (s.tile (unitOf t)).saving.isSome then s
     else
       match x.run with
       | .mwait _ => if x.mwaitReady then s.resume t (.data {}) else s
       | .waiti _ => if !x.pend.isEmpty then s.resume t (.data {}) else s
       | .released ph frm => if frm ≤ s.now then s.resume t (.data (val64 (BitVec.ofNat 64 ph))) else s
       | _ => s)

/-- MONITOR_TRIGGER_NOTICE (R164): a notice lands, and the trigger bit of the line is set. -/
def execMonitorTriggerNotice (t line : Nat) (s : State) : Out :=
  fin s
    (match s.monNotes.find? fun r => decide (r.thread = t) && decide (r.idx = line) with
     | none => s
     | some r =>
       let s : State := { s with monNotes := s.monNotes.erase r }
       s.modTh t fun x =>
         { x with mons := x.mons.setIfInBounds line ((x.mons.toList.getD line none).map fun m => { m with trig := true }) })

/-- A timeout of a wait has passed. -/
def passed (u? : Option Nat) (now : Nat) : Bool :=
  match u? with
  | some k => decide (k ≤ now)
  | none => false

/-- MWAIT_TIMEOUT (R165). -/
def execMwaitTimeout (t : Nat) (s : State) : Out :=
  fin s
    (match (s.th t).run with
     | .mwait u => if passed u s.now && !(s.th t).canTrap && (s.tile (unitOf t)).saving.isNone then s.resume t (.data (val64 1)) else s
     | _ => s)

/-- WAITI_TIMEOUT (R103). -/
def execWaitiTimeout (t : Nat) (s : State) : Out :=
  fin s
    (match (s.th t).run with
     | .waiti u => if passed u s.now && !(s.th t).canTrap && (s.tile (unitOf t)).saving.isNone then s.resume t (.data {}) else s
     | _ => s)

/-! ### Asynchronous traps (R95, R362 to R365, R401) -/

/-- The thread's deadline is reached while TIMER is armed. -/
def Thread.timerDue (x : Thread) (tstamp : Word) : Bool :=
  x.arch.timerArmed && decide (x.arch.deadline ≠ 0xFFFFFFFFFFFFFFFF) && decide (x.arch.deadline.toNat ≤ tstamp.toNat)
    && (match x.run with | .vacant => false | _ => true)

/-- TIMER, once the deadline is reached: it becomes pending, and its arming ends; in a redundant thread the leader's deadline counts
(R365, R401). -/
def State.timerNow (s : State) (t : Nat) : State :=
  let x := s.th t
  if x.timerDue (s.stampOf (unitOf t)) && s.leads t then
    let off (s : State) (k : Nat) : State := s.modTh k fun x => { x with arch := { x.arch with timerArmed := false } }
    let s := (if x.redundant then s.replicaKeys t else [t]).foldl off s
    s.raise (unitOf t) t x.inst Cause.timer x.arch.deadline
  else s

/-- TIMER (R365). -/
def execTimer (t : Nat) (s : State) : Out := fin s (s.timerNow t)

/-- ASYNC_TRAP_ENTRY (R95, R364): the oldest pending trap is taken at a boundary of the slot's turn; a wait that it interrupts is
abandoned. -/
def execAsyncTrapEntry (t : Nat) (s : State) : Out :=
  fin s
    (let s := { s with cur := t }
     let x := s.me
     match x.pend with
     | [] => s
     | p :: ps =>
       if !x.canTrap || !abandonable x || slotOf t ≠ s.now % 16 then s
       else
         let s := abandonWait s
         let s := s.modMe fun x => { x with pend := ps, red := { x.red with boundary := false } }
         let s := s.modTile (unitOf t) fun y => y.signal 15
         trapEntry s p.cause p.taddr s.me.arch.pc 0)

/-- TRAP_NOTICE_ARRIVAL (R362): a notice reaches its thread, wherever the thread is; of a thread that has exited the monitor core
is told. -/
def execTrapNoticeArrival (n : Nat) (s : State) : Out :=
  fin s
    (match s.notices[n]? with
     | none => s
     | some (t, p) =>
       let s : State := { s with notices := s.notices.eraseIdx n }
       match (s.th t).run with
       | .vacant =>
         (match (s.tile (unitOf t)).saved.find? fun v => v.threads.any fun e => e.1 = t with
          | some v => s.modSaved t v.gang.inst fun x => x.addPend p
          | none => sendRecord s t recOrphan p.cause p.taddr 0)
       | _ => s.modTh t fun x => x.addPend p)

end Sys2Proof.Machine
end

