-- ==== Sys2Proof/Machine/Event.lean ====
section
/-! DEFINITION. The event logic of a tile: EVCFG, EVRD, and what a cycle does to the counters (R416 to R421). -/

namespace Sys2Proof.Machine

/-! ### Definitions of derived events (R418) -/

/-- SEL i of a definition. -/
def evSel (v : Word) (i : Nat) : Nat := bits v (5 * i + 4) (5 * i)
/-- OP of a definition. -/
def evOp (v : Word) : Nat := bits v 29 28
/-- THR of a definition. -/
def evThr (v : Word) : Nat := bits v 27 25
/-- EN of a definition. -/
def evEn (v : Word) : Bool := bit v 30

/-- A definition that EVCFG accepts as definition n (R421). -/
def evOk (v : Word) (n : Nat) : Bool :=
  decide (bits v 63 31 = 0) && !bit v 24
    && ((List.range 4).all fun i =>
      let k := evSel v i
      !(decide (24 ≤ k) && decide (k ≤ 30)) && !(decide (16 + n ≤ k) && decide (k ≤ 23)))
    && (if evOp v = 3 then decide (1 ≤ evThr v) && decide (evThr v ≤ 4) else decide (evThr v = 0))
    && (decide (evOp v ≠ 2) || ([1, 2, 3].all fun i => decide (evSel v i = 31)))

/-- EDGE j of EVHEDGE. -/
def hEdge (v : Word) (j : Nat) : Nat := bits v (8 * j + 7) (8 * j)

/-- The edges rise strictly from 1 on (R421). -/
def hEdgesOk (v : Word) : Bool :=
  decide (1 ≤ hEdge v 0) && (List.range 6).all fun j => decide (hEdge v j < hEdge v (j + 1))

/-! ### EVCFG and EVRD (R421) -/

/-- Change the event logic of a unit. -/
def State.modEv (s : State) (u : Nat) (f : Events → Events) : State := s.modTile u fun x => { x with ev := f x.ev }

/-- EVCFG (R421). -/
def execEvcfg (a : Reg) (n : Fin 8) (s : State) : Out :=
  fin s (needPriv (awake s) (.evcfg a n) fun s =>
    issue s (.evcfg a n) [.reg a] [] .none fun ws _ s =>
      let v := (arg ws 0).lo
      if !evOk v n.val then .trap Cause.access v
      else
        .ok
          { s := s.modEv (unitOf s.cur) fun e =>
              { e with
                defs := e.defs.set n v
                cnt := e.cnt.set n 0
                newDefs := e.newDefs ||| (1 : BitVec 8) <<< n.val } })

/-- EVCFG.HIST (R421). -/
def execEvcfgHist (a : Reg) (src : Fin 8) (s : State) : Out :=
  fin s (needPriv (awake s) (.evcfgHist a src) fun s =>
    issue s (.evcfgHist a src) [.reg a] [] .none fun ws _ s =>
      let v := (arg ws 0).lo
      if !hEdgesOk v || decide (bits v 62 60 ≠ 0) then .trap Cause.access v
      else
        .ok
          { s := s.modEv (unitOf s.cur) fun e =>
              { e with
                hedge := v ||| (BitVec.ofNat 64 src.val <<< 60)
                hist := Vector.replicate 8 0
                run := 0 } })

/-- EVRD on the value of its selector. -/
def evrdBody (s : State) (a : Word) (clr : Bool) : Acc Done :=
  let u := unitOf s.cur
  let num := bits a 11 0
  let slot := if num < 0x104 then bits a 15 12 else slotOf s.cur
  match s.evGet u slot num with
  | none => .trap Cause.access (BitVec.ofNat 64 num)
  | some v =>
    let s := if clr then s.evSet u slot num 0 else s
    .ok { s := s, r := .val (val128 (s.cycleOf u ++ v)) }

/-- EVRD (R421). -/
def execEvrd (d : Dst) (a : Reg) (s : State) : Out :=
  fin s (scalar s (.evrd d a) d [.reg a] fun ws s => evrdBody s (arg ws 0).lo false)

/-- EVRD.CLR (R421). -/
def execEvrdClr (d : Dst) (a : Reg) (s : State) : Out :=
  fin s (needPriv (awake s) (.evrdClr d a) fun s =>
    scalar s (.evrdClr d a) d [.reg a] fun ws s => evrdBody s (arg ws 0).lo true)

/-! ### One cycle of the event logic (R418, R419) -/

/-- The value of an input, none when it is unused. -/
def evInput (raw : BitVec 16) (derived : BitVec 8) (v : Word) (i : Nat) : Option Bool :=
  let k := evSel v i
  if k < 16 then some (raw.getLsbD k ^^ bit v (20 + i))
  else if k < 24 then some (derived.getLsbD (k - 16) ^^ bit v (20 + i))
  else none

/-- A derived event in a cycle; `was` is input 0 of the last cycle. -/
def evValue (raw : BitVec 16) (derived : BitVec 8) (v : Word) (was : Bool) : Bool :=
  let ins := (List.range 4).map (evInput raw derived v)
  if !evEn v then false
  else
    match evOp v with
    | 0 => ins.all fun x => x.getD true
    | 1 => ins.any fun x => x.getD false
    | 2 => ((ins.headD none).getD false) && !was
    | _ => decide (evThr v ≤ (ins.filter fun x => x.getD false).length)

/-- Every derived event of a cycle, the lower ones first. -/
def Events.derived (e : Events) (raw : BitVec 16) : BitVec 8 :=
  (List.range 8).foldl (fun d n =>
    if !e.newDefs.getLsbD n && evValue raw d (e.defs.toList.getD n 0) (e.prevIn.getLsbD n) then d ||| (1 : BitVec 8) <<< n else d) 0

/-- Input 0 of every definition in a cycle. -/
def Events.inputs (e : Events) (raw : BitVec 16) (d : BitVec 8) : BitVec 8 :=
  (List.range 8).foldl (fun m n =>
    if (evInput raw d (e.defs.toList.getD n 0) 0).getD false then m ||| (1 : BitVec 8) <<< n else m) 0

/-- The bin of a run of length n (R419). -/
def hBin (v : Word) (n : Nat) : Nat :=
  ((List.range 7).filter fun j => decide (hEdge v j * 2 ^ bits v 59 56 ≤ n)).length

/-- Add one to entry k of counters. -/
def bump {n : Nat} (v : Vector Word n) (k : Nat) : Vector Word n := v.setIfInBounds k (v.toList.getD k 0 + 1)

/-- The event logic at the end of a cycle: counters and histogram, unless frozen; the raw signals are cleared. DEDUCED, log entry 35. -/
def Events.cycle (e : Events) (raw : BitVec 16) : Events :=
  let d := e.derived raw
  let cnt := if e.freeze then e.cnt else (List.range 8).foldl (fun c n => if d.getLsbD n then bump c n else c) e.cnt
  let on := d.getLsbD (bits e.hedge 62 60)
  let hist := if !e.freeze && bit e.hedge 63 && !on && decide (0 < e.run) then bump e.hist (hBin e.hedge e.run) else e.hist
  { e with cnt := cnt, hist := hist, run := if on then e.run + 1 else 0, prev := d, prevIn := e.inputs raw d, raw := 0, newDefs := 0 }

/-- The ready histogram at the end of a rotation (R416). -/
def Events.rotation (e : Events) (issued : Bool) (last : Bool) : Events :=
  let n := if issued then e.issued + 1 else e.issued
  if last then { e with issued := 0, rdyh := if e.freeze then e.rdyh else bump e.rdyh n } else { e with issued := n }

/-- A turn is counted in its class (R416). -/
def Thread.countTurn (x : Thread) : Thread :=
  match x.cls with
  | .vacant => { x with tcVac := x.tcVac + 1 }
  | .issued => { x with tcIssued := x.tcIssued + 1 }
  | .waitMem => { x with tcWmem := x.tcWmem + 1 }
  | .waitMsg => { x with tcWmsg := x.tcWmsg + 1 }

/-- The running matrix command of a tile waits for a link value (R257). -/
def State.engineStarved (s : State) (u : Nat) : Bool :=
  match (s.tile u).mx.queue with
  | c :: _ =>
    (match c.op, c.start with
     | .mul x, some _ => (match x.link with | some l => decide (c.took.length < x.values) && !s.receivable u l | none => false)
     | _, _ => false)
  | [] => false

/-- The raw signals of a tile at the end of a cycle (R418): those set by what happened in it, and those that the state shows.
DEDUCED, log entry 35. -/
def State.rawSignals (s : State) (u : Nat) (qt : Bool) : BitVec 16 :=
  let x := s.tile u
  let put (b : Bool) (n : Nat) : BitVec 16 := if b then (1 : BitVec 16) <<< n else 0
  let mx := x.mx.queue.any fun c => c.start.isSome
  let queued := s.pkts.any fun p => p.inWindow && decide (p.sender = u)
  let link := ((span (16 * u) 16).any fun t => (s.th t).linkWait) || s.engineStarved u
  let miss := s.pkts.any fun p => decide (p.owner = .icache u) && !p.stale
  x.ev.raw ||| put (mx || !x.copyElts.isEmpty || !x.mx.fills.isEmpty) 3 ||| put mx 4 ||| put (!x.copies.isEmpty) 5
    ||| put (!x.indexes.isEmpty) 6 ||| put queued 7 ||| put x.discarded 9 ||| put (!x.feq.isEmpty) 10
    ||| put (s.freeEntry u).isNone 11 ||| put link 8 ||| put miss 12 ||| put qt 14

/-- The measurements of one tile at the end of a cycle. DEDUCED, log entry 35. -/
def State.measure (s : State) (u : Nat) (qt : Bool) : State :=
  let raw := s.rawSignals u qt
  let slot := s.now % 16
  let t := 16 * u + slot
  let gang := (s.tile u).gang.isSome
  let x := s.th t
  let s := if gang && !(s.tile u).ev.freeze then s.setTh t x.countTurn else s
  s.modTile u fun y =>
    let e := y.ev.cycle raw
    { y with
      discarded := false
      gang := y.gang.map fun g => { g with chkLive := g.chk }
      ev := if gang then e.rotation (decide (x.cls = .issued)) (decide (slot = 15)) else e }

end Sys2Proof.Machine
end

