-- ==== Sys2Proof/Machine/Redundant.lean ====
section
/-! DEFINITION. Votes of redundant threads, and RSYNC, RSTAT and RINJ (R388 to R406). -/

namespace Sys2Proof.Machine

/-! ### RSYNC, RSTAT and RINJ (R404 to R406) -/

/-- RSYNC (R405). -/
def execRsync (a : Src) (s : State) : Out :=
  fin s (issue s (.rsync a) [a] [] .none fun ws _ s =>
    match atRelease s (.rsync a) 0x0E [arg ws 0] id with
    | some s' => .leave s'
    | none => .ok { s := s })

/-- What RSTAT writes to D. -/
def Thread.rstat (x : Thread) : Val := if x.redundant then val128 (x.red.lastSig ++ x.redstat) else {}

/-- RSTAT (R405). -/
def execRstat (d : Dst) (s : State) : Out :=
  fin s (scalar s (.rstat d) d [] fun _ s =>
    (leaderValue s (.rstat d) s.me.rstat).andThen fun (v, s) => Done.value s v)

/-- L of the present thread (R388). -/
def State.level (s : State) : Nat := ((s.inst s.me.inst).map Inst.replicas).getD 1

/-- The descriptor of RINJ is in order (R406). -/
def rinjOk (v : Word) (l : Nat) : Bool :=
  decide (bits v 63 48 = 0) && decide (bits v 15 10 = 0) && decide (bits v 7 2 = 0) && decide (bits v 9 8 < 2)
    && decide (bits v 1 0 < l) && decide (bits v 47 28 % 8 = 0) && (decide (bits v 9 8 = 0) || decide (bits v 27 21 < 64))

/-- The flip (R406). -/
def rinjFlip (s : State) (v : Word) : State :=
  let b := bits v 27 21
  if bits v 9 8 = 0 then
    s.modArch fun a =>
      let r := bits v 20 16
      let old := a.regs.toList.getD r {}
      { a with regs := a.regs.setIfInBounds r { old with data := old.data ^^^ (1 : Quad) <<< b } }
  else
    s.modTile (unitOf s.cur) fun x =>
      let off := bits v 47 28
      { x with spad := x.spad.wrWord off (x.spad.rdWord off ^^^ (1 : Word) <<< b) }

/-- RINJ (R406): debug privilege is STATUS.DBG. -/
def execRinj (a : Reg) (s : State) : Out :=
  let s0 := awake s
  fin s
    (if !s0.me.arch.status.dbg then trapAt s0 (.rinj a) Cause.privilege (Instr.rinj a).low
     else
       issue s0 (.rinj a) [.reg a] [] .none fun ws _ s =>
         let v := (arg ws 0).lo
         if !rinjOk v s.level then .trap Cause.access v
         else .ok { s := if bits v 1 0 = s.me.ridx then rinjFlip s v else s })

/-! ### Votes (R393) -/

/-- The signature that a replica has sent. -/
def Vote.sigOf (v : Vote) (ridx : Nat) : Option Word := (v.sigs.find? fun p => p.1 = ridx).map (·.2)

/-- Change the redundancy state of a thread. -/
def State.modRed (s : State) (t : Nat) (f : Redund → Redund) : State := s.modTh t fun x => { x with red := f x.red }

/-- A signature at the start of a region (R397). -/
def freshSig : Word := 0xFFFFFFFFFFFFFFFF

/-- The vote of a group is over, and with it the leader's values of the region (R399). -/
def State.voteOver (s : State) (t : Nat) : State :=
  let leader := s.leaderKey t
  { s with votes := s.votes.filter fun v => v.leader ≠ leader, leaderLogs := s.leaderLogs.filter fun l => l.leader ≠ leader }

/-- The operation of an AMO or RED code (R167). -/
def amoOfCode : Nat → AmoOp
  | 0 => .add
  | 1 => .and
  | 2 => .or
  | 3 => .xor
  | 4 => .min
  | 5 => .max
  | 6 => .minu
  | 7 => .maxu
  | 8 => .swap
  | _ => .cas

/-- The request of a buffered operation. -/
def Buffered.req (b : Buffered) : Req :=
  if b.kind = 5 then .amo (amoOfCode b.op) b.bytes.length (BitVec.ofNat 64 (leNat b.bytes)) 0 true
  else .write b.bytes b.tag (decide (b.kind = 7))

/-- The leader posts buffered operations in their order, as far as its journal and its counts allow (R362, R366, R394).
DEDUCED, log entry 30. -/
def postBuffered (s : State) : List Buffered → State
  | [] => s.modMe fun x => { x with red := { x.red with buf := [] } }
  | b :: bs =>
    if b.own then postBuffered s bs
    else
    let keep := s.modMe fun x => { x with red := { x.red with buf := b :: bs } }
    if s.asyncFull s.cur || (decide (b.kind = 5) && decide (8 ≤ s.me.redPending)) then keep
    else
      match s.freeEntry (unitOf s.cur) with
      | none => keep
      | some e =>
        let s := s.post b.kind b.space b.op b.bytes.length b.addr b.req e
        let s := if b.kind = 5 then s.modMe fun x => { x with redPending := x.redPending + 1 } else s
        postBuffered s bs

/-- A replica goes on from an agreed release: its instruction takes its effect, or, after a forced checkpoint, the instruction that
needed an entry is executed (R394). `due` tells whether a trap of the leader is pending, so that every replica takes it at the same
boundary (R401). DEDUCED, log entry 30. -/
def agreeOne (due : Bool) (s : State) (t : Nat) : State :=
  s.modTh t fun x =>
    let forced := decide (x.red.vote = some 0x0D)
    let r := x.red
    { x with
      run := .running
      red :=
        { r with
          buf := []
          undo := []
          sig := freshSig
          lastSig := r.sig
          relno := r.relno + 1
          failed := false
          vote := none
          taken := 0
          due := due
          agreed := !forced
          boundary := forced
          ckpt := if forced then some x.arch else r.ckpt
          ckptStreams := if forced then x.streams else r.ckptStreams } }

/-- Agreement of a group: the leader's buffered operations first; while some wait for room the vote stays open (R394).
DEDUCED, log entry 30. -/
def State.agree (s : State) (leader : Nat) (keys : List Nat) : State :=
  let s := s.asThread leader fun s => postBuffered s s.me.red.buf
  if (s.th leader).red.buf.isEmpty then (keys.foldl (agreeOne (!(s.th leader).pend.isEmpty)) s).voteOver leader else s

/-! ### Rollback (R395) -/

/-- Put words of an undo record back. -/
def putWords (x : Tile) : Nat → List Byte → List Bool → List Bool → Tile
  | off, bs, f :: fs, g :: gs =>
    let x := { x with spad := x.spad.wrN off (bs.take 8) }
    putWords ((x.setFull off f).setTag off g) (off + 8) (bs.drop 8) fs gs
  | _, _, _, _ => x

/-- Restore the words of a record. -/
def State.undoOne (s : State) (r : Undo) : State :=
  let s := s.modTile r.unit fun x => putWords x r.addr r.bytes r.full r.tags
  (touched 8 r.addr r.bytes.length).foldl (fun s w => s.serveFe r.unit (8 * w)) s

/-- What a thread waits for is given up: its queue, its packets, the place it holds. -/
def State.cancelWait (s : State) (t : Nat) : State :=
  let s := match (s.th t).run with | .feWait _ => s.unqueue (unitOf t) false t | _ => s
  let s : State :=
    { s with pkts := s.pkts.map fun p => if p.owner = .thread t then { p with owner := .nobody, stale := true } else p }
  s.asThread t dropHeld

/-- A replica restores its undo records, latest first, and drops its buffered operations. -/
def State.undoAll (s : State) (t : Nat) : State :=
  let s := (s.th t).red.undo.reverse.foldl State.undoOne s
  s.modRed t fun r => { r with buf := [], undo := [] }

/-- A replica rolls back to its checkpoint (R395). -/
def rollback (s : State) (t : Nat) : State :=
  let s := (s.cancelWait t).undoAll t
  s.modTh t fun x =>
    { x with
      run := .running
      arch := x.red.ckpt.getD x.arch
      streams := x.red.ckptStreams
      red :=
        { x.red with
          sig := freshSig
          vote := none
          agreed := false
          boundary := false
          taken := 0
          failed := true
          retry := x.red.retry + 1 } }

/-- A group disagrees: one re-execution, then RED_MISMATCH (R395). The release whose vote failed is that of the first replica, by
RIDX, that has arrived. DEDUCED, log entry 30. -/
def State.disagree (s : State) (v : Vote) (leader : Nat) (keys : List Nat) : State :=
  let again := (s.th leader).red.failed
  let relno := (s.th leader).red.relno
  let at? := (keys.find? fun k => (v.sigOf (s.th k).ridx).isSome).getD leader
  let pc := (s.th at?).arch.pc
  let s := (keys.foldl rollback s).voteOver leader
  if again then
    let s := keys.foldl (fun s k => s.modRed k fun r => { r with last := 3 }) s
    let s := sendRecord s leader recError Cause.redMismatch (BitVec.ofNat 64 (relno + 1)) pc
    keys.foldl (fun s k => s.asThread k fun s => trapEntry s Cause.redMismatch pc s.me.arch.pc 0) s
  else keys.foldl (fun s k => s.modRed k fun r => { r with last := 1 }) s

/-! ### Resync (R396) -/

/-- TADDR of RED_RESYNC. -/
def resyncAddr (t ridx : Nat) : Word :=
  let u := unitOf t
  BitVec.ofNat 64 (ridx * 2 ^ 20 + dieOf u * 2 ^ 12 + yOf u * 2 ^ 8 + xOf u * 2 ^ 4 + slotOf t)

/-- The tile of the replica of thread `t` at the sheet position of tile `u` of the replica of thread `k`. -/
def State.twinTile (s : State) (k t u : Nat) : Nat :=
  match s.sheetOf k with
  | some (_, x) =>
    (match placeIn (x.tiles.getD (s.th k).ridx []) u with
     | some n => (x.tiles.getD (s.th t).ridx []).getD n (unitOf t)
     | none => unitOf t)
  | none => unitOf t

/-- Copy the words that a record of the majority names (R396). -/
def State.copyWords (s : State) (k t : Nat) (r : Undo) : State :=
  s.undoOne { s.undoOf r.unit r.addr r.bytes.length with unit := s.twinTile k t r.unit }

/-- The minority becomes a copy of majority replica k (R396). -/
def State.resync (s : State) (k m : Nat) : State :=
  let s := (s.cancelWait m).undoAll m
  let s := (s.th k).red.undo.foldl (fun s r => s.copyWords k m r) s
  let y := s.th k
  s.modTh m fun x =>
    { x with
      run := .voting
      arch := { y.arch with status := { y.arch.status with ridx := x.arch.status.ridx } }
      streams := y.streams
      insn := y.insn
      held := { y.held with place := none }
      red := { y.red with failed := x.red.failed } }

/-- Two replicas agree against m: the outcome, and RED_RESYNC pending in all three (R396, R403). -/
def State.outvote (s : State) (m : Nat) (keys : List Nat) : State :=
  let ridx := (s.th m).ridx
  let a := resyncAddr m ridx
  let s := keys.foldl (fun s t => s.modRed t fun r => { r with lastMin := ridx, last := 2 }) s
  keys.foldl (fun s t => s.raiseOne (unitOf t) t (s.th t).inst Cause.redResync a) s

/-- Put the open vote of a leader. -/
def State.setVote (s : State) (v : Vote) : State := { s with votes := v :: s.votes.filter fun w => w.leader ≠ v.leader }

/-- The third replica m, which stands at a boundary, is resynced from k and recorded, and the group goes on (R396). -/
def State.joinMajority (s : State) (v : Vote) (leader k m : Nat) (keys : List Nat) : State :=
  let a := resyncAddr m (s.th m).ridx
  let pc := (s.th k).arch.pc
  let s := s.resync k m
  let s := keys.foldl (fun s t => s.modRed t fun r => { r with resync := r.resync + 1 }) s
  let s := sendRecord s m recError Cause.redResync a pc
  (s.setVote { v with sigs := keys.map fun t => ((s.th t).ridx, (s.th k).red.sig), late := none }).agree leader keys

/-- Two replicas with equal signatures, the one of lower RIDX first. -/
def Vote.pair (v : Vote) (s : State) : List Nat → Option (Nat × Nat)
  | [] => none
  | a :: ks =>
    match ks.find? fun b => (v.sigOf (s.th a).ridx).isSome && decide (v.sigOf (s.th a).ridx = v.sigOf (s.th b).ridx) with
    | some b => some (a, b)
    | none => v.pair s ks

/-- The slot stands at a boundary and goes on from it only after a resync: it has stopped for it, or it is halted. -/
def Thread.atStop (x : Thread) : Bool :=
  match x.run with
  | .voting => x.red.stop
  | .halted => true
  | _ => false

/-- The vote unit decides (R393). A replica without a signature counts as disagreeing; with two that agree it is stopped at its next
boundary and resynced then, and the agreement waits for that (R396). -/
def State.decideVote (s : State) (v : Vote) : State :=
  let keys := s.replicaKeys v.leader
  let sig (t : Nat) : Option Word := v.sigOf (s.th t).ridx
  let lead := keys.headD v.leader
  if keys.all fun t => (sig t).isSome && decide (sig t = sig lead) then s.agree lead keys
  else
    match if keys.length = 3 then v.pair s keys else none with
    | none => s.disagree v lead keys
    | some (a, b) =>
      match keys.find? fun t => decide (t ≠ a) && decide (t ≠ b) with
      | none => s.disagree v lead keys
      | some m =>
        if v.late = some m then (if (s.th m).atStop then s.joinMajority v lead a m keys else s)
        else
          let s := s.outvote m keys
          if (sig m).isSome || (s.th m).atStop then s.joinMajority v lead a m keys
          else (s.modRed m fun r => { r with stop := true }).setVote { v with late := some m }

/-- The open vote of a leader. -/
def State.vote (s : State) (n : Nat) : Option Vote := s.votes.find? fun v => v.leader = n

/-- VOTE_DECISION (R393): every signature of the release has arrived. -/
def execVoteDecision (n : Nat) (s : State) : Out :=
  fin s
    (match s.vote n with
     | none => s
     | some v => if v.late.isSome || (s.replicaKeys n).all fun t => (v.sigOf (s.th t).ridx).isSome then s.decideVote v else s)

/-- VOTE_TIMEOUT (R393): 2^20 cycles after the first signature. -/
def execVoteTimeout (n : Nat) (s : State) : Out :=
  fin s
    (match s.vote n with
     | none => s
     | some v => if v.first + 2 ^ 20 ≤ s.now then s.decideVote v else s)

/-- A replica takes no further part (R396). -/
def State.dropReplica (s : State) (t : Nat) : State :=
  let a := resyncAddr t (s.th t).ridx
  let pc := (s.th t).arch.pc
  let s := s.cancelWait t
  let s := s.modTh t fun x => { x with run := .halted, red := { x.red with dropped := true } }
  sendRecord s t recError Cause.redResync a pc

/-- REPLICA_DROP (R396): a replica of three has not answered its stop within a further 2^20 cycles. -/
def execReplicaDrop (t : Nat) (s : State) : Out :=
  let n := s.leaderKey t
  fin s
    (match s.vote n with
     | none => s
     | some v =>
       if v.first + 2 ^ 21 ≤ s.now ∧ v.late = some t ∧ (s.replicaKeys t).length = 3 then
         ((s.dropReplica t).setVote { v with late := none }).decideVote { v with late := none }
       else s)

end Sys2Proof.Machine
end

