-- ==== Sys2Proof/Machine/Felting.lean ====
section
/-! DEFINITION. The felting array of a die: its instructions, the order and timing of its commands, one sweep, and what is saved and
given up of them (R340 to R357, R399). -/

namespace Sys2Proof.Machine

/-! ### Banks (R340 to R342) -/

/-- Cells of a bank. -/
def faCells : Nat := 8192

/-- The felting array of a die. -/
def State.faOf (s : State) (die : Nat) : Felting := s.fa.toList.getD (die % 4) {}

/-- Change the felting array of a die. -/
def State.modFa (s : State) (die : Nat) (f : Felting → Felting) : State :=
  { s with fa := s.fa.set (die % 4) (f s.fa[die % 4]) (Nat.mod_lt _ (by decide)) }

/-- The partition that owns physical bank b of a die, by FABANK. -/
def State.faOwner (s : State) (die b : Nat) : Nat := bits (s.fabank.toList.getD (2 * (die % 4) + b / 8) 0) (8 * (b % 8) + 7) (8 * (b % 8))

/-- The physical banks of a partition on a die, by logical number (R340). -/
def State.faMap (s : State) (die part : Nat) : List Nat := (span 0 16).filter fun b => decide (s.faOwner die b = part) && decide (part < 24)

/-- The number that stands for a bank which a partition has lost to another: it reads as reset, and keeps nothing (R340).
DESIGN CHOICE, log entry 48. -/
def lostBank : Nat := 16

/-- A physical bank. -/
def Felting.bank (x : Felting) (p : Nat) : FaBank := Sparse.get {} x.banks p
/-- Put a physical bank. -/
def Felting.setBank (x : Felting) (p : Nat) (b : FaBank) : Felting :=
  if lostBank ≤ p then x else { x with banks := Sparse.set {} x.banks p b }
/-- Change a physical bank. -/
def Felting.modBank (x : Felting) (p : Nat) (f : FaBank → FaBank) : Felting := x.setBank p (f (x.bank p))
/-- Cell n of physical bank p. -/
def Felting.cell (x : Felting) (p n : Nat) : FaCell := Sparse.get {} x.cells (faCells * p + n)
/-- Put cell n of physical bank p. -/
def Felting.setCell (x : Felting) (p n : Nat) (c : FaCell) : Felting :=
  if lostBank ≤ p then x else { x with cells := Sparse.set {} x.cells (faCells * p + n) c }

/-- A physical bank in the state of R342; the commands that name it for its old owner reach it no more (R340). -/
def Felting.resetBank (x : Felting) (p : Nat) : Felting :=
  let take (c : FaCmd) : FaCmd := { c with map := c.map.map fun q => if q = p then lostBank else q }
  { x with
    banks := Sparse.erase p x.banks
    cells := x.cells.filter fun e => !decide (e.1 / faCells = p)
    bad := x.bad.filter fun e => !decide (e.1 / faCells = p)
    queue := x.queue.map take
    running := x.running.map fun e => (e.1, take e.2) }

/-- The physical bank of logical bank b of a command. -/
def FaCmd.phys (c : FaCmd) (b : Nat) : Nat := c.map.getD b lostBank

/-! ### One sweep (R343 to R345) -/

/-- The counter hash of seeded mode (R344). -/
def faHash (seed : Word) (i : Nat) (sweepNo : BitVec 40) : Nat :=
  let z : Word := seed + BitVec.ofNat 64 (i * 2 ^ 40 + sweepNo.toNat) * 0x9E3779B97F4A7C15
  let z := (z ^^^ (z >>> 30)) * 0xBF58476D1CE4E5B9
  let z := (z ^^^ (z >>> 27)) * 0x94D049BB133111EB
  let z := z ^^^ (z >>> 31)
  bits z 63 48

/-- The field of a cell, from the states in `x` (R343). -/
def Felting.field (x : Felting) (c : FaCmd) (v : FaCell) : Int :=
  v.bias.toInt + (v.coup.map fun p =>
    let j := p.2.toNat
    p.1.toInt * (if (x.cell (c.phys (j / faCells)) (j % faCells)).x then 1 else -1)).sum

/-- The table entry that a field selects: floor(BETA * f / 16) + 512, within 0 to 1023. -/
def tableIndex (beta : BitVec 16) (f : Int) : Nat := (min (max ((beta.toNat : Int) * f / 16 + 512) 0) 1023).toNat

/-- The entries of a table bank. -/
def FaBank.table (b : FaBank) (t : Bool) : List (BitVec 16) := if t then b.tab1 else b.tab0

/-- Rand16: the hash, or the next draw of the entropy source; `n` counts draws. -/
def FaBank.rand (b : FaBank) (i n : Nat) : Nat × Nat :=
  if b.entropy then (bits (Config.entropy n) 15 0, n + 1) else (faHash b.seed i b.sweepNo, n)

/-- Redraw cell k of named bank b in a phase, from the states of `was`. -/
def Felting.redraw (x was : Felting) (c : FaCmd) (b : Nat) (tab : Bool) (k n : Nat) : Felting × Nat :=
  let p := c.phys b
  let v := was.cell p k
  let bk := was.bank p
  let e := ((bk.table tab).getD (tableIndex bk.beta (was.field c v)) 0).toNat
  let r := bk.rand (faCells * b + k) n
  (x.setCell p k { v with x := decide (e = 0xFFFF) || decide (r.1 < e) }, r.2)

/-- One phase: the free cells of a colour in every named bank, at once. -/
def Felting.phase (x : Felting) (c : FaCmd) (col n : Nat) : Felting × Nat :=
  (c.banks.zip c.tabs).foldl (fun y e =>
    (List.range faCells).foldl (fun y k =>
      let v := x.cell (c.phys e.1) k
      if !v.clamp && decide (v.colour.toNat = col) then y.1.redraw x c e.1 e.2 k y.2 else y) y) (x, n)

/-- Add the states of the named banks to their counts. -/
def Felting.count (x : Felting) (c : FaCmd) : Felting :=
  c.banks.foldl (fun x b =>
    (List.range faCells).foldl (fun x k =>
      let v := x.cell (c.phys b) k
      if v.x && decide (v.cnt ≠ 0xFFFF) then x.setCell (c.phys b) k { v with cnt := v.cnt + 1 } else x) x) x

/-- One sweep (R343); `n` counts draws. -/
def Felting.sweep (x : Felting) (c : FaCmd) (n : Nat) : Felting × Nat :=
  let y := (List.range c.k).foldl (fun y col => y.1.phase c col y.2) (x, n)
  let z := if c.cnt then y.1.count c else y.1
  (c.banks.foldl (fun z b => z.modBank (c.phys b) fun k => { k with sweepNo := k.sweepNo + 1 }) z, y.2)

/-- Sweeps of a command. -/
def Felting.sweeps (x : Felting) (c : FaCmd) : Nat → Nat → Felting × Nat
  | 0, n => (x, n)
  | m + 1, n =>
    let y := x.sweep c n
    y.1.sweeps c m y.2

/-- A FASWEEP that counts starts from counts of 0 (R343). -/
def Felting.zeroCounts (x : Felting) (c : FaCmd) : Felting :=
  c.banks.foldl (fun x b =>
    (List.range faCells).foldl (fun x k => x.setCell (c.phys b) k { x.cell (c.phys b) k with cnt := 0 }) x) x

/-! ### Records, clamps and results (R350, R351) -/

/-- Bytes of a record that its header makes the array read. -/
def recordBytes (h : Word) : Nat := 8 + 4 * bits h 26 20

/-- A header that R351 refuses. -/
def badHeader (h : Word) : Bool := decide (bits h 63 27 ≠ 0) || decide (64 < bits h 26 20)

/-- The coupling words of a record's bytes. -/
def recordCouplings (bs : List Byte) (n : Nat) : List Nat := (List.range n).map fun m => leNat ((bs.drop (8 + 4 * m)).take 4)

/-- A coupling word that R351 refuses. -/
def badCoupling (w nb : Nat) : Bool := decide (w / 2 ^ 17 % 128 ≠ 0) || decide (faCells * nb ≤ w % 2 ^ 17)

/-- A cell's fields of a record: X, CL and CNT stay. -/
def loadCell (v : FaCell) (bs : List Byte) : FaCell :=
  let h := bytesWord bs 0
  { v with
    bias := h.extractLsb' 0 16
    colour := h.extractLsb' 16 4
    coup := (recordCouplings bs (bits h 26 20)).map fun w => (BitVec.ofNat 8 (w / 2 ^ 24), BitVec.ofNat 17 w) }

/-- Physical bank and number of a logical cell of a command. -/
def FaCmd.cellAt (c : FaCmd) (i : Nat) : Nat × Nat := (c.phys (i / faCells), i % faCells)

/-- NBR of a physical bank, recomputed from its cells. -/
def Felting.nbr (x : Felting) (p : Nat) : BitVec 16 :=
  (List.range faCells).foldl (fun m k =>
    (x.cell p k).coup.foldl (fun m e => m ||| (1 : BitVec 16) <<< (e.2.toNat / faCells)) m) 0

/-- Load n records, and recompute NBR of the banks touched. -/
def Felting.load (x : Felting) (c : FaCmd) (n : Nat) : Felting :=
  let y := (List.range n).foldl (fun y j =>
    let a := c.cellAt (c.first + j)
    y.setCell a.1 a.2 (loadCell (y.cell a.1 a.2) ((c.bytes.drop (264 * j)).take 264))) x
  ((touched faCells c.first n).map c.phys).foldl (fun y p => y.modBank p fun b => { b with nbr := y.nbr p }) y

/-- Clamp n cells by their codes. -/
def Felting.clamp (x : Felting) (c : FaCmd) (n : Nat) : Felting :=
  (List.range n).foldl (fun y j =>
    let a := c.cellAt (c.first + j)
    let code := bits (bytesWord c.bytes (j / 32)) (2 * (j % 32) + 1) (2 * (j % 32))
    y.setCell a.1 a.2 { y.cell a.1 a.2 with x := decide (code % 2 = 1), clamp := decide (2 ≤ code) }) x

/-- The first n cells of a range have been written: no error is left in them. DESIGN CHOICE, log entry 47. -/
def Felting.rewritten (x : Felting) (c : FaCmd) (n : Nat) : Felting :=
  { x with
    bad := x.bad.filter fun e =>
      !(List.range n).any fun j => let a := c.cellAt (c.first + j); decide (faCells * a.1 + a.2 = e.1) }

/-- Size of the area of a command (R350). -/
def faSize (op : Nat) (f : Bool) (num : Nat) : Nat :=
  match op with
  | 0 => 264 * num
  | 1 => 2048
  | 2 => 8 * ((num + 31) / 32)
  | _ => if f then 8 * ((num + 3) / 4) else 8 * ((num + 63) / 64)

/-- The bytes that FAREAD writes: cells at or beyond its COUNT are 0 (R350, R352). -/
def Felting.readOut (x : Felting) (c : FaCmd) : List Byte :=
  let cell (i : Nat) : FaCell := let a := c.cellAt (c.first + i); x.cell a.1 a.2
  let word (d : Nat) : Nat :=
    if c.f then ((span 0 4).map fun k => if 4 * d + k < c.good then (cell (4 * d + k)).cnt.toNat * 2 ^ (16 * k) else 0).sum
    else ((span 0 64).map fun k => if 64 * d + k < c.good ∧ (cell (64 * d + k)).x then 2 ^ k else 0).sum
  (List.range (faSize 4 c.f c.num / 8)).flatMap fun d => leBytes 8 (word d)

/-- What n sweeps or cells of a command, or a whole one of another form, do to the array; `fresh` counts draws. -/
def Felting.effect (x : Felting) (c : FaCmd) (n fresh : Nat) : Felting × Nat :=
  match c.op with
  | 0 => ((x.load c n).rewritten c n, fresh)
  | 1 =>
    let tab := (List.range 1024).map fun k => BitVec.ofNat 16 (leNat ((c.bytes.drop (2 * k)).take 2))
    ((c.banks.zip c.tabs).foldl (fun x e =>
      x.modBank (c.phys e.1) fun b =>
        { b with
          tab0 := if e.2 then b.tab0 else tab
          tab1 := if e.2 then tab else b.tab1
          active := e.2
          gen := b.gen + 1 }) x, fresh)
  | 2 => ((x.clamp c n).rewritten c n, fresh)
  | 3 => x.sweeps c n fresh
  | 5 => (c.banks.foldl (fun x b => x.modBank (c.phys b) fun k => { k with beta := c.arg.extractLsb' 0 16 }) x, fresh)
  | 6 =>
    (c.banks.foldl (fun x b =>
      x.modBank (c.phys b) fun k => { k with entropy := c.f, seed := if c.f then k.seed else c.arg, sweepNo := 0 }) x, fresh)
  | _ => (x, fresh)

/-! ### Issue (R348, R349) -/

/-- A bank mask that R348 refuses. -/
def badMask (v : Word) (nb : Nat) : Bool :=
  decide (bits v 63 16 ≠ 0) || decide (bits v 15 0 = 0) || decide (2 ^ nb ≤ bits v 15 0)

/-- A range that R348 refuses. -/
def badRange (v : Word) (nb : Nat) : Bool :=
  let num := bits v 49 32
  decide (bits v 63 50 ≠ 0) || decide (bits v 31 17 ≠ 0) || decide (num = 0) || decide (131072 < num)
    || decide (faCells * nb < bits v 16 0 + num)

/-- A value register that R348 refuses. -/
def badValue (op : Nat) (v : Word) : Bool :=
  match op with
  | 3 => decide (bits v 63 32 ≠ 0) || decide (bits v 31 0 = 0)
  | 5 => decide (bits v 63 16 ≠ 0)
  | _ => false

/-- The checks of the completion word's capability (R349). -/
def faCwCheck (s : State) (c : Val) : Option (Nat × Word) :=
  match capTrap s c c.addr.toNat 8 (permR ||| permW) with
  | some p => some p
  | none =>
    if c.space ≠ 0 then some (Cause.access, c.addr)
    else if c.addr.toNat % 8 ≠ 0 then some (Cause.align, c.addr)
    else (reserveRule s.me c c.addr.toNat 8).map fun k => (k, c.addr)

/-- The checks of the area of A (R349, R350). -/
def faAreaCheck (s : State) (op : Nat) (a : Val) (n : Nat) : Option (Nat × Word) :=
  match capTrap s a a.addr.toNat n (if op = 4 then permW else permR) with
  | some p => some p
  | none =>
    if a.space ≠ 0 ∧ ¬ (op = 0 ∧ a.space = 2) then some (Cause.access, a.addr)
    else if a.addr.toNat % 8 ≠ 0 then some (Cause.align, a.addr)
    else if a.space = 2 then none
    else (reserveRule s.me a a.addr.toNat n).map fun k => (k, a.addr)

/-- Felting commands of a tile's running gang that have not ended. -/
def State.faPending (s : State) (die u : Nat) : Nat :=
  let mine (c : FaCmd) : Bool := decide (c.tile = u) && !c.held && !c.ended && !c.dropped
  ((s.faOf die).queue.filter mine).length + ((s.faOf die).running.filter fun e => mine e.2).length

/-- The die whose array serves a thread: its tile's, and for a redundant instance the leader's (R399). -/
def State.faDie (s : State) (t : Nat) : Nat := dieOf (unitOf (if (s.th t).redundant then s.leaderKey t else t))

/-- The form reads a bank mask, not a range. -/
def usesMask (op : Nat) : Bool := decide (op = 1) || decide (op = 3) || decide (op = 5) || decide (op = 6)

/-- The words that a command marks: its completion word, and every word that FAREAD writes (R349). -/
def FaCmd.marks (c : FaCmd) : List Nat :=
  c.cw.toList ++ (if c.op = 4 then (touched 8 (c.area.addr.toNat % 2 ^ 20) (faSize 4 c.f c.num)).map fun k => 8 * k else [])

/-- FAIssue (R349) on the values of the operands; `c` is the completion word's capability. -/
def faIssueBody (s : State) (i : Instr) (op : Nat) (f cnt : Bool) (k : Nat) (a b : Val) (c : Option Val) : Acc Done :=
  let die := s.faDie s.cur
  let u := unitOf s.cur
  let part := s.partOf u
  let map := s.faMap die part
  let nb := map.length
  let num := bits b.lo 49 32
  if s.me.arch.status.form then .trap Cause.timingDeviation 0
  else if (if usesMask op then badMask b.lo nb else badRange b.lo nb) then .trap Cause.faConfig b.lo
  else if badValue op a.lo then .trap Cause.faConfig a.lo
  else if decide (op = 6) && f && s.me.redundant then .trap Cause.faConfig 0
  else
    match c.bind fun c => faCwCheck s c with
    | some (k, w) => .trap k w
    | none =>
      match if op = 3 ∨ op = 5 ∨ op = 6 then none else faAreaCheck s op a (faSize op f num) with
      | some (k, w) => .trap k w
      | none =>
        match atRelease s i 0x0F ([a, b] ++ c.toList) id with
        | some s' => .leave s'
        | none =>
          let x := s.me
          let cmd : FaCmd :=
            { op := op, f := f, tile := u, thread := s.cur, inst := x.inst, epoch := x.epoch, part := part, pasid := s.pasidOf s.cur,
              lead := s.leadOnly true, redundant := x.redundant, map := map,
              banks := if usesMask op then (span 0 16).filter fun k => bit b.lo k else touched faCells (bits b.lo 16 0) num,
              first := bits b.lo 16 0, num := num, arg := a.lo, k := k, cnt := cnt, area := a,
              cw := c.map fun c => c.addr.toNat % 2 ^ 20 }
          let mark (s : State) : State := s.ownMarks cmd.marks.eraseDups
          if s.followOnly true then .ok { s := mark s }
          else if 8 ≤ s.faPending die u then queueWait s i
          else if s.asyncFull s.cur then .wait .waitMem
          else .ok { s := (mark s).modFa die fun x => { x with queue := x.queue ++ [cmd] } }

/-- A form with a completion word. -/
def faForm (s : State) (i : Instr) (op : Nat) (f cnt : Bool) (k : Nat) (a b c : Reg) : State :=
  issue s i [.reg a, .reg b, .reg c] [] .none fun ws _ s => faIssueBody s i op f cnt k (arg ws 0) (arg ws 1) (some (arg ws 2))

/-- A form without a completion word. -/
def faShort (s : State) (i : Instr) (op : Nat) (f : Bool) (a : RegZ) (b : Reg) : State :=
  match a with
  | .reg a => issue s i [.reg a, .reg b] [] .none fun ws _ s => faIssueBody s i op f false 1 (arg ws 0) (arg ws 1) none
  | .zero => issue s i [.reg b] [] .none fun ws _ s => faIssueBody s i op f false 1 {} (arg ws 0) none

/-- FALOAD (R351). -/
def execFaload (a b c : Reg) (s : State) : Out := fin s (faForm s (.faload a b c) 0 false false 1 a b c)

/-- FATABLE (R353). -/
def execFatable (a b c : Reg) (s : State) : Out := fin s (faForm s (.fatable a b c) 1 false false 1 a b c)

/-- FACLAMP (R351). -/
def execFaclamp (a b c : Reg) (s : State) : Out := fin s (faForm s (.faclamp a b c) 2 false false 1 a b c)

/-- FASWEEP (R343). -/
def execFasweep (a b c : Reg) (cnt : Bool) (k : Fin 16) (s : State) : Out :=
  fin s (faForm s (.fasweep a b c cnt k) 3 false cnt (k.val + 1) a b c)

/-- FAREAD.STATE (R350). -/
def execFareadState (a b c : Reg) (s : State) : Out := fin s (faForm s (.fareadState a b c) 4 false false 1 a b c)

/-- FAREAD.COUNT (R350). -/
def execFareadCount (a b c : Reg) (s : State) : Out := fin s (faForm s (.fareadCount a b c) 4 true false 1 a b c)

/-- FABETA (R348). -/
def execFabeta (a : RegZ) (b : Reg) (s : State) : Out := fin s (faShort s (.fabeta a b) 5 false a b)

/-- FASEED.SEEDED (R344). -/
def execFaseedSeeded (a : RegZ) (b : Reg) (s : State) : Out := fin s (faShort s (.faseedSeeded a b) 6 false a b)

/-- FASEED.ENTROPY (R345). -/
def execFaseedEntropy (a : RegZ) (b : Reg) (s : State) : Out := fin s (faShort s (.faseedEntropy a b) 6 true a b)

/-! ### Array order and conflicts (R353) -/

/-- The physical banks that a command writes; FATABLE writes table banks only. -/
def FaCmd.writes (c : FaCmd) : List Nat := if c.op = 1 then [] else c.banks.map c.phys

/-- The physical banks that a command reads: every bank of the partition while the footprint of a FASWEEP is not fixed. -/
def FaCmd.readBanks (c : FaCmd) : List Nat :=
  if c.op = 3 then match c.reads with | some bs => bs.map c.phys | none => c.map else []

/-- The table banks that a command loads or has latched. -/
def FaCmd.tables (c : FaCmd) : List (Nat × Bool) := (c.banks.zip c.tabs).map fun e => (c.phys e.1, e.2)

/-- Two lists share an element. -/
def meets {α : Type} [DecidableEq α] (a b : List α) : Bool := a.any fun x => b.any fun y => x = y

/-- An earlier command that has not ended stands in the way of a later one. -/
def faConflict (e c : FaCmd) : Bool :=
  !e.ended
    && (match decide (e.op = 1), decide (c.op = 1) with
        | true, true => meets (e.banks.map e.phys) (c.banks.map c.phys)
        | true, false => decide (c.op = 3) && meets e.tables c.tables
        | false, true => decide (e.op = 3) && meets e.tables c.tables
        | false, false => meets e.writes (c.writes ++ c.readBanks) || meets e.readBanks c.writes)

/-- An earlier command that has not ended writes a bank that a FASWEEP names. -/
def faBefore (e c : FaCmd) : Bool := !e.ended && meets e.writes (c.banks.map c.phys)

/-- NBR of the banks that a command names, as logical banks. -/
def Felting.nbrOf (x : Felting) (c : FaCmd) : List Nat :=
  (span 0 16).filter fun b => c.banks.any fun k => (x.bank (c.phys k)).nbr.getLsbD b

/-- A command after the commands before it in array order: its read footprint is fixed, or its conflicts are clear. -/
def Felting.advanceCmd (x : Felting) (now : Nat) (before : List FaCmd) (c : FaCmd) : FaCmd :=
  if c.clear.isSome || c.ended then c
  else
    let c :=
      if decide (c.op = 3) && c.reads.isNone && !(before.any fun e => faBefore e c) then { c with reads := some (x.nbrOf c) } else c
    if (decide (c.op = 3) && c.reads.isNone) || before.any (fun e => faConflict e c) then c else { c with clear := some now }

/-- Every command of an array, the earlier ones first. -/
def Felting.advanceAll (x : Felting) (now : Nat) : List FaCmd → List (Nat × FaCmd) → List (Nat × FaCmd)
  | _, [] => []
  | before, (n, c) :: cs =>
    let c' := x.advanceCmd now before c
    (n, c') :: x.advanceAll now (before ++ [c']) cs

/-- What the end or the arrival of a command clears for the others. -/
def State.faClear (s : State) (die : Nat) : State := s.modFa die fun x => { x with running := x.advanceAll s.now [] x.running }

/-- The pending active table bank of a physical bank. -/
def Felting.pending (x : Felting) (p : Nat) : Bool :=
  (x.running.filter fun e => decide (e.2.op = 1) && !e.2.ended && (e.2.banks.map e.2.phys).any fun q => q = p).foldl (fun t _ => !t)
    (x.bank p).active

/-- The table banks that a command chooses or latches at its acceptance. -/
def Felting.chosen (x : Felting) (c : FaCmd) : List Bool :=
  match c.op with
  | 1 => c.banks.map fun b => !x.pending (c.phys b)
  | 3 => c.banks.map fun b => x.pending (c.phys b)
  | _ => []

/-- The GEN that each bank of a FASWEEP will carry once every FATABLE accepted before has ended (R353). -/
def Felting.chosenGens (x : Felting) (c : FaCmd) : List (BitVec 32) :=
  if c.op = 3 then
    c.banks.map fun b =>
      (x.bank (c.phys b)).gen
        + BitVec.ofNat 32 (x.running.filter fun e => decide (e.2.op = 1) && !e.2.ended && (e.2.banks.map e.2.phys).any fun q => q = c.phys b).length
  else []

/-- FA_COMMAND_ACCEPT (R353): the oldest command of one of the tiles that have sent some takes its place; which tile is a free value.
DEDUCED, log entry 29. -/
def execFaCommandAccept (die : Nat) (s : State) : Out :=
  fin s
    (let x := s.faOf die
     let tiles := (x.queue.map (·.tile)).eraseDups
     let r := if tiles.length ≤ 1 then (0, s) else let f := s.free; (f.1.toNat % tiles.length, f.2)
     match x.queue.find? fun c => decide (some c.tile = tiles[r.1]?) with
     | none => s
     | some c =>
       (r.2.modFa die fun x =>
         { x with
           queue := x.queue.erase c
           running := x.running ++ [(x.next, { c with tabs := x.chosen c, gens := x.chosenGens c })]
           next := x.next + 1 }).faClear die)

/-! ### Start (R345, R353 to R355) -/

/-- Read bytes of the area of a command: its cause and address when that fails. -/
def State.faRead (s : State) (c : FaCmd) (at? n : Nat) : Except (Nat × Word) (List Byte) :=
  let ea := c.area.addr + BitVec.ofNat 64 at?
  if c.area.space = 0 then
    let off := ea.toNat % 2 ^ 20
    if (s.tile c.tile).heldAny off n || (s.tile c.tile).bad? off n then .error (Cause.access, ea) else .ok ((s.tile c.tile).rd off n)
  else
    let va := ea.toNat % 2 ^ 57
    match s.globalRd c.part c.pasid va n with
    | .ok bs => .ok bs
    | .error (k, f) => .error (k, ea + BitVec.ofNat 64 (f - va))

/-- The records of a FALOAD from number j on, n of them: their bytes, how many are good, and what ends them. -/
def State.faRecords (s : State) (c : FaCmd) (j : Nat) : Nat → List Byte × Nat × Option (Nat × Word)
  | 0 => ([], 0, none)
  | n + 1 =>
    let here := c.area.addr + BitVec.ofNat 64 (264 * j)
    match s.faRead c (264 * j) 8 with
    | .error e => ([], 0, some e)
    | .ok hb =>
      let h := bytesWord hb 0
      if badHeader h then ([], 0, some (Cause.faConfig, here))
      else
        match s.faRead c (264 * j) (recordBytes h) with
        | .error e => ([], 0, some e)
        | .ok bs =>
          if (recordCouplings bs (bits h 26 20)).any fun w => badCoupling w c.map.length then ([], 0, some (Cause.faConfig, here))
          else
            let r := s.faRecords c (j + 1) n
            ((bs ++ List.replicate (264 - bs.length) 0) ++ r.1, r.2.1 + 1, r.2.2)

/-- The pieces of the area of a command that it reads, from offset 0 on: offset and length. -/
def FaCmd.pieces (c : FaCmd) : List (Nat × Nat) :=
  match c.op with
  | 0 =>
    (List.range (min c.num (c.good + 1))).map fun j =>
      (264 * j, if j < c.good then recordBytes (bytesWord (c.bytes.drop (264 * j)) 0) else 8)
  | 1 => [(0, 2048)]
  | 2 => [(0, faSize 2 false c.num)]
  | _ => []

/-- The errors that a command meets in its area: what is corrected is counted, what is not is recorded (R189). -/
def State.faAreaErrors (s : State) (c : FaCmd) : State :=
  if c.area.space ≠ 0 then s
  else c.pieces.foldl (fun s p => s.readErrors c.tile (c.area.addr.toNat % 2 ^ 20 + p.1) p.2) s

/-- The cells that a command reads, by their place in the array: a FASWEEP those of its banks and their neighbours, a FAREAD its
range in rising order. A load and a clamp write their cells. DESIGN CHOICE, log entry 47. -/
def Felting.reads (x : Felting) (c : FaCmd) (key : Nat) : Bool :=
  decide (key / faCells < lostBank)
    && match c.op with
       | 3 =>
         (c.banks.any fun b => decide (c.phys b = key / faCells))
           || x.cells.any fun e =>
             (c.banks.any fun b => decide (c.phys b = e.1 / faCells))
               && e.2.coup.any fun p =>
                 decide (faCells * c.phys (p.2.toNat / faCells) + p.2.toNat % faCells = key)
       | 4 => (List.range c.num).any fun j => let a := c.cellAt (c.first + j); decide (faCells * a.1 + a.2 = key)
       | _ => false

/-- The cells with errors that a command reads. -/
def Felting.cellErrors (x : Felting) (c : FaCmd) : List (Nat × BitVec 2) := x.bad.filter fun e => x.reads c e.1

/-- How many cells of a FAREAD come before the first that holds an error which is not corrected. -/
def Felting.goodCells (x : Felting) (c : FaCmd) : Nat :=
  (List.range c.num).findIdx fun j => let a := c.cellAt (c.first + j); decide (2 ≤ (Sparse.get 0 x.bad (faCells * a.1 + a.2)).toNat)

/-- The ERROR record of an error of the array that is not corrected (R352): the die, the array, and the bank; row and column are
free. DESIGN CHOICE, log entry 47. -/
def State.faHardError (s : State) (die key : Nat) : State :=
  let r := s.free
  sendQuarter r.2 die recError Cause.access (errorAux 10 1 (key / faCells * 2 ^ 32 + r.1.toNat % 2 ^ 32) 1)

/-- An error of the array that is corrected is counted at its place (R424). DESIGN CHOICE, log entry 47. -/
def State.faSoftError (s : State) (die key : Nat) : State :=
  let k := errorPlace 10 die key
  let c := Sparse.get 0 s.predict k
  if c = 0 ∨ 65535 ≤ c then
    let r := s.free
    let q := r.2.freeCause
    sendQuarter { q.2 with predict := Sparse.set 0 s.predict k 1 } die recError q.1
      (errorAux 10 0 (key / faCells * 2 ^ 32 + r.1.toNat % 2 ^ 32) (max c 1))
  else { s with predict := Sparse.set 0 s.predict k (c + 1) }

/-- What the errors of the cells that are read leave behind. -/
def State.faCellErrors (s : State) (die : Nat) (es : List (Nat × BitVec 2)) : State :=
  es.foldl (fun s e => if e.2 = 1 then s.faSoftError die e.1 else s.faHardError die e.1) s

/-- A command that reads a cell with an error which is not corrected has failed, with what it has done before (R352). -/
def FaCmd.lostCell (c : FaCmd) (done : Nat) : FaCmd := { c with good := min c.good done, failed := some (Cause.access, 0) }

/-- The errors in the array that a command meets at its start. -/
def Felting.meetErrors (x : Felting) (c : FaCmd) : FaCmd :=
  if (x.cellErrors c).any fun e => decide (e.2 ≠ 1) then c.lostCell (if c.op = 4 then x.goodCells c else 0) else c

/-- A command as it starts: what it reads, and whether it fails at once. -/
def State.faBegin (s : State) (die : Nat) (c : FaCmd) : FaCmd :=
  let c := { c with start := some s.now, good := c.num }
  match c.op with
  | 0 => let r := s.faRecords c 0 c.num; { c with bytes := r.1, good := r.2.1, failed := r.2.2 }
  | 3 =>
    if c.redundant && (c.banks.any fun b => ((s.faOf die).bank (c.phys b)).entropy) then
      { c with good := 0, failed := some (Cause.faConfig, 0) }
    else (s.faOf die).meetErrors { c with good := bits c.arg 31 0 }
  | 4 => let c := (s.faOf die).meetErrors c; { c with bytes := (s.faOf die).readOut c }
  | 5 => c
  | 6 => c
  | _ =>
    match s.faRead c 0 (faSize c.op c.f c.num) with
    | .ok bs => { c with bytes := bs }
    | .error e => { c with good := 0, failed := some e }

/-- Change a command of an array. -/
def Felting.modCmd (x : Felting) (n : Nat) (f : FaCmd → FaCmd) : Felting :=
  { x with running := x.running.map fun e => if e.1 = n then (n, f e.2) else e }

/-- The command with a number. -/
def Felting.cmd (x : Felting) (n : Nat) : Option FaCmd := (x.running.find? fun e => e.1 = n).map (·.2)

/-- The command may start: 16 cycles after its conflicts cleared, and not while its gang is saved (R354, R356). -/
def FaCmd.startable (c : FaCmd) (now : Nat) : Bool :=
  c.start.isNone && !c.held && !c.ended && (match c.clear with | some k => decide (k + 16 ≤ now) | none => false)

/-- FA_COMMAND_START (R354). DEDUCED, log entry 29. -/
def execFaCommandStart (die n : Nat) (s : State) : Out :=
  fin s
    (match (s.faOf die).cmd n with
     | none => s
     | some c =>
       if !c.startable s.now then s
       else
         let c' := s.faBegin die c
         ((s.faCellErrors die ((s.faOf die).cellErrors c)).faAreaErrors c').modFa die fun x =>
           let x := x.modCmd n fun _ => c'
           if c.op = 3 ∧ c.cnt ∧ c'.failed.isNone then x.zeroCounts c else x)

/-! ### End (R352, R354) -/

/-- Cycles for which a command occupies its banks from its start on (R354). -/
def FaCmd.cycles (c : FaCmd) : Nat :=
  match c.op with
  | 0 => 4 * c.good
  | 1 => if c.failed.isSome then 0 else 32
  | 3 => 8 * c.k * c.good
  | 5 => 1
  | 6 => 1
  | _ => (c.good + 63) / 64

/-- Cycles from the end of a command to the fill of its completion word: 4 after the last sweep (R354). -/
def FaCmd.tail (c : FaCmd) : Nat := if decide (c.op = 3) && c.failed.isNone then 4 else 0

/-- The command has run for its time; one whose gang is saved ends only when it is short, or was in its last sweep, record or group of
cells (R356). -/
def FaCmd.runOut (c : FaCmd) (now : Nat) : Bool :=
  (!c.held || decide (c.op = 1) || decide (c.op = 5) || decide (c.op = 6) || decide (c.cycles ≤ c.ran)) && !c.ended
    && (match c.start with | some k => decide (k + c.cycles ≤ now) | none => false)

/-- The completion word of an ended command is to be filled (R354). -/
def FaCmd.fillDue (c : FaCmd) (now : Nat) : Bool :=
  c.ended && !c.held && (match c.start with | some k => decide (k + c.cycles + c.tail ≤ now) | none => false)

/-- An end or a fill of the command has come due. -/
def FaCmd.due (c : FaCmd) (now : Nat) : Bool := c.runOut now || c.fillDue now

/-- COUNT of the completion word (R352). -/
def FaCmd.doneCount (c : FaCmd) : Nat := if c.op = 1 then 0 else c.good

/-- Deliver the fills of an ended command, and its trap (R352, R356). -/
def State.faDeliver (s : State) (c : FaCmd) : State :=
  let s :=
    if c.op = 4 then
      let off := c.area.addr.toNat % 2 ^ 20
      s.engPut c.thread c.tile off c.bytes ((touched 8 off c.bytes.length).map fun k => 8 * k) c.lead c.epoch
    else s
  let cause := (c.failed.map (·.1)).getD 0
  let w : Word :=
    BitVec.ofNat 64 ((if c.failed.isSome then 4 else 3) * 2 ^ 56 + (0xE0 + c.op) * 2 ^ 48 + cause * 2 ^ 40 + c.doneCount)
  let s := match c.cw with | some o => s.engFill c.thread c.tile o w c.lead c.epoch | none => s
  match c.failed with
  | some (k, va) => s.engTrap c.thread c.inst k va
  | none => s

/-- Make the effect of n sweeps or cells of a command on the array. -/
def State.faEffect (s : State) (die : Nat) (c : FaCmd) (n : Nat) : State :=
  let r := (s.faOf die).effect c n s.fresh
  { (s.modFa die fun _ => r.1) with fresh := r.2 }

/-- The fills of an ended command, and its place is free. -/
def State.faFills (s : State) (die n : Nat) (c : FaCmd) : State :=
  (s.modFa die fun x => { x with running := x.running.filter fun e => e.1 ≠ n }).faDeliver c

/-- The effect of a command on its banks, which are free from now on. -/
def State.faEnds (s : State) (die n : Nat) (c : FaCmd) : State :=
  let s := if c.failed.isSome && decide (c.op = 1) then s else s.faEffect die c c.good
  (s.modFa die fun x => x.modCmd n fun c => { c with ended := true }).faClear die

/-- FA_COMMAND_END (R352, R354, R356): the effect on the banks, and the fills: those of a sweep come 4 cycles later, and a saved
gang gets them when it resumes; an aborted one gets none. DEDUCED, log entry 29. -/
def execFaCommandEnd (die n : Nat) (s : State) : Out :=
  fin s
    (match (s.faOf die).cmd n with
     | none => s
     | some c =>
       if c.runOut s.now then
         let s := s.faEnds die n c
         if c.dropped then s.modFa die fun x => { x with running := x.running.filter fun e => e.1 ≠ n }
         else if !c.held && decide (c.tail = 0) then s.faFills die n { c with ended := true } else s
       else if c.fillDue s.now then s.faFills die n c
       else s)

/-! ### Saved and aborted gangs (R356) -/

/-- The whole sweeps, records or groups of 64 cells that a command has begun by a cycle, in cycles. -/
def FaCmd.begun (c : FaCmd) (now : Nat) : Nat :=
  let el := match c.start with | some k => now - k | none => 0
  let unit := match c.op with | 0 => 4 | 3 => 8 * c.k | _ => 1
  min ((el + unit - 1) / unit * unit) c.cycles

/-- What of a command those cycles have done. -/
def FaCmd.doneBy (c : FaCmd) (ran : Nat) : Nat :=
  match c.op with
  | 0 => min c.good (ran / 4)
  | 2 => min c.good (64 * ran)
  | 3 => min c.good (ran / (8 * c.k))
  | _ => 0

/-- The gang of a tile is saved: its commands are held (R356). -/
def State.faHold (s : State) (u inst : Nat) : State :=
  let hold (c : FaCmd) : FaCmd := if c.tile = u ∧ c.inst = inst then { c with held := true, ran := c.begun s.now } else c
  s.modFa (dieOf u) fun x => { x with queue := x.queue.map hold, running := x.running.map fun e => (e.1, hold e.2) }

/-- The gang of a tile resumes: results held back are delivered, and its commands go on (R356). -/
def State.faResume (s : State) (u inst : Nat) : State :=
  let mine (c : FaCmd) : Bool := decide (c.tile = u) && decide (c.inst = inst)
  let ended := ((s.faOf (dieOf u)).running.filter fun e => mine e.2 && e.2.ended).map (·.2)
  let go (c : FaCmd) : FaCmd :=
    if mine c then { c with held := false, start := c.start.map fun _ => s.now - c.ran } else c
  let s :=
    s.modFa (dieOf u) fun x =>
      { x with queue := x.queue.map go, running := (x.running.filter fun e => !(mine e.2 && e.2.ended)).map fun e => (e.1, go e.2) }
  ended.foldl (fun s c => s.faDeliver c) s

/-- A running command of an aborted instance: it stops after the sweep, the record or the group of cells that it has begun (R356). -/
def FaCmd.stopNow (c : FaCmd) (now : Nat) : FaCmd :=
  let n := c.doneBy (if c.held then c.ran else c.begun now)
  { c with dropped := true, held := false, good := if decide (c.op = 0) || decide (c.op = 2) || decide (c.op = 3) then n else c.good }

/-- An instance is aborted: its queued commands are gone, and those that run stop (R356). -/
def State.faAbort (s : State) (inst : Nat) : State :=
  [0, 1, 2, 3].foldl (fun s die =>
    (s.modFa die fun x =>
      { x with
        queue := x.queue.filter fun c => c.inst ≠ inst
        running := (x.running.filter fun e => decide (e.2.inst ≠ inst) || (e.2.start.isSome && !e.2.ended)).map fun e =>
          if e.2.inst = inst then (e.1, e.2.stopNow s.now) else e }).faClear die) s

/-! ### Errors of the array (R352) -/

/-- A running command that reads a cell in which an error has struck: a FASWEEP ends with the sweeps that it has completed. -/
def Felting.strike (x : Felting) (now key : Nat) (c : FaCmd) : FaCmd :=
  if decide (c.op = 3) && c.start.isSome && !c.ended && c.failed.isNone && x.reads c key then
    c.lostCell (if c.held then c.doneBy c.ran else (match c.start with | some k => (now - k) / (8 * c.k) | none => 0))
  else c

/-- An error strikes a cell of the array of a die: the sweeps that read it meet it at once (R352). DESIGN CHOICE, log entry 47. -/
def State.faStrike (s : State) (die key : Nat) (single : Bool) : State :=
  let x := s.faOf die
  let e : BitVec 2 := if single then 1 else 2
  let met := x.running.any fun c => decide (x.strike s.now key c.2 ≠ c.2)
  let s :=
    s.modFa die fun x =>
      { x with
        bad := Sparse.set 0 x.bad key (Sparse.get 0 x.bad key ||| e)
        running := if single then x.running else x.running.map fun c => (c.1, x.strike s.now key c.2) }
  if met && !single then s.faHardError die key else s

end Sys2Proof.Machine
end

