-- ==== Sys2Proof/Machine/Placement.lean ====
section
/-! DEFINITION. What the graph scheduler does in time: launches, placement, the dispatch of FORM sheets, pre-emption requests, the
samples of the AND tree, aborts and TEST runs (R129 to R133, R136 to R141, R375, R423, R424). -/

namespace Sys2Proof.Machine

/-- LAUNCH (R129, R131). -/
def execLaunch (win : Nat) (v : Word) (s : State) : Out := fin s (s.launch win v)

/-- SHEET_PLACEMENT (R132, R136): the levels of a die are tried once. -/
def execSheetPlacement (die : Nat) (s : State) : Out := fin s (s.tryPlace (die % 4) 4)

/-- The FORM sheets of a die whose dispatch cycle has come. -/
def State.dueSheets (s : State) (die : Nat) : List (Inst × Sheet) :=
  (s.insts.filter fun i => decide (i.die = die)).flatMap fun i =>
    (i.sheets.filter fun x => match x.dispatch with | some d => decide (d ≤ s.now) | none => false).map fun x => (i, x)

/-- FORM_DISPATCH (R133, R377): the sheet dispatches when context tags are free, else at the next frame start. -/
def execFormDispatch (die : Nat) (s : State) : Out :=
  fin s
    (match (s.dueSheets die).head? with
     | none => s
     | some (i, x) =>
       match s.freeCtx i.part (i.w * i.h) with
       | none => s.modInst i.id fun i => i.modSheet x.no fun y => { y with dispatch := y.dispatch.map fun d => d + 48 }
       | some cs =>
         let s := s.modInst i.id fun i => i.modSheet x.no fun y => { y with dispatch := none }
         s.dispatchSheet i x cs (s.now + 48))

/-! ### Pre-emption (R137, R375) -/

/-- The scheduler asks for the tile now. -/
def State.wanted (s : State) (u : Nat) : Bool :=
  [0, 1, 2, 3].any fun die => [0, 1, 2, 3].any fun level => (s.victims die level).any fun v => v = u

/-- Remote waiters at a tile's port are answered with a refusal. -/
def State.refuseWaiters (s : State) (u : Nat) : State :=
  let ks := (s.tile u).feq.flatMap fun e => (e.2.filter fun w => w.remote).map (·.key)
  ks.foldl (fun s k => (s.unqueue u true k).answer k (.refused Cause.remoteRefused)) s

/-- The pre-emption of a tile begins. -/
def State.beginSave (s : State) (u : Nat) : State :=
  let inst := ((s.tile u).gang.map (·.inst)).getD 0
  ((s.modTile u fun x => { x with saving := some s.now }).refuseWaiters u).faHold u inst

/-- PREEMPTION (R137, R375). -/
def execPreemption (u : Nat) (s : State) : Out := fin s (if s.wanted u then s.beginSave u else s)

/-! ### Samples (R140, R141) -/

/-- SENT and RECV of an instance over every tile of its sheets, ended ones included. -/
def State.sums (s : State) (i : Inst) : Nat × Nat :=
  let live := s.tiles.filter fun e => (e.2.gang.map (·.inst)) = some i.id
  let kept := s.tiles.flatMap fun e => e.2.saved.filter fun v => decide (v.gang.inst = i.id)
  (i.sentX + (live.map fun e => e.2.sent).sum + (kept.map fun v => v.sent).sum,
   i.recvX + (live.map fun e => e.2.recv).sum + (kept.map fun v => v.recv).sum)

/-- The tile is idle for a sheet of an instance. A RED that is pending has its entry in the journal. The matrix engine, which R140 does
not name, is idle too: the completion write follows every event of the instance's engines (R222). DEDUCED, log entry 33. -/
def State.tileIdle (s : State) (i : Inst) (no u : Nat) : Bool :=
  let x := s.tile u
  let f := s.faOf (dieOf u)
  let q (c : QtCmd) : Bool := decide (c.inst = i.id) && decide (c.tile = u)
  let fa (c : FaCmd) : Bool := decide (c.inst = i.id) && decide (c.tile = u)
  (match x.gang with
   | some g => decide (g.inst = i.id) && decide (g.sheet = no) && x.saving.isNone
   | none => false)
    && (s.gangMembers u i.id no).isEmpty
    && !(s.threads.any fun e => decide (unitOf e.1 = u) && s.alive e.1 i.id && !e.2.red.dropped)
    && x.mx.queue.isEmpty && x.mx.fills.isEmpty
    && !(x.copies.any fun c => c.inst = i.id) && !(x.indexes.any fun c => c.inst = i.id)
    && !(s.qt.toList.any fun e => (e.running.toList ++ e.queue ++ e.saved).any q)
    && !(f.queue.any fa) && !(f.running.any fun e => fa e.2)
    && !(x.journal.any fun e => decide (e.2.inst = i.id) && decide (e.2.state ≠ .free))

/-- Every tile of a sheet is idle. -/
def State.sheetIdle (s : State) (i : Inst) (x : Sheet) : Bool := x.dispatch.isNone && x.tiles.all fun ts => ts.all fun u => s.tileIdle i x.no u

/-- One instance at a sample: its idle sheets end when they were idle at the last sample too and the sums are equal and have not
changed; with its last sheet the instance ends. -/
def State.sampleInst (s : State) (n : Nat) : State :=
  match s.inst n with
  | none => s
  | some i =>
    if i.kind = 2 ∨ i.aborted then s
    else
      let m := s.sums i
      let still := decide (m.1 = m.2) && decide (i.sample = some m)
      let idle := i.sheets.filter fun x => !x.ended && s.sheetIdle i x
      let s' := (if still then idle.filter fun x => x.idle else []).foldl (fun s x => s.endSheet i x) s
      match s'.inst n with
      | none => s'
      | some j =>
        if still && decide (j.nextSheet = j.nsheets) && j.sheets.all fun x => x.ended then s'.endInst j
        else
          s'.modInst n fun j =>
            { j with
              sample := some m
              sheets := j.sheets.map fun x => { x with idle := idle.any fun y => y.no = x.no } }

/-- END_DETECTION_SAMPLE (R140, R141): every 64 cycles, once. DEDUCED, log entry 33. -/
def execEndDetectionSample (s : State) : Out :=
  fin s
    (if s.now % 64 ≠ 0 ∨ s.lastSample = some s.now then s
     else { ((s.insts.map (·.id)).foldl (fun s n => s.sampleInst n) s) with lastSample := some s.now })

/-! ### Aborts and TEST runs (R141, R356, R423, R424) -/

/-- Abort an instance: its felting commands stop, a quadtree engine that ran for it is free. -/
def State.abortAll (s : State) (n : Nat) : State :=
  let run := s.qt.toList.map fun q => decide ((q.running.map (·.inst)) = some n)
  let s := (s.faAbort n).abort n
  [0, 1, 2, 3].foldl (fun s die => if run.getD die false then s.modQt die fun q => { q with run := {}, next := none } else s) s

/-- INSTANCE_ABORT (R141). -/
def execInstanceAbort (n : Nat) (s : State) : Out := fin s (s.abortAll n)

/-- A fence of a tile takes effect at once, or when the gangs on it have retired (R426). -/
def State.fence (s : State) (u : Nat) : State :=
  if 576 ≤ u then s
  else
    s.modTile u fun x =>
      if x.fenced then x
      else if x.gang.isNone ∧ x.saved = [] then { x with fenced := true } else { x with fenceAsk := true }

/-- The REPLACE advisory: twelve fenced tiles, or a station or channel lost (R427). -/
def State.advise (s : State) : State :=
  if 12 ≤ ((List.range 576).filter fun v => (s.tile v).fenced).length ∨ 0 < s.lost then { s with replace := true } else s

/-- An ERROR record of a tile (R423). Its CAUSE, to which the manual gives no value, is free among the codes of R360, and so are the
bank, row and column. DESIGN CHOICE, log entry 7. -/
def errorRecord (s : State) (t unit sev : Nat) : State :=
  let f := s.free
  let c := f.2.freeCause
  sendRecord c.2 t recError c.1 (errorAux unit sev f.1.toNat 1) 0

/-- The failures of a tile in a TEST run, as UNIT codes (R422): ARG0[3:0] selects the tests, of the systolic array, the scratchpad, the
accumulators and the instruction cache; a failure is reported as 4 * tile + test. -/
def testUnits (arg0 : Val) (failed : List Nat) (u : Nat) : List Nat :=
  ([(0, 2), (1, 0), (2, 1), (3, 3)].filter fun p => bit arg0.lo p.1 && failed.any fun k => decide (k = 4 * u + p.1)).map (·.2)

/-- A TEST run leaves the tile's storage zero, every word full and every accumulator unit free (R423, R424). -/
def Tile.wiped (x : Tile) : Tile :=
  { x with
    spad := []
    empty := []
    tags := []
    shadow := []
    pages := []
    bad := []
    feq := []
    mx := {} }

/-- TEST_NODE_RUN (R422): the run of a TEST instance ends; each test that failed sends a record, and its tile is fenced. DEDUCED, log
entry 43. -/
def execTestNodeRun (n : Nat) (failed : List Nat) (s : State) : Out :=
  fin s
    (match s.inst n with
     | none => s
     | some i =>
       if i.kind ≠ 2 then s
       else
         let open_ := i.sheets.filter fun x => !x.ended
         let ts := open_.flatMap fun x => x.tiles.flatMap id
         let s := open_.foldl (fun s x => s.endSheet i x) s
         let s := ts.foldl (fun s u => s.modTile u Tile.wiped) s
         let bad (u : Nat) : List Nat := testUnits (i.args.getD 0 {}) failed u
         let s :=
           (ts.filter fun u => !(bad u).isEmpty).foldl (fun s u =>
             (bad u).foldl (fun s n => errorRecord s (16 * u) n 2) (s.fence u).advise) s
         match s.inst n with
         | some j => if j.nextSheet = j.nsheets ∧ (j.sheets.all fun x => x.ended) then s.endInst j else s
         | none => s)

end Sys2Proof.Machine
end

