-- ==== Sys2Proof/Machine/Save.lean ====
section
/-! DEFINITION. The save of a pre-empted gang and its restore (R326, R335, R356, R375 to R382, R384). -/

namespace Sys2Proof.Machine

/-! ### Save frames (R376) -/

/-- RESUME of a stopped thread. -/
def Thread.resumeCode (x : Thread) : Nat :=
  match x.run with
  | .halted => 3
  | .barrier _ => 2
  | .released _ _ => 2
  | .reply => 1
  | .matrix => 1
  | .feServed _ => 1
  | _ => 0

/-- FLAGS of a thread. -/
def Thread.flags (x : Thread) : Word :=
  let mask (l : List Bool) : Nat := ((l.zipIdx).map fun p => b2n p.1 * 2 ^ p.2).sum
  let halted := match x.run with | .halted => true | _ => false
  BitVec.ofNat 64
    (min x.pend.length 64 * 2 ^ 21 + 2 ^ 20 + mask (x.streams.toList.map Option.isSome) * 2 ^ 16
      + mask (x.mons.toList.map Option.isSome) * 2 ^ 12 + x.redPending % 16 * 2 ^ 8 + b2n x.arch.timerArmed * 8
      + b2n x.region.isOpen * 4 + b2n halted * 2 + b2n x.arch.entryWindow)

/-- The dwords of a save frame, from offset 0 to the end of the frame. DEDUCED, log entry 32. -/
def Thread.frame (x : Thread) (chk : Bool) : List Word :=
  let a := x.arch
  let tags := ((a.regs.toList ++ [a.xcap, a.tvec, a.tstack, a.tsave, a.tepc]).zipIdx).map fun p => b2n p.1.tag * 2 ^ p.2
  let two (v : Val) : List Word := [v.lo, v.hi]
  (a.regs.toList.flatMap two)
    ++ [BitVec.ofNat 64 tags.sum, a.pc]
    ++ ([a.xcap, a.tvec, a.tstack, a.tsave, a.tepc].flatMap two)
    ++ [a.status.word chk, a.tcause, a.taddr, a.dcause, a.mlive.zeroExtend 64, a.deadline, a.rndseed]
    ++ [x.flags, BitVec.ofNat 64 x.resumeCode] ++ List.replicate 43 0

/-- Dword k of a frame with its reserved bits zero (R8): the tags, STATUS, TCAUSE, DCAUSE and MLIVE have some. -/
def frameField (k : Nat) (w : Word) : Word :=
  match k with
  | 64 => w &&& 0x1FFFFFFFFF
  | 76 => (Status.ofWord w).word (bit w 13)
  | 77 => w &&& 0xFFF
  | 79 => w &&& 0xFFF
  | 80 => w &&& 0xFFFFFFFF
  | _ => w

/-- The frame of a VACANT slot: VALID 0; its other fields hold free values. DEDUCED, log entry 32. -/
def vacantFrame (ws : List Word) : List Word :=
  ((ws.take 83).zipIdx.map fun p => frameField p.2 p.1) ++ [0, 0] ++ List.replicate 43 0

/-- Offset of the save frame of a slot. -/
def frameBase (slot : Nat) : Nat := 0xF0C00 + 0x1000 * slot

/-- Write the frame of slot k of a tile. DEDUCED, log entry 32. -/
def State.writeFrame (s : State) (u k : Nat) : State :=
  let x := s.th (16 * u + k)
  match x.run with
  | .vacant =>
    let r := s.frees 83
    r.2.modTile u fun y => y.wr (frameBase k) ((vacantFrame r.1).flatMap fun w => leBytes 8 w.toNat)
  | _ => s.modTile u fun y => y.wr (frameBase k) ((x.frame y.chk).flatMap fun w => leBytes 8 w.toNat)

/-- The architectural state that a frame holds; ACCTAG is not in it. -/
def Tile.readFrame (y : Tile) (slot : Nat) (a : Arch) : Arch :=
  let w (o : Nat) : Word := frameField (o / 8) (y.spad.rdWord (frameBase slot + o))
  let tags := w 0x200
  let v (o n : Nat) : Val := { data := w (o + 8) ++ w o, tag := bit tags n }
  let f := w 0x298
  { a with
    regs := Vector.ofFn fun n => v (16 * n.val) n.val
    pc := w 0x208
    xcap := v 0x210 32
    tvec := v 0x220 33
    tstack := v 0x230 34
    tsave := v 0x240 35
    tepc := v 0x250 36
    status := Status.ofWord (w 0x260)
    tcause := w 0x268
    taddr := w 0x270
    dcause := w 0x278
    mlive := BitVec.ofNat 32 (w 0x280).toNat
    deadline := w 0x288
    rndseed := w 0x290
    timerArmed := bit f 3
    entryWindow := bit f 0 }

/-- What RESUME and FLAGS of a frame say of a thread that is restored: halted, or to issue at PC; the pending traps, bound generators,
armed lines and pending REDs that FLAGS counts; an open region (R376, R381). What the context buffer holds of them is kept. DEDUCED, log
entry 32. -/
def Tile.resumed (y : Tile) (slot : Nat) (x : Thread) : Thread :=
  let f := y.spad.rdWord (frameBase slot + 0x298)
  let r := bits (y.spad.rdWord (frameBase slot + 0x2A0)) 1 0
  let some? {α : Type} (l : List (Option α)) (lo : Nat) : List (Option α) := l.zipIdx.map fun p => if bit f (lo + p.2) then p.1 else none
  let x : Thread :=
    { x with
      pend := x.pend.take (bits f 27 21)
      streams := Vector.ofFn fun n : Fin 4 => (some? x.streams.toList 16).getD n.val none
      mons := Vector.ofFn fun n : Fin 4 => (some? x.mons.toList 12).getD n.val none
      redPending := bits f 11 8
      region := { x.region with isOpen := bit f 2 } }
  if r = 3 ∨ bit f 1 then { x with run := .halted }
  else if r = 0 ∧ x.resumeCode ≠ 0 then { x with run := .running, insn := none, held := {} }
  else x

/-! ### The end of a save (R375, R379, R380) -/

/-- The thread is stopped, its waits abandoned where they may be. -/
def Thread.stopped (x : Thread) (now : Nat) : Bool :=
  decide (x.markUntil ≤ now)
    && (match x.run with
        | .running => x.insn.isNone || x.engWait
        | .fetching => false
        | .feWait _ => false
        | .mwait _ => false
        | .waiti _ => false
        | .voting => false
        | .leader => false
        | .migrating _ _ => false
        | _ => true)

/-- The matrix engine has stopped: nothing is queued, or the head waits for link values or for a shadow buffer. -/
def Matrix.stopped (m : Matrix) : Bool :=
  m.fills.isEmpty
    && (match m.queue with
        | [] => true
        | c :: _ =>
          match c.op, c.start with
          | .mul x, none => decide (x.src = 2) || (decide (x.src = 3) && !m.rot.shadow.full)
          | .mul x, some _ => x.link.isSome && decide (c.took.length < x.values)
          | _, _ => false)

/-- Everything of the gang on a tile that is being saved has stopped. -/
def State.quiet (s : State) (u : Nat) (g : Gang) (p : Nat) : Bool :=
  let x := s.tile u
  let ts := (span (16 * u) 16).map fun t => (t, s.th t)
  let busy (q : Packet) : Bool :=
    (match q.owner with | .marks t => decide (unitOf t = u) && decide (q.inst = g.inst) | _ => false)
      || (decide (q.stage = .reserved) && decide (q.target = .tile u))
      || (decide (q.stage = .reserved) && decide (q.src = u))
  decide (p + 16 ≤ s.now) && (ts.all fun e => e.2.stopped s.now) && !s.pkts.any busy
    && x.copyElts.isEmpty && !(x.copies.any fun c => c.fillAt.isSome) && x.mx.stopped
    && !(s.qt.toList.any fun q =>
      match q.running with | some c => decide (c.inst = g.inst) && decide (c.sheet = g.sheet) | none => false)

/-- Insert an index command by its number; of two with one number the first given stays. -/
def insertIx (c : IxCmd) : List IxCmd → List IxCmd
  | [] => [c]
  | d :: ds => if c.no < d.no then c :: d :: ds else if c.no = d.no then d :: ds else d :: insertIx c ds

/-- The command as it was issued, to run again from its first element. -/
def IxCmd.again (c : IxCmd) : IxCmd :=
  { c with
    started := false
    cursor := 0
    done := 0
    work := []
    moved := []
    lo := 0
    hi := 0
    ptrs := []
    row := 0
    last := none
    q := 0
    reason := 0
    closed := false
    endAt := 0
    failed := none }

/-- The index commands that a save keeps (R335): the logs of open regions, but for a leader's commands in them, and what is queued or
running; an IXSCAT.add keeps its place. -/
def Tile.savedIx (x : Tile) (threads : List (Nat × Thread)) : List IxCmd :=
  let logs := threads.flatMap fun e => if e.2.region.isOpen then e.2.region.log.filter fun c => decide (c.thread = e.1) && !c.idle else []
  let cs := logs.map IxCmd.again ++ x.indexes.map fun c => if c.op = 3 then c else c.again
  cs.foldl (fun l c => insertIx c l) []

/-- A thread as it is saved (R121, R376, R379): it follows no leader, and its lines are registered again at the restore. -/
def Thread.atSave (x : Thread) (notes : List PendTrap) : Thread :=
  let joining := match x.run with | .joining _ => true | _ => false
  { x with
    run := if joining then .running else x.run
    insn := if joining then none else x.insn
    held := if joining then {} else x.held
    pend := notes.foldl (fun l p => insertPend p l) x.pend
    arch := { x.arch with status := { x.arch.status with following := false } } }

/-- Rewrite the entry of a unit that a packet belongs to. -/
def State.reown (s : State) (u : Nat) (f : Nat → Nat) : State :=
  { s with
    pkts := s.pkts.map fun p =>
      match p.owner with
      | .journal v e => if v = u then { p with owner := .journal u (f e) } else p
      | _ => p }

/-- The save of the gang on a tile is complete, and the tile is free. -/
def State.saveNow (s : State) (u : Nat) (g : Gang) : State :=
  let keys := span (16 * u) 16
  let live := keys.filter fun t => match (s.th t).run with | .vacant => false | _ => true
  let notes (t : Nat) : List PendTrap := (s.notices.filter fun n => n.1 = t).map (·.2)
  let s := live.foldl (fun s t => s.modTh t fun x => x.atSave (notes t)) s
  let s := (maskBits g.areas).foldl (fun s k => s.writeFrame u k) s
  let threads := live.map fun t => (t, s.th t)
  let x := s.tile u
  let v : Saved :=
    { gang := g, threads := threads, links := x.links, mail := x.mail, journal := (span 0 32).map fun e => s.jr u e,
      queue := x.mx.queue, rot := x.mx.rot, copies := x.copies, copyElts := x.copyElts,
      indexes := x.savedIx threads, sent := x.sent, recv := x.recv, ready := true }
  let mineQ (c : QtCmd) : Bool := decide (c.tile = u) && decide (c.inst = g.inst) && decide (c.sheet = g.sheet)
  let s := s.reown u fun e => if e < 1000 then savedEntry g.ctx e else e
  let s : State :=
    { s with
      notices := s.notices.filter fun n => !live.any fun t => t = n.1
      monRegs := s.monRegs.filter fun r => unitOf r.thread ≠ u
      monNotes := s.monNotes.filter fun r => unitOf r.thread ≠ u
      qt := s.qt.map fun q =>
        { q with
          queue := q.queue.filter fun c => !mineQ c
          saved := q.saved ++ (q.queue.filter mineQ) } }
  let s := keys.foldl (fun s t => s.modTh t Thread.emptied) s
  s.modTile u fun x =>
    { x with
      gang := none
      saving := none
      saved := x.saved ++ [v]
      links := Vector.replicate 4 {}
      mail := Vector.replicate 4 {}
      journal := []
      copies := []
      indexes := []
      mx := { x.mx with queue := [], rot := {} }
      sent := 0
      recv := 0 }

/-- A save or a restore whose buffer holds an error that is not corrected, at an address: the instance is aborted, and the monitor core
is told; AUX is free (R379). DESIGN CHOICE, log entry 47. -/
def State.bufferFail (s : State) (u inst pa : Nat) : State :=
  let s := (s.dramError pa).abortAll inst
  let f := s.free
  sendRecord f.2 (16 * u) recPreempt Cause.access f.1 0

/-- A save ends, once everything has stopped: frames and context buffer hold the gang, and the tile is free. -/
def State.saveOn (s : State) (u : Nat) : State :=
  match (s.tile u).saving, (s.tile u).gang with
  | some p, some g =>
    if !s.quiet u g p then s
    else
      let base := s.ctxBase (s.partOf u) g.ctx
      if s.dramLost base 0x10000 then s.bufferFail u g.inst base else s.saveNow u g
  | _, _ => s

/-- SAVE_END (R375 to R380). -/
def execSaveEnd (u : Nat) (s : State) : Out := fin s (s.saveOn u)

/-! ### Restore (R137, R378, R381, R384) -/

/-- A tile can take back a gang that was saved on it. -/
def State.tileOpen (s : State) (u : Nat) : Bool :=
  let x := s.tile u
  !x.fenced && x.gang.isNone && x.saving.isNone && (x.saved.all fun v => v.due.isNone) && !s.reserved u

/-- The instance has a saved gang whose tile is free. -/
def State.resumable (s : State) (i : Inst) : Bool :=
  s.tiles.any fun e => s.tileOpen e.1 && e.2.saved.any fun v => v.ready && decide (v.gang.inst = i.id)

/-- The instance is the first head, from level 3 down, that can place a sheet or resume a gang (R136, R137). -/
def State.firstHead (s : State) (die n : Nat) : Bool :=
  match [3, 2, 1, 0].findSome? fun l => (s.head die l).bind fun i => if (s.canPlace i).isSome ∨ s.resumable i then some i.id else none with
  | some k => decide (k = n)
  | none => false

/-- The pages of a gang's footprint are its own again (R378). -/
def State.takePages (s : State) (u part : Nat) (g : Gang) (migr : Bool) : State :=
  let ps := footPages g.bind migr
  let s := (s.pagesOut u part g.ctx ps).2
  let base := s.ctxBase part g.ctx
  ps.foldl (fun s p =>
    if Sparse.get 0 (s.tile u).pages p = g.ctx then s
    else
      let s := s.modTile u fun x => x.freshPage g.ctx p
      if s.pageBit base p then s.pageIn u base p else s) s

/-- Free units that the context has spilled are refilled (R384). -/
def State.refill (s : State) (u base ctx : Nat) : State :=
  (span 0 257).foldl (fun s t =>
    if s.spillBit base t && decide ((s.tile u).mx.ownerOf t = 0) then
      (s.modTile u fun x => { x with mx := x.mx.claim t (BitVec.ofNat 16 ctx) }).unitIn u base t
    else s) s

/-- Re-issue the index commands of a saved gang (R335): empty-marks again, and from the first element. -/
def State.reissueIx (s : State) (u : Nat) (cs : List IxCmd) : State :=
  cs.foldl (fun s c =>
    let s := if c.op = 3 then s else s.engMarks c.thread u c.marks.eraseDups
    s.modTile u fun x => { x with indexes := x.indexes ++ [c] }) s

/-- The quadtree commands of a sheet go back to their queues once no tile of it is saved (R301, R379). -/
def State.reissueQt (s : State) (g : Gang) : State :=
  if s.qtPreempted { inst := g.inst, sheet := g.sheet } then s
  else
    let mine (c : QtCmd) : Bool := decide (c.inst = g.inst) && decide (c.sheet = g.sheet)
    { s with
      qt := s.qt.map fun q =>
        { q with
          queue := q.queue ++ (q.saved.filter mine)
          saved := q.saved.filter fun c => !mine c } }

/-- A saved thread in its slot again: the slot's counters, grant and claim are the slot's own. -/
def State.seat (s : State) (t : Nat) (x : Thread) : State :=
  let y := s.th t
  let tile := s.tile (unitOf t)
  let a := tile.readFrame (slotOf t) x.arch
  (s.setTh t
    { tile.resumed (slotOf t) x with
      arch := { a with status := { a.status with dbg := y.grant } }
      tcIssued := y.tcIssued
      tcWmem := y.tcWmem
      tcWmsg := y.tcWmsg
      tcVac := y.tcVac
      grant := y.grant
      claim := y.claim
      cls := .issued }).rearm t

/-- The areas of the context buffer that the restore of a gang reads: its own state and bitmaps, the pages read back and the units
refilled (R377, R381). -/
def State.restoreReads (s : State) (u : Nat) (i : Inst) (g : Gang) : List (Nat × Nat) :=
  let base := s.ctxBase i.part g.ctx
  let ps := (footPages g.bind i.migr).filter fun p => decide (Sparse.get 0 (s.tile u).pages p ≠ g.ctx) && s.pageBit base p
  let us := (span 0 257).filter fun t => s.spillBit base t && decide ((s.tile u).mx.ownerOf t = 0)
  [(base, 0x10000), (base + 0x50808, 0x48)]
    ++ (ps.flatMap fun p => [(base + 0x100000 + 4096 * p, 4096), (base + 0x80000 + 1024 * p, 1024), (base + 0xC0000 + 32 * p, 32)])
    ++ us.map fun t => unitPlace base t

/-- Cycles that a restore takes: 64 for each page that it writes out (R378). DESIGN CHOICE, log entry 48. -/
def State.restoreTime (s : State) (u : Nat) (i : Inst) (g : Gang) : Nat :=
  64 * ((footPages g.bind i.migr).filter fun p =>
    decide (Sparse.get 0 (s.tile u).pages p ≠ g.ctx) && (s.tile u).heldPage (4096 * p)).length

/-- The restore of a saved gang begins: the pages held for other contexts are written out, and the tile waits for that (R378, R381). -/
def State.restoreBegin (s : State) (u : Nat) (i : Inst) (v : Saved) : State :=
  let d := s.now + s.restoreTime u i v.gang
  (s.takePages u i.part v.gang i.migr).modTile u fun x =>
    { x with saved := x.saved.map fun w => if w.gang.ctx = v.gang.ctx then { w with due := some d } else w }

/-- A TIMER whose deadline passed while its thread was saved is pending at the restore (R379). -/
def State.timersAt (s : State) (ts : List Nat) : State := ts.foldl (fun s t => s.timerNow t) s

/-- The steps of R381, once the pages of the gang are its own again. -/
def State.restoreNow (s : State) (u : Nat) (i : Inst) (v : Saved) : State :=
  let g := v.gang
  let s :=
    s.modTile u fun x =>
      { x with
        gang := some g
        saved := x.saved.filter fun w => w.gang.ctx ≠ g.ctx
        links := v.links
        mail := v.mail
        copies := v.copies
        copyElts := v.copyElts
        mx := { x.mx with queue := v.queue, rot := v.rot }
        sent := v.sent
        recv := v.recv }
  let s := s.refill u (s.ctxBase i.part g.ctx) g.ctx
  let s := (v.journal.zipIdx).foldl (fun s e => s.setJr u e.2 e.1) s
  let s := s.reown u fun e => if 1000 ≤ e ∧ (e - 1000) / 32 = g.ctx then (e - 1000) % 32 else e
  let s := v.threads.foldl (fun s e => s.seat e.1 e.2) s
  let s := s.releaseHeld u 32
  let s := s.reissueIx u v.indexes
  let s := (s.reissueQt g).timersAt (v.threads.map (·.1))
  s.faResume u g.inst

/-- A restore goes on: it ends at its cycle. -/
def State.restoreOn (s : State) (u ctx : Nat) : State :=
  match (s.tile u).saved.find? fun v => v.ready && decide (v.gang.ctx = ctx) with
  | none => s
  | some v =>
    match s.inst v.gang.inst with
    | none => s
    | some i => if passed v.due s.now then s.restoreNow u i v else s

/-- RESTORE (R137, R381): the gang of a context tag that is saved on a tile resumes: its restore begins, or ends. -/
def execRestore (u ctx : Nat) (s : State) : Out :=
  fin s
    (match (s.tile u).saved.find? fun v => v.ready && decide (v.gang.ctx = ctx) with
     | none => s
     | some v =>
       match s.inst v.gang.inst with
       | none => s
       | some i =>
         if v.due.isSome then s.restoreOn u ctx
         else if !(s.tileOpen u && s.firstHead i.die i.id) then s
         else
           match (s.restoreReads u i v.gang).find? fun a => s.dramLost a.1 a.2 with
           | some a => s.bufferFail u i.id a.1
           | none => (s.restoreBegin u i v).restoreOn u ctx)

end Sys2Proof.Machine
end

