-- ==== Sys2Proof/Machine/Cycle.lean ====
section
/-! DEFINITION. The end of a cycle and the beginning of the next: measurements, time, the events that fall in the new cycle, and the
slots whose turn it is (R4, R105, R106, R115 to R117, R140, R182, R236, R239, R257, R317, R321 to R323, R329, R354, R365, R393, R396, R416,
R438). -/

namespace Sys2Proof.Machine

/-! ### Form-mode traffic, whose times are fixed (R115 to R117) -/

/-- The event of an answer that lands. -/
def Packet.landing (p : Packet) : Instr :=
  match p.owner with
  | .journal _ _ =>
    (match p.answer with
     | .refused _ => .postedRefused p.id
     | .full => .postedRefused p.id
     | _ => .postedAck p.id)
  | .icache _ => .icacheMissFill p.id
  | .marks t => .emptyMarkAck (unitOf t) p.id
  | _ => .replyLands p.id

/-- The event of a request that is served at a tile's port. -/
def Packet.service (p : Packet) : Instr :=
  match p.req with
  | .message _ _ => .mailboxDelivery p.id
  | .drain _ _ _ _ => .mdrainPacket p.id
  | _ => .remotePortService p.id

/-- What a packet of the form class does in the present cycle. DESIGN CHOICE, log entry 44. -/
def State.formEvent (s : State) (p : Packet) : Option Instr :=
  if !p.form || (decide (s.now < p.due) && !p.pressing s.now) then none
  else
    match p.stage with
    | .queued =>
      (match p.target, p.pressing s.now with
       | .station _, true => some (.stationAccess p.id)
       | _, _ => if s.departs p then some (.formWindowDeparture p.id) else none)
    | .replyQueued => if s.departs p then some (.formWindowDeparture p.id) else none
    | .flying =>
      (match p.target with
       | .tile u => if s.now < p.due then none else if s.portFirst u p then some p.service else none
       | .station _ => some (.stationAccess p.id))
    | .reserved => some (.atomicAtOwner p.id)
    | .answered => some p.landing
    | _ => none

/-- A reply-bearing request to another package that has waited for 2^24 cycles (R438). -/
def State.overdue (s : State) (p : Packet) : Option Instr :=
  let bearing := match p.owner with | .thread _ => true | .copy _ _ => true | .icache _ => true | _ => false
  if bearing && p.back && decide (p.node ≠ s.nodeid.toNat) && !p.host && decide (p.issue + 2 ^ 24 ≤ s.now) && decide (s.now < p.due) then
    some (.requestTimeout p.id)
  else none

/-! ### Threads -/

/-- What comes due for a thread at the beginning of a cycle: TIMER, and the timeouts of its waits at its own turns. -/
def State.threadEvents (s : State) (t : Nat) (x : Thread) : List Instr :=
  let turn := decide (slotOf t = s.now % 16)
  (if x.timerDue (s.stampOf (unitOf t)) then [.timer t] else [])
    ++ (match x.run with
        | .mwait u => if turn && passed u s.now then [.mwaitTimeout t] else []
        | .waiti u => if turn && passed u s.now then [.waitiTimeout t] else []
        | _ => [])

/-! ### Tiles -/

/-- The fills of the completion words of copy commands that are due (R317). -/
def Tile.copyEnds (x : Tile) (u now : Nat) : List Instr :=
  (x.copies.filter fun c => match c.fillAt with | some f => decide (f ≤ now) | none => false).map fun _ => .copyElementLands u 0

/-- What the engines of a tile do in the present cycle at times that the manual fixes. -/
def Tile.engineEvents (x : Tile) (u now : Nat) : List Instr :=
  if x.saving.isSome then
    (match x.mx.queue with | c :: _ => if c.closed now then [.matrixCommandEnd u] else [] | [] => []) ++ x.copyEnds u now
  else
    (match x.mx.queue with
     | c :: _ => if c.closed now then [.matrixCommandEnd u] else if c.start.isNone then [.matrixCommandStart u] else []
     | [] => [])
      ++ ((x.mx.fills.filter fun f => match f.due with | some d => decide (d ≤ now) | none => false).map fun f => .acstRowFill u f.row)
      ++ ((x.copyElts.filter fun e =>
            decide (e.due ≤ now) && e.ready && !e.sent && (x.copyCmd e.no).any fun c => c.form).map fun e => .copyElementLands u e.n)
      ++ x.copyEnds u now
      ++ (if x.copies.isEmpty then [] else [.copyCommandStart u, .copyElementIssue u])
      ++ (if (x.nextIx now).isSome then [.indexCommandStart u] else [])
      ++ (if x.ixRunning.any fun c => c.closed && decide (c.endAt ≤ now) then [.indexCommandEnd u] else [])
      ++ ((x.journal.filter fun e => decide (e.2.state = .retrying) && decide (e.2.again ≤ now)).map fun e => .mailboxResend u e.1)

/-- What falls in the present cycle on a tile: its engines, and the oldest of the migrations that wait at its interface (R206). -/
def Tile.events (x : Tile) (u now : Nat) : List Instr :=
  x.engineEvents u now
    ++ (x.arrivals.head?.toList.map fun t => .migrationArrival t)

/-! ### The bound of a save, and the end of a restore (R380, R381) -/

/-- The next event of a packet, when its time has come. -/
def State.packetEvent (s : State) (p : Packet) : List Instr :=
  match p.stage, p.target with
  | .flying, .tile _ => if p.due ≤ s.now then [p.service] else []
  | .flying, .station _ => if p.due ≤ s.now then [.stationAccess p.id] else []
  | .reserved, _ => [.atomicAtOwner p.id]
  | .answered, _ => if p.due ≤ s.now then [p.landing] else []
  | _, _ => []

/-- The packet belongs to what a save of a tile waits for. -/
def Packet.saves (p : Packet) (u : Nat) : Bool :=
  (match p.owner with
   | .copy v _ => decide (v = u)
   | .marks t => decide (unitOf t = u)
   | _ => false)
    || (decide (p.stage = .reserved) && (decide (p.target = .tile u) || decide (p.src = u)))

/-- A save has lasted half of its bound: from now on it waits no longer for what the inputs have not brought, so that it ends by p + 2,048
(R380). DESIGN CHOICE, log entry 48. -/
def Tile.pressed (x : Tile) (now : Nat) : Bool := match x.saving with | some p => decide (p + 1024 ≤ now) | none => false

/-- What such a save waits for goes on: the requests of the tile's engines, the fills of its stores and its migrations. -/
def State.hurry (s : State) (u : Nat) (x : Tile) : List Instr :=
  if !x.pressed s.now then []
  else
    ((s.pkts.filter fun q => q.saves u).flatMap s.packetEvent)
      ++ (x.copyElts.map fun e => .copyElementLands u e.n)
      ++ (x.mx.fills.map fun f => .acstRowFill u f.row)
      ++ (span (16 * u) 16).filterMap fun t => match (s.th t).run with | .migrating _ _ => some (.migrationArrival t) | _ => none

/-- The walk that a packet has joined ends. -/
def State.hurryWalk (s : State) (p : Packet) : State :=
  match p.stage, p.target with
  | .walking, .station k =>
    (match (s.station k).walks.findIdx? fun w => decide (w.ctx = ctxKey p.part p.pasid) && s.samePage p.part p.pasid w.va p.addr with
     | some n => s.walkEnd k (if n < 64 then n else 0)
     | none => s)
  | _, _ => s

/-- At the beginning of a cycle, on the tile u: a save that has lasted long ends its page walks and its quadtree command, and itself
when all has stopped; a restore whose cycle has come ends. -/
def State.savesOn (s : State) (u : Nat) : State :=
  let s :=
    if (s.tile u).pressed s.now then
      let s := (s.pkts.filter fun q => q.saves u).foldl State.hurryWalk s
      let s :=
        (span 0 4).foldl (fun (s : State) die =>
          if (s.qtOf die).running.any fun c => s.qtPreempted c then s.qtParkOn die Cause.preempt 0 else s) s
      s.saveOn u
    else s
  ((s.tile u).saved.filter fun v => v.due.isSome).foldl (fun s v => s.restoreOn u v.gang.ctx) s

/-! ### Dies -/

/-- What the engines of a die do in the present cycle at times that the manual fixes. -/
def State.dieEvents (s : State) (die : Nat) : List Instr :=
  ((s.dueSheets die).map fun _ => .formDispatch die)
    ++ (((s.faOf die).running.filter fun e => e.2.due s.now).map fun e => .faCommandEnd die e.1)
    ++ (((s.faOf die).running.filter fun e => e.2.startable s.now).map fun e => .faCommandStart die e.1)

/-- What the vote unit does in the present cycle at times that the manual fixes (R393, R396). -/
def State.voteEvents (s : State) : List Instr :=
  ((s.votes.filter fun v => decide (v.first + 2 ^ 20 = s.now)).map fun v => .voteTimeout v.leader)
    ++ (s.votes.filter fun v => decide (v.first + 2 ^ 21 = s.now)).flatMap fun v =>
      ((s.replicaKeys v.leader).filter fun t => (v.sigOf (s.th t).ridx).isNone).map fun t => .replicaDrop t

/-! ### The cycle -/

/-- Everything that falls in the present cycle at a time that the manual fixes. DESIGN CHOICE, log entry 4. -/
def State.dueEvents (s : State) : List Instr :=
  (s.threads.flatMap fun e => s.threadEvents e.1 e.2)
    ++ (s.tiles.flatMap fun e => e.2.events e.1 s.now ++ s.hurry e.1 e.2)
    ++ s.pkts.filterMap s.formEvent
    ++ s.pkts.filterMap s.overdue
    ++ ((s.monNotes.filter fun r => r.own).map fun r => .monitorTriggerNotice r.thread r.idx)
    ++ [0, 1, 2, 3].flatMap s.dieEvents
    ++ s.voteEvents
    ++ (if s.now % 64 = 0 then [.endDetectionSample] else [])

/-- Put a key in its place in a rising list, once. -/
def putKey (k : Nat) : List Nat → List Nat
  | [] => [k]
  | a :: l => if k < a then k :: a :: l else if k = a then a :: l else a :: putKey k l

/-- The slots whose turn falls in the present cycle and that hold or have held a thread, in rising order. -/
def State.turnKeys (s : State) : List Nat :=
  ((s.threads.filter fun e => decide (slotOf e.1 = s.now % 16)).map (·.1)).foldr putKey []

/-- The inputs stamped with the present cycle or an earlier one come due. DESIGN CHOICE, log entry 4. -/
def State.takeInputs (s : State) : List Instr × List (Nat × Instr) :=
  let p := s.inputs.span fun e => e.1 ≤ s.now
  (p.1.map (·.2), p.2)

/-- The system cores have begun to run: stage 3 of R436. -/
def State.bootStage (s : State) : State :=
  if s.boot = 2 ∧ (s.threads.any fun e => isSys (unitOf e.1) && decide (e.2.cls = .issued)) then { s with boot := 3 } else s

/-- Something befalls the hardware: an error strikes a memory, the eye margin of a fabric lane falls short, host memory answers no more or
again, or the monitor core's ring fills or empties (R189, R204, R352, R374, R379, R424). DESIGN CHOICE, log entry 47. -/
def State.befall (s : State) : Mishap → State
  | .spad u word single =>
    s.modTile u fun x =>
      { x with bad := Sparse.set 0 x.bad (word % 131072) (Sparse.get 0 x.bad (word % 131072) ||| if single then 1 else 2) }
  | .acc u unit cell single =>
    s.modTile u fun x =>
      let k := 256 * (unit % 256) + cell % 256
      { x with mx := { x.mx with bad := Sparse.set 0 x.mx.bad k (Sparse.get 0 x.mx.bad k ||| if single then 1 else 2) } }
  | .felting die cell single => s.faStrike die (cell % (16 * faCells)) single
  | .dram dword => { s with dramBad := Sparse.set false s.dramBad dword true }
  | .dramSoft die place => s.dramSoft die place
  | .eyeMargin port lane => s.eyeMargin port lane
  | .host page bad => { s with hostBad := Sparse.set false s.hostBad page bad }
  | .ring full => { s with ringFull := full }

/-- What befalls the hardware by the present cycle. -/
def State.strikes (s : State) : State :=
  ((s.mishaps.filter fun m => decide (m.1 ≤ s.now)).map (·.2)).foldl State.befall
    { s with mishaps := s.mishaps.filter fun m => decide (s.now < m.1) }

/-- The next cycle begins: time advances, the matrix engines move link values, and what comes due is put on the agenda. -/
def State.nextCycle (s : State) : State :=
  let s := s.bootStage.advise
  let s : State := { s with now := s.now + 1, tstamp := s.tstamp + 1, agenda := [] }
  let s := s.strikes.marksOn
  let s := s.tiles.keys.foldl (fun (s : State) u => s.savesOn u) s
  let s :=
    s.tiles.keys.foldl (fun (s : State) u =>
      if (s.tile u).mx.queue.isEmpty && (s.tile u).mx.rot.transfers.isEmpty then s else s.mxPump u) s
  let due := s.dueEvents
  let i := s.takeInputs
  { s with agenda := s.agenda ++ due ++ i.1, inputs := i.2, turns := s.turnKeys }

/-- CYCLE (R105, R416): the cycle's measurements on every tile, and the next cycle. DESIGN CHOICE, log entry 4. -/
def execCycle (s : State) : Out :=
  .next ((s.tiles.keys.filter fun u => u < 576).foldl (fun (s : State) u => s.measure u (s.qtHolds u)) s).nextCycle

end Sys2Proof.Machine
end

