-- ==== Sys2Proof/Machine/Debug.lean ====
section
/-! DEFINITION. Debug sessions of the monitor core (R410 to R415). -/

namespace Sys2Proof.Machine

/-! ### Replies (R410) -/

/-- Status OK. -/ def dbgOk : Nat := 0
/-- Status DENIED. -/ def dbgDenied : Nat := 1
/-- Status NOT_HALTED. -/ def dbgNotHalted : Nat := 2
/-- Status BAD_ARGUMENT. -/ def dbgBadArgument : Nat := 3

/-- Send a reply, which echoes the header of its message: code, target, sequence number and payload length. -/
def State.reply (s : State) (op target status : Nat) (data : List Word) : State :=
  let m := s.dbgMsgs.headD (0, 0)
  { s with
    dbgMsgs := s.dbgMsgs.tail
    dbgReplies := s.dbgReplies ++ [{ op := op, target := target, seq := m.1, len := m.2, status := status, data := data }] }

/-- An operation of the session on a slot, or on a unit by its slot 0: none without a session, DENIED outside the granted partitions
(R410). What it does takes the reply of its status and data. -/
def onUnit (s : State) (op t : Nat) (k : (State → Nat → List Word → State) → State → State) : State :=
  let answer (s : State) (status : Nat) (data : List Word) : State := s.reply op (placeCode t) status data
  match s.session with
  | none => s
  | some x => if x.parts.any fun p => decide (p = s.partOf (unitOf t)) then k answer s else answer s dbgDenied []

/-- The slot is halted: under debug, by HALT or by a double fault (R411). -/
def Thread.isHalted (x : Thread) : Bool :=
  match x.run with
  | .halted => true
  | _ => false

/-- An operation on a halted slot. -/
def onHalted (s : State) (op t : Nat) (k : (State → Nat → List Word → State) → State → State) : State :=
  onUnit s op t fun answer s => if (s.th t).isHalted then k answer s else answer s dbgNotHalted []

/-! ### Sessions -/

/-- CHOTAL_CONNECT (R410): a second connection is refused. -/
def execChotalConnect (parts : List Nat) (s : State) : Out :=
  fin s (if s.session.isSome then s else { s with session := some { parts := parts } })

/-- CHOTAL_SESSION_END (R410): breakpoints, watchpoints, claims and grants of the session are cleared. -/
def execChotalSessionEnd (s : State) : Out :=
  fin s
    (if s.session.isNone then s
     else
       let s := s.tiles.keys.foldl (fun s u => s.modTile u fun x => { x with bps := Vector.replicate 8 none, wps := Vector.replicate 4 none }) s
       let s :=
         s.threads.keys.foldl (fun s t => s.modTh t fun x =>
           { x with claim := false, grant := false, arch := { x.arch with status := { x.arch.status with dbg := false } } }) s
       { s with session := none })

/-! ### Stopping and going on (R411, R412) -/

/-- Ask a slot that holds a thread to stop at its next boundary. DEDUCED, log entry 34. -/
def askStop (s : State) (t : Nat) : State :=
  s.modTh t fun x => if x.gone then x else { x with stopAsk := some (x.stopAsk.getD 2) }

/-- CHOTAL_HALT (R412): one slot, or every slot of its tile. DEDUCED, log entry 34. -/
def execChotalHalt (t : Nat) (all : Bool) (s : State) : Out :=
  fin s (onUnit s 0x01 t fun answer s => answer ((if all then span (16 * unitOf t) 16 else [t]).foldl askStop s) dbgOk [])

/-- A halted slot goes on at its pc. DEDUCED, log entry 34. -/
def goOn (step : Bool) (x : Thread) : Thread :=
  { x with run := .running, passBp := true, stopAsk := none, stepping := step }

/-- CHOTAL_RESUME (R411). -/
def execChotalResume (t : Nat) (s : State) : Out :=
  fin s (onHalted s 0x02 t fun answer s => answer (s.modTh t (goOn false)) dbgOk [])

/-- CHOTAL_STEP (R411). -/
def execChotalStep (t : Nat) (s : State) : Out :=
  fin s (onHalted s 0x03 t fun answer s => answer (s.modTh t (goOn true)) dbgOk [])

/-- CHOTAL_DISCARD (R411): the halted thread retires as by EXIT. -/
def execChotalDiscard (t : Nat) (s : State) : Out :=
  fin s (onHalted s 0x04 t fun answer s => answer (s.exitThread t) dbgOk [])

/-! ### Registers (R411): 0 to 31 are c0 to c31, 32 is the pc, 33 is XCAP, 4096 + n is system register n -/

/-- The value of a register of a slot; none for an unassigned number. -/
def State.dbgReg (s : State) (t n : Nat) : Option Val :=
  let a := (s.th t).arch
  if n < 32 then some (a.regs.toList.getD n {})
  else if n = 32 then some (val64 a.pc)
  else if n = 33 then some a.xcap
  else if 4096 ≤ n then ({ s with cur := t } : State).sysReg (n - 4096)
  else none

/-- REDSTAT as WRREG writes it: BUFUSE counts the region buffer and stays (R403). -/
def Redund.setStat (r : Redund) (v : Word) : Redund :=
  { r with relno := bits v 63 32, retry := bits v 31 24, resync := bits v 23 16, lastMin := bits v 3 2, last := bits v 1 0 }

/-- Write a system register of a slot, whatever SWR says of it; reserved bits ignore what is written (R8). STATUS keeps DBG (R411),
and its CHK is the gang's (R25). SLOTINFO is the slot's place and stays. DESIGN CHOICE, log entry 34. -/
def State.dbgSysSet (s : State) (t n : Nat) (v : Val) : State :=
  let x := s.th t
  match n with
  | 0x000 =>
    (s.modTh t fun x => { x with arch := { x.arch with status := { Status.ofWord v.lo with dbg := x.arch.status.dbg } } }).modGang
      (unitOf x.home) x.inst x.sheet fun g => { g with chk := bit v.lo 13 }
  | 0x007 => s.modTh t fun x => { x with arch := { x.arch with dcause := v.lo &&& 0xFFF } }
  | 0x010 => s
  | 0x020 => s.modTile (unitOf t) fun y => { y with cycleOff := v.lo - BitVec.ofNat 64 s.now }
  | 0x021 => s.modTile (unitOf t) fun y => { y with stampOff := v.lo - s.tstamp }
  | 0x060 => s.modTh t fun x => if x.redundant then { x with red := x.red.setStat v.lo } else x
  | 0x008 => s.modTh t fun x => { x with arch := { x.arch with xcap := v } }
  | 0x011 => s.modTh t fun x => { x with fieldxy := v.lo }
  | 0x012 => s.modTh t fun x => { x with stage := v.lo &&& 0xFFFF }
  | n => s.asThread t fun s => s.setSysReg n v

/-- Write a register of a slot. -/
def State.dbgSet (s : State) (t n : Nat) (v : Val) : State :=
  if n < 32 then s.modTh t fun x => { x with arch := { x.arch with regs := x.arch.regs.setIfInBounds n v } }
  else if n = 32 then s.modTh t fun x => { x with arch := { x.arch with pc := v.lo } }
  else if n = 33 then s.modTh t fun x => { x with arch := { x.arch with xcap := v } }
  else s.dbgSysSet t (n - 4096) v

/-- CHOTAL_RDREG (R411). -/
def execChotalRdreg (t n : Nat) (s : State) : Out :=
  fin s (onHalted s 0x05 t fun answer s =>
    match s.dbgReg t n with
    | some v => answer s dbgOk [v.lo, v.hi, if v.tag then 1 else 0]
    | none => answer s dbgBadArgument [])

/-- CHOTAL_WRREG (R411). -/
def execChotalWrreg (t n : Nat) (v : Quad) (tag : Bool) (s : State) : Out :=
  fin s (onHalted s 0x06 t fun answer s =>
    if (s.dbgReg t n).isNone then answer s dbgBadArgument [] else answer (s.dbgSet t n { data := v, tag := tag }) dbgOk [])

/-! ### Scratchpad words (R414) -/

/-- A word's full bit, shadow state and tag in one word. -/
def metaWord (x : Tile) (off : Nat) : Word :=
  BitVec.ofNat 64 (b2n (x.tagAt off) * 2 ^ 13 + b2n (x.full off) * 2 ^ 12 + (x.shadowAt off).toNat)

/-- The offset names a word of a tile. -/
def wordOffset (u off : Nat) : Bool := decide (u < 576) && decide (off < 2 ^ 20) && decide (off % 8 = 0)

/-- CHOTAL_RDMEM (R414). -/
def execChotalRdmem (u off : Nat) (s : State) : Out :=
  fin s (onUnit s 0x07 (16 * u) fun answer s =>
    if wordOffset u off then answer s dbgOk [(s.tile u).word off, metaWord (s.tile u) off] else answer s dbgBadArgument [])

/-- CHOTAL_WRMEM (R414): a remote write, and the full/empty bit when it is given. The port serves it as it serves a request: not in a
cycle in which it has served one (R116). DEDUCED, log entry 34. -/
def execChotalWrmem (u off : Nat) (v : Word) (full : Option Bool) (s : State) : Out :=
  fin s (onUnit s 0x08 (16 * u) fun answer s =>
    if !wordOffset u off then answer s dbgBadArgument []
    else if s.portBusy u then s
    else
      let s := s.modTile u fun x => x.signal 2
      let w := s.agentWriter
      let s := w.2.spadWrite u off (leBytes 8 v.toNat) w.1
      let s :=
        match full with
        | some b => (s.modTile u fun x => x.setFull off b).serveFe u off
        | none => s
      answer s dbgOk [])

/-! ### Breakpoints, watchpoints, claims, grants (R99, R411, R413) -/

/-- CHOTAL_SETBP (R413): no pc clears the breakpoint. -/
def execChotalSetbp (u n : Nat) (slot : Option Nat) (pc : Option Word) (s : State) : Out :=
  fin s (onUnit s 0x09 (16 * u) fun answer s =>
    if 8 ≤ n ∨ (slot.getD 0) > 15 then answer s dbgBadArgument []
    else answer (s.modTile u fun x => { x with bps := x.bps.setIfInBounds n (pc.map fun a => { slot := slot, pc := a }) }) dbgOk [])

/-- CHOTAL_SETWP (R413): neither READ nor WRITE clears the watchpoint. -/
def execChotalSetwp (u n base size : Nat) (rd wr : Bool) (s : State) : Out :=
  fin s (onUnit s 0x0A (16 * u) fun answer s =>
    if 4 ≤ n then answer s dbgBadArgument []
    else if !rd && !wr then answer (s.modTile u fun x => { x with wps := x.wps.setIfInBounds n none }) dbgOk []
    else if size < 8 ∨ 4096 < size ∨ base % size ≠ 0 ∨ 2 ^ 20 < base + size then answer s dbgBadArgument []
    else
      answer (s.modTile u fun x =>
        { x with wps := x.wps.setIfInBounds n (some { base := base, size := size, rd := rd, wr := wr }) }) dbgOk [])

/-- CHOTAL_CLAIM (R411). -/
def execChotalClaim (t : Nat) (on : Bool) (s : State) : Out :=
  fin s (onUnit s 0x0B t fun answer s => answer (s.modTh t fun x => { x with claim := on }) dbgOk [])

/-- CHOTAL_GRANT (R411): the grant belongs to the slot; a thread there has it at once. -/
def execChotalGrant (t : Nat) (on : Bool) (s : State) : Out :=
  fin s (onUnit s 0x0C t fun answer s =>
    answer (s.modTh t fun x =>
      { x with
        grant := on
        arch := if x.run = .vacant then x.arch else { x.arch with status := { x.arch.status with dbg := on } } }) dbgOk [])

/-- The dwords of a record. -/
def recordWords (r : BitVec 256) : List Word := (List.range 4).map fun k => r.extractLsb' (64 * k) 64

/-- CHOTAL_RECORDS (R411): the oldest records leave the ring, in arrival order. -/
def execChotalRecords (n : Nat) (s : State) : Out :=
  fin s
    (if s.session.isNone then s
     else
       let s' := s.reply 0x0D 0 dbgOk ((s.records.take n).flatMap recordWords)
       { s' with records := s.records.drop n })

end Sys2Proof.Machine
end

