-- ==== Sys2Proof/Machine/Float.lean ====
section
/-! DEFINITION. Scalar float instructions and conversion (R82 to R88). -/

namespace Sys2Proof.Machine

/-- A float or tapered code, zero-extended (R82). -/
def codeVal (c : Nat) : Val := val64 (BitVec.ofNat 64 c)

/-- The draw of the present thread for a mode, and the state after it (R49). -/
def drawMe (s : State) (mode : Rm) : Nat × State :=
  let d := drawFor mode s.me.arch.rndseed
  (d.1, s.modArch fun a => { a with rndseed := d.2 })

/-- FArith (R83) of the present thread: one draw under SR, whatever the operands. -/
def floatForm (s : State) (i : Instr) (op : FOp) (f : Fmt) (rm : Rm) (d : Dst) (xs : List Src) : State :=
  scalar s i d xs fun ws s =>
    let g := drawMe s rm
    Done.value g.2
      (codeVal (fArith op f rm g.1 (arg ws 0).data.toNat (arg ws 1).data.toNat (arg ws 2).data.toNat))

/-- FADD (R83). -/
def execFadd (f : Fmt) (rm : Rm) (d : Dst) (a b : Src) (s : State) : Out :=
  fin s (floatForm s (.fadd f rm d a b) .add f rm d [a, b])

/-- FSUB (R83). -/
def execFsub (f : Fmt) (rm : Rm) (d : Dst) (a b : Src) (s : State) : Out :=
  fin s (floatForm s (.fsub f rm d a b) .sub f rm d [a, b])

/-- FMUL (R83). -/
def execFmul (f : Fmt) (rm : Rm) (d : Dst) (a b : Src) (s : State) : Out :=
  fin s (floatForm s (.fmul f rm d a b) .mul f rm d [a, b])

/-- FDIV (R83). -/
def execFdiv (f : Fmt) (rm : Rm) (d : Dst) (a b : Src) (s : State) : Out :=
  fin s (floatForm s (.fdiv f rm d a b) .div f rm d [a, b])

/-- FSQRT (R83). -/
def execFsqrt (f : Fmt) (rm : Rm) (d : Dst) (a : Src) (s : State) : Out :=
  fin s (floatForm s (.fsqrt f rm d a) .sqrt f rm d [a])

/-- FFMA (R83). -/
def execFfma (f : Fmt) (rm : Rm) (d : Dst) (a b c : Src) (s : State) : Out :=
  fin s (floatForm s (.ffma f rm d a b c) .fma f rm d [a, b, c])

/-- FMIN (R84): no draw. -/
def execFmin (f : Fmt) (d : Dst) (a b : Src) (s : State) : Out :=
  fin s (compute s (.fmin f d a b) d [a, b] fun ws => codeVal (fMin f (arg ws 0).data.toNat (arg ws 1).data.toNat))

/-- FMAX (R84): no draw. -/
def execFmax (f : Fmt) (d : Dst) (a b : Src) (s : State) : Out :=
  fin s (compute s (.fmax f d a b) d [a, b] fun ws => codeVal (fMax f (arg ws 0).data.toNat (arg ws 1).data.toNat))

/-- FCMP (R84). -/
def execFcmp (c : FCond) (f : Fmt) (d : Dst) (a b : Src) (s : State) : Out :=
  fin s (compute s (.fcmp c f d a b) d [a, b] fun ws =>
    val64 (if fcondHolds c f (arg ws 0).data.toNat (arg ws 1).data.toNat then 1 else 0))

/-- FCLASS (R85). -/
def execFclass (f : Fmt) (d : Dst) (a : Src) (s : State) : Out :=
  fin s (compute s (.fclass f d a) d [a] fun ws => codeVal (fClass f (arg ws 0).data.toNat))

/-- The sign bit of a source (R86). -/
def signIn (f : Fmt) (v : Val) : Bool := f.signOf v.data.toNat

/-- FSGN.CPY (R86). -/
def execFsgnCpy (f : Fmt) (d : Dst) (a b : Src) (s : State) : Out :=
  fin s (compute s (.fsgnCpy f d a b) d [a, b] fun ws => codeVal (fSign f (arg ws 0).data.toNat (signIn f (arg ws 1))))

/-- FSGN.NEG (R86). -/
def execFsgnNeg (f : Fmt) (d : Dst) (a b : Src) (s : State) : Out :=
  fin s (compute s (.fsgnNeg f d a b) d [a, b] fun ws => codeVal (fSign f (arg ws 0).data.toNat (!signIn f (arg ws 1))))

/-- FSGN.XOR (R86). -/
def execFsgnXor (f : Fmt) (d : Dst) (a b : Src) (s : State) : Out :=
  fin s (compute s (.fsgnXor f d a b) d [a, b] fun ws =>
    codeVal (fSign f (arg ws 0).data.toNat (signIn f (arg ws 0) ^^ signIn f (arg ws 1))))

/-- FRND (R87). -/
def execFrnd (f : Fmt) (rm : Rm) (d : Dst) (a : Src) (s : State) : Out :=
  fin s (scalar s (.frnd f rm d a) d [a] fun ws s =>
    let g := drawMe s rm
    Done.value g.2 (codeVal (fRound f rm g.1 (arg ws 0).data.toNat)))

/-- The result of CVT as it is written: a signed integer is sign-extended (R88). -/
def cvtVal (f : Fmt) (c : Nat) : Val := if f.isSigned then val64 (wordOf (sext c f.width)) else codeVal c

/-- CVT (R88). -/
def execCvt (dst src : Fmt) (rm : Rm) (d : Dst) (a : Src) (s : State) : Out :=
  fin s (scalar s (.cvt dst src rm d a) d [a] fun ws s =>
    let g := drawMe s rm
    Done.value g.2 (cvtVal dst (convert src dst rm g.1 (arg ws 0).data.toNat)))

end Sys2Proof.Machine
end

