-- ==== Sys2Proof/Machine/FullEmpty.lean ====
section
/-! DEFINITION. Full/empty operations and AWAIT (R159 to R162, R179). -/

namespace Sys2Proof.Machine

/-- The rights an operation needs (R159). -/
def feNeed : FeOp → BitVec 8
  | .ldf | .probe => permR
  | .ldt => permR ||| permW
  | _ => permW

/-- The code of an operation as a release point (R392) and as an access (R398); the others are no release points. -/
def feCode : FeOp → Option Nat
  | .stf => some 2
  | .stw => some 3
  | .setf => some 4
  | .sete => some 5
  | .ldt => some 6
  | _ => none

/-- The kind of the journal entry of a posted operation (R367). -/
def fePosted : FeOp → Option Nat
  | .stf => some 2
  | .setf => some 3
  | .sete => some 4
  | _ => none

/-- What an operation writes to D: the word, or the bit for PROBE, which is what it is answered with (R160). -/
def feResult (op : FeOp) (v : Word) : Result :=
  match op with
  | .ldf | .ldt | .probe => .val (val64 v)
  | _ => .none

/-- The operation reads its word. -/
def feReads : FeOp → Bool
  | .ldf | .ldt | .probe => true
  | _ => false

/-- The operation changes its word or the word's bit. -/
def feWrites : FeOp → Bool
  | .ldf | .probe => false
  | _ => true

/-- The operation at a word of the own tile, in one step (R160). -/
def feNow (s : State) (off : Nat) (op : FeOp) (v : Word) : Done :=
  let u := unitOf s.cur
  let w := s.localWriter s.cur
  match op with
  | .stf => { s := s.fillWord u off v w }
  | .setf => { s := s.setBitServe u off true w }
  | .sete => { s := s.setBitServe u off false w }
  | .probe => { s := s.readErrors u off 8, r := feResult .probe (if (s.tile u).full off then 1 else 0) }
  | op =>
    let r := s.fePerform u off op v w
    { s := r.2.serveFe u off, r := feResult op (r.1.bits.extractLsb' 0 64) }

/-- The operation waits (R159): LDF, LDT and STW on a word that is not ready or has waiters (R161). -/
def feWaits (x : Tile) (off : Nat) (op : FeOp) : Bool :=
  match op with
  | .ldf | .ldt | .stw => !((x.feQueue off).isEmpty && feReady x off op)
  | _ => false

/-- The operation on a word of the own tile (R161, R162). -/
def feLocal (s : State) (i : Instr) (ea : Word) (op : FeOp) (v : Word) (msg : Bool) : Acc Done :=
  let u := unitOf s.cur
  let off := ea.toNat % 2 ^ 20
  if if feWrites op then s.ownWrites s.cur else s.ownRead off 8 then .wait .waitMem
  else if feWaits (s.tile u) off op then
    if s.me.arch.status.form then .trap Cause.timingDeviation ea
    else
      let s := s.modTile u fun x => x.setFeQueue off (x.feQueue off ++ [{ remote := false, key := s.cur, op := op, v := v }])
      .leave ((leaveFor s i (.feWait msg)).modMe fun x => { x with cls := if msg then .waitMsg else .waitMem })
  else if feReads op && (s.tile u).bad? off 8 then .leave (badRead s i ea off 8)
  else .ok (feNow (s.localPort off 8 (feWrites op)) off op v)

/-- The operation on a word of another tile (R162): posted, or with a reply. A posted one is a release that covers the own scratchpad
(R214). -/
def feRemote (s : State) (i : Instr) (ea : Word) (op : FeOp) (v : Word) (t : Nat) (ext : Bool) : Acc Done :=
  let off := ea.toNat % 2 ^ 20
  match fePosted op with
  | some k =>
    if s.ownWrites s.cur then .wait .waitMem
    else if s.me.redundant && !ext then
      let w : Writer := s.writerOn s.cur t
      .ok { s := match op with | .stf => s.fillWord t off v w | _ => s.setBitServe t off (decide (op = .setf)) w }
    else if !s.leads s.cur then .ok { s := s }
    else if s.asyncFull s.cur then .wait .waitMem
    else
      match s.freeEntry (unitOf s.cur) with
      | none => .wait .waitMem
      | some e => .ok { s := s.post k 1 0 (if op = .stf then 8 else 0) ea (.fe op v) e }
  | none =>
    let s := if s.me.redundant && ext && (feCode op).isNone then feedAccess s ea 11 3 [] else s
    .leave (askOnce s i (.tile t) off (.fe op v) ext)

/-- Where the word of an operation lies: another tile, or the own one. -/
inductive FePlace where
  | own
  | migrate (t : Nat)
  | far (t : Nat)
  deriving DecidableEq, Repr

/-- The place of the word (R160, R174, R192), after the checks that its space asks for; a cause when one fails. -/
def fePlace (s : State) (c : Val) (ea : Word) : Except Nat FePlace :=
  let off := ea.toNat % 2 ^ 20
  let near : Except Nat FePlace :=
    match s.localCheck c off 8 false with
    | some k => .error k
    | none => .ok .own
  if c.space = 0 then near
  else
    match s.resolveTile s.cur (ea.toNat % 2 ^ 30) with
    | none => .error Cause.access
    | some t => if migrates c s.cur t then .ok (.migrate t) else if staysLocal c s.cur t then near else .ok (.far t)

/-- The word lies in the own tile, by LOCAL or by a TILE capability with MIGR. -/
def nearWord (s : State) (c : Val) (ea : Word) : Bool :=
  if c.space = 0 then true
  else match s.resolveTile s.cur (ea.toNat % 2 ^ 30) with | some t => staysLocal c s.cur t | none => false

/-- An operation whose word has served it, or whose reply has come: the watchpoints of the own tile (R413), and in a redundant thread the
bytes of its own buffered stores, which LDF and AWAIT see (R391, R399). -/
def feDone (s : State) (op : FeOp) (c : Val) (ea : Word) (a : Answer) : Done :=
  let v := a.bits.extractLsb' 0 64
  let v := if s.me.redundant && decide (op = .ldf) then BitVec.ofNat 64 (leNat (bufBytes s.me.red.buf c.space ea.toNat (leBytes 8 v.toNat))) else v
  { s := if nearWord s c ea then s.watchHit (ea.toNat % 2 ^ 20) 8 (feWrites op) else s, r := feResult op v }

/-- The entry of the region buffer that a posted operation takes at its release point (R391). -/
def feEntry (op : FeOp) (ea v : Word) : Option Buffered :=
  (fePosted op).map fun k =>
    { kind := k, space := 1, addr := ea, bytes := if op = .stf then leBytes 8 v.toNat else [], own := true }

/-- FEOp (R160) on values already read. `msg` is AWAIT's class of turns (R179). -/
def feOp (s : State) (i : Instr) (op : FeOp) (c : Val) (ea : Int) (ops : List Val) (msg : Bool) : Acc Done :=
  let v := (ops.getD 1 {}).lo
  match capTrap s c ea 8 (feNeed op) with
  | some (k, w) => .trap k w
  | none =>
    let w := wordOf ea
    if c.space = 2 then .trap Cause.access w
    else if ea % 8 ≠ 0 then .trap Cause.align w
    else
      match reserveRule s.me c (w.toNat % 2 ^ 20) 8 with
      | some k => .trap k w
      | none =>
        match s.me.held.result with
        | some (.refused k) => .trap k w
        | some a => .ok (feDone s op c w a)
        | none =>
          match fePlace s c w with
          | .error k => .trap k w
          | .ok p =>
            let ext := (match p with | .far _ => true | _ => false) && !s.internal s.cur (w.toNat % 2 ^ 30)
            let entry := if ext then feEntry op w v else none
            let fed (s : State) : State :=
              match feCode op with
              | some k => feedAccess s w k 3 (if op = .stf ∨ op = .stw then leBytes 8 v.toNat else [])
              | none => s
            if entry.isSome && s.me.bufFull && !s.me.red.agreed then .leave (forced s i)
            else
              match (feCode op).bind fun k => atRelease s i k ops fun s => entry.elim (fed s) (fed s).bufPush with
              | some s' => .leave s'
              | none =>
                match p with
                | .own => feLocal s i w op v msg
                | .migrate t => (startMigration s i t w true).andThen fun s => .leave s
                | .far t => feRemote s i w op v t ext

/-- A full/empty form with a destination. -/
def feLoad (s : State) (i : Instr) (op : FeOp) (d : Dst) (a : Reg) (off : Int) (msg : Bool) : State :=
  issue s i [.reg a] [] (.dst d) fun ws _ s => feOp s i op (arg ws 0) ((arg ws 0).addr.toNat + off) ws msg

/-- A full/empty form with a data operand, or with none. -/
def feStore (s : State) (i : Instr) (op : FeOp) (a : Reg) (b : List Src) (off : Int) : State :=
  issue s i (.reg a :: b) [] .none fun ws _ s => feOp s i op (arg ws 0) ((arg ws 0).addr.toNat + off) ws false

/-- LDF, offset in MOD (R160). -/
def execLdf (d : Dst) (a : Reg) (off : BitVec 18) (s : State) : Out :=
  fin s (feLoad s (.ldf d a off) .ldf d a off.toInt false)

/-- LDF, offset in EXT (R160). -/
def execLdfExt (d : Dst) (a : Reg) (off : BitVec 32) (s : State) : Out :=
  fin s (feLoad s (.ldfExt d a off) .ldf d a off.toInt false)

/-- LDT, offset in MOD (R160). -/
def execLdt (d : Dst) (a : Reg) (off : BitVec 18) (s : State) : Out :=
  fin s (feLoad s (.ldt d a off) .ldt d a off.toInt false)

/-- LDT, offset in EXT (R160). -/
def execLdtExt (d : Dst) (a : Reg) (off : BitVec 32) (s : State) : Out :=
  fin s (feLoad s (.ldtExt d a off) .ldt d a off.toInt false)

/-- STF, offset in MOD (R160). -/
def execStf (a : Reg) (b : Src) (off : BitVec 18) (s : State) : Out :=
  fin s (feStore s (.stf a b off) .stf a [b] off.toInt)

/-- STF, offset in EXT (R160). -/
def execStfExt (a : Reg) (b : Src) (off : BitVec 32) (s : State) : Out :=
  fin s (feStore s (.stfExt a b off) .stf a [b] off.toInt)

/-- STW, offset in MOD (R160). -/
def execStw (a : Reg) (b : Src) (off : BitVec 18) (s : State) : Out :=
  fin s (feStore s (.stw a b off) .stw a [b] off.toInt)

/-- STW, offset in EXT (R160). -/
def execStwExt (a : Reg) (b : Src) (off : BitVec 32) (s : State) : Out :=
  fin s (feStore s (.stwExt a b off) .stw a [b] off.toInt)

/-- SETF, offset in MOD (R160). -/
def execSetf (a : Reg) (off : BitVec 18) (s : State) : Out :=
  fin s (feStore s (.setf a off) .setf a [] off.toInt)

/-- SETF, offset in EXT (R160). -/
def execSetfExt (a : Reg) (off : BitVec 32) (s : State) : Out :=
  fin s (feStore s (.setfExt a off) .setf a [] off.toInt)

/-- SETE, offset in MOD (R160). -/
def execSete (a : Reg) (off : BitVec 18) (s : State) : Out :=
  fin s (feStore s (.sete a off) .sete a [] off.toInt)

/-- SETE, offset in EXT (R160). -/
def execSeteExt (a : Reg) (off : BitVec 32) (s : State) : Out :=
  fin s (feStore s (.seteExt a off) .sete a [] off.toInt)

/-- PROBE, offset in MOD (R160). -/
def execProbe (d : Dst) (a : Reg) (off : BitVec 18) (s : State) : Out :=
  fin s (feLoad s (.probe d a off) .probe d a off.toInt false)

/-- PROBE, offset in EXT (R160). -/
def execProbeExt (d : Dst) (a : Reg) (off : BitVec 32) (s : State) : Out :=
  fin s (feLoad s (.probeExt d a off) .probe d a off.toInt false)

/-- AWAIT, offset in MOD (R179). -/
def execAwait (d : Dst) (a : Reg) (off : BitVec 18) (s : State) : Out :=
  fin s (feLoad s (.await d a off) .ldf d a off.toInt true)

/-- AWAIT, offset in EXT (R179). -/
def execAwaitExt (d : Dst) (a : Reg) (off : BitVec 32) (s : State) : Out :=
  fin s (feLoad s (.awaitExt d a off) .ldf d a off.toInt true)

end Sys2Proof.Machine
end

