-- ==== Sys2Proof/Machine/Integer.lean ====
section
/-! DEFINITION. Integer and logic instructions, and the NOP family (R61 to R70). -/

namespace Sys2Proof.Machine

/-- The operand width W (R61). -/
def wid : Width → Nat
  | .b => 8
  | .h => 16
  | .w => 32
  | .d => 64

/-- A source read unsigned at width n (R61). -/
def ua (n : Nat) (v : Val) : Nat := v.data.toNat % 2 ^ n

/-- The W-bit result y mod 2^W, sign-extended or zero-extended into 64 bits, tag 0 (R61). -/
def extend (n : Nat) (signed : Bool) (y : Int) : Val :=
  let r := (y % (2 ^ n : Nat)).toNat
  val64 (if signed then wordOf (sext r n) else BitVec.ofNat 64 r)

/-! ### The operations of R63 on a and b, unsigned and below 2^n -/

/-- ADD. -/
def iAdd (_n a b : Nat) : Int := a + b
/-- SUB. -/
def iSub (_n a b : Nat) : Int := (a : Int) - b
/-- MUL. -/
def iMul (_n a b : Nat) : Int := a * b
/-- MULH: floor(sa * sb / 2^W). -/
def iMulh (n a b : Nat) : Int := (sext a n * sext b n).fdiv (2 ^ n : Nat)
/-- MULHU. -/
def iMulhu (n a b : Nat) : Int := (a * b / 2 ^ n : Nat)
/-- DIV, with its results for a zero divisor and for the overflowing quotient. -/
def iDiv (n a b : Nat) : Int :=
  if b = 0 then -1
  else if sext a n = -(2 ^ (n - 1) : Nat) ∧ sext b n = -1 then sext a n
  else (sext a n).tdiv (sext b n)
/-- DIVU. -/
def iDivu (n a b : Nat) : Int := if b = 0 then (2 ^ n : Nat) - 1 else (a / b : Nat)
/-- REM: the sign of the dividend. -/
def iRem (n a b : Nat) : Int :=
  if b = 0 then sext a n
  else if sext a n = -(2 ^ (n - 1) : Nat) ∧ sext b n = -1 then 0
  else sext a n - sext b n * (sext a n).tdiv (sext b n)
/-- REMU. -/
def iRemu (_n a b : Nat) : Int := if b = 0 then a else (a % b : Nat)
/-- AND. -/
def iAnd (_n a b : Nat) : Int := (a &&& b : Nat)
/-- OR. -/
def iOr (_n a b : Nat) : Int := (a ||| b : Nat)
/-- XOR. -/
def iXor (_n a b : Nat) : Int := (a ^^^ b : Nat)
/-- ANDN: a and not b. -/
def iAndn (n a b : Nat) : Int := (a &&& (2 ^ n - 1 - b) : Nat)
/-- SHL by b mod W. -/
def iShl (n a b : Nat) : Int := (a * 2 ^ (b % n) : Nat)
/-- SHR by b mod W. -/
def iShr (n a b : Nat) : Int := (a / 2 ^ (b % n) : Nat)
/-- SRA by b mod W: floor(sa / 2^n). -/
def iSra (n a b : Nat) : Int := (sext a n).fdiv (2 ^ (b % n) : Nat)
/-- ROT: rotate left by b mod W. -/
def iRot (n a b : Nat) : Int := (a * 2 ^ (b % n) + a / 2 ^ (n - b % n) : Nat)
/-- MIN. -/
def iMin (n a b : Nat) : Int := min (sext a n) (sext b n)
/-- MAX. -/
def iMax (n a b : Nat) : Int := max (sext a n) (sext b n)
/-- MINU. -/
def iMinu (_n a b : Nat) : Int := (min a b : Nat)
/-- MAXU. -/
def iMaxu (_n a b : Nat) : Int := (max a b : Nat)

/-- The result of a form of R62 from the values of A and B. -/
def intResult (f : Nat → Nat → Nat → Int) (wd : Width) (signed : Bool) (a b : Val) : Val :=
  extend (wid wd) signed (f (wid wd) (ua (wid wd) a) (ua (wid wd) b))

/-- A form of R62. -/
def intForm (s : State) (i : Instr) (f : Nat → Nat → Nat → Int) (wd : Width) (signed : Bool) (d : Dst) (a b : Src) : State :=
  compute s i d [a, b] fun ws => intResult f wd signed (arg ws 0) (arg ws 1)

/-- ADD (R62, R63). -/
def execAdd (wd : Width) (d : Dst) (a b : Src) (s : State) : Out :=
  fin s (intForm s (.add wd d a b) iAdd wd true d a b)

/-- SUB (R62, R63). -/
def execSub (wd : Width) (d : Dst) (a b : Src) (s : State) : Out :=
  fin s (intForm s (.sub wd d a b) iSub wd true d a b)

/-- MUL (R62, R63). -/
def execMul (wd : Width) (d : Dst) (a b : Src) (s : State) : Out :=
  fin s (intForm s (.mul wd d a b) iMul wd true d a b)

/-- MULH (R62, R63). -/
def execMulh (wd : Width) (d : Dst) (a b : Src) (s : State) : Out :=
  fin s (intForm s (.mulh wd d a b) iMulh wd true d a b)

/-- MULHU (R62, R63). -/
def execMulhu (wd : Width) (d : Dst) (a b : Src) (s : State) : Out :=
  fin s (intForm s (.mulhu wd d a b) iMulhu wd false d a b)

/-- DIV (R62, R63). -/
def execDiv (wd : Width) (d : Dst) (a b : Src) (s : State) : Out :=
  fin s (intForm s (.div wd d a b) iDiv wd true d a b)

/-- DIVU (R62, R63). -/
def execDivu (wd : Width) (d : Dst) (a b : Src) (s : State) : Out :=
  fin s (intForm s (.divu wd d a b) iDivu wd false d a b)

/-- REM (R62, R63). -/
def execRem (wd : Width) (d : Dst) (a b : Src) (s : State) : Out :=
  fin s (intForm s (.rem wd d a b) iRem wd true d a b)

/-- REMU (R62, R63). -/
def execRemu (wd : Width) (d : Dst) (a b : Src) (s : State) : Out :=
  fin s (intForm s (.remu wd d a b) iRemu wd false d a b)

/-- AND (R62, R63). -/
def execAnd (wd : Width) (d : Dst) (a b : Src) (s : State) : Out :=
  fin s (intForm s (.and wd d a b) iAnd wd false d a b)

/-- OR (R62, R63). -/
def execOr (wd : Width) (d : Dst) (a b : Src) (s : State) : Out :=
  fin s (intForm s (.or wd d a b) iOr wd false d a b)

/-- XOR (R62, R63). -/
def execXor (wd : Width) (d : Dst) (a b : Src) (s : State) : Out :=
  fin s (intForm s (.xor wd d a b) iXor wd false d a b)

/-- ANDN (R62, R63). -/
def execAndn (wd : Width) (d : Dst) (a b : Src) (s : State) : Out :=
  fin s (intForm s (.andn wd d a b) iAndn wd false d a b)

/-- SHL (R62, R63). -/
def execShl (wd : Width) (d : Dst) (a b : Src) (s : State) : Out :=
  fin s (intForm s (.shl wd d a b) iShl wd false d a b)

/-- SHR (R62, R63). -/
def execShr (wd : Width) (d : Dst) (a b : Src) (s : State) : Out :=
  fin s (intForm s (.shr wd d a b) iShr wd false d a b)

/-- SRA (R62, R63). -/
def execSra (wd : Width) (d : Dst) (a b : Src) (s : State) : Out :=
  fin s (intForm s (.sra wd d a b) iSra wd true d a b)

/-- ROT (R62, R63). -/
def execRot (wd : Width) (d : Dst) (a b : Src) (s : State) : Out :=
  fin s (intForm s (.rot wd d a b) iRot wd false d a b)

/-- MIN (R62, R63). -/
def execMin (wd : Width) (d : Dst) (a b : Src) (s : State) : Out :=
  fin s (intForm s (.min wd d a b) iMin wd true d a b)

/-- MAX (R62, R63). -/
def execMax (wd : Width) (d : Dst) (a b : Src) (s : State) : Out :=
  fin s (intForm s (.max wd d a b) iMax wd true d a b)

/-- MINU (R62, R63). -/
def execMinu (wd : Width) (d : Dst) (a b : Src) (s : State) : Out :=
  fin s (intForm s (.minu wd d a b) iMinu wd false d a b)

/-- MAXU (R62, R63). -/
def execMaxu (wd : Width) (d : Dst) (a b : Src) (s : State) : Out :=
  fin s (intForm s (.maxu wd d a b) iMaxu wd false d a b)

/-! ### CLZ, CTZ and POPC (R64) -/

/-- The zero bits of `a` from bit n − 1 downwards. -/
def leadZeros (a : Nat) : Nat → Nat
  | 0 => 0
  | n + 1 => if a.testBit n then 0 else leadZeros a n + 1

/-- The zero bits of `a` from bit k upwards, n bits at most. -/
def trailZeros (a : Nat) : Nat → Nat → Nat
  | _, 0 => 0
  | k, n + 1 => if a.testBit k then 0 else trailZeros a (k + 1) n + 1

/-- The set bits among the low n bits. -/
def popCount (a : Nat) : Nat → Nat
  | 0 => 0
  | n + 1 => popCount a n + b2n (a.testBit n)

/-- A form of R64: its result is zero-extended. -/
def countForm (s : State) (i : Instr) (f : Nat → Nat → Nat) (wd : Width) (d : Dst) (a : Src) : State :=
  compute s i d [a] fun ws => extend (wid wd) false (f (ua (wid wd) (arg ws 0)) (wid wd) : Nat)

/-- CLZ (R64). -/
def execClz (wd : Width) (d : Dst) (a : Src) (s : State) : Out :=
  fin s (countForm s (.clz wd d a) leadZeros wd d a)

/-- CTZ (R64). -/
def execCtz (wd : Width) (d : Dst) (a : Src) (s : State) : Out :=
  fin s (countForm s (.ctz wd d a) (fun x n => trailZeros x 0 n) wd d a)

/-- POPC (R64). -/
def execPopc (wd : Width) (d : Dst) (a : Src) (s : State) : Out :=
  fin s (countForm s (.popc wd d a) popCount wd d a)

/-! ### Immediates, CMP, BEXT and BDEP (R65 to R69) -/

/-- ADDI (R65): ADD with SignExtend(MOD, 18) mod 2^W. -/
def execAddi (wd : Width) (d : Dst) (a : Src) (imm : BitVec 18) (s : State) : Out :=
  fin s (compute s (.addi wd d a imm) d [a] fun ws =>
    let n := wid wd
    extend n true (iAdd n (ua n (arg ws 0)) ((imm.toInt % (2 ^ n : Nat)).toNat)))

/-- MOVI with an 18-bit immediate (R66). -/
def execMovi (d : Dst) (imm : BitVec 18) (s : State) : Out :=
  fin s (compute s (.movi d imm) d [] fun _ => val64 (imm.signExtend 64))

/-- MOVI with a 64-bit immediate (R66). -/
def execMovi64 (d : Dst) (imm : Word) (s : State) : Out :=
  fin s (compute s (.movi64 d imm) d [] fun _ => val64 imm)

/-- MOVI.HI (R66). -/
def execMoviHi (d : Dst) (a : Src) (imm : Word) (s : State) : Out :=
  fin s (compute s (.moviHi d a imm) d [a] fun ws => val128 (imm ++ (arg ws 0).lo))

/-- CMP (R68). -/
def execCmp (c : Cond) (wd : Width) (d : Dst) (a b : Src) (s : State) : Out :=
  fin s (compute s (.cmp c wd d a b) d [a, b] fun ws =>
    val64 (if condHolds c (wid wd) (arg ws 0).data.toNat (arg ws 1).data.toNat then 1 else 0))

/-- BEXT (R69): bits i to i + n − 1 of A that the mask B selects, gathered from bit j upwards. -/
def bextBits (a b : Word) : Nat → Nat → Nat → Nat
  | _, _, 0 => 0
  | i, j, n + 1 =>
    if b.getLsbD i then (if a.getLsbD i then 2 ^ j else 0) + bextBits a b (i + 1) (j + 1) n else bextBits a b (i + 1) j n

/-- BDEP (R69): the bits of A from j upwards, scattered to the places of the mask B from i upwards. -/
def bdepBits (a b : Word) : Nat → Nat → Nat → Nat
  | _, _, 0 => 0
  | i, j, n + 1 =>
    if b.getLsbD i then (if a.getLsbD j then 2 ^ i else 0) + bdepBits a b (i + 1) (j + 1) n else bdepBits a b (i + 1) j n

/-- BEXT (R69). -/
def execBext (d : Dst) (a b : Src) (s : State) : Out :=
  fin s (compute s (.bext d a b) d [a, b] fun ws => val64 (BitVec.ofNat 64 (bextBits (arg ws 0).lo (arg ws 1).lo 0 0 64)))

/-- BDEP (R69). -/
def execBdep (d : Dst) (a b c : Src) (s : State) : Out :=
  fin s (compute s (.bdep d a b c) d [a, b, c] fun ws =>
    val64 (((arg ws 2).lo &&& ~~~(arg ws 1).lo) ||| BitVec.ofNat 64 (bdepBits (arg ws 0).lo (arg ws 1).lo 0 0 64)))

/-! ### NOP forms (R70) -/

/-- A NOP changes no state except pc. -/
def nopForm (s : State) (i : Instr) : State := issue s i [] [] .none fun _ _ s => .ok { s := s }

/-- NOP (R70). -/
def execNop (s : State) : Out := fin s (nopForm s .nop)

/-- NOP.96 (R70). -/
def execNop96 (s : State) : Out := fin s (nopForm s .nop96)

/-- NOP.128 (R70). -/
def execNop128 (s : State) : Out := fin s (nopForm s .nop128)

end Sys2Proof.Machine
end

