-- ==== Sys2Proof/Machine/Memory.lean ====
section
/-! DEFINITION. Loads and stores (R89 to R92). -/

namespace Sys2Proof.Machine

/-- Bytes of a load (R89). -/
def ldBytes : LdSize → Nat
  | .b | .bu => 1
  | .h | .hu => 2
  | .w | .wu => 4
  | .d => 8
  | .q => 16

/-- Bytes of a store (R89). -/
def stBytes : StSize → Nat
  | .b => 1
  | .h => 2
  | .w => 4
  | .d => 8
  | .q => 16

/-- Extend (R89): what a load writes. -/
def ldExtend (z : LdSize) (v : Nat) : Val :=
  match z with
  | .b => val64 (wordOf (sext v 8))
  | .h => val64 (wordOf (sext v 16))
  | .w => val64 (wordOf (sext v 32))
  | .q => val128 (BitVec.ofNat 128 v)
  | _ => val64 (BitVec.ofNat 64 v)

/-- LoadStore (R90) for LD and LDC: the checks, the read, and the value from bytes and tag. -/
def loadForm (s : State) (i : Instr) (d : Dst) (a : Reg) (off : Int) (n : Nat) (tagged : Bool) (f : Val → Got → Val) : State :=
  issue s i [.reg a] [] (.dst d) fun ws _ s =>
    let c := arg ws 0
    let ea := (c.addr.toNat : Int) + off
    match accessCheck s c ea n permR with
    | some (k, w) => .trap k w
    | none => (memGet s i c (wordOf ea) n tagged).andThen fun g => .ok { s := g.s, r := .val (f c g) }

/-- What LDC writes (R90): the tag only with LC and outside GLOBAL space. -/
def ldcValue (c : Val) (g : Got) : Val :=
  { data := BitVec.ofNat 128 (leNat g.bytes), tag := g.tag && c.has permLC && decide (c.space ≠ 2) }

/-- LoadStore (R90) for ST and STC. -/
def storeForm (s : State) (i : Instr) (a : Reg) (b : Src) (off : Int) (n : Nat) (stc : Bool) : State :=
  issue s i [.reg a, b] [] .none fun ws _ s =>
    let c := arg ws 0
    let v := arg ws 1
    let ea := (c.addr.toNat : Int) + off
    match accessCheck s c ea n permW with
    | some (k, w) => .trap k w
    | none =>
      if stc && v.tag && (!c.has permSC || decide (c.space = 2)) then .trap Cause.capPerm (wordOf ea)
      else
        (memWrite s i c (wordOf ea) (leBytes n v.data.toNat) (stc && v.tag) (if stc then 1 else 0)).andThen fun s =>
          .ok { s := s }

/-- LD, offset in MOD (R89). -/
def execLd (z : LdSize) (d : Dst) (a : Reg) (off : BitVec 18) (s : State) : Out :=
  fin s (loadForm s (.ld z d a off) d a off.toInt (ldBytes z) false fun _ g => ldExtend z (leNat g.bytes))

/-- LD, offset in EXT (R89). -/
def execLdExt (z : LdSize) (d : Dst) (a : Reg) (off : BitVec 32) (s : State) : Out :=
  fin s (loadForm s (.ldExt z d a off) d a off.toInt (ldBytes z) false fun _ g => ldExtend z (leNat g.bytes))

/-- ST, offset in MOD (R89). -/
def execSt (z : StSize) (a : Reg) (b : Src) (off : BitVec 18) (s : State) : Out :=
  fin s (storeForm s (.st z a b off) a b off.toInt (stBytes z) false)

/-- ST, offset in EXT (R89). -/
def execStExt (z : StSize) (a : Reg) (b : Src) (off : BitVec 32) (s : State) : Out :=
  fin s (storeForm s (.stExt z a b off) a b off.toInt (stBytes z) false)

/-- LDC, offset in MOD (R89). -/
def execLdc (d : Dst) (a : Reg) (off : BitVec 18) (s : State) : Out :=
  fin s (loadForm s (.ldc d a off) d a off.toInt 16 true ldcValue)

/-- LDC, offset in EXT (R89). -/
def execLdcExt (d : Dst) (a : Reg) (off : BitVec 32) (s : State) : Out :=
  fin s (loadForm s (.ldcExt d a off) d a off.toInt 16 true ldcValue)

/-- STC, offset in MOD (R89). -/
def execStc (a : Reg) (b : Src) (off : BitVec 18) (s : State) : Out :=
  fin s (storeForm s (.stc a b off) a b off.toInt 16 true)

/-- STC, offset in EXT (R89). -/
def execStcExt (a : Reg) (b : Src) (off : BitVec 32) (s : State) : Out :=
  fin s (storeForm s (.stcExt a b off) a b off.toInt 16 true)

end Sys2Proof.Machine
end

