-- ==== Sys2Proof/Machine/Package.lean ====
section
/-! DEFINITION. Fleet health, power, boot, the host link and the fabric (R205, R422 to R427, R434 to R440). -/

namespace Sys2Proof.Machine

/-! ### Errors and fences (R423 to R427) -/

/-- The four tiles of cluster n of the package: 36 to a die, row by row. -/
def clusterTiles (n : Nat) : List Nat :=
  let x := 2 * (n % 6)
  let y := 2 * (n % 36 / 6)
  let d := n / 36 % 4
  [tileAt d x y, tileAt d (x + 1) y, tileAt d x (y + 1), tileAt d (x + 1) (y + 1)]

/-- CONFORMATEUR_MEASURE (R424, R425): at boot and every 2^40 cycles; a cluster whose margin cannot be met is fenced. -/
def execConformateurMeasure (steps failed : List Nat) (s : State) : Out :=
  fin s
    (if 4 ≤ s.boot ∧ s.now % 2 ^ 40 ≠ 0 then s
     else
       let s := (steps.filter fun n => n < 144).foldl (fun s n => s.count (1000 + n) (bits s.thrmargin 15 0) (n / 36) 12) s
       let s :=
         (failed.filter fun n => n < 144).foldl (fun s n =>
           (clusterTiles n).foldl (fun s u => s.fence u) (quarterError s (n / 36) 12 3 1)) s
       s.advise)

/-- SOFTWARE_TILE_FENCE (R426). -/
def execSoftwareTileFence (u : Nat) (s : State) : Out := fin s (s.fence u).advise

/-- STATION_OR_CHANNEL_LOST (R427). -/
def execStationOrChannelLost (station : Option Nat) (s : State) : Out :=
  fin s
    (let s : State := { s with lost := s.lost + 1 }
     (match station with
      | some k => if k < 96 then s.modStation k fun x => { x with lost := true } else s
      | none => s).advise)

/-! ### Power (R440) -/

/-- A new clock: TSYNC ends when it is first lowered (R439). DESIGN CHOICE, log entry 44. -/
def State.setClock (s : State) (mhz : Nat) : State :=
  let low := decide (mhz < 2400)
  { s with clock := mhz, tsync := s.tsync && !low, tsyncEnded := s.tsyncEnded || low }

/-- GUARD_SAMPLE (R440): every 2^16 cycles. DEDUCED, log entry 36. -/
def execGuardSample (watts celsius : Nat) (s : State) : Out :=
  fin s
    (if s.now % 2 ^ 16 ≠ 0 then s
     else if 2100 < watts ∨ 95 < celsius then s.setClock (max 1200 (s.clock - 25))
     else if watts < 1995 then s.setClock (min 2400 (s.clock + 25))
     else s)

/-- THERMAL_TRIP (R440): module power is removed. -/
def execThermalTrip (s : State) : Out := .next { s with power := false, tripped := true, agenda := [], turns := [], late := [] }

/-! ### Boot (R436) -/

/-- What outlasts a power-on reset: fences, lost stations, and what lies outside the package. -/
def State.afterReset (s : State) : State :=
  { State.reset with
    inputs := s.inputs
    tiles := (s.tiles.filter fun e => e.2.fenced).map fun e => (e.1, { fenced := true })
    stations := (s.stations.filter fun e => e.2.lost).map fun e => (e.1, { lost := true })
    lost := s.lost
    hostMem := s.hostMem
    foreign := s.foreign
    records := s.records
    recordsLost := s.recordsLost
    hostReads := s.hostReads
    dbgReplies := s.dbgReplies
    mishaps := s.mishaps
    hostBad := s.hostBad
    ringFull := s.ringFull
    dbgMsgs := s.dbgMsgs
    fresh := s.fresh }

/-- POWER_ON_RESET (R436, R440): boot stage 0; after a thermal trip an ERROR record. -/
def execPowerOnReset (s : State) : Out :=
  let r := s.afterReset.advise
  .next
    (if s.tripped then
       let f := r.free
       quarterError f.2 (f.1.toNat % 4) 12 1 1
     else r)

/-- A system core starts from the device OS image, whose entry the manual does not give (R436). DEDUCED, log entry 36. -/
def State.startCore (s : State) (n : Nat) : State :=
  let a := s.free
  let b := a.2.free
  let c := b.2.free
  c.2.setTh (16 * (576 + n))
    { run := .running
      arch := { status := { mode := 2 }, pc := a.1, xcap := { data := b.1 ++ c.1, tag := true } } }

/-- BOOT_IMAGE_VERIFY (R436): with valid images SYSROOT is written and the system cores start; else the boot has failed.
DEDUCED, log entry 3. -/
def execBootImageVerify (ok : Bool) (sysroot : Word) (s : State) : Out :=
  fin s
    (if 1 < s.boot then s
     else if ok then
       let s : State := { s with boot := 2, sysroot := BitVec.ofNat 64 (bits sysroot 45 13 * 2 ^ 13) }
       (span 0 16).foldl (fun s n => s.startCore n) s
     else { s with boot := 15 })

/-- Lanes that a port brings up: a power of two of them, or none. -/
def lanesUp (f : Word) : BitVec 8 := [0, 1, 3, 15, 255].getD (f.toNat % 5) 0

/-- BOOT_READY (R436, R439): the device OS has brought up the fabric, and READY is shown. DEDUCED, log entry 36. -/
def execBootReady (s : State) : Out :=
  fin s
    (if s.boot ≠ 2 ∧ s.boot ≠ 3 then s
     else
       let s :=
         (span 0 16).foldl (fun (s : State) n =>
           let f := s.free
           { f.2 with ports := f.2.ports.setIfInBounds n { (f.2.ports.toList.getD n {}) with lanes := lanesUp f.1 } }) s
       { s with boot := 4, tsync := !s.tsyncEnded && s.ports.toList.any fun p => p.lanes ≠ 0 })

/-! ### The host link (R434, R435) -/

/-- The physical place of a host's access through BAR2, at the home station on the window's die. -/
def State.hostPlace (s : State) (l : Launch) (va : Nat) (need : Bool × Bool × Bool) : Option Phys :=
  let leaf :=
    match (s.station (24 * l.die + va / 512 % 24)).find (ctxKey l.part l.pasid) va with
    | some e => some (e.level, e.leaf)
    | none => match s.walkVa l.part l.pasid va with | .ok e => some e | .error _ => none
  match leaf with
  | none => none
  | some (lv, e) =>
    match s.leafAccess l.part lv e va need false false false with
    | .ok ph => if s.reachable ph then some ph else none
    | .error _ => none

/-- Read the pieces of a host's access. -/
def State.hostRd (s : State) (l : Launch) : List (Nat × Nat) → Option (List Byte)
  | [] => some []
  | (va, n) :: ps =>
    match s.hostPlace l va (true, false, false) with
    | none => none
    | some ph => (s.hostRd l ps).map fun bs => s.physRd ph n ++ bs

/-- Write the pieces of a host's access; a piece that fails is dropped with an ERROR record. -/
def State.hostWr (s : State) (l : Launch) : List (Nat × Nat) → List Byte → State
  | [], _ => s
  | (va, n) :: ps, bs =>
    let s := match s.hostPlace l va (false, true, false) with | some ph => s.physWr ph (bs.take n) | none => quarterError s l.die 7 1 1
    s.hostWr l ps (bs.drop n)

/-- BAR2_ACCESS (R435). -/
def execBar2Access (vf : Nat) (va : Word) (size : Nat) (wr : Option Quad) (s : State) : Out :=
  let w := s.window vf
  let l := w.launch vf
  let ps := pagePieces (va.toNat % 2 ^ 36) size
  fin s
    (match wr with
     | some q => if 384 ≤ vf ∨ !bit w.wcfg 28 then s else s.hostWr l ps (leBytes size q.toNat)
     | none => { s with hostReads := s.hostReads ++ [if 384 ≤ vf ∨ !bit w.wcfg 28 then none else s.hostRd l ps] })

/-- PF_DOORBELL (R435): the device OS is interrupted. -/
def execPfDoorbell (v : Word) (s : State) : Out := fin s { s with doorbell := v, doorbells := s.doorbells + 1 }

/-- HOST_ATOMICOP (R434): the device completes no AtomicOp, and returns Unsupported Request. -/
def execHostAtomicop (_vf : Nat) (_va : Word) (s : State) : Out := fin s { s with hostReads := s.hostReads ++ [none] }

/-! ### The fabric (R205, R437 to R439) -/

/-- FLIT_CRC_RETRY (R424, R437): the port's retry count saturates. DEDUCED, log entry 37. -/
def execFlitCrcRetry (port lane : Nat) (s : State) : Out :=
  let n := port % 16
  let p := s.ports.toList.getD n {}
  let p := { p with retries := if p.retries = 0xFFFFFFFF then p.retries else p.retries + 1 }
  fin s (({ s with ports := s.ports.setIfInBounds n p } : State).count (8 * n + lane % 8) (bits s.thrport 15 0) 0 9)

/-- LANE_LOSS (R437, R439): with its last lane a port goes down, and with the last port TSYNC ends. DEDUCED, log entry 37. -/
def execLaneLoss (port lane : Nat) (s : State) : Out :=
  let n := port % 16
  let p := s.ports.toList.getD n {}
  let ps := s.ports.setIfInBounds n { p with lanes := p.lanes &&& ~~~((1 : BitVec 8) <<< (lane % 8)) }
  let down := ps.toList.all fun p => p.lanes = 0
  fin s { s with ports := ps, tsync := s.tsync && !down, tsyncEnded := s.tsyncEnded || (down && s.tsync) }

/-- REQUEST_TIMEOUT (R438): 2^24 cycles after its issue a reply-bearing request to another package is refused. DEDUCED, log entry 37. -/
def execRequestTimeout (p : Nat) (s : State) : Out :=
  fin s
    (match s.pkt p with
     | none => s
     | some q =>
       let bearing :=
         match q.owner with | .thread _ => true | .copy _ _ => true | .icache _ => true | _ => false
       if bearing && q.back && decide (q.node ≠ s.nodeid.toNat) && !q.host && decide (q.issue + 2 ^ 24 ≤ s.now) then
         s.modPkt p fun q => { q with answer := .refused Cause.remoteRefused, stage := .answered, due := s.now }
       else s)

/-- TSYNC_MESSAGE (R439): TSTAMP never steps. -/
def execTsyncMessage (_port : Nat) (s : State) : Out := fin s s

/-- FABRIC_REQUEST_ARRIVAL (R205): a request of another package is performed at its PADDR in the package's DRAM; one outside is
refused. -/
def execFabricRequestArrival (_node paddr : Nat) (op : Option AmoOp) (z : Nat) (wr : Option Quad) (cmp : Word) (s : State) : Out :=
  let ph : Phys := { node := s.nodeid.toNat, host := false, pa := paddr }
  fin s
    (if 0x6000000000 < paddr + z then s
     else
       match op, wr with
       | some o, some q => (s.amoPhys ph o z (q.extractLsb' 0 64) cmp).2
       | none, some q => s.physWr ph (leBytes z q.toNat)
       | _, none => s)

end Sys2Proof.Machine
end

