-- ==== Sys2Proof/Machine/Registers.lean ====
section
/-! DEFINITION. Writes of control space, partitions, windows and invalidations (R129, R141, R191, R195, R196, R201, R208, R340, R342,
R424, R430 to R433, R438). -/

namespace Sys2Proof.Machine

/-! ### Module registers (R431) -/

/-- NODEID_WRITE (R431). -/
def execNodeidWrite (v : Word) (s : State) : Out := fin s (if s.boot < 4 then { s with nodeid := v.extractLsb' 0 18 } else s)

/-- SYSROOT_WRITE (R431): by the monitor core. -/
def execSysrootWrite (v : Word) (s : State) : Out := fin s { s with sysroot := BitVec.ofNat 64 (bits v 45 13 * 2 ^ 13) }

/-- SCCTX_WRITE (R196, R431). -/
def execScctxWrite (n : Nat) (v : Word) (s : State) : Out :=
  let s : State := { s with scctx := s.scctx.setIfInBounds n (v &&& 0x3E0FFFFF) }
  fin s
    (if s.pkts.any fun p => p.back && decide (p.answer = .ack) && decide (p.paddr = ctlBase + 0x480 + 8 * n) && !p.host then s
     else { s with coreCtx := s.coreCtx.setIfInBounds n (v &&& 0x3E0FFFFF) })

/-! ### Invalidations (R201, R431) -/

/-- An invalidation names a cached translation: by PASID in every partition, and in the system page table; count 0 names every
page. -/
def invNames (pasid va cnt : Nat) (e : TlbEntry) : Bool :=
  (decide (e.ctx % 2 ^ 20 = pasid) || decide (24 ≤ e.ctx / 2 ^ 20))
    && (decide (cnt = 0)
        || (decide (e.vpn * 2 ^ levelLo e.level < va + cnt * 2 ^ 17) && decide (va < (e.vpn + 1) * 2 ^ levelLo e.level)))

/-- The first invalidation of the queue begins: its entries go, and walks under way will not be cached. -/
def State.invBegin (s : State) : State :=
  match s.invq with
  | [] => s
  | (pasid, va, cnt) :: _ =>
    { s with
      stations := s.stations.map fun e =>
        (e.1,
         { e.2 with
           tlb := e.2.tlb.filter fun t => !invNames pasid va cnt t
           walks := e.2.walks.map fun w => { w with noCache := true } }) }

/-- INVGO (R431): the invalidation is queued with the parameters that stand. -/
def execInvgo (v : Word) (s : State) : Out :=
  fin s
    (if 16 ≤ s.invq.length then s
     else
       let q := (bits v 19 0, bits s.invva 56 17 * 2 ^ 17, s.invcnt.toNat)
       let first := s.invq.isEmpty
       let s : State := { s with invq := s.invq ++ [q] }
       if first then s.invBegin else s)

/-- INVALIDATION_COMPLETE (R201): every walk that began before it has answered; INVSEQ rises, and the next begins. -/
def execInvalidationComplete (s : State) : Out :=
  fin s
    (match s.invq with
     | [] => s
     | _ :: q =>
       if s.stations.any fun e => e.2.walks.any fun w => w.noCache then s
       else ({ s with invq := q, invseq := s.invseq + 1 } : State).invBegin)

/-! ### Felting banks (R340, R431) -/

/-- FABANK_WRITE (R340, R342): a bank that is assigned or released is reset. -/
def execFabankWrite (die half : Nat) (v : Word) (s : State) : Out :=
  let d := die % 4
  let h := half % 2
  let k := 2 * d + h
  let old := s.fabank.toList.getD k 0
  let changed := (span 0 8).filter fun b => bits v (8 * b + 7) (8 * b) ≠ bits old (8 * b + 7) (8 * b)
  fin s
    (let s : State := { s with fabank := s.fabank.setIfInBounds k v }
     s.modFa d fun x => changed.foldl (fun x b => x.resetBank (8 * h + b)) x)

/-! ### Partitions (R191, R208, R432) -/

/-- The locked image of a partition as its page tables stand: none when it cannot be read. -/
def State.lockImage (s : State) (n : Nat) : Option (Nat × List Byte) :=
  let p := s.partn n
  let va := p.lockva.toNat % 2 ^ 57 / 0x2000 * 0x2000
  match s.globalRd n (bits p.lockpasid 19 0) va 0x2000 with
  | .ok bs => some (va, bs)
  | .error _ => none

/-- Fill the locked region of a tile (R208). -/
def State.fillLocked (s : State) (n u : Nat) (im : Option (Nat × List Byte)) : State :=
  s.modTile u fun x =>
    { x with
      locked := (im.map (·.2)).getD []
      lockVa := im.map fun i => (i.1, bits (s.partn n).lockpasid 19 0) }

/-- LOCKPASID_WRITE (R208, R432): the region is filled again on every tile of the partition. -/
def execLockpasidWrite (p : Nat) (v : Word) (s : State) : Out :=
  fin s
    (if 24 ≤ p then s
     else
       let s := s.modPart p fun x => { x with lockpasid := v }
       let im := s.lockImage p
       ((List.range 576).filter fun u => (s.partn p).hasTile u).foldl (fun s u => s.fillLocked p u im) s)

/-- Two partitions share a unit. -/
def Partition.overlaps (p q : Partition) : Bool :=
  (span 0 6).any fun c => (span 0 4).any fun r => p.hasUnit c r && q.hasUnit c r

/-- The rectangle lies in the grid. -/
def Partition.inGrid (p : Partition) : Bool :=
  decide (1 ≤ p.uw) && decide (1 ≤ p.uh) && decide (p.ux + p.uw ≤ 6) && decide (p.uy + p.uh ≤ 4)

/-- A tile that joins a partition: a zero scratchpad, every word full, free units, and the locked image. -/
def Tile.join (x : Tile) (p : Nat) : Tile :=
  { x with
    part := some p
    spad := []
    empty := []
    tags := []
    shadow := []
    pages := []
    bad := []
    feq := []
    mx := { x.mx with owner := [], saved := [] } }

/-- PCFG_WRITE (R432). -/
def execPcfgWrite (p : Nat) (v : Word) (s : State) : Out :=
  let old := s.partn p
  let w := v &&& 0xFFFF7
  let new := { old with pcfg := w }
  let others := (span 0 24).filter fun n => n ≠ p ∧ (s.partn n).en
  fin s
    (if 24 ≤ p then s
     else if old.en ∧ bits old.pcfg 19 4 ≠ bits w 19 4 then s
     else if new.en ∧ (!new.inGrid ∨ others.any fun n => (s.partn n).overlaps new) then s
     else
       let tiles := (List.range 576).filter fun u => old.hasTile u || new.hasTile u
       if old.en && !new.en then
         let s := ((s.insts.filter fun i => i.part = p).map (·.id)).foldl (fun s n => s.abortAll n) s
         let s := s.modPart p fun _ => new
         tiles.foldl (fun s u => s.modTile u fun x => { x with part := none }) s
       else
         let s := s.modPart p fun _ => new
         if old.en || !new.en then s
         else
           let im := s.lockImage p
           tiles.foldl (fun s u => (s.modTile u fun x => x.join p).fillLocked p u im) s)

/-! ### Windows (R433) -/

/-- A WCFG value that keeps the table. -/
def State.wcfgOk (s : State) (v : Word) : Bool :=
  decide (bits v 63 56 = 0) && decide (bits v 15 13 = 0) && decide (bits v 33 29 < 24) && decide (bits v 12 0 ≤ 4096)
    && decide (bits v 27 16 + bits v 12 0 ≤ 4096)
    && (s.partn (bits v 33 29)).quarters.any fun d => d = bits v 35 34

/-- WCFG_WRITE (R433). -/
def execWcfgWrite (win : Nat) (v : Word) (s : State) : Out :=
  let same := (span 0 384).filter fun n => n ≠ win ∧ bit (s.window n).wcfg 28 ∧ bits (s.window n).wcfg 33 29 = bits v 33 29
  fin s
    (if 388 ≤ win ∨ !s.wcfgOk v then s
     else if win < 384 ∧ bit v 28 ∧ 16 ≤ same.length then s
     else s.modWindow win fun w => { w with wcfg := v })

/-! ### The other registers (R126, R129, R141, R424, R430 to R432, R438) -/

/-- A register of a partition block as written. -/
def Partition.put (p : Partition) (o : Nat) (v : Word) : Partition :=
  match o with
  | 0x008 => { p with tbase := v }
  | 0x010 => { p with tlen := v }
  | 0x018 => { p with ctxbase := v }
  | 0x020 => { p with nctx := v }
  | 0x028 => { p with lockva := v }
  | 0x040 => { p with hveclo := v }
  | 0x048 => { p with hvechi := v }
  | _ => p

/-- A dword of scheduler memory: a write of the line that holds GRAPH sets PREDLEFT to 0 (R141). -/
def State.nodeWrite (s : State) (o : Nat) (v : Word) : State :=
  let s : State := { s with nodes := s.nodes.wrWord o v }
  if o % 512 / 64 ≠ 1 then s
  else
    let a := o / 512 * 512 + 0x50
    let g := s.nodes.rdWord a
    { s with nodes := s.nodes.wrWord a (g &&& ~~~0xFFF0000) }

/-- CONTROL_REGISTER_WRITE (R430): a register that has no event of its own. -/
def execControlRegisterWrite (off : Nat) (v : Word) (s : State) : Out :=
  fin s
    (if off % 8 ≠ 0 then s
     else if off = 0x100 then { s with invva := v &&& 0x1FFFFFFFFFFFFFF }
     else if off = 0x108 then { s with invcnt := v }
     else if off = 0x200 then { s with thrport := v &&& 0xFFFF }
     else if off = 0x208 then { s with thrdram := v &&& 0xFFFF }
     else if off = 0x210 then { s with thrmargin := v &&& 0xFFFF }
     else if 0x100000 ≤ off ∧ off < 0x118000 then s.modPart ((off - 0x100000) / 0x1000) fun p => p.put (off % 0x1000) v
     else if 0x200000 ≤ off ∧ off < 0x200000 + 388 * 0x100 ∧ off % 0x100 = 0 then
       s.modWindow ((off - 0x200000) / 0x100) fun w => { w with lpatch := v }
     else if 0x400000 ≤ off ∧ off < 0xC00000 then s.nodeWrite (off - 0x400000) v
     else if 0xC00000 ≤ off ∧ off < 0xC40000 then
       { s with routes := ((leBytes 8 v.toNat).zipIdx).foldl (fun m e => Sparse.set 0xFF m (off - 0xC00000 + e.2) e.1) s.routes }
     else s)

end Sys2Proof.Machine
end

