-- ==== Sys2Proof/Machine/Vector.lean ====
section
/-! DEFINITION. Vector instructions (R145 to R154). -/

namespace Sys2Proof.Machine

/-! ### Lanes (R145) -/

/-- The number of lanes of a format. -/
def lanes (f : Fmt) : Nat := 512 / f.lane

/-- Lane i of a vector as a code: a T6 lane reads bits [5:0] of its byte. -/
def laneOf (f : Fmt) (q : BitVec 512) (i : Nat) : Nat := q.toNat / 2 ^ (f.lane * i) % 2 ^ f.width

/-- A vector from its lanes, lane 0 first: codes below 2^width, so T6 writes bits [7:6] as zero. -/
def ofLanes (f : Fmt) (cs : List Nat) : BitVec 512 :=
  BitVec.ofNat 512 (cs.foldr (fun c acc => c % 2 ^ f.width + 2 ^ f.lane * acc) 0)

/-- The lanes of a vector. -/
def lanesOf (f : Fmt) (q : BitVec 512) : List Nat := (List.range (lanes f)).map (laneOf f q)

/-- A vector instruction whose result is computed from its operands without a draw. -/
def vecForm (s : State) (i : Instr) (d : VReg) (vs : List VReg) (xs : List Src) (f : List (BitVec 512) → List Val → BitVec 512) :
    State :=
  issue s i xs vs (.vec d) fun ws qs s => .ok { s := s, r := .vec (f qs ws) }

/-- A vector instruction with n elements and one draw for each under SR (R49, R148). -/
def vecDraw (s : State) (i : Instr) (rm : Rm) (n : Nat) (d : VReg) (vs : List VReg)
    (h : List (BitVec 512) → Nat → Nat → Nat) (mk : List (BitVec 512) → State → List Nat → BitVec 512) : State :=
  issue s i [] vs (.vec d) fun _ qs s =>
    let r := elements rm (h qs) 0 n s.me.arch.rndseed
    let s := s.modArch fun a => { a with rndseed := r.2 }
    .ok { s := s, r := .vec (mk qs s r.1) }

/-! ### Element-wise forms (R148) -/

/-- The arithmetic element-wise operations. -/
inductive VOp where
  | add
  | sub
  | mul
  | min
  | max
  | fma
  deriving DecidableEq, Repr

/-- The exact integer result. -/
def VOp.int (op : VOp) (a b c : Int) : Int :=
  match op with
  | .add => a + b
  | .sub => a - b
  | .mul => a * b
  | .min => Min.min a b
  | .max => Max.max a b
  | .fma => a * b + c

/-- FLane (R148). -/
def VOp.float (op : VOp) (f : Fmt) (rm : Rm) (g a b c : Nat) : Nat :=
  match op with
  | .add => fArith .add f rm g a b c
  | .sub => fArith .sub f rm g a b c
  | .mul => fArith .mul f rm g a b c
  | .min => fMin f a b
  | .max => fMax f a b
  | .fma => fArith .fma f rm g a b c

/-- One lane of VElem (R148): integers wrap or saturate. -/
def velem (op : VOp) (f : Fmt) (rm : Rm) (sat : Bool) (g a b c : Nat) : Nat :=
  if f.isInt then
    let x := op.int (f.int a) (f.int b) (f.int c)
    f.icode (if sat then f.isat x else x)
  else op.float f rm g a b c

/-- An arithmetic element-wise form. -/
def velemForm (s : State) (i : Instr) (op : VOp) (f : Fmt) (rm : Rm) (sat : Bool) (d : VReg) (vs : List VReg) : State :=
  vecDraw s i rm (lanes f) d vs
    (fun qs k g => velem op f rm sat g (laneOf f (qarg qs 0) k) (laneOf f (qarg qs 1) k) (laneOf f (qarg qs 2) k))
    fun _ _ cs => ofLanes f cs

/-- VADD (R148). -/
def execVadd (f : Fmt) (rm : Rm) (sat : Bool) (d a b : VReg) (s : State) : Out :=
  fin s (velemForm s (.vadd f rm sat d a b) .add f rm sat d [a, b])

/-- VSUB (R148). -/
def execVsub (f : Fmt) (rm : Rm) (sat : Bool) (d a b : VReg) (s : State) : Out :=
  fin s (velemForm s (.vsub f rm sat d a b) .sub f rm sat d [a, b])

/-- VMUL (R148). -/
def execVmul (f : Fmt) (rm : Rm) (sat : Bool) (d a b : VReg) (s : State) : Out :=
  fin s (velemForm s (.vmul f rm sat d a b) .mul f rm sat d [a, b])

/-- VFMA (R148). -/
def execVfma (f : Fmt) (rm : Rm) (sat : Bool) (d a b c : VReg) (s : State) : Out :=
  fin s (velemForm s (.vfma f rm sat d a b c) .fma f rm sat d [a, b, c])

/-- VMIN (R148): no draw. -/
def execVmin (f : Fmt) (d a b : VReg) (s : State) : Out :=
  fin s (velemForm s (.vmin f d a b) .min f .rne false d [a, b])

/-- VMAX (R148): no draw. -/
def execVmax (f : Fmt) (d a b : VReg) (s : State) : Out :=
  fin s (velemForm s (.vmax f d a b) .max f .rne false d [a, b])

/-- A form that works on the codes of two lanes. -/
def vbitForm (s : State) (i : Instr) (f : Fmt) (d a b : VReg) (h : Nat → Nat → Nat) : State :=
  vecForm s i d [a, b] [] fun qs _ =>
    ofLanes f ((List.range (lanes f)).map fun k => h (laneOf f (qarg qs 0) k) (laneOf f (qarg qs 1) k))

/-- VAND (R148). -/
def execVand (f : Fmt) (d a b : VReg) (s : State) : Out :=
  fin s (vbitForm s (.vand f d a b) f d a b (fun x y => x &&& y))

/-- VOR (R148). -/
def execVor (f : Fmt) (d a b : VReg) (s : State) : Out :=
  fin s (vbitForm s (.vor f d a b) f d a b (fun x y => x ||| y))

/-- VXOR (R148). -/
def execVxor (f : Fmt) (d a b : VReg) (s : State) : Out :=
  fin s (vbitForm s (.vxor f d a b) f d a b (fun x y => x ^^^ y))

/-- VSHL (R148). -/
def execVshl (f : Fmt) (d a b : VReg) (s : State) : Out :=
  fin s (vbitForm s (.vshl f d a b) f d a b (fun x y => x * 2 ^ (y % f.lane) % 2 ^ f.width))

/-- VSHR (R148). -/
def execVshr (f : Fmt) (d a b : VReg) (s : State) : Out :=
  fin s (vbitForm s (.vshr f d a b) f d a b (fun x y => x / 2 ^ (y % f.lane)))

/-- VSRA (R148). -/
def execVsra (f : Fmt) (d a b : VReg) (s : State) : Out :=
  fin s (vbitForm s (.vsra f d a b) f d a b (fun x y => f.icode ((sext x f.width).fdiv (2 ^ (y % f.lane) : Nat))))

/-! ### VCMP, VSEL, VPERM, VBCAST (R149) -/

/-- Bit i of the mask is set where `h i` holds, below n. -/
def maskOf (h : Nat → Bool) : Nat → Nat
  | 0 => 0
  | n + 1 => maskOf h n + (if h n then 2 ^ n else 0)

/-- The condition of VCMP on two lanes (R149). -/
def vcond (c : BitVec 4) (f : Fmt) (a b : Nat) : Bool :=
  if f.isInt then condHolds (condOf c.toNat) f.width a b else fcondHolds (fcondOf c.toNat) f a b

/-- VCMP (R149). -/
def execVcmp (c : BitVec 4) (f : Fmt) (d : Dst) (a b : VReg) (s : State) : Out :=
  fin s (issue s (.vcmp c f d a b) [] [a, b] (.dst d) fun _ qs s =>
    Done.value s (val64 (BitVec.ofNat 64
      (maskOf (fun k => vcond c f (laneOf f (qarg qs 0) k) (laneOf f (qarg qs 1) k)) (lanes f)))))

/-- VSEL (R149). -/
def execVsel (f : Fmt) (d a b : VReg) (c : Src) (s : State) : Out :=
  fin s (vecForm s (.vsel f d a b c) d [a, b] [c] fun qs ws =>
    ofLanes f ((List.range (lanes f)).map fun k =>
      if (arg ws 0).lo.getLsbD k then laneOf f (qarg qs 0) k else laneOf f (qarg qs 1) k))

/-- VPERM (R149). -/
def execVperm (f : Fmt) (d a b : VReg) (s : State) : Out :=
  fin s (vecForm s (.vperm f d a b) d [a, b] [] fun qs _ =>
    ofLanes f ((List.range (lanes f)).map fun k => laneOf f (qarg qs 0) (laneOf f (qarg qs 1) k % lanes f)))

/-- VBCAST (R149). -/
def execVbcast (f : Fmt) (d : VReg) (a : Src) (s : State) : Out :=
  fin s (vecForm s (.vbcast f d a) d [] [a] fun _ ws =>
    ofLanes f (List.replicate (lanes f) ((arg ws 0).data.toNat % 2 ^ f.width)))

/-! ### VCVT (R150) -/

/-- The lanes of D after a narrowing conversion: those from PART * m on are new, the others stay. -/
def putLanes (f : Fmt) (old : BitVec 512) (at? : Nat) (cs : List Nat) : BitVec 512 :=
  let w := f.lane
  let n := old.toNat
  let m := cs.length
  let new := cs.foldr (fun c acc => c % 2 ^ f.width + 2 ^ w * acc) 0
  BitVec.ofNat 512 (n % 2 ^ (w * at?) + new * 2 ^ (w * at?) + n / 2 ^ (w * (at? + m)) * 2 ^ (w * (at? + m)))

/-- The value that a vector destination holds. -/
def State.oldVec (s : State) (d : VReg) : BitVec 512 :=
  match d with
  | .quad q => s.me.arch.quad q
  | .zero => 0

/-- VCVT (R150). -/
def execVcvt (dst src : Fmt) (rm : Rm) (part : Fin 8) (d a : VReg) (s : State) : Out :=
  let m := 512 / max src.lane dst.lane
  let narrow := decide (dst.lane ≤ src.lane)
  fin s (vecDraw s (.vcvt dst src rm part d a) rm m d [a]
    (fun qs k g => convert src dst rm g (laneOf src (qarg qs 0) (if narrow then k else part.val * m + k)))
    fun _ s cs => if narrow then putLanes dst (s.oldVec d) (part.val * m) cs else ofLanes dst cs)

/-! ### VRED and VSCAN (R151, R152) -/

/-- A lane extended as F reads it, modulo 2^64 (R151). -/
def extLane (f : Fmt) (c : Nat) : Nat := if f.isInt then (f.int c % (2 ^ 64 : Nat)).toNat else c

/-- The code of −0, or of 0 where the format has no −0: a masked lane of a sum (R55). -/
def negZero (f : Fmt) : Nat := if f.hasNegZero then 2 ^ (f.width - 1) else 0

/-- One step of a reduction other than a float sum (R151). -/
def redStep (op : VRedOp) (f : Fmt) (acc v : Nat) : Nat :=
  match op with
  | .add => (acc + v) % 2 ^ 64
  | .min =>
    if f.isFloat then fMin f acc v
    else if f.isSigned then (if sext acc 64 ≤ sext v 64 then acc else v)
    else Min.min acc v
  | .max =>
    if f.isFloat then fMax f acc v
    else if f.isSigned then (if sext v 64 ≤ sext acc 64 then acc else v)
    else Max.max acc v
  | .and => acc &&& v
  | .or => acc ||| v
  | .xor => acc ^^^ v

/-- A float sum: one rounding after each addition, one draw for each lane under SR (R151). -/
def floatSum (op : VRedOp) (f : Fmt) : Bool := decide (op = .add) && f.isFloat

/-- The accumulator after each of the lanes from k on, and the register after the draws (R151, R152). -/
def redLanes (op : VRedOp) (f : Fmt) (rm : Rm) (q : BitVec 512) (mask : Word) :
    Nat → Nat → Option Nat → Word → List (Option Nat) × Word
  | _, 0, _, seed => ([], seed)
  | k, n + 1, acc, seed =>
    let on := mask.getLsbD k
    let d := if floatSum op f then drawFor rm seed else (0, seed)
    let acc' :=
      if floatSum op f then
        some (fArith .add f rm d.1 (acc.getD (negZero f)) (if on then laneOf f q k else negZero f) 0)
      else if on then
        let v := extLane f (laneOf f q k)
        match acc with
        | none => some v
        | some a => some (redStep op f a v)
      else acc
    let r := redLanes op f rm q mask (k + 1) n acc' d.2
    (acc' :: r.1, r.2)

/-- The accumulator before the first lane (R151): of an addition −0, which the sum of lanes that are all +0 under round-down keeps by R83 and
R55's last sentence, where R55's "all terms +0" would give +0. DESIGN CHOICE, log entry 17. -/
def redInit (op : VRedOp) (f : Fmt) : Option Nat :=
  if op = .add then some (if f.isFloat then negZero f else 0) else none

/-- VRED (R151). -/
def execVred (op : VRedOp) (f : Fmt) (rm : Rm) (d : Dst) (a : VReg) (b : Src) (count : BitVec 7) (s : State) : Out :=
  fin s (issue s (.vred op f rm d a b count) [b] [a] (.dst d) fun ws qs s =>
    if count.toNat = 0 then Done.value s (val64 0)
    else
      let r := redLanes op f rm (qarg qs 0) (arg ws 0).lo 0 count.toNat (redInit op f) s.me.arch.rndseed
      Done.value (s.modArch fun x => { x with rndseed := r.2 })
        (val64 (BitVec.ofNat 64 ((r.1.getLastD none).getD 0))))

/-- VSCAN (R152). -/
def execVscan (op : VRedOp) (f : Fmt) (rm : Rm) (d a : VReg) (b : Src) (s : State) : Out :=
  fin s (issue s (.vscan op f rm d a b) [b] [a] (.vec d) fun ws qs s =>
    let r := redLanes op f rm (qarg qs 0) (arg ws 0).lo 0 (lanes f) (redInit op f) s.me.arch.rndseed
    .ok { s := s.modArch fun x => { x with rndseed := r.2 }, r := .vec (ofLanes f (r.1.map fun v => v.getD 0)) })

/-! ### VDOT, VRCP and VEXP2 (R153, R154) -/

/-- The accumulator format of VDOT (R153). -/
def dotFmt (f : Fmt) : Fmt := if f.isInt then .i64 else if f = .f64 then .f64 else .f32

/-- The dot product of two vectors onto an accumulator code (R153). -/
def dotCode (f : Fmt) (rm : Rm) (g : Nat) (a b : BitVec 512) (c : Nat) : Nat :=
  if f.isInt then
    let x := (List.range (lanes f)).foldl (fun acc k => acc + f.int (laneOf f a k) * f.int (laneOf f b k)) (sext c 64)
    Fmt.icode .i64 (Fmt.isat .i64 x)
  else
    let ts := (List.range (lanes f)).map fun k => (f.num (laneOf f a k)).mul (f.num (laneOf f b k))
    (sumNum (decide (rm = .rdn)) (ts ++ [(dotFmt f).num c])).sat (dotFmt f) rm g

/-- VDOT (R153). -/
def execVdot (f : Fmt) (rm : Rm) (d : Dst) (a b : VReg) (c : Src) (s : State) : Out :=
  fin s (issue s (.vdot f rm d a b c) [c] [a, b] (.dst d) fun ws qs s =>
    let g := drawMe s rm
    Done.value g.2 (codeVal (dotCode f rm g.1 (qarg qs 0) (qarg qs 1) (arg ws 0).data.toNat)))

/-- VRCP (R154). -/
def execVrcp (f : Fmt) (rm : Rm) (d a : VReg) (s : State) : Out :=
  fin s (vecDraw s (.vrcp f rm d a) rm (lanes f) d [a] (fun qs k g => fRcp f rm g (laneOf f (qarg qs 0) k))
    fun _ _ cs => ofLanes f cs)

/-- VEXP2 (R154). -/
def execVexp2 (f : Fmt) (rm : Rm) (d a : VReg) (s : State) : Out :=
  fin s (vecDraw s (.vexp2 f rm d a) rm (lanes f) d [a] (fun qs k g => fExp2 f rm g (laneOf f (qarg qs 0) k))
    fun _ _ cs => ofLanes f cs)

end Sys2Proof.Machine
end

