-- ==== Sys2Proof/Machine/Dispatch.lean ====
section
/-! DEFINITION. One arm for each constructor of Instr: the meaning of the instruction or event. -/

namespace Sys2Proof.Machine

/-- The meaning of an instruction or event in a state. -/
def exec (i : Instr) (s : State) : Host.Outcome State Fault Refusal :=
  match i with
  | .add wd d a b => Sys2Proof.Machine.execAdd wd d a b s
  | .sub wd d a b => Sys2Proof.Machine.execSub wd d a b s
  | .mul wd d a b => Sys2Proof.Machine.execMul wd d a b s
  | .mulh wd d a b => Sys2Proof.Machine.execMulh wd d a b s
  | .mulhu wd d a b => Sys2Proof.Machine.execMulhu wd d a b s
  | .div wd d a b => Sys2Proof.Machine.execDiv wd d a b s
  | .divu wd d a b => Sys2Proof.Machine.execDivu wd d a b s
  | .rem wd d a b => Sys2Proof.Machine.execRem wd d a b s
  | .remu wd d a b => Sys2Proof.Machine.execRemu wd d a b s
  | .and wd d a b => Sys2Proof.Machine.execAnd wd d a b s
  | .or wd d a b => Sys2Proof.Machine.execOr wd d a b s
  | .xor wd d a b => Sys2Proof.Machine.execXor wd d a b s
  | .andn wd d a b => Sys2Proof.Machine.execAndn wd d a b s
  | .shl wd d a b => Sys2Proof.Machine.execShl wd d a b s
  | .shr wd d a b => Sys2Proof.Machine.execShr wd d a b s
  | .sra wd d a b => Sys2Proof.Machine.execSra wd d a b s
  | .rot wd d a b => Sys2Proof.Machine.execRot wd d a b s
  | .min wd d a b => Sys2Proof.Machine.execMin wd d a b s
  | .max wd d a b => Sys2Proof.Machine.execMax wd d a b s
  | .minu wd d a b => Sys2Proof.Machine.execMinu wd d a b s
  | .maxu wd d a b => Sys2Proof.Machine.execMaxu wd d a b s
  | .clz wd d a => Sys2Proof.Machine.execClz wd d a s
  | .ctz wd d a => Sys2Proof.Machine.execCtz wd d a s
  | .popc wd d a => Sys2Proof.Machine.execPopc wd d a s
  | .addi wd d a imm => Sys2Proof.Machine.execAddi wd d a imm s
  | .movi d imm => Sys2Proof.Machine.execMovi d imm s
  | .movi64 d imm => Sys2Proof.Machine.execMovi64 d imm s
  | .moviHi d a imm => Sys2Proof.Machine.execMoviHi d a imm s
  | .cmp c wd d a b => Sys2Proof.Machine.execCmp c wd d a b s
  | .bext d a b => Sys2Proof.Machine.execBext d a b s
  | .bdep d a b c => Sys2Proof.Machine.execBdep d a b c s
  | .nop => Sys2Proof.Machine.execNop s
  | .nop96 => Sys2Proof.Machine.execNop96 s
  | .nop128 => Sys2Proof.Machine.execNop128 s
  | .br c a b off => Sys2Proof.Machine.execBr c a b off s
  | .brImm c a imm off => Sys2Proof.Machine.execBrImm c a imm off s
  | .j off => Sys2Proof.Machine.execJ off s
  | .jExt off => Sys2Proof.Machine.execJExt off s
  | .jl d off => Sys2Proof.Machine.execJl d off s
  | .jlExt d off => Sys2Proof.Machine.execJlExt d off s
  | .jr d a off => Sys2Proof.Machine.execJr d a off s
  | .loop d off => Sys2Proof.Machine.execLoop d off s
  | .halt => Sys2Proof.Machine.execHalt s
  | .csetb d a b => Sys2Proof.Machine.execCsetb d a b s
  | .csetbTight d a b => Sys2Proof.Machine.execCsetbTight d a b s
  | .cgetb d a => Sys2Proof.Machine.execCgetb d a s
  | .cgeta d a => Sys2Proof.Machine.execCgeta d a s
  | .ctag d a => Sys2Proof.Machine.execCtag d a s
  | .cinc d a b => Sys2Proof.Machine.execCinc d a b s
  | .cincImm d a imm => Sys2Proof.Machine.execCincImm d a imm s
  | .candp d a b => Sys2Proof.Machine.execCandp d a b s
  | .candpImm d a imm => Sys2Proof.Machine.execCandpImm d a imm s
  | .cclr d a => Sys2Proof.Machine.execCclr d a s
  | .cmov d a => Sys2Proof.Machine.execCmov d a s
  | .fadd f rm d a b => Sys2Proof.Machine.execFadd f rm d a b s
  | .fsub f rm d a b => Sys2Proof.Machine.execFsub f rm d a b s
  | .fmul f rm d a b => Sys2Proof.Machine.execFmul f rm d a b s
  | .fdiv f rm d a b => Sys2Proof.Machine.execFdiv f rm d a b s
  | .fsqrt f rm d a => Sys2Proof.Machine.execFsqrt f rm d a s
  | .fmin f d a b => Sys2Proof.Machine.execFmin f d a b s
  | .fmax f d a b => Sys2Proof.Machine.execFmax f d a b s
  | .ffma f rm d a b c => Sys2Proof.Machine.execFfma f rm d a b c s
  | .fcmp c f d a b => Sys2Proof.Machine.execFcmp c f d a b s
  | .fclass f d a => Sys2Proof.Machine.execFclass f d a s
  | .fsgnCpy f d a b => Sys2Proof.Machine.execFsgnCpy f d a b s
  | .fsgnNeg f d a b => Sys2Proof.Machine.execFsgnNeg f d a b s
  | .fsgnXor f d a b => Sys2Proof.Machine.execFsgnXor f d a b s
  | .frnd f rm d a => Sys2Proof.Machine.execFrnd f rm d a s
  | .cvt dst src rm d a => Sys2Proof.Machine.execCvt dst src rm d a s
  | .ld z d a off => Sys2Proof.Machine.execLd z d a off s
  | .ldExt z d a off => Sys2Proof.Machine.execLdExt z d a off s
  | .st z a b off => Sys2Proof.Machine.execSt z a b off s
  | .stExt z a b off => Sys2Proof.Machine.execStExt z a b off s
  | .ldc d a off => Sys2Proof.Machine.execLdc d a off s
  | .ldcExt d a off => Sys2Proof.Machine.execLdcExt d a off s
  | .stc a b off => Sys2Proof.Machine.execStc a b off s
  | .stcExt a b off => Sys2Proof.Machine.execStcExt a b off s
  | .trap code => Sys2Proof.Machine.execTrap code s
  | .eret => Sys2Proof.Machine.execEret s
  | .eretSkip => Sys2Proof.Machine.execEretSkip s
  | .srd d num => Sys2Proof.Machine.execSrd d num s
  | .swr num a => Sys2Proof.Machine.execSwr num a s
  | .iflush => Sys2Proof.Machine.execIflush s
  | .brk code => Sys2Proof.Machine.execBrk code s
  | .waiti a => Sys2Proof.Machine.execWaiti a s
  | .vadd f rm sat d a b => Sys2Proof.Machine.execVadd f rm sat d a b s
  | .vsub f rm sat d a b => Sys2Proof.Machine.execVsub f rm sat d a b s
  | .vmul f rm sat d a b => Sys2Proof.Machine.execVmul f rm sat d a b s
  | .vmin f d a b => Sys2Proof.Machine.execVmin f d a b s
  | .vmax f d a b => Sys2Proof.Machine.execVmax f d a b s
  | .vfma f rm sat d a b c => Sys2Proof.Machine.execVfma f rm sat d a b c s
  | .vand f d a b => Sys2Proof.Machine.execVand f d a b s
  | .vor f d a b => Sys2Proof.Machine.execVor f d a b s
  | .vxor f d a b => Sys2Proof.Machine.execVxor f d a b s
  | .vshl f d a b => Sys2Proof.Machine.execVshl f d a b s
  | .vshr f d a b => Sys2Proof.Machine.execVshr f d a b s
  | .vsra f d a b => Sys2Proof.Machine.execVsra f d a b s
  | .vcmp cond f d a b => Sys2Proof.Machine.execVcmp cond f d a b s
  | .vsel f d a b c => Sys2Proof.Machine.execVsel f d a b c s
  | .vcvt dst src rm part d a => Sys2Proof.Machine.execVcvt dst src rm part d a s
  | .vperm f d a b => Sys2Proof.Machine.execVperm f d a b s
  | .vbcast f d a => Sys2Proof.Machine.execVbcast f d a s
  | .vred op f rm d a b count => Sys2Proof.Machine.execVred op f rm d a b count s
  | .vscan op f rm d a b => Sys2Proof.Machine.execVscan op f rm d a b s
  | .vdot f rm d a b c => Sys2Proof.Machine.execVdot f rm d a b c s
  | .vrcp f rm d a => Sys2Proof.Machine.execVrcp f rm d a s
  | .vexp2 f rm d a => Sys2Proof.Machine.execVexp2 f rm d a s
  | .sbind g d a b => Sys2Proof.Machine.execSbind g d a b s
  | .sunb d => Sys2Proof.Machine.execSunb d s
  | .sskip d a => Sys2Proof.Machine.execSskip d a s
  | .ldf d a off => Sys2Proof.Machine.execLdf d a off s
  | .ldfExt d a off => Sys2Proof.Machine.execLdfExt d a off s
  | .ldt d a off => Sys2Proof.Machine.execLdt d a off s
  | .ldtExt d a off => Sys2Proof.Machine.execLdtExt d a off s
  | .stf a b off => Sys2Proof.Machine.execStf a b off s
  | .stfExt a b off => Sys2Proof.Machine.execStfExt a b off s
  | .stw a b off => Sys2Proof.Machine.execStw a b off s
  | .stwExt a b off => Sys2Proof.Machine.execStwExt a b off s
  | .setf a off => Sys2Proof.Machine.execSetf a off s
  | .setfExt a off => Sys2Proof.Machine.execSetfExt a off s
  | .sete a off => Sys2Proof.Machine.execSete a off s
  | .seteExt a off => Sys2Proof.Machine.execSeteExt a off s
  | .probe d a off => Sys2Proof.Machine.execProbe d a off s
  | .probeExt d a off => Sys2Proof.Machine.execProbeExt d a off s
  | .marm d a off => Sys2Proof.Machine.execMarm d a off s
  | .mwait d a => Sys2Proof.Machine.execMwait d a s
  | .mdisarm a off => Sys2Proof.Machine.execMdisarm a off s
  | .mdisarmAll => Sys2Proof.Machine.execMdisarmAll s
  | .amoAdd z o sc d a b off => Sys2Proof.Machine.execAmoAdd z o sc d a b off s
  | .amoAnd z o sc d a b off => Sys2Proof.Machine.execAmoAnd z o sc d a b off s
  | .amoOr z o sc d a b off => Sys2Proof.Machine.execAmoOr z o sc d a b off s
  | .amoXor z o sc d a b off => Sys2Proof.Machine.execAmoXor z o sc d a b off s
  | .amoMin z o sc d a b off => Sys2Proof.Machine.execAmoMin z o sc d a b off s
  | .amoMax z o sc d a b off => Sys2Proof.Machine.execAmoMax z o sc d a b off s
  | .amoMinu z o sc d a b off => Sys2Proof.Machine.execAmoMinu z o sc d a b off s
  | .amoMaxu z o sc d a b off => Sys2Proof.Machine.execAmoMaxu z o sc d a b off s
  | .amoSwap z o sc d a b off => Sys2Proof.Machine.execAmoSwap z o sc d a b off s
  | .amoCas z o sc d a b c off => Sys2Proof.Machine.execAmoCas z o sc d a b c off s
  | .redAdd z o sc a b off => Sys2Proof.Machine.execRedAdd z o sc a b off s
  | .redAnd z o sc a b off => Sys2Proof.Machine.execRedAnd z o sc a b off s
  | .redOr z o sc a b off => Sys2Proof.Machine.execRedOr z o sc a b off s
  | .redXor z o sc a b off => Sys2Proof.Machine.execRedXor z o sc a b off s
  | .redMin z o sc a b off => Sys2Proof.Machine.execRedMin z o sc a b off s
  | .redMax z o sc a b off => Sys2Proof.Machine.execRedMax z o sc a b off s
  | .redMinu z o sc a b off => Sys2Proof.Machine.execRedMinu z o sc a b off s
  | .redMaxu z o sc a b off => Sys2Proof.Machine.execRedMaxu z o sc a b off s
  | .atomicAtOwner p => Sys2Proof.Machine.execAtomicAtOwner p s
  | .fence k sc => Sys2Proof.Machine.execFence k sc s
  | .mbcfg m a size => Sys2Proof.Machine.execMbcfg m a size s
  | .mbcfgOff m => Sys2Proof.Machine.execMbcfgOff m s
  | .send m a b off count => Sys2Proof.Machine.execSend m a b off count s
  | .mailboxDelivery p => Sys2Proof.Machine.execMailboxDelivery p s
  | .mailboxResend u e => Sys2Proof.Machine.execMailboxResend u e s
  | .migr a off => Sys2Proof.Machine.execMigr a off s
  | .migrationArrival t => Sys2Proof.Machine.execMigrationArrival t s
  | .spawn a b pcount => Sys2Proof.Machine.execSpawn a b pcount s
  | .await d a off => Sys2Proof.Machine.execAwait d a off s
  | .awaitExt d a off => Sys2Proof.Machine.execAwaitExt d a off s
  | .exit => Sys2Proof.Machine.execExit s
  | .barGang d => Sys2Proof.Machine.execBarGang d s
  | .barField d => Sys2Proof.Machine.execBarField d s
  | .follow d off => Sys2Proof.Machine.execFollow d off s
  | .tid d => Sys2Proof.Machine.execTid d s
  | .mwld f a b off => Sys2Proof.Machine.execMwld f a b off s
  | .mtrl f a b off => Sys2Proof.Machine.execMtrl f a b off s
  | .mma f src wide rows acc => Sys2Proof.Machine.execMma f src wide rows acc s
  | .mmas f src pat wide rows acc c => Sys2Proof.Machine.execMmas f src pat wide rows acc c s
  | .mmam f src wide rows acc c => Sys2Proof.Machine.execMmam f src wide rows acc c s
  | .mmar f src wide acc => Sys2Proof.Machine.execMmar f src wide acc s
  | .mzero count first => Sys2Proof.Machine.execMzero count first s
  | .maccAdd f td ta tb => Sys2Proof.Machine.execMaccAdd f td ta tb s
  | .maccSub f td ta tb => Sys2Proof.Machine.execMaccSub f td ta tb s
  | .maccScale f td ta b => Sys2Proof.Machine.execMaccScale f td ta b s
  | .acld f a b tile off => Sys2Proof.Machine.execAcld f a b tile off s
  | .acst f a b c tile off => Sys2Proof.Machine.execAcst f a b c tile off s
  | .mdrain f a b c tile => Sys2Proof.Machine.execMdrain f a b c tile s
  | .matrixCommandStart u => Sys2Proof.Machine.execMatrixCommandStart u s
  | .matrixCommandEnd u => Sys2Proof.Machine.execMatrixCommandEnd u s
  | .acstRowFill u row => Sys2Proof.Machine.execAcstRowFill u row s
  | .mmarTransferEnd u => Sys2Proof.Machine.execMmarTransferEnd u s
  | .mdrainPacket p => Sys2Proof.Machine.execMdrainPacket p s
  | .qmul a b c => Sys2Proof.Machine.execQmul a b c s
  | .qadd a b c => Sys2Proof.Machine.execQadd a b c s
  | .qconv f rm a b c => Sys2Proof.Machine.execQconv f rm a b c s
  | .qfact a b c => Sys2Proof.Machine.execQfact a b c s
  | .qtrsm a b c => Sys2Proof.Machine.execQtrsm a b c s
  | .qsolve a b c => Sys2Proof.Machine.execQsolve a b c s
  | .qstat d a => Sys2Proof.Machine.execQstat d a s
  | .qnode d a b => Sys2Proof.Machine.execQnode d a b s
  | .qpoolRd d a q => Sys2Proof.Machine.execQpoolRd d a q s
  | .qpoolSet d a b c q => Sys2Proof.Machine.execQpoolSet d a b c q s
  | .qtCommandStart die => Sys2Proof.Machine.execQtCommandStart die s
  | .qtLeafCommit die => Sys2Proof.Machine.execQtLeafCommit die s
  | .qtPark die cause va => Sys2Proof.Machine.execQtPark die cause va s
  | .qtCommandEnd die => Sys2Proof.Machine.execQtCommandEnd die s
  | .dcopy a b c => Sys2Proof.Machine.execDcopy a b c s
  | .dfill a b c => Sys2Proof.Machine.execDfill a b c s
  | .dcancel d a => Sys2Proof.Machine.execDcancel d a s
  | .emptyMarkAck u n => Sys2Proof.Machine.execEmptyMarkAck u n s
  | .copyCommandStart u => Sys2Proof.Machine.execCopyCommandStart u s
  | .copyElementIssue u => Sys2Proof.Machine.execCopyElementIssue u s
  | .copyElementLands u n => Sys2Proof.Machine.execCopyElementLands u n s
  | .ixwalk a c => Sys2Proof.Machine.execIxwalk a c s
  | .ixgath a c => Sys2Proof.Machine.execIxgath a c s
  | .ixscat a c => Sys2Proof.Machine.execIxscat a c s
  | .ixscatAdd f a c => Sys2Proof.Machine.execIxscatAdd f a c s
  | .ixmark => Sys2Proof.Machine.execIxmark s
  | .ixmarkEnd => Sys2Proof.Machine.execIxmarkEnd s
  | .indexCommandStart u => Sys2Proof.Machine.execIndexCommandStart u s
  | .indexWordFilled u => Sys2Proof.Machine.execIndexWordFilled u s
  | .indexCommandEnd u => Sys2Proof.Machine.execIndexCommandEnd u s
  | .faload a b c => Sys2Proof.Machine.execFaload a b c s
  | .fatable a b c => Sys2Proof.Machine.execFatable a b c s
  | .faclamp a b c => Sys2Proof.Machine.execFaclamp a b c s
  | .fasweep a b c cnt k => Sys2Proof.Machine.execFasweep a b c cnt k s
  | .fareadState a b c => Sys2Proof.Machine.execFareadState a b c s
  | .fareadCount a b c => Sys2Proof.Machine.execFareadCount a b c s
  | .fabeta a b => Sys2Proof.Machine.execFabeta a b s
  | .faseedSeeded a b => Sys2Proof.Machine.execFaseedSeeded a b s
  | .faseedEntropy a b => Sys2Proof.Machine.execFaseedEntropy a b s
  | .faCommandAccept die => Sys2Proof.Machine.execFaCommandAccept die s
  | .faCommandStart die n => Sys2Proof.Machine.execFaCommandStart die n s
  | .faCommandEnd die n => Sys2Proof.Machine.execFaCommandEnd die n s
  | .jrnl d a => Sys2Proof.Machine.execJrnl d a s
  | .jrnlRel d a => Sys2Proof.Machine.execJrnlRel d a s
  | .jrnlRetry d a => Sys2Proof.Machine.execJrnlRetry d a s
  | .postedAck p => Sys2Proof.Machine.execPostedAck p s
  | .postedRefused p => Sys2Proof.Machine.execPostedRefused p s
  | .acspill d a => Sys2Proof.Machine.execAcspill d a s
  | .acfill d a => Sys2Proof.Machine.execAcfill d a s
  | .rsync a => Sys2Proof.Machine.execRsync a s
  | .rstat d => Sys2Proof.Machine.execRstat d s
  | .rinj a => Sys2Proof.Machine.execRinj a s
  | .evcfg a n => Sys2Proof.Machine.execEvcfg a n s
  | .evcfgHist a src => Sys2Proof.Machine.execEvcfgHist a src s
  | .evrd d a => Sys2Proof.Machine.execEvrd d a s
  | .evrdClr d a => Sys2Proof.Machine.execEvrdClr d a s
  | .asyncTrapEntry t => Sys2Proof.Machine.execAsyncTrapEntry t s
  | .icacheMissFill p => Sys2Proof.Machine.execIcacheMissFill p s
  | .replyLands p => Sys2Proof.Machine.execReplyLands p s
  | .threadRejoin t => Sys2Proof.Machine.execThreadRejoin t s
  | .linkValueArrival u l => Sys2Proof.Machine.execLinkValueArrival u l s
  | .remotePortService p => Sys2Proof.Machine.execRemotePortService p s
  | .formWindowDeparture p => Sys2Proof.Machine.execFormWindowDeparture p s
  | .stationAccess p => Sys2Proof.Machine.execStationAccess p s
  | .pageWalkEnd st n => Sys2Proof.Machine.execPageWalkEnd st n s
  | .monitorTriggerNotice t line => Sys2Proof.Machine.execMonitorTriggerNotice t line s
  | .mwaitTimeout t => Sys2Proof.Machine.execMwaitTimeout t s
  | .waitiTimeout t => Sys2Proof.Machine.execWaitiTimeout t s
  | .timer t => Sys2Proof.Machine.execTimer t s
  | .trapNoticeArrival n => Sys2Proof.Machine.execTrapNoticeArrival n s
  | .launch win v => Sys2Proof.Machine.execLaunch win v s
  | .sheetPlacement die => Sys2Proof.Machine.execSheetPlacement die s
  | .formDispatch die => Sys2Proof.Machine.execFormDispatch die s
  | .preemption u => Sys2Proof.Machine.execPreemption u s
  | .saveEnd u => Sys2Proof.Machine.execSaveEnd u s
  | .restore u ctx => Sys2Proof.Machine.execRestore u ctx s
  | .endDetectionSample => Sys2Proof.Machine.execEndDetectionSample s
  | .instanceAbort n => Sys2Proof.Machine.execInstanceAbort n s
  | .testNodeRun n failed => Sys2Proof.Machine.execTestNodeRun n failed s
  | .voteDecision n => Sys2Proof.Machine.execVoteDecision n s
  | .voteTimeout n => Sys2Proof.Machine.execVoteTimeout n s
  | .replicaDrop t => Sys2Proof.Machine.execReplicaDrop t s
  | .chotalConnect parts => Sys2Proof.Machine.execChotalConnect parts s
  | .chotalSessionEnd => Sys2Proof.Machine.execChotalSessionEnd s
  | .chotalHalt t all => Sys2Proof.Machine.execChotalHalt t all s
  | .chotalResume t => Sys2Proof.Machine.execChotalResume t s
  | .chotalStep t => Sys2Proof.Machine.execChotalStep t s
  | .chotalDiscard t => Sys2Proof.Machine.execChotalDiscard t s
  | .chotalRdreg t n => Sys2Proof.Machine.execChotalRdreg t n s
  | .chotalWrreg t n v tag => Sys2Proof.Machine.execChotalWrreg t n v tag s
  | .chotalRdmem u off => Sys2Proof.Machine.execChotalRdmem u off s
  | .chotalWrmem u off v full => Sys2Proof.Machine.execChotalWrmem u off v full s
  | .chotalSetbp u n slot pc => Sys2Proof.Machine.execChotalSetbp u n slot pc s
  | .chotalSetwp u n base size rd wr => Sys2Proof.Machine.execChotalSetwp u n base size rd wr s
  | .chotalClaim t on => Sys2Proof.Machine.execChotalClaim t on s
  | .chotalGrant t on => Sys2Proof.Machine.execChotalGrant t on s
  | .chotalRecords n => Sys2Proof.Machine.execChotalRecords n s
  | .conformateurMeasure steps failed => Sys2Proof.Machine.execConformateurMeasure steps failed s
  | .guardSample watts celsius => Sys2Proof.Machine.execGuardSample watts celsius s
  | .thermalTrip => Sys2Proof.Machine.execThermalTrip s
  | .powerOnReset => Sys2Proof.Machine.execPowerOnReset s
  | .bootImageVerify ok sysroot => Sys2Proof.Machine.execBootImageVerify ok sysroot s
  | .bootReady => Sys2Proof.Machine.execBootReady s
  | .nodeidWrite v => Sys2Proof.Machine.execNodeidWrite v s
  | .sysrootWrite v => Sys2Proof.Machine.execSysrootWrite v s
  | .scctxWrite n v => Sys2Proof.Machine.execScctxWrite n v s
  | .invgo v => Sys2Proof.Machine.execInvgo v s
  | .invalidationComplete => Sys2Proof.Machine.execInvalidationComplete s
  | .fabankWrite die half v => Sys2Proof.Machine.execFabankWrite die half v s
  | .pcfgWrite p v => Sys2Proof.Machine.execPcfgWrite p v s
  | .lockpasidWrite p v => Sys2Proof.Machine.execLockpasidWrite p v s
  | .wcfgWrite win v => Sys2Proof.Machine.execWcfgWrite win v s
  | .controlRegisterWrite off v => Sys2Proof.Machine.execControlRegisterWrite off v s
  | .bar2Access vf va size wr => Sys2Proof.Machine.execBar2Access vf va size wr s
  | .pfDoorbell v => Sys2Proof.Machine.execPfDoorbell v s
  | .hostAtomicop vf va => Sys2Proof.Machine.execHostAtomicop vf va s
  | .flitCrcRetry port lane => Sys2Proof.Machine.execFlitCrcRetry port lane s
  | .laneLoss port lane => Sys2Proof.Machine.execLaneLoss port lane s
  | .requestTimeout p => Sys2Proof.Machine.execRequestTimeout p s
  | .tsyncMessage port => Sys2Proof.Machine.execTsyncMessage port s
  | .cycle => Sys2Proof.Machine.execCycle s
  | .indexRowLands u n => Sys2Proof.Machine.execIndexRowLands u n s
  | .fabricRequestArrival node paddr op z wr cmp => Sys2Proof.Machine.execFabricRequestArrival node paddr op z wr cmp s
  | .softwareTileFence u => Sys2Proof.Machine.execSoftwareTileFence u s
  | .stationOrChannelLost station => Sys2Proof.Machine.execStationOrChannelLost station s

end Sys2Proof.Machine
end

