-- ==== Sys2Proof/Machine/Follow.lean ====
section
/-! DEFINITION. The common issue of a cluster leader's slot and of the slots that follow it (R119, R120), and the events of a tile's port
that come after the turn of the tile's slot (R161). -/

namespace Sys2Proof.Machine

/-! ### Leader and followers issue together (R120) -/

/-- What a slot's turn would make of the state, its rejoin at the turn included. -/
def State.tried (s : State) (t : Nat) : Nat → State
  | 0 => s
  | n + 1 =>
    match takeTurn s t with
    | .done s' => s'
    | .issue i s' => (match exec i s' with | .next z => z | _ => s')
    | .again i s' => (match exec i s' with | .next z => z.tried t n | _ => s')

/-- The state in which the slots of the present cycle see a leader's slot issue an instruction. -/
def State.leaderIssues (s : State) (t : Nat) (i : Instr) : State :=
  s.modTh t fun x => { x with cls := .issued, issue := { cyc := s.now, pc := x.arch.pc, insn := some i, trapped := false } }

/-- The followers of a slot that would wait, were the leader to issue this instruction now, with the class of their turn. One that
leaves the state, by its own trap or at a boundary, does not wait. DEDUCED, log entry 19. -/
def State.followWaits (s : State) (t : Nat) (i : Instr) : List (Nat × TurnClass) :=
  (s.followers t).filterMap fun k =>
    let x := ((s.leaderIssues t i).tried k 2).th k
    if decide (x.cls = .issued) || !x.arch.status.following then none else some (k, x.cls)

/-- The turns of a leader whose followers are not all ready, and of those that wait, pass (R120). -/
def State.waitTogether (s : State) (t : Nat) (ws : List (Nat × TurnClass)) : State :=
  let pass (s : State) (k : Nat) (c : TurnClass) : State := s.modTh k fun x => { x with cls := c }
  let idle := ws.filter fun w => match (s.th w.1).run with | .running => true | _ => false
  { (idle.foldl (fun s w => pass s w.1 w.2) (pass s t .waitMsg)) with
    turns := s.turns.filter fun k => !idle.any fun w => w.1 = k }

/-- A turn that issues an instruction: at once, or not before every follower of the slot is ready. -/
def issueTurn (s : State) (t : Nat) (i : Instr) (s' : State) : Out :=
  if s'.me.issue.cyc = s.now then
    match s'.followWaits t i with
    | [] => exec i (State.keep s s')
    | ws => .next (s.waitTogether t ws)
  else exec i (State.keep s s')

/-! ### The port of a tile after its slot (R161) -/

/-- The tile that a packet is for. -/
def State.portTile (s : State) (p : Nat) : Option Nat :=
  match s.pkt p with
  | none => none
  | some q =>
    match q.target with
    | .tile u => some u
    | .station _ => none

/-- The tile at whose port an event of a packet, or of the debug port, acts. -/
def State.portOf (s : State) : Instr → Option Nat
  | .remotePortService p => s.portTile p
  | .mdrainPacket p => s.portTile p
  | .atomicAtOwner p => s.portTile p
  | .chotalWrmem u _ _ _ => some u
  | _ => none

/-- The port takes the local operation of a cycle before a remote one: an event of the port of a tile whose slot has its turn still to
come is put off until after the turns (R161, R225). -/
def State.defers (s : State) (e : Instr) : Bool :=
  match s.portOf e with
  | some u => s.turns.any fun t => unitOf t = u
  | none => false

end Sys2Proof.Machine
end

