-- ==== Sys2Proof/Machine/Step.lean ====
section
/-! DEFINITION. One step of the package (R105): an event of the present cycle, else the turn of the next slot, else an event that
comes after the turns, else the end of the cycle. -/

namespace Sys2Proof.Machine

/-- A module without power: nothing happens until a power-on reset (R440). -/
def stepOff (s : State) : Host.Outcome State Fault Refusal :=
  match s.inputs with
  | (_, .powerOnReset) :: es => exec .powerOnReset { s with inputs := es }
  | _ :: es => .next { s with inputs := es }
  | [] => .fault .poweredOff

/-- One step: the next event of the agenda, put off if it must follow a turn; with an empty agenda the next turn of the cycle; with no
turn left, the next event that was put off; at last CYCLE. DEDUCED, log entry 3. -/
def step (s : State) : Host.Outcome State Fault Refusal :=
  if !s.power then stepOff s
  else
    match s.agenda with
    | e :: es => if s.defers e then .next { s with agenda := es, late := s.late ++ [e] } else exec e { s with agenda := es }
    | [] =>
      match s.turns with
      | t :: ts =>
        (match takeTurn { s with turns := ts } t with
         | .done s' => fin { s with turns := ts } s'
         | .issue i s' => issueTurn { s with turns := ts } t i s'
         | .again i s' => exec i (State.keep { s with turns := t :: ts } s'))
      | [] =>
        match s.late with
        | e :: es => exec e { s with late := es }
        | [] => exec .cycle s

/-- The state in which the next step fetches and issues the instruction whose bits are `w`: slot 0 of tile 0 stands at its
turn, its XCAP spans GLOBAL, and its instruction cache holds the block at its pc. DEDUCED, log entry 3. -/
def State.withFetchWord (s : State) (nbits w : Nat) : State :=
  let u := unitOf s.cur
  let pc := 0x1000
  let blk : CacheBlock := { va := pc, ctx := s.fetchCtx s.cur, bytes := leBytes 16 (w % 2 ^ nbits) ++ leBytes 16 0 }
  let xcap := mkCap 2 63 0 0 (permR ||| permX) (BitVec.ofNat 64 pc)
  let s :=
    s.modMe fun x => { x with run := .running, notBefore := 0, arch := { x.arch with pc := BitVec.ofNat 64 pc, xcap := xcap } }
  let s := s.modTile u fun x => { x with icache := [blk] }
  { s with agenda := [], turns := [s.cur], late := [] }

end Sys2Proof.Machine
end

