-- ==== Sys2Proof/Safety.lean ====
section
/-! DEFINITION. The terms in which claims are stated: the rotation, plain operands, and the frames of an instruction. -/

namespace Sys2Proof

/-- A source that is no link: a register, zero or pc. -/
def Src.plain : Src → Bool
  | .link _ => false
  | _ => true

/-- A destination that is no link: a register or zero. -/
def Dst.plain : Dst → Bool
  | .link _ => false
  | _ => true

namespace Machine

/-! ### Rotation -/

/-- The keys rise. -/
def Rising : List Nat → Prop
  | [] => True
  | [_] => True
  | a :: b :: l => a < b ∧ Rising (b :: l)

/-- Every slot whose turn is still to come in the present cycle has the cycle's rotation phase, and none comes twice
(R105, R106). -/
def State.Rotation (s : State) : Prop := (∀ t ∈ s.turns, t % 16 = s.now % 16) ∧ Rising s.turns

/-! ### Plain operands -/

/-- No register is bound to a stream, and nothing is held from an earlier attempt of the instruction. -/
def Thread.ready (x : Thread) : Prop := x.streams = Vector.replicate 4 none ∧ x.held = {}

/-- The value of a plain source (R34). -/
def Thread.srcVal (x : Thread) : Src → Val
  | .reg r => x.arch.regs[r]
  | .pc => val64 x.arch.pc
  | .zero => {}
  | .link _ => {}

/-- The value of a vector source: c(4q + j) holds bits [128j + 127 : 128j] (R145). -/
def Thread.vecVal (x : Thread) : VReg → BitVec 512
  | .quad q => x.arch.quad q
  | .zero => 0

/-- Write a plain destination; zero discards the value (R35). -/
def Arch.put (a : Arch) : Dst → Val → Arch
  | .reg r, v => { a with regs := a.regs.set r v }
  | .zero, _ => a
  | .link _, _ => a

/-- Write a vector destination; zero discards the value (R146). -/
def Arch.putVec (a : Arch) : VReg → BitVec 512 → Arch
  | .quad q, v => a.setQuad q v
  | .zero, _ => a

/-- Go on behind an instruction of n bytes (R30). -/
def Arch.past (a : Arch) (n : Nat) : Arch := { a with pc := nextPC a.pc n }

/-! ### Frames -/

/-- Two values of a tile that differ in nothing but its event logic (R416). -/
def Tile.likewise (x y : Tile) : Prop := y = { x with ev := y.ev }

/-- Nothing has changed but the present thread and the event logic of tiles: every other thread, every register of control
space, every byte of memory and every engine is as before. -/
def State.OnlyMe (s t : State) : Prop :=
  t = { s with threads := t.threads, tiles := t.tiles } ∧ (∀ k, k ≠ s.cur → t.th k = s.th k) ∧ ∀ u, (s.tile u).likewise (t.tile u)

/-- A thread that has completed an instruction which left the architectural state `a`; a single step ends with it (R411). -/
def Thread.after (x : Thread) (a : Arch) : Thread :=
  { x.stepped with
    run := .running, held := {}, insn := none, engWait := false, cls := .issued, red := x.red.settle a x.streams, arch := a }

/-- The instruction completes: nothing but the present thread changes, and it has the architectural state `a`. -/
def Completes (i : Instr) (s : State) (a : Arch) : Prop :=
  ∃ t, exec i s = .next t ∧ s.OnlyMe t ∧ t.me = s.me.after a

/-- A control transfer completes: nothing but the present thread changes, it has the architectural state `a`, and the issue records for
the tiles that follow whether it was taken (R121). -/
def Transfers (i : Instr) (s : State) (taken : Bool) (a : Arch) : Prop :=
  ∃ t, exec i s = .next t ∧ s.OnlyMe t ∧ t.me = ({ s.me with issue := { s.me.issue with taken := taken } } : Thread).after a

/-- The instruction raises a trap and does nothing else: the state is that of trap entry with this cause and this TADDR (R38, R95). -/
def Traps (i : Instr) (s : State) (cause : Nat) (addr : Word) : Prop := exec i s = .next (s.keep (trapAt (awake s) i cause addr))

/-- One record has gone to the monitor core, and this holds of it; a full ring loses it and counts the loss (R374). -/
def State.told (s t : State) (p : BitVec 256 → Prop) : Prop :=
  if s.ringFull = true then t.records = s.records ∧ t.recordsLost = s.recordsLost + 1 else ∃ r, t.records = s.records ++ [r] ∧ p r

/-- The present thread as it is once an access of n bytes at an offset of its own tile has been watched (R413). -/
def State.seen (s : State) (off n : Nat) (wr : Bool) : Thread :=
  match (s.tile (unitOf s.cur)).watch off n wr with
  | some a => { s.me with stopAsk := some (s.me.stopAsk.getD a) }
  | none => s.me

/-- No word that n bytes from an offset touch holds a memory error (R189). -/
def Tile.sound (x : Tile) (off n : Nat) : Prop := ∀ k ∈ touched 8 off n, Sparse.get 0 x.bad k = 0

/-- Two values of a tile that hold the same words with the same full/empty bits, tags and queues, and the same engines; the bytes from
`off` on, n of them, may differ, and so may their tags, their shadow records, the errors of their words and the event logic. -/
def Tile.butBytes (x y : Tile) (off n : Nat) : Prop :=
  y = { x with spad := y.spad, tags := y.tags, bad := y.bad, shadow := y.shadow, ev := y.ev } ∧
  (∀ a, a < off ∨ off + n ≤ a → y.spad.rd a = x.spad.rd a) ∧
  (∀ w, (off + n ≤ 8 * w ∨ 8 * w + 8 ≤ off) → Sparse.get 0 y.bad w = Sparse.get 0 x.bad w) ∧
  (∀ g, (off + n ≤ 16 * g ∨ 16 * g + 16 ≤ off) → Sparse.get false y.tags g = Sparse.get false x.tags g)

/-- Nothing has changed but the present thread and n bytes from an offset of its own tile, with what stands beside them: every other
thread, every other byte of memory and every engine is as before. Monitors may be notified. -/
def State.OnlyBytes (s t : State) (off n : Nat) : Prop :=
  t = { s with threads := t.threads, tiles := t.tiles, monNotes := t.monNotes } ∧ (∀ k, k ≠ s.cur → t.th k = s.th k) ∧
  (∀ u, u ≠ unitOf s.cur → t.tile u = s.tile u) ∧ (s.tile (unitOf s.cur)).butBytes (t.tile (unitOf s.cur)) off n

/-- Two values of a tile that differ in nothing but the word of an offset, its full/empty bit, what stands beside its bytes, and the
event logic. -/
def Tile.butWord (x y : Tile) (off : Nat) : Prop :=
  y = { x with spad := y.spad, tags := y.tags, bad := y.bad, shadow := y.shadow, empty := y.empty, ev := y.ev } ∧
  (∀ a, a < off ∨ off + 8 ≤ a → y.spad.rd a = x.spad.rd a) ∧
  (∀ w, w ≠ off / 8 → Sparse.get 0 y.bad w = Sparse.get 0 x.bad w) ∧
  (∀ w, w ≠ off / 8 → Sparse.get false y.empty w = Sparse.get false x.empty w) ∧
  (∀ g, g ≠ off / 16 → Sparse.get false y.tags g = Sparse.get false x.tags g)

/-- Nothing has changed but the present thread and the word of an offset of its own tile. Monitors may be notified. -/
def State.OnlyWord (s t : State) (off : Nat) : Prop :=
  t = { s with threads := t.threads, tiles := t.tiles, monNotes := t.monNotes } ∧ (∀ k, k ≠ s.cur → t.th k = s.th k) ∧
  (∀ u, u ≠ unitOf s.cur → t.tile u = s.tile u) ∧ (s.tile (unitOf s.cur)).butWord (t.tile (unitOf s.cur)) off

/-- The instruction's turn passes without issue and without any effect: it is tried again at the slot's next turn (R108, R109). A wait
for a link is signal 8 (R418). -/
def Waits (i : Instr) (s : State) (c : TurnClass) : Prop :=
  ∃ t, exec i s = .next t ∧ s.OnlyMe t ∧ t.me = { s.me with run := .running, cls := c, linkWait := s.me.linkWait || decide (c = .waitMsg) }

/-- The thread leaves the rotation with its instruction, and takes it up again later (R108). -/
def Leaves (i : Instr) (s t : State) (r : Run) : Prop :=
  exec i s = .next t ∧ t.me.run = r ∧ t.me.insn = some i ∧ t.me.arch = s.me.arch ∧ t.me.streams = s.me.streams

/-- n bytes at each of these offsets lie in LOCAL space and may be accessed (R90, R255). -/
def State.rowsFine (s : State) (c : Val) (need : BitVec 8) (n align : Nat) (eas : List Int) : Prop :=
  c.space = 0 ∧ ∀ ea ∈ eas, capCheck c ea n need s.me.arch.status.form (isSys (unitOf s.cur)) = none ∧ ea % align = 0 ∧
    s.localCheck c ea.toNat n false = none

/-- The present thread's context owns these units of the matrix engine (R244). -/
def State.unitsFine (s : State) (units : List Nat) : Prop :=
  ∀ k ∈ units, (s.tile (unitOf s.cur)).mx.ownerOf k = s.me.arch.acctag ∧
    (k < 256 → k < ((s.tile (unitOf s.cur)).gang.map (·.acct)).getD 0)

end Machine

end Sys2Proof
end

