-- ==== Sys2Proof/Certificates/Slice0/Obligations.lean ====
section
/-! DEFINITION. The statements about the machine that are to be proved. -/

open Sys2Proof
open Sys2Proof.Machine

/-! ### Encodings, the step and the clock -/

/-- The words of the spec's own encoding tables decode to the instructions they stand for (R62, R65, R70, R72, R79). -/
def Obligations.EncodedWords : Prop :=
  decodeTableWord 64 0x0000000030810C40 = some (.add .d (.reg 3) (.reg 1) (.reg 2)) ∧
  decodeTableWord 64 0x0000000038038440 = some (.add .d (.link .east) (.reg 3) (.link .north)) ∧
  decodeTableWord 64 0xFFFFC00030041048 = some (.addi .d (.reg 4) (.reg 4) (-1)) ∧
  decodeTableWord 64 0x0000000000000004 = some .nop ∧
  decodeTableWord 96 0x000000000000000100000005 = some .nop96 ∧
  decodeTableWord 128 0x00000000000000000000000200000006 = some .nop128 ∧
  decodeTableWord 64 0xFFFE0000208100C0 = some (.br .lt (.reg 1) (.reg 2) (-8)) ∧
  decodeTableWord 64 0x0000000001841500 = some (.csetb (.reg 5) (.reg 4) (.reg 6))

/-- The bytes of every well-formed instruction's word decode to that instruction, whatever follows them (R32, R37). -/
def Obligations.EncodeDecode : Prop :=
  ∀ (i : Instr) (rest : List Byte), i.wf = true → decodeBytes ((encode i).toBytes ++ rest) = some i

/-- An instruction has one word: what the decoder accepts is the encoding of the instruction it answers, which is
well-formed (R37). -/
def Obligations.DecodeEncode : Prop :=
  ∀ (bs : List Byte) (i : Instr), decodeBytes bs = some i → i.wf = true ∧ (encode i).toBytes = bs.take i.bytes

/-- A turn of a running slot whose block is cached fetches at pc, and the step is the decoded instruction's meaning in that state
(R14, R207). Around it the step takes the slot off the rotation, renews the block's place in the cache and records the issue. A slot with
followers issues with them: when one would have to wait, the turns of the leader and of those that wait pass (R120).
Where the spec leaves a point open, this is the model's choice: log entries 3, 4 and 19. -/
def Obligations.StepRunsDecoded : Prop :=
  ∀ (s : State) (t : Nat) (ts : List Nat) (blk : List Byte) (i : Instr),
    let x := s.th t
    let a := x.arch.pc
    let bs := blk.drop (a.toNat % 32)
    let n := lenBytes ((bs.getD 0 0).extractLsb' 0 2)
    s.power = true → s.agenda = [] → s.turns = t :: ts →
    x.run = .running → x.insn = none → x.held.result = none → x.stopAsk = none → x.canTrap = false → x.red.stop = false →
    x.arch.status.following = false → x.notBefore ≤ s.now → x.markUntil ≤ s.now →
    (s.tile (unitOf t)).saving = none →
    (x.passBp = true ∨ (s.tile (unitOf t)).breakAt (slotOf t) a = none) →
    a.toNat % 4 = 0 → n ≠ 0 → a.toNat % 32 + n ≤ 32 →
    fetchCheck x.arch.xcap a 4 = none → fetchCheck x.arch.xcap a n = none →
    (s.tile (unitOf t)).block (s.fetchCtx t) (a.toNat % 2 ^ 57) = some blk →
    decodeBytes (bs.take n) = some i →
    (isSys (unitOf t) = true → inProfile (leNat (bs.take n) / 4 % 256) = true) →
    let u : State :=
      (((({ s with turns := ts, cur := t } : State).modTh t fun x => { x with held := { x.held with result := none } }).modTile (unitOf t)
          fun y => y.touch (s.fetchCtx t) (a.toNat % 2 ^ 57)).modTh t fun x =>
        { x with
          issue := { cyc := s.now, pc := a, insn := some i, trapped := false }
          passBp := false
          linkWait := false
          red := { x.red with boundary := false } })
    (s.followers t = [] → step s = exec i u) ∧
    step s = if u.followWaits t i = [] then exec i u else .next (u.waitTogether t (u.followWaits t i))

/-- At reset no slot has a turn to come.
Where the spec leaves a point open, this is the model's choice: log entry 4. -/
def Obligations.RotationAtReset : Prop := State.reset.Rotation

/-- Every step keeps the rotation: the slots still to come in a cycle n are those of phase n mod 16, in rising order (R105).
Where the spec leaves a point open, this is the model's choice: log entry 4. -/
def Obligations.RotationKept : Prop := ∀ s t : State, s.Rotation → step s = .next t → t.Rotation

/-- CYCLE alone moves the clock: every other instruction and event, but the loss of power and the reset, leaves the cycle number, the
timestamp, the power, the turns to come and the inputs to come as they are. CYCLE advances the cycle number and the timestamp by one, and gives
a turn in the new cycle n to exactly the slots n mod 16 that hold or have held a thread, in rising order (R4, R105).
Where the spec leaves a point open, this is the model's choice: log entry 4. -/
def Obligations.Clock : Prop :=
  (∀ (i : Instr) (s t : State), i ≠ .cycle → i ≠ .thermalTrip → i ≠ .powerOnReset → exec i s = .next t →
    t.now = s.now ∧ t.tstamp = s.tstamp ∧ t.power = s.power ∧ t.turns = s.turns ∧ t.inputs = s.inputs) ∧
  ∀ s : State, ∃ t, exec .cycle s = .next t ∧ t.now = s.now + 1 ∧ t.tstamp = s.tstamp + 1 ∧ Rising t.turns ∧
    (∀ k, k ∈ t.turns ↔ k % 16 = t.now % 16 ∧ k ∈ t.threads.keys) ∧ t.inputs = s.inputs.dropWhile fun e => decide (e.1 ≤ s.now + 1)

/-! ### Integer and logic instructions -/

/-- The values of R63 as operations on W-bit vectors, with the results of R63 for a zero divisor: the arithmetic forms. -/
def Obligations.IntegerArithmetic : Prop :=
  ∀ (wd : Width) (d : Dst) (a b : Src) (s : State), s.me.ready → d.plain = true → a.plain = true → b.plain = true →
    let n := wid wd
    let x := (s.me.srcVal a).data.setWidth n
    let y := (s.me.srcVal b).data.setWidth n
    let gives (i : Instr) (r : BitVec 64) : Prop := Completes i s ((s.me.arch.put d (val64 r)).past 8)
    gives (.add wd d a b) ((x + y).signExtend 64) ∧
    gives (.sub wd d a b) ((x - y).signExtend 64) ∧
    gives (.mul wd d a b) ((x * y).signExtend 64) ∧
    gives (.mulh wd d a b) (((x.signExtend (2 * n) * y.signExtend (2 * n)).extractLsb' n n).signExtend 64) ∧
    gives (.mulhu wd d a b) (((x.setWidth (2 * n) * y.setWidth (2 * n)).extractLsb' n n).setWidth 64) ∧
    gives (.div wd d a b) ((if y = 0 then BitVec.allOnes n else x.sdiv y).signExtend 64) ∧
    gives (.divu wd d a b) ((if y = 0 then BitVec.allOnes n else x.udiv y).setWidth 64) ∧
    gives (.rem wd d a b) ((if y = 0 then x else x.srem y).signExtend 64) ∧
    gives (.remu wd d a b) ((if y = 0 then x else x.umod y).setWidth 64)

/-- The logic, shift, rotate, minimum and maximum forms of R63, and the counts of R64: CLZ gives the r for which bit W − 1 − r is the highest set
bit, CTZ the r for which bit r is the lowest, both W for zero, and POPC the number of set bits. -/
def Obligations.IntegerLogic : Prop :=
  ∀ (wd : Width) (d : Dst) (a b : Src) (s : State), s.me.ready → d.plain = true → a.plain = true → b.plain = true →
    let n := wid wd
    let x := (s.me.srcVal a).data.setWidth n
    let y := (s.me.srcVal b).data.setWidth n
    let k := y.toNat % n
    let gives (i : Instr) (r : BitVec 64) : Prop := Completes i s ((s.me.arch.put d (val64 r)).past 8)
    gives (.and wd d a b) ((x &&& y).setWidth 64) ∧
    gives (.or wd d a b) ((x ||| y).setWidth 64) ∧
    gives (.xor wd d a b) ((x ^^^ y).setWidth 64) ∧
    gives (.andn wd d a b) ((x &&& ~~~y).setWidth 64) ∧
    gives (.shl wd d a b) ((x <<< k).setWidth 64) ∧
    gives (.shr wd d a b) ((x >>> k).setWidth 64) ∧
    gives (.sra wd d a b) ((x.sshiftRight k).signExtend 64) ∧
    gives (.rot wd d a b) ((x.rotateLeft k).setWidth 64) ∧
    gives (.min wd d a b) ((if x.slt y then x else y).signExtend 64) ∧
    gives (.max wd d a b) ((if x.slt y then y else x).signExtend 64) ∧
    gives (.minu wd d a b) ((if x.ult y then x else y).setWidth 64) ∧
    gives (.maxu wd d a b) ((if x.ult y then y else x).setWidth 64) ∧
    (∃ r, gives (.clz wd d a) (BitVec.ofNat 64 r) ∧
      (if x = 0 then r = n else r < n ∧ x.getLsbD (n - 1 - r) = true ∧ ∀ j, n - 1 - r < j → x.getLsbD j = false)) ∧
    (∃ r, gives (.ctz wd d a) (BitVec.ofNat 64 r) ∧ (if x = 0 then r = n else r < n ∧ x.getLsbD r = true ∧ ∀ j, j < r → x.getLsbD j = false)) ∧
    gives (.popc wd d a) (BitVec.ofNat 64 ((List.range n).filter fun j => x.getLsbD j).length)

/-- ADDI, the three forms of MOVI, CMP, BEXT and BDEP (R65, R66, R68, R69): BEXT's bit j is the bit of A at the j-th place of the
mask, and BDEP's bit at the j-th place of the mask is bit j of A, its other bits those of C. -/
def Obligations.IntegerImmediates : Prop :=
  ∀ (wd : Width) (d : Dst) (a b c : Src) (imm : BitVec 18) (w : Word) (cond : Cond) (s : State),
    s.me.ready → d.plain = true → a.plain = true → b.plain = true → c.plain = true →
    let n := wid wd
    let x := (s.me.srcVal a).data.setWidth n
    let y := (s.me.srcVal b).data.setWidth n
    let p := (s.me.srcVal a).lo
    let m := (s.me.srcVal b).lo
    let places := (List.range 64).filter fun k => m.getLsbD k
    let gives (i : Instr) (len : Nat) (v : Val) : Prop := Completes i s ((s.me.arch.put d v).past len)
    let holds : Bool :=
      match cond with
      | .eq => x = y | .ne => x ≠ y | .lt => x.slt y | .ge => !x.slt y | .ltu => x.ult y | .geu => !x.ult y
      | .gt => y.slt x | .le => !y.slt x | .gtu => y.ult x | .leu => !y.ult x | .bs => x &&& y ≠ 0 | .bc => x &&& y = 0
    gives (.addi wd d a imm) 8 (val64 ((x + (imm.signExtend 64).setWidth n).signExtend 64)) ∧
    gives (.movi d imm) 8 (val64 (imm.signExtend 64)) ∧
    gives (.movi64 d w) 16 (val64 w) ∧
    gives (.moviHi d a w) 16 (val128 (w ++ p)) ∧
    gives (.cmp cond wd d a b) 8 (val64 (if holds then 1 else 0)) ∧
    (∃ v : Word, gives (.bext d a b) 8 (val64 v) ∧
      ∀ j, j < 64 → v.getLsbD j = (match places[j]? with | some k => p.getLsbD k | none => false)) ∧
    (∃ v : Word, gives (.bdep d a b c) 8 (val64 v) ∧ (∀ j k, places[j]? = some k → v.getLsbD k = p.getLsbD j) ∧
      ∀ k, k < 64 → m.getLsbD k = false → v.getLsbD k = (s.me.srcVal c).lo.getLsbD k)

/-- A NOP of 8, 12 or 16 bytes changes nothing but pc (R70). -/
def Obligations.NopForms : Prop :=
  ∀ s : State, s.me.ready →
    Completes .nop s (s.me.arch.past 8) ∧ Completes .nop96 s (s.me.arch.past 12) ∧ Completes .nop128 s (s.me.arch.past 16)

/-! ### Control transfers -/

/-- BR, J and JL go to the address of the transferring instruction plus four times the signed offset, or on to NextPC, and JL writes its
link (R71 to R73). Under FOLLOW the slot keeps following only while the leader's outcome is the same: taken or not, and its pc (R121).
Where the spec leaves a point open, this is the model's choice: log entry 19. -/
def Obligations.Jumps : Prop :=
  ∀ (c : Cond) (a b : Src) (d : Dst) (imm : BitVec 32) (off : BitVec 18) (far : BitVec 32) (s : State),
    s.me.ready → a.plain = true → b.plain = true → d.plain = true →
    let r := s.me.arch
    let x := (s.me.srcVal a).lo
    let y := (s.me.srcVal b).lo
    let near := r.pc + 4 * off.signExtend 64
    let lead := s.th (16 * leaderOf (unitOf s.cur) + slotOf s.cur)
    let goes (i : Instr) (q : Arch) (taken : Bool) (pc : Word) : Prop :=
      Transfers i s taken { q with
        pc := pc
        status := { q.status with following := q.status.following && (lead.arch.pc = pc && lead.issue.taken = taken) } }
    let holds (y : Word) : Bool :=
      match c with
      | .eq => x = y | .ne => x ≠ y | .lt => x.slt y | .ge => !x.slt y | .ltu => x.ult y | .geu => !x.ult y
      | .gt => y.slt x | .le => !y.slt x | .gtu => y.ult x | .leu => !y.ult x | .bs => x &&& y ≠ 0 | .bc => x &&& y = 0
    goes (.br c a b off) r (holds y) (if holds y then near else nextPC r.pc 8) ∧
    goes (.brImm c a imm off) r (holds (imm.signExtend 64)) (if holds (imm.signExtend 64) then near else nextPC r.pc 12) ∧
    goes (.j off) r true near ∧
    goes (.jExt far) r true (r.pc + 4 * far.signExtend 64) ∧
    goes (.jl d off) (r.put d (val64 (nextPC r.pc 8))) true near ∧
    goes (.jlExt d far) (r.put d (val64 (nextPC r.pc 12))) true (r.pc + 4 * far.signExtend 64)

/-- LOOP falls through on a count of 0 and leaves the counter; else it counts down and branches while the count is not 0 (R75). -/
def Obligations.LoopCounts : Prop :=
  ∀ (d : Reg) (off : BitVec 18) (s : State), s.me.ready →
    let r := s.me.arch
    let n := r.regs[d].lo
    let taken := !decide (n = 0 ∨ n = 1)
    let pc := if taken then r.pc + 4 * off.signExtend 64 else nextPC r.pc 8
    let lead := s.th (16 * leaderOf (unitOf s.cur) + slotOf s.cur)
    Transfers (.loop d off) s taken
      { (if n = 0 then r else r.put (.reg d) (val64 (n - 1))) with
        pc := pc
        status := { r.status with following := r.status.following && (lead.arch.pc = pc && lead.issue.taken = taken) } }

/-- JR goes to A[63:0] plus four times the offset. A tagged A must be a code capability, which becomes XCAP; a trap of the checks names
the target (R74). -/
def Obligations.JumpRegister : Prop :=
  ∀ (d : Dst) (a : Src) (off : BitVec 18) (s : State), s.me.ready → a.plain = true → d.plain = true →
    let r := s.me.arch
    let c := s.me.srcVal a
    let t := c.lo + 4 * off.signExtend 64
    let i := Instr.jr d a off
    if c.tag = true ∧ c.resv ≠ 0 then Traps i s 0x10 t
    else if c.tag = true ∧ c.space = 3 then Traps i s 0x10 t
    else if c.tag = true ∧ c.space ≠ 2 then Traps i s 0x12 t
    else if c.tag = true ∧ c.perm.getLsbD 2 = false then Traps i s 0x12 t
    else
      let lead := s.th (16 * leaderOf (unitOf s.cur) + slotOf s.cur)
      Transfers i s true
        { r.put d (val64 (nextPC r.pc 8)) with
          pc := t
          xcap := if c.tag = true then c else r.xcap
          status := { r.status with following := r.status.following && (lead.arch.pc = t && lead.issue.taken = true) } }

/-- HALT traps PRIVILEGE in user mode; else the slot stops behind it and a record with cause DEBUG_HALT, AUX 1 and the pc of the HALT is sent,
which a full ring loses (R76, R372, R374). -/
def Obligations.HaltStops : Prop :=
  ∀ s : State,
    if s.me.arch.status.mode = 0 then Traps .halt s 0x04 0xFC
    else
      ∃ t, exec .halt s = .next t ∧ t.me.run = .halted ∧
        t.me.arch = { s.me.arch.past 8 with status := { s.me.arch.status with following := false } } ∧
        (∀ k, k ≠ s.cur → t.th k = s.th k) ∧
        s.told t fun r => r.extractLsb' 88 8 = 0x82 ∧ r.extractLsb' 85 3 = 2 ∧ r.extractLsb' 192 64 = 1 ∧ r.extractLsb' 128 64 = s.me.arch.pc ∧
          r.extractLsb' 0 64 = s.tstamp

/-! ### Capabilities -/

/-- The forms of R80: bounds, address and tag are read; the address moves and the tag stays; permissions are masked; the tag is
cleared; a register is copied. -/
def Obligations.CapabilityForms : Prop :=
  ∀ (d : Dst) (a b : Src) (imm : BitVec 18) (m : BitVec 8) (s : State), s.me.ready → d.plain = true → a.plain = true → b.plain = true →
    let c := s.me.srcVal a
    let v := s.me.srcVal b
    let top : BitVec 64 := c.data.extractLsb' 64 64
    let gives (i : Instr) (r : Val) : Prop := Completes i s ((s.me.arch.put d r).past 8)
    gives (.cgetb d a) (val128 (BitVec.ofNat 64 (bounds c).2 ++ BitVec.ofNat 64 (bounds c).1)) ∧
    gives (.cgeta d a) (val64 c.lo) ∧
    gives (.ctag d a) (val64 (if c.tag then 1 else 0)) ∧
    gives (.cinc d a b) { data := top ++ (c.lo + v.lo), tag := c.tag } ∧
    gives (.cincImm d a imm) { data := top ++ (c.lo + imm.signExtend 64), tag := c.tag } ∧
    gives (.candp d a b) { data := (c.data.extractLsb' 72 56 : BitVec 56) ++ (c.perm &&& v.data.extractLsb' 0 8) ++ c.lo, tag := c.tag } ∧
    gives (.candpImm d a m) { data := (c.data.extractLsb' 72 56 : BitVec 56) ++ (c.perm &&& m) ++ c.lo, tag := c.tag } ∧
    gives (.cclr d a) { data := c.data, tag := false } ∧
    gives (.cmov d a) c

/-- CSETB and CSETB.TIGHT derive the smallest window that holds the request, the bytes from A's offset on, B of them, with the smallest
exponent at which both its ends fit in 14 bits, and complete exactly when the request lies in A's bounds, its exponent exists and the window
lies in A's bounds too; CSETB.TIGHT also asks that the window is the request. Else they trap, with the cause of the first check that fails (R79). -/
def Obligations.SetBounds : Prop :=
  ∀ (d : Dst) (a b : Src) (s : State), s.me.ready → d.plain = true → a.plain = true → b.plain = true →
    let c := s.me.srcVal a
    let n := (s.me.srcVal b).lo.toNat
    let i (tight : Bool) : Instr := if tight then .csetbTight d a b else .csetb d a b
    ∀ tight : Bool,
      if c.tag = false ∨ c.resv ≠ 0 ∨ c.space = 3 then Traps (i tight) s 0x10 c.lo
      else
        match offsetOf c.space c.lo.toNat with
        | none => Traps (i tight) s 0x11 c.lo
        | some base =>
          let top := base + n
          let fits (e : Nat) : Prop := e < 44 ∧ base / 2 ^ e ≤ 16383 ∧ (top + 2 ^ e - 1) / 2 ^ e ≤ 16383
          (base < (bounds c).1 ∨ (bounds c).2 < top ∨ (∀ e, ¬fits e) → Traps (i tight) s 0x11 c.lo) ∧
          ∀ e, (bounds c).1 ≤ base → top ≤ (bounds c).2 → fits e → (∀ k, k < e → ¬fits k) →
            let lo := base / 2 ^ e * 2 ^ e
            let hi := min ((top + 2 ^ e - 1) / 2 ^ e * 2 ^ e) (2 ^ (match c.space with | 0 => 20 | 1 => 30 | _ => 57))
            if lo < (bounds c).1 ∨ (bounds c).2 < hi ∨ (tight = true ∧ (lo ≠ base ∨ (top + 2 ^ e - 1) / 2 ^ e * 2 ^ e ≠ top)) then
              Traps (i tight) s 0x11 c.lo
            else
              ∃ v, Completes (i tight) s ((s.me.arch.put d v).past 8) ∧ v.tag = true ∧ v.lo = c.lo ∧ v.perm = c.perm ∧ v.space = c.space ∧
                bounds v = (if hi ≤ lo then (0, 0) else (lo, hi)) ∧
                (∀ o, base ≤ o → o < base + n → (bounds v).1 ≤ o ∧ o < (bounds v).2) ∧
                (tight = true → 0 < n → bounds v = (base, base + n))

/-- No capability instruction widens authority: what it writes with tag 1 comes from a source with tag 1, of the same space, with no further
right and no further byte in its bounds (R77). -/
def Obligations.AuthorityOnlyNarrows : Prop :=
  ∀ (i : Instr) (d : Reg) (a b : Src) (imm : BitVec 18) (m : BitVec 8) (s t : State),
    s.me.ready → a.plain = true → b.plain = true →
    i ∈ [.csetb (.reg d) a b, .csetbTight (.reg d) a b, .cgetb (.reg d) a, .cgeta (.reg d) a, .ctag (.reg d) a, .cinc (.reg d) a b,
      .cincImm (.reg d) a imm, .candp (.reg d) a b, .candpImm (.reg d) a m, .cclr (.reg d) a, .cmov (.reg d) a] →
    exec i s = .next t → t.me.arch.regs[d] ≠ s.me.arch.regs[d] → t.me.arch.regs[d].tag = true →
    let c := s.me.srcVal a
    let v := t.me.arch.regs[d]
    c.tag = true ∧ v.space = c.space ∧ v.perm &&& c.perm = v.perm ∧
      ∀ o, (bounds v).1 ≤ o → o < (bounds v).2 → (bounds c).1 ≤ o ∧ o < (bounds c).2

/-! ### Floats -/

/-- FADD, FSUB, FMUL, FDIV, FSQRT, FFMA, FRND and CVT write the rounded code, zero-extended but for a signed integer of CVT, and under SR
draw once from RNDSEED (R49, R83, R87, R88). The rounded codes are those of the model's FArith, FRND and Convert.
Where the spec leaves a point open, this is the model's choice: log entry 17. -/
def Obligations.FloatArithmetic : Prop :=
  ∀ (f g : Fmt) (rm : Rm) (d : Dst) (a b c : Src) (s : State),
    s.me.ready → d.plain = true → a.plain = true → b.plain = true → c.plain = true →
    let x := (s.me.srcVal a).data.toNat
    let y := (s.me.srcVal b).data.toNat
    let z := (s.me.srcVal c).data.toNat
    let r := if rm = .sr then draw s.me.arch.rndseed else (0, s.me.arch.rndseed)
    let gives (i : Instr) (v : Val) : Prop := Completes i s ((({ s.me.arch with rndseed := r.2 } : Arch).put d v).past 8)
    let code (n : Nat) : Val := val64 (BitVec.ofNat 64 n)
    gives (.fadd f rm d a b) (code (fArith .add f rm r.1 x y 0)) ∧
    gives (.fsub f rm d a b) (code (fArith .sub f rm r.1 x y 0)) ∧
    gives (.fmul f rm d a b) (code (fArith .mul f rm r.1 x y 0)) ∧
    gives (.fdiv f rm d a b) (code (fArith .div f rm r.1 x y 0)) ∧
    gives (.fsqrt f rm d a) (code (fArith .sqrt f rm r.1 x 0 0)) ∧
    gives (.ffma f rm d a b c) (code (fArith .fma f rm r.1 x y z)) ∧
    gives (.frnd f rm d a) (code (fRound f rm r.1 x)) ∧
    gives (.cvt f g rm d a)
      (let v := convert g f rm r.1 x
       if f.isSigned then val64 (((BitVec.ofNat 64 v).setWidth f.width).signExtend 64) else code v)

/-- FMIN, FMAX, FCMP, FCLASS and FSGN (R84 to R86). FMIN and FMAX return the other operand's code when one is a NaN and the quieted A when both
are; FSGN keeps the bits below the sign; of EQ, LT, GT and UN exactly one holds. -/
def Obligations.FloatSelections : Prop :=
  ∀ (f : Fmt) (cond : FCond) (d : Dst) (a b : Src) (s : State), s.me.ready → d.plain = true → a.plain = true → b.plain = true →
    f.isFloat = true →
    let x := (s.me.srcVal a).data.toNat % 2 ^ f.width
    let y := (s.me.srcVal b).data.toNat % 2 ^ f.width
    let gives (i : Instr) (n : Nat) : Prop := Completes i s ((s.me.arch.put d (val64 (BitVec.ofNat 64 n))).past 8)
    let nan := f.num x = .nan ∨ f.num y = .nan
    let sign (bit : Bool) : Nat :=
      if f.tapered = true ∧ x % 2 ^ (f.width - 1) = 0 then x else x % 2 ^ (f.width - 1) + (if bit then 2 ^ (f.width - 1) else 0)
    let holds : Prop :=
      match cond with
      | .eq => ¬nan ∧ (f.num x).lt (f.num y) = false ∧ (f.num y).lt (f.num x) = false
      | .ne => nan ∨ (f.num x).lt (f.num y) = true ∨ (f.num y).lt (f.num x) = true
      | .lt => ¬nan ∧ (f.num x).lt (f.num y) = true
      | .le => ¬nan ∧ (f.num y).lt (f.num x) = false
      | .gt => ¬nan ∧ (f.num y).lt (f.num x) = true
      | .ge => ¬nan ∧ (f.num x).lt (f.num y) = false
      | .un => nan
      | .ord => ¬nan
    gives (.fmin f d a b)
      (if f.num x = .nan then (if f.num y = .nan then f.quiet x else y) else if f.num y = .nan then x
        else if (f.num y).below (f.num x) then y else x) ∧
    gives (.fmax f d a b)
      (if f.num x = .nan then (if f.num y = .nan then f.quiet x else y) else if f.num y = .nan then x
        else if (f.num x).below (f.num y) then y else x) ∧
    (holds → gives (.fcmp cond f d a b) 1) ∧ (¬holds → gives (.fcmp cond f d a b) 0) ∧
    (∃ k, k < 10 ∧ gives (.fclass f d a) (2 ^ k) ∧ (f.num x = .nan ↔ k = 8 ∨ k = 9) ∧ (f.num x = .inf true ↔ k = 0) ∧
      (f.num x = .inf false ↔ k = 7) ∧ (f.num x = .zero true ↔ k = 3) ∧ (f.num x = .zero false ↔ k = 4)) ∧
    gives (.fsgnCpy f d a b) (sign (y.testBit (f.width - 1))) ∧
    gives (.fsgnNeg f d a b) (sign (!y.testBit (f.width - 1))) ∧
    gives (.fsgnXor f d a b) (sign (x.testBit (f.width - 1) ^^ y.testBit (f.width - 1))) ∧
    ∃ c ∈ [FCond.eq, FCond.lt, FCond.gt, FCond.un], gives (.fcmp c f d a b) 1 ∧
      ∀ e ∈ [FCond.eq, FCond.lt, FCond.gt, FCond.un], e ≠ c → gives (.fcmp e f d a b) 0

/-! ### Loads and stores -/

/-- A load of the own scratchpad reads the bytes at the effective address, the lowest first, and extends them as its size says; no
byte of memory changes (R6, R89 to R91). It waits for an earlier operation of its own thread on the same words (R216). A word with an error
that is not corrected makes it trap ACCESS with the effective address (R189). -/
def Obligations.LocalLoads : Prop :=
  ∀ (z : LdSize) (d : Dst) (a : Reg) (off : BitVec 18) (far : BitVec 32) (s : State), s.me.ready → d.plain = true →
    let c := s.me.arch.regs[a]
    let x := s.tile (unitOf s.cur)
    let loads (i : Instr) (e : Int) (n : Nat) (len : Nat) (v : Nat → Nat → Val) : Prop :=
      let ea := c.lo.toNat + e
      c.space = 0 → capCheck c ea n permR s.me.arch.status.form (isSys (unitOf s.cur)) = none → ea % n = 0 →
      s.localCheck c ea.toNat n true = none →
      (s.ownRead ea.toNat n = true → Waits i s .waitMem) ∧
      (s.ownRead ea.toNat n = false →
        (x.sound ea.toNat n → ∃ t, exec i s = .next t ∧ s.OnlyMe t ∧
          t.me = (s.seen ea.toNat n false).after ((s.me.arch.put d (v ea.toNat (leNat (x.spad.rdN ea.toNat n)))).past len)) ∧
        ((∃ k ∈ touched 8 ea.toNat n, 2 ≤ (Sparse.get 0 x.bad k).toNat) → s.me.arch.entryWindow = false →
          ∃ t, exec i s = .next t ∧ t.me.arch.tcause = BitVec.ofNat 64 (len / 4 * 256 + Cause.access) ∧ t.me.arch.taddr = wordOf ea ∧
            t.me.arch.pc = s.me.arch.tvec.lo ∧ t.me.arch.regs = s.me.arch.regs))
    let sz := ldBytes z
    let val (_ w : Nat) : Val :=
      match z with
      | .b => val64 ((BitVec.ofNat 8 w).signExtend 64)
      | .h => val64 ((BitVec.ofNat 16 w).signExtend 64)
      | .w => val64 ((BitVec.ofNat 32 w).signExtend 64)
      | .d => val64 (BitVec.ofNat 64 w)
      | .q => val128 (BitVec.ofNat 128 w)
      | .bu => val64 ((BitVec.ofNat 8 w).setWidth 64)
      | .hu => val64 ((BitVec.ofNat 16 w).setWidth 64)
      | .wu => val64 ((BitVec.ofNat 32 w).setWidth 64)
    let cap (o w : Nat) : Val :=
      { data := BitVec.ofNat 128 w, tag := Sparse.get false (s.tile (unitOf s.cur)).tags (o / 16) && c.perm.getLsbD 3 }
    loads (.ld z d a off) off.toInt sz 8 val ∧ loads (.ldExt z d a far) far.toInt sz 12 val ∧
    loads (.ldc d a off) off.toInt 16 8 cap ∧ loads (.ldcExt d a far) far.toInt 16 12 cap

/-- A store to the own scratchpad writes the low bytes of B, the lowest first, at the effective address, and no other byte of memory; ST
clears the tag of the granule and STC writes B's (R6, R23, R89 to R91). It waits while an earlier write of its own thread to the own tile
is on its way (R216). A redundant thread records what it overwrites and is not meant here. -/
def Obligations.LocalStores : Prop :=
  ∀ (z : StSize) (a : Reg) (b : Src) (off : BitVec 18) (far : BitVec 32) (s : State),
    s.me.ready → b.plain = true → s.me.redundant = false →
    let c := s.me.arch.regs[a]
    let v := s.me.srcVal b
    let stores (i : Instr) (e : Int) (n : Nat) (len : Nat) (tag : Bool) : Prop :=
      let ea := c.lo.toNat + e
      c.space = 0 → capCheck c ea n permW s.me.arch.status.form (isSys (unitOf s.cur)) = none → ea % n = 0 →
      s.localCheck c ea.toNat n true = none → (tag = true → c.perm.getLsbD 4 = true) →
      (s.ownWrites s.cur = true → Waits i s .waitMem) ∧ (s.ownWrites s.cur = false → ∃ t, exec i s = .next t ∧ s.OnlyBytes t ea.toNat n ∧ t.me = (s.seen ea.toNat n true).after (s.me.arch.past len) ∧
        (t.tile (unitOf s.cur)).spad.rdN ea.toNat n = leBytes n v.data.toNat ∧
        Sparse.get false (t.tile (unitOf s.cur)).tags (ea.toNat / 16) = tag)
    stores (.st z a b off) off.toInt (stBytes z) 8 false ∧ stores (.stExt z a b far) far.toInt (stBytes z) 12 false ∧
    stores (.stc a b off) off.toInt 16 8 v.tag ∧ stores (.stcExt a b far) far.toInt 16 12 v.tag

/-- The checks of a load and a store come before any effect, in the order of R90: CapCheck, the alignment, then for STC the right to store a
tag. A load or store that fails one traps with the effective address and does nothing else (R20, R90, R92). CapCheck gives the cause of the
first check that fails, in the order tag, form, space of a system core, rights, the right FORM of a form thread outside LOCAL space, bounds;
and nothing else fails. -/
def Obligations.AccessTraps : Prop :=
  (∀ (z : LdSize) (y : StSize) (d : Dst) (a : Reg) (b : Src) (off : BitVec 18) (far : BitVec 32) (s : State),
    s.me.ready → d.plain = true → b.plain = true →
    let c := s.me.arch.regs[a]
    let v := s.me.srcVal b
    let checks (i : Instr) (e : Int) (n : Nat) (need : BitVec 8) (stc : Bool) : Prop :=
      let ea := (c.lo.toNat : Int) + e
      let at? : Word := BitVec.ofInt 64 ea
      match capCheck c ea n need s.me.arch.status.form (isSys (unitOf s.cur)) with
      | some k => Traps i s k at?
      | none =>
        if ea % n ≠ 0 then Traps i s 0x13 at?
        else (stc = true ∧ v.tag = true ∧ (c.perm.getLsbD 4 = false ∨ c.space = 2)) → Traps i s 0x12 at?
    checks (.ld z d a off) off.toInt (ldBytes z) permR false ∧ checks (.ldExt z d a far) far.toInt (ldBytes z) permR false ∧
    checks (.ldc d a off) off.toInt 16 permR false ∧ checks (.ldcExt d a far) far.toInt 16 permR false ∧
    checks (.st y a b off) off.toInt (stBytes y) permW false ∧ checks (.stExt y a b far) far.toInt (stBytes y) permW false ∧
    checks (.stc a b off) off.toInt 16 permW true ∧ checks (.stcExt a b far) far.toInt 16 permW true) ∧
  ∀ (c : Val) (ea : Int) (n : Nat) (need : BitVec 8) (form sys : Bool),
    capCheck c ea n need form sys =
      if c.tag = false ∨ c.resv ≠ 0 ∨ c.space = 3 then some 0x10
      else if sys = true ∧ c.space = 0 then some 0x12
      else if (¬∀ k : Fin 8, need.getLsbD k = true → c.perm.getLsbD k = true) ∨ (form = true ∧ c.space ≠ 0 ∧ c.perm.getLsbD 7 = false) then some 0x12
      else
        match offsetOf c.space ea with
        | none => some 0x11
        | some o => if (bounds c).1 ≤ o ∧ o + n ≤ (bounds c).2 then none else some 0x11

/-! ### Traps and system instructions -/

/-- TrapEntry (R94 to R96): the status, TCAUSE with the length of the instruction, TADDR, TEPC, XCAP, pc and EntryWindow are set, and every
other register keeps its value. Where the partition logs traps a record goes to the monitor core (R373). A trap while EntryWindow is 1 is a
double fault: DCAUSE is set, TCAUSE, TADDR and TEPC keep the first trap, the slot halts, and a record with the trap's address goes to the
monitor core. -/
def Obligations.TrapEntry : Prop :=
  (∀ (i : Instr) (cause : Nat) (addr : Word) (s : State), s.me.arch.entryWindow = false →
    let t := trapAt s i cause addr
    let a := s.me.arch
    t.me.run = .running ∧ t.me.held = {} ∧ t.me.insn = none ∧
      t.me.arch = { a with
        status := { a.status with
          following := false, pmode := a.status.mode, pie := a.status.ie, mode := if isSys (unitOf s.cur) then 2 else 1, ie := false }
        tcause := BitVec.ofNat 64 (i.bytes / 4 * 256 + cause)
        taddr := addr
        tepc := { data := a.xcap.data.extractLsb' 64 64 ++ a.pc, tag := a.xcap.tag }
        xcap := a.tvec
        pc := a.tvec.lo
        entryWindow := true } ∧
      (∀ k, k ≠ s.cur → t.th k = s.th k) ∧ t.dram = s.dram ∧ (∀ u, (t.tile u).spad = (s.tile u).spad) ∧
      if s.trapLog (unitOf s.cur) = true then
        s.told t fun r => r.extractLsb' 85 3 = 0 ∧ r.extractLsb' 192 64 = addr ∧ r.extractLsb' 128 64 = a.pc ∧ r.extractLsb' 0 64 = s.tstamp
      else t.records = s.records) ∧
  ∀ (i : Instr) (cause : Nat) (addr : Word) (s : State), s.me.arch.entryWindow = true →
    let t := trapAt s i cause addr
    let a := s.me.arch
    t.me.run = .halted ∧
      t.me.arch = { a with status := { a.status with following := false }, dcause := BitVec.ofNat 64 (i.bytes / 4 * 256 + cause) } ∧
      (∀ k, k ≠ s.cur → t.th k = s.th k) ∧
      s.told t fun r => r.extractLsb' 85 3 = 1 ∧ r.extractLsb' 192 64 = addr ∧ r.extractLsb' 128 64 = a.pc ∧ r.extractLsb' 0 64 = s.tstamp

/-- TRAP, and BRK on a slot without a breakpoint claim, enter the handler with the code in TADDR and their own address in TEPC. BRK under a
claim stops the slot behind it with a record, and no trap is taken (R99). -/
def Obligations.SoftwareTraps : Prop :=
  ∀ (code : BitVec 18) (s : State), s.me.ready →
    let a := s.me.arch
    let enters (i : Instr) (cause : Nat) : Prop :=
      Traps i s cause (code.setWidth 64) ∧
      (a.entryWindow = false → ∃ t, exec i s = .next t ∧ t.me.run = .running ∧
        t.me.arch = { a with
          status := { a.status with
            following := false, pmode := a.status.mode, pie := a.status.ie, mode := if isSys (unitOf s.cur) then 2 else 1, ie := false }
          tcause := BitVec.ofNat 64 (2 * 256 + cause)
          taddr := code.setWidth 64
          tepc := { data := a.xcap.data.extractLsb' 64 64 ++ a.pc, tag := a.xcap.tag }
          xcap := a.tvec
          pc := a.tvec.lo
          entryWindow := true })
    enters (.trap code) 5 ∧ (s.me.claim = false → enters (.brk code) 6) ∧
      (s.me.claim = true → ∃ t, exec (.brk code) s = .next t ∧ t.me.run = .halted ∧
        t.me.arch = { a.past 8 with status := { a.status with following := false } } ∧
        (a.status.form = false → s.told t fun r => r.extractLsb' 128 64 = a.pc ∧ r.extractLsb' 85 3 = 2 ∧ r.extractLsb' 88 8 = 0x82))

/-- ERET and ERET.SKIP restore the mode and the interrupt enable, take XCAP from a tagged TEPC, clear EntryWindow and go to TEPC, the latter
past the instruction that trapped when TCAUSE holds a length. In user mode they trap (R98, R100). -/
def Obligations.ReturnsFromTrap : Prop :=
  ∀ s : State, s.me.ready →
    let a := s.me.arch
    let n := (a.tcause.extractLsb' 8 4).toNat
    let t := a.tepc.lo
    let back (pc : Word) : Arch :=
      { a with
        status := { a.status with mode := a.status.pmode, ie := a.status.pie }
        xcap := if a.tepc.tag = true then a.tepc else a.xcap
        pc := pc
        entryWindow := false }
    if a.status.mode = 0 then Traps .eret s 0x04 0xC ∧ Traps .eretSkip s 0x04 0x10000000C
    else
      Completes .eret s (back t) ∧
      Completes .eretSkip s (back (if n = 2 ∨ n = 3 ∨ n = 4 then nextPC t (4 * n) else t))

/-- ERET reverses the entry of a trap: after TRAP from a state whose XCAP is tagged, ERET goes back to the TRAP, and ERET.SKIP behind it, with
the mode, the interrupt enable and the general registers of before (R95, R100). -/
def Obligations.TrapAndReturn : Prop :=
  ∀ (code : BitVec 18) (s t : State), s.me.ready → s.me.arch.entryWindow = false → s.me.arch.xcap.tag = true → exec (.trap code) s = .next t →
    let a := s.me.arch
    let back (i : Instr) (pc : Word) : Prop :=
      ∃ u, exec i t = .next u ∧ u.me.arch.pc = pc ∧ u.me.arch.status.mode = a.status.mode ∧ u.me.arch.status.ie = a.status.ie ∧
        u.me.arch.regs = a.regs ∧ u.me.arch.entryWindow = false ∧ u.me.arch.xcap = { data := a.xcap.data.extractLsb' 64 64 ++ a.pc, tag := true }
    back .eret a.pc ∧ back .eretSkip (nextPC a.pc 8)

/-- SRD gives the register's value (R24, R26, R28, R94, R101); a debugger's write of CYCLE or TSTAMP moves the tile's count (R411). The registers 1 to 7 are for handler and system mode, reading TCAUSE clears
EntryWindow, and a number that R26 does not list traps in every mode (R26, R27, R96). -/
def Obligations.SystemRegisterReads : Prop :=
  ∀ (d : Dst) (num : BitVec 12) (s : State), s.me.ready → d.plain = true → s.me.redundant = false →
    let a := s.me.arch
    let u := unitOf s.cur
    let e := (s.tile u).ev
    let reads (n : BitVec 12) (v : Val) : Prop := Completes (.srd d n) s ((a.put d v).past 8)
    let st := a.status
    let bit1 (b : Bool) : BitVec 1 := if b then 1 else 0
    let word : BitVec 64 :=
      (0 : BitVec 40) ++ st.rlevel ++ st.ridx ++ (0 : BitVec 2) ++ st.pri ++ bit1 st.guest ++ bit1 st.following ++ bit1 (s.chkOf s.cur) ++
        bit1 st.form ++ (0 : BitVec 4) ++ st.pmode ++ bit1 st.pie ++ bit1 st.ie ++ bit1 st.dbg ++ (0 : BitVec 1) ++ st.mode
    reads 0x000 (val64 word) ∧
    (st.mode ≠ 0 → reads 0x001 a.tvec ∧ Completes (.srd d 0x002) s ((({ a with entryWindow := false } : Arch).put d (val64 a.tcause)).past 8) ∧
      reads 0x003 (val64 a.taddr) ∧ reads 0x004 a.tepc ∧ reads 0x005 a.tstack ∧ reads 0x006 a.tsave ∧ reads 0x007 (val64 a.dcause)) ∧
    reads 0x008 a.xcap ∧ reads 0x011 (val64 s.me.fieldxy) ∧ reads 0x012 (val64 s.me.stage) ∧ reads 0x020 (val64 (BitVec.ofNat 64 s.now + (s.tile u).cycleOff)) ∧
    reads 0x021 (val64 (s.tstamp + (s.tile u).stampOff)) ∧ reads 0x030 (val64 (a.mlive.setWidth 64)) ∧ reads 0x031 (val64 a.deadline) ∧
    reads 0x032 (val64 a.rndseed) ∧ reads 0x040 (val64 (a.acctag.setWidth 64)) ∧ reads 0x060 (val64 0) ∧
    (∃ v : Word, reads 0x010 (val64 v) ∧ v.extractLsb' 21 43 = 0 ∧ v.extractLsb' 15 1 = bit1 (isSys u) ∧
      v.extractLsb' 12 2 = BitVec.ofNat 2 (dieOf u) ∧
      (isSys u = false → v.extractLsb' 8 4 = BitVec.ofNat 4 (yOf u) ∧ v.extractLsb' 4 4 = BitVec.ofNat 4 (xOf u) ∧
        v.extractLsb' 0 4 = BitVec.ofNat 4 (slotOf s.cur))) ∧
    (∃ v : Word, reads 0x050 (val64 v) ∧ ∀ k : Fin 32, v.getLsbD k = decide ((s.jr u k).state = .refused)) ∧
    (∀ k : Fin 8, reads (BitVec.ofNat 12 (0x108 + k)) (val64 e.defs[k]) ∧ reads (BitVec.ofNat 12 (0x118 + k)) (val64 e.cnt[k]) ∧
      reads (BitVec.ofNat 12 (0x120 + k)) (val64 e.hist[k])) ∧
    (∀ k : Fin 17, reads (BitVec.ofNat 12 (0x128 + k)) (val64 e.rdyh[k])) ∧ reads 0x104 (val64 (if e.freeze then 1 else 0)) ∧
    reads 0x110 (val64 e.hedge) ∧ reads 0x100 (val64 s.me.tcIssued) ∧ reads 0x101 (val64 s.me.tcWmem) ∧ reads 0x102 (val64 s.me.tcWmsg) ∧
    reads 0x103 (val64 s.me.tcVac) ∧
    (let i := Instr.srd d num
     (st.mode = 0 → 1 ≤ num.toNat → num.toNat ≤ 7 → Traps i s 0x04 (encode i).low) ∧
     ((∀ n ∈ [0, 1, 2, 3, 4, 5, 6, 7, 8, 0x10, 0x11, 0x12, 0x20, 0x21, 0x30, 0x31, 0x32, 0x40, 0x50, 0x60], num.toNat ≠ n) →
       (num.toNat < 0x100 ∨ (0x105 ≤ num.toNat ∧ num.toNat ≤ 0x107) ∨ (0x111 ≤ num.toNat ∧ num.toNat ≤ 0x117) ∨ 0x139 ≤ num.toNat) → Traps i s 0x02 (encode i).low))

/-- SWR writes the register: all of A for the four that hold 128 bits, else A[63:0], of which STATUS takes MODE, PMODE, IE, PIE and the gang's
CHK, and a reserved mode leaves the field (R25, R101). A write of TCAUSE clears EntryWindow (R96); one of DEADLINE arms the timer and takes
back a pending TIMER trap (R365). A register that is read-only, or not for user mode, traps with nothing written (R27). -/
def Obligations.SystemRegisterWrites : Prop :=
  ∀ (a : Src) (num : BitVec 12) (s : State), s.me.ready → a.plain = true →
    let r := s.me.arch
    let v := s.me.srcVal a
    let sys := isSys (unitOf s.cur)
    let writes (n : BitVec 12) (q : Arch) : Prop := Completes (.swr n a) s (q.past 8)
    let mode (old new : BitVec 2) : BitVec 2 := if new = 3 ∨ (new = 2 ∧ sys = false) then old else new
    let user : Prop :=
      writes 0x030 { r with mlive := v.lo.setWidth 32 } ∧ writes 0x032 { r with rndseed := v.lo } ∧
      ∃ t, exec (.swr 0x031 a) s = .next t ∧ s.OnlyMe t ∧ t.me.arch = ({ r with deadline := v.lo, timerArmed := true } : Arch).past 8 ∧
        t.me.pend = s.me.pend.filter fun p => !decide (p.cause = 0x81)
    let events (n : Nat) (holds : Events → Prop) : Prop :=
      ∃ t, exec (.swr (BitVec.ofNat 12 n) a) s = .next t ∧ s.OnlyMe t ∧ t.me.arch = r.past 8 ∧ holds (t.tile (unitOf s.cur)).ev
    let e := (s.tile (unitOf s.cur)).ev
    let privileged : Prop :=
      (∀ k : Fin 8, events (0x118 + k) fun x => x.cnt = e.cnt.set k v.lo) ∧ (∀ k : Fin 8, events (0x120 + k) fun x => x.hist = e.hist.set k v.lo) ∧
      (∀ k : Fin 17, events (0x128 + k) fun x => x.rdyh = e.rdyh.set k v.lo) ∧ (events 0x104 fun x => x.freeze = v.lo.getLsbD 0) ∧
      (∃ t, exec (.swr 0x100 a) s = .next t ∧ s.OnlyMe t ∧ t.me.arch = r.past 8 ∧ t.me.tcIssued = v.lo) ∧
      (∃ t, exec (.swr 0x101 a) s = .next t ∧ s.OnlyMe t ∧ t.me.arch = r.past 8 ∧ t.me.tcWmem = v.lo) ∧
      (∃ t, exec (.swr 0x102 a) s = .next t ∧ s.OnlyMe t ∧ t.me.arch = r.past 8 ∧ t.me.tcWmsg = v.lo) ∧
      (∃ t, exec (.swr 0x103 a) s = .next t ∧ s.OnlyMe t ∧ t.me.arch = r.past 8 ∧ t.me.tcVac = v.lo) ∧
      writes 0x001 { r with tvec := v } ∧ writes 0x002 { r with tcause := v.lo &&& 0xFFF, entryWindow := false } ∧
      writes 0x003 { r with taddr := v.lo } ∧ writes 0x004 { r with tepc := v } ∧ writes 0x005 { r with tstack := v } ∧
      writes 0x006 { r with tsave := v } ∧ writes 0x040 { r with acctag := v.lo.setWidth 16 } ∧
      (∃ t, exec (.swr 0x000 a) s = .next t ∧ (∀ k, k ≠ s.cur → t.th k = s.th k) ∧ t.dram = s.dram ∧ (∀ u, (t.tile u).spad = (s.tile u).spad) ∧
        (∀ g, (s.tile (unitOf s.me.home)).gang = some g → g.inst = s.me.inst → g.sheet = s.me.sheet →
          (t.tile (unitOf s.me.home)).gang = some { g with chk := v.lo.getLsbD 13 }) ∧
        t.me.arch = ({ r with
          status := { r.status with
            mode := mode r.status.mode (v.lo.extractLsb' 0 2), pmode := mode r.status.pmode (v.lo.extractLsb' 6 2)
            pie := v.lo.getLsbD 5, ie := v.lo.getLsbD 4 } } : Arch).past 8) ∧
      (∃ t, exec (.swr 0x050 a) s = .next t ∧ t.me.arch = r.past 8 ∧
        ∀ k : Fin 32, t.jr (unitOf s.cur) k =
          if v.lo.getLsbD k = true ∧ (s.jr (unitOf s.cur) k).state = .refused then {} else s.jr (unitOf s.cur) k)
    let i := Instr.swr num a
    user ∧ (r.status.mode ≠ 0 → privileged) ∧
      (num ∈ [0x007, 0x008, 0x010, 0x011, 0x012, 0x020, 0x021, 0x060] → Traps i s 0x04 (encode i).low) ∧
      (r.status.mode = 0 → num ∈ [0x000, 0x001, 0x002, 0x003, 0x004, 0x005, 0x006, 0x040, 0x050] → Traps i s 0x04 (encode i).low)

/-- IFLUSH empties the instruction cache of the tile but for its locked region, and a block on its way is not put into it (R102). WAITI goes on
when an event is pending, and else leaves the rotation for A cycles or for good (R103).
Where the spec leaves a point open, this is the model's choice: log entries 41 and 42. -/
def Obligations.FlushAndWait : Prop :=
  ∀ (a : Src) (s : State), s.me.ready → a.plain = true → s.me.redundant = false →
    (∃ t, exec .iflush s = .next t ∧ t.me = s.me.after (s.me.arch.past 8) ∧ (t.tile (unitOf s.cur)).icache = [] ∧
      (t.tile (unitOf s.cur)).locked = (s.tile (unitOf s.cur)).locked ∧ (∀ u, u ≠ unitOf s.cur → t.tile u = s.tile u) ∧
      (∀ p ∈ t.pkts, p.owner = .icache (unitOf s.cur) → p.stale = true) ∧ t.dram = s.dram) ∧
    (if s.me.pend ≠ [] then Completes (.waiti a) s (s.me.arch.past 8)
     else
       ∃ t, exec (.waiti a) s = .next t ∧ s.OnlyMe t ∧ t.me.arch = s.me.arch ∧ t.me.insn = some (.waiti a) ∧
         t.me.run = .waiti (if (s.me.srcVal a).lo = 0 then none else some (s.now + (s.me.srcVal a).lo.toNat)))

/-! ### Vectors -/

/-- The integer element-wise forms on each lane (R145, R148): the exact value modulo 2^w, or saturated with SAT. An integer format has
no rounding field. -/
def Obligations.VectorIntegers : Prop :=
  ∀ (f : Fmt) (sat : Bool) (d a b c : VReg) (s : State), s.me.ready → f.isInt = true →
    let n := f.lane
    let lane (q : VReg) (k : Nat) : BitVec n := (s.me.vecVal q).extractLsb' (n * k) n
    let num (x : BitVec n) : Int := if f.isSigned = true then x.toInt else x.toNat
    let lo : Int := if f.isSigned = true then -2 ^ (n - 1) else 0
    let hi : Int := if f.isSigned = true then 2 ^ (n - 1) - 1 else 2 ^ n - 1
    let fit (sat : Bool) (x : Int) : BitVec n := BitVec.ofInt n (if sat = true then max lo (min hi x) else x)
    let gives (i : Instr) (h : Nat → BitVec n) : Prop :=
      ∃ v, Completes i s ((s.me.arch.putVec d v).past 8) ∧ ∀ k, k < 512 / n → v.extractLsb' (n * k) n = h k
    let x (k : Nat) := num (lane a k)
    let y (k : Nat) := num (lane b k)
    let z (k : Nat) := num (lane c k)
    gives (.vadd f .rne sat d a b) (fun k => fit sat (x k + y k)) ∧
    gives (.vsub f .rne sat d a b) (fun k => fit sat (x k - y k)) ∧
    gives (.vmul f .rne sat d a b) (fun k => fit sat (x k * y k)) ∧
    gives (.vfma f .rne sat d a b c) (fun k => fit sat (x k * y k + z k)) ∧
    gives (.vmin f d a b) (fun k => fit false (min (x k) (y k))) ∧
    gives (.vmax f d a b) (fun k => fit false (max (x k) (y k))) ∧
    gives (.vshl f d a b) (fun k => lane a k <<< ((lane b k).toNat % n)) ∧
    gives (.vshr f d a b) (fun k => lane a k >>> ((lane b k).toNat % n)) ∧
    gives (.vsra f d a b) (fun k => (lane a k).sshiftRight ((lane b k).toNat % n))

/-- The forms on codes (R145, R148, R149): the bitwise forms, VCMP's mask, VSEL, VPERM and VBCAST. A T6 lane is read and written in bits
[5:0] of its byte. -/
def Obligations.VectorSelections : Prop :=
  ∀ (f : Fmt) (cond : BitVec 4) (d a b : VReg) (r : Dst) (c : Src) (s : State), s.me.ready → r.plain = true → c.plain = true →
    let n := f.lane
    let w := f.width
    let lane (q : VReg) (k : Nat) : BitVec n := ((s.me.vecVal q).extractLsb' (n * k) w).setWidth n
    let gives (i : Instr) (h : Nat → BitVec n) : Prop :=
      ∃ v, Completes i s ((s.me.arch.putVec d v).past 8) ∧ ∀ k, k < 512 / n → v.extractLsb' (n * k) n = h k
    let m := (s.me.srcVal c).lo
    let holds (k : Nat) : Prop :=
      let x := lane a k
      let y := lane b k
      match cond.toNat with
      | 0 => x = y | 1 => x ≠ y | 2 => x.slt y = true | 3 => x.slt y = false | 4 => x.ult y = true | 5 => x.ult y = false
      | 6 => y.slt x = true | 7 => y.slt x = false | 8 => y.ult x = true | 9 => y.ult x = false | 10 => x &&& y ≠ 0 | _ => x &&& y = 0
    gives (.vand f d a b) (fun k => lane a k &&& lane b k) ∧
    gives (.vor f d a b) (fun k => lane a k ||| lane b k) ∧
    gives (.vxor f d a b) (fun k => lane a k ^^^ lane b k) ∧
    gives (.vsel f d a b c) (fun k => if m.getLsbD k = true then lane a k else lane b k) ∧
    gives (.vperm f d a b) (fun k => lane a ((lane b k).toNat % (512 / n))) ∧
    gives (.vbcast f d c) (fun _ => ((s.me.srcVal c).data.setWidth w).setWidth n) ∧
    ∃ v : Word, Completes (.vcmp cond f r a b) s ((s.me.arch.put r (val64 v)).past 8) ∧ (∀ k, 512 / n ≤ k → v.getLsbD k = false) ∧
      (f.isInt = true → cond.toNat < 12 → ∀ k, k < 512 / n → (v.getLsbD k = true ↔ holds k)) ∧
      (f.isFloat = true → cond.toNat < 8 → ∀ k, k < 512 / n →
        v.getLsbD k = fcondHolds (fcondOf cond.toNat) f (lane a k).toNat (lane b k).toNat)

/-- The forms on float lanes (R148, R150, R154): each lane is the rounded code of the model's FArith, FMIN, FMAX, VRCP, VEXP2 and Convert, and
under SR each draws once from RNDSEED, lane 0 first (R49). A narrowing VCVT leaves the lanes of D outside its part.
Where the spec leaves a point open, this is the model's choice: log entries 8 and 17. -/
def Obligations.VectorFloats : Prop :=
  ∀ (f g : Fmt) (rm : Rm) (part : Fin 8) (d a b c : VReg) (s : State), s.me.ready →
    let seed (k : Nat) : Word := (List.range k).foldl (fun x _ => (draw x).2) s.me.arch.rndseed
    let drawn (k : Nat) : Nat := if rm = .sr then (draw (seed k)).1 else 0
    let after (m : Nat) : Arch := if rm = .sr then { s.me.arch with rndseed := seed m } else s.me.arch
    let code (f : Fmt) (q : VReg) (k : Nat) : Nat := ((s.me.vecVal q).extractLsb' (f.lane * k) f.width).toNat
    let gives (i : Instr) (b : Arch) (h : Nat → Nat) : Prop :=
      ∃ v, Completes i s ((b.putVec d v).past 8) ∧ ∀ k, k < 512 / f.lane → (v.extractLsb' (f.lane * k) f.lane).toNat = h k % 2 ^ f.width
    let all := after (512 / f.lane)
    let m := 512 / max f.lane g.lane
    (f.isFloat = true →
      gives (.vadd f rm false d a b) all (fun k => fArith .add f rm (drawn k) (code f a k) (code f b k) 0) ∧
      gives (.vsub f rm false d a b) all (fun k => fArith .sub f rm (drawn k) (code f a k) (code f b k) 0) ∧
      gives (.vmul f rm false d a b) all (fun k => fArith .mul f rm (drawn k) (code f a k) (code f b k) 0) ∧
      gives (.vfma f rm false d a b c) all (fun k => fArith .fma f rm (drawn k) (code f a k) (code f b k) (code f c k)) ∧
      gives (.vmin f d a b) s.me.arch (fun k => fMin f (code f a k) (code f b k)) ∧
      gives (.vmax f d a b) s.me.arch (fun k => fMax f (code f a k) (code f b k)) ∧
      gives (.vrcp f rm d a) all (fun k => fRcp f rm (drawn k) (code f a k)) ∧
      gives (.vexp2 f rm d a) all (fun k => fExp2 f rm (drawn k) (code f a k))) ∧
    ((Instr.vcvt f g rm part d a).wf = true →
      (g.lane ≤ f.lane → gives (.vcvt f g rm part d a) (after m) fun k => convert g f rm (drawn k) (code g a (part.val * m + k))) ∧
      (f.lane < g.lane → ∃ v, Completes (.vcvt f g rm part d a) s (((after m).putVec d v).past 8) ∧
        (∀ k, k < m → (v.extractLsb' (f.lane * (part.val * m + k)) f.lane).toNat = convert g f rm (drawn k) (code g a k) % 2 ^ f.width) ∧
        ∀ j, j < f.lane * (part.val * m) ∨ f.lane * (part.val * m + m) ≤ j → v.getLsbD j = (s.me.vecVal d).getLsbD j))

/-- VRED, VSCAN and VDOT (R151 to R153). An integer reduction takes the unmasked lanes as the format reads them; a float sum rounds after each
addition, lane 0 first, a masked lane being −0. The rounded codes are those of the model's FArith and of its dot product.
Where the spec leaves a point open, this is the model's choice: log entry 17. -/
def Obligations.VectorReductions : Prop :=
  ∀ (f : Fmt) (rm : Rm) (d : Dst) (q a b : VReg) (m : Src) (count : BitVec 7) (s : State),
    s.me.ready → d.plain = true → m.plain = true → count.toNat ≤ 512 / f.lane →
    let n := f.lane
    let mask := (s.me.srcVal m).lo
    let lane (q : VReg) (k : Nat) : BitVec n := (s.me.vecVal q).extractLsb' (n * k) n
    let num (x : BitVec n) : Int := if f.isSigned = true then x.toInt else x.toNat
    let on (c : Nat) : List Int := ((List.range c).filter fun k => mask.getLsbD k).map fun k => num (lane a k)
    let word (x : Int) : BitVec 64 := BitVec.ofInt 64 x
    let least (l : List Int) : Int := match l with | [] => 0 | x :: xs => xs.foldl min x
    let most (l : List Int) : Int := match l with | [] => 0 | x :: xs => xs.foldl max x
    let bitwise (g : BitVec 64 → BitVec 64 → BitVec 64) (l : List Int) : BitVec 64 :=
      match l with | [] => 0 | x :: xs => xs.foldl (fun a y => g a (word y)) (word x)
    let cnt := count.toNat
    let reds (op : VRedOp) (v : BitVec 64) : Prop := Completes (.vred op f .rne d a m count) s ((s.me.arch.put d (val64 v)).past 8)
    let scans (op : VRedOp) (h : List Int → Int) : Prop :=
      ∃ v, Completes (.vscan op f .rne q a m) s ((s.me.arch.putVec q v).past 8) ∧
        ∀ k, k < 512 / n → v.extractLsb' (n * k) n = BitVec.ofInt n (h (on (k + 1)))
    let seed (k : Nat) : Word := (List.range k).foldl (fun x _ => (draw x).2) s.me.arch.rndseed
    let drawn (k : Nat) : Nat := if rm = .sr then (draw (seed k)).1 else 0
    let after (k : Nat) : Arch := if rm = .sr then { s.me.arch with rndseed := seed k } else s.me.arch
    let code (q : VReg) (k : Nat) : Nat := ((s.me.vecVal q).extractLsb' (n * k) f.width).toNat
    let none' : Nat := if f.tapered = true then 0 else 2 ^ (f.width - 1)
    let sum (c : Nat) : Nat :=
      (List.range c).foldl (fun acc k => fArith .add f rm (drawn k) acc (if mask.getLsbD k = true then code a k else none') 0) none'
    (f.isInt = true →
      reds .add (word (on cnt).sum) ∧ reds .min (word (least (on cnt))) ∧ reds .max (word (most (on cnt))) ∧
      reds .and (bitwise (· &&& ·) (on cnt)) ∧ reds .or (bitwise (· ||| ·) (on cnt)) ∧ reds .xor (bitwise (· ^^^ ·) (on cnt)) ∧
      scans .add List.sum ∧ scans .min least ∧ scans .max most ∧
      ((n = 8 ∨ n = 16) → Completes (.vdot f .rne d a b m) s
        ((s.me.arch.put d (val64 (word (max (-2 ^ 63) (min (2 ^ 63 - 1)
          (mask.toInt + ((List.range (512 / n)).map fun k => num (lane a k) * num (lane b k)).sum)))))).past 8))) ∧
    (f.isFloat = true →
      (cnt ≠ 0 → Completes (.vred .add f rm d a m count) s (((after cnt).put d (val64 (BitVec.ofNat 64 (sum cnt)))).past 8)) ∧
      (cnt = 0 → Completes (.vred .add f rm d a m count) s ((s.me.arch.put d (val64 0)).past 8)) ∧
      Completes (.vdot f rm d a b m) s
        (((after 1).put d (val64 (BitVec.ofNat 64 (dotCode f rm (drawn 0) (s.me.vecVal a) (s.me.vecVal b) (s.me.srcVal m).data.toNat)))).past 8) ∧
      ∃ v, Completes (.vscan .add f rm q a m) s (((after (512 / n)).putVec q v).past 8) ∧
        ∀ k, k < 512 / n → (v.extractLsb' (n * k) n).toNat = sum (k + 1) % 2 ^ f.width)

/-! ### Streams and links -/

/-- SBIND sets up the generator from the descriptor's eight dwords and releases the older bindings of the register; SUNB releases them; SSKIP
advances without access, as so many elements would (R155 to R157). A descriptor with a reserved field set traps.
Where the spec leaves a point open, this is the model's choice: log entry 15. -/
def Obligations.StreamForms : Prop :=
  ∀ (g : Fin 4) (d a b : Reg) (s : State), s.me.held = {} →
    let x := s.me
    let released (h : Fin 4) : Option Stream :=
      match x.streams[h] with
      | some st => if st.reg = d.val then none else some st
      | none => none
    (∃ t, exec (.sunb d) s = .next t ∧ s.OnlyMe t ∧ t.me.arch = x.arch.past 8 ∧ ∀ h : Fin 4, t.me.streams[h] = released h) ∧
    (x.stream a.val = none → ∃ t, exec (.sskip d a) s = .next t ∧ s.OnlyMe t ∧ t.me.arch = x.arch.past 8 ∧
      ∀ h : Fin 4,
        match x.streams[h] with
        | none => t.me.streams[h] = none
        | some st =>
          if st.reg = d.val then
            let n := min x.arch.regs[a].lo.toNat st.left
            ∃ y, t.me.streams[h] = some y ∧ y = { st with idx := y.idx, left := st.left - n } ∧
              (st.idx.length = st.counts.length → (∀ p ∈ st.idx.zip st.counts, p.1 < p.2) → y = (List.range n).foldl (fun z _ => z.advance) st)
          else t.me.streams[h] = some st) ∧
    (x.stream a.val = none → x.stream b.val = none →
      let c := x.arch.regs[b]
      let o := c.lo.toNat
      s.ownRead o 64 = false → (s.tile (unitOf s.cur)).sound o 64 →
      c.space = 0 → capCheck c o 64 permR x.arch.status.form (isSys (unitOf s.cur)) = none → o % 8 = 0 → s.localCheck c o 64 true = none →
      let w (k : Nat) : BitVec 64 := BitVec.ofNat 64 (leNat ((s.tile (unitOf s.cur)).spad.rdN (o + 8 * k) 8))
      let ctl := w 6
      let counts := (List.range 6).map fun k => if (w k).extractLsb' 0 24 = 0 then 2 ^ 24 else ((w k).extractLsb' 0 24).toNat
      if w 7 ≠ 0 ∨ ctl.extractLsb' 4 60 ≠ 0 ∨ 6 ≤ (ctl.extractLsb' 0 3).toNat then Traps (.sbind g d a b) s Cause.access c.lo
      else
        ∃ t, exec (.sbind g d a b) s = .next t ∧ s.OnlyMe t ∧ t.me.arch = x.arch.past 8 ∧
          ∀ h : Fin 4, t.me.streams[h] =
            if h = g then
              some {
                reg := d.val, cap := x.arch.regs[a], counts := counts, strides := (List.range 6).map fun k => ((w k).extractLsb' 24 40).toInt
                idx := [0, 0, 0, 0, 0, 0], esz := (ctl.extractLsb' 0 3).toNat, write := ctl.getLsbD 3, left := counts.foldl (· * ·) 1 }
            else released h)

/-- A register bound to a stream, as a source, is popped: the element at the generator's address is read as LD reads it, and the generator
advances. As a destination it is appended to. A stream used the wrong way, at its end, or against its capability traps (R158).
Where the spec leaves a point open, this is the model's choice: log entry 14. -/
def Obligations.StreamOperands : Prop :=
  ∀ (g : Fin 4) (st : Stream) (d : Dst) (r : Reg) (imm : BitVec 18) (s : State),
    s.me.held = {} → s.me.streamOf r.val = some g → s.me.streams[g] = some st → d.plain = true →
    (∀ k, d = .reg k → s.me.stream k.val = none) → st.esz < 6 →
    let pop := Instr.cmov d (.reg r)
    let append := Instr.movi (.reg r) imm
    let x := s.me
    let ea := st.next
    let n := if st.esz = 5 then 64 else 2 ^ st.esz
    let sys := isSys (unitOf s.cur)
    let next : Stream := { st with idx := odometer st.idx st.counts, left := st.left - 1 }
    let moved (t : State) : Prop := t.me.streams[g] = some next ∧ ∀ h, h ≠ g → t.me.streams[h] = x.streams[h]
    (st.write = true ∨ st.esz = 5 → Traps pop s Cause.access (wordOf ea)) ∧
    (st.write = false ∨ st.esz = 5 → Traps append s Cause.access (wordOf ea)) ∧
    (st.write = false → st.esz ≠ 5 → st.left = 0 → Traps pop s Cause.capBounds st.cap.lo) ∧
    (st.write = true → st.esz ≠ 5 → st.left = 0 → Traps append s Cause.capBounds st.cap.lo) ∧
    (st.write = false → st.esz ≠ 5 → st.left ≠ 0 → ∀ k, capCheck st.cap ea n permR x.arch.status.form sys = some k → Traps pop s k (wordOf ea)) ∧
    (st.write = false → st.esz ≠ 5 → st.left ≠ 0 → st.cap.space = 0 → capCheck st.cap ea n permR x.arch.status.form sys = none → ea % n = 0 →
      s.localCheck st.cap ea.toNat n true = none → s.ownRead ea.toNat n = false → (s.tile (unitOf s.cur)).sound ea.toNat n →
      ∃ t, exec pop s = .next t ∧ s.OnlyMe t ∧ moved t ∧
        t.me.arch = (x.arch.put d (val128 (BitVec.ofNat 128 (leNat ((s.tile (unitOf s.cur)).spad.rdN ea.toNat n))))).past 8) ∧
    (st.write = true → st.esz ≠ 5 → st.left ≠ 0 → st.cap.space = 0 → capCheck st.cap ea n permW x.arch.status.form sys = none → ea % n = 0 →
      s.localCheck st.cap ea.toNat n true = none → s.ownWrites s.cur = false → x.redundant = false →
      ∃ t, exec append s = .next t ∧ s.OnlyBytes t ea.toNat n ∧ moved t ∧ t.me.arch = x.arch.past 8 ∧
        (t.tile (unitOf s.cur)).spad.rdN ea.toNat n = leBytes n (val64 (imm.signExtend 64)).data.toNat)

/-- A link as a source gives its oldest receivable value, and as a destination sends the result, which the neighbour can receive from two
cycles later on (R34, R35, R112). A closed link traps ACCESS; without a value or a place the instruction waits, or traps in a form thread
(R108, R113). TADDR is the link's operand code.
Where the spec leaves a point open, this is the model's choice: log entry 14. -/
def Obligations.LinkOperands : Prop :=
  ∀ (l : Link) (d : Dst) (a : Src) (s : State), s.me.ready → d.plain = true → a.plain = true →
    let u := unitOf s.cur
    let i := Instr.cmov d (.link l)
    let j := Instr.cmov (.link l) a
    let code : Word := match l with | .north => 32 | .east => 33 | .south => 34 | .west => 35
    let form := s.me.arch.status.form
    (s.neighbour u l = none → Traps i s Cause.access code ∧ Traps j s Cause.access code) ∧
    (∀ v, s.neighbour u l = some v →
      (∀ e rest, (s.linkQ u l).vals = e :: rest → e.at? ≤ s.now → (s.linkQ u l).engine = false →
        ∃ t, exec i s = .next t ∧ t.me = s.me.after ((s.me.arch.put d (val128 e.v)).past 8) ∧ (t.linkQ u l).vals = rest ∧
          (∀ w, w ≠ u → t.tile w = s.tile w) ∧ (∀ k, k ≠ s.cur → t.th k = s.th k) ∧ (t.tile u).spad = (s.tile u).spad) ∧
      ((s.linkQ u l).vals = [] ∨ (s.linkQ u l).engine = true →
        if form = true then Traps i s Cause.linkEmpty code else Waits i s .waitMsg) ∧
      (if s.linkFull u l = true then (if form = true then Traps j s Cause.linkFull code else Waits j s .waitMsg)
       else
         (s.tile v).gang.map (fun g => (g.inst, g.sheet, g.ridx)) = (s.tile u).gang.map (fun g => (g.inst, g.sheet, g.ridx)) →
         ∃ t, exec j s = .next t ∧ t.me = s.me.after (s.me.arch.past 8) ∧
           (t.linkQ v (opposite l)).vals = (s.linkQ v (opposite l)).vals ++ [{ v := (s.me.srcVal a).data, at? := s.now + 2 }] ∧
           (∀ w, w ≠ u → w ≠ v → t.tile w = s.tile w) ∧ (∀ k, k ≠ s.cur → t.th k = s.th k) ∧
           ∀ w, (t.tile w).spad = (s.tile w).spad))

/-! ### Full/empty words, atomics and fences -/

/-- The full/empty forms on a word of the own scratchpad for which nobody waits, and which holds no error (R159, R160, R179, R189): LDF, AWAIT and LDT read a full word, and LDT
leaves it empty; STF, and STW on an empty word, write it and leave it full; SETF and SETE set the bit; PROBE reads it. -/
def Obligations.FullEmptyForms : Prop :=
  ∀ (d : Dst) (a : Reg) (b : Src) (off : BitVec 18) (far : BitVec 32) (s : State),
    s.me.ready → d.plain = true → b.plain = true → s.me.redundant = false →
    let c := s.me.arch.regs[a]
    let v := (s.me.srcVal b).lo
    let x := s.tile (unitOf s.cur)
    let word (y : Tile) (o : Nat) : Word := BitVec.ofNat 64 (leNat (y.spad.rdN o 8))
    let full (y : Tile) (o : Nat) : Bool := !Sparse.get false y.empty (o / 8)
    let allowed (e : Int) (need : BitVec 8) : Prop :=
      let ea := (c.lo.toNat : Int) + e
      c.space = 0 ∧ capCheck c ea 8 need s.me.arch.status.form (isSys (unitOf s.cur)) = none ∧ ea % 8 = 0 ∧
        s.localCheck c ea.toNat 8 false = none ∧ Sparse.get [] x.feq (ea.toNat / 8) = [] ∧ Sparse.get 0 x.bad (ea.toNat / 8) = 0
    let reads (i : Instr) (e : Int) (len : Nat) (h : Nat → Option Word) : Prop :=
      let o := ((c.lo.toNat : Int) + e).toNat
      allowed e permR → s.ownRead o 8 = false → ∀ w, h o = some w →
        ∃ t, exec i s = .next t ∧ s.OnlyMe t ∧ t.me = (s.seen o 8 false).after ((s.me.arch.put d (val64 w)).past len)
    let changes (i : Instr) (e : Int) (len : Nat) (need : BitVec 8) (ok : Nat → Bool) (q : Nat → Arch) (w : Nat → Word) (bit : Bool) : Prop :=
      let o := ((c.lo.toNat : Int) + e).toNat
      allowed e need → s.ownWrites s.cur = false → ok o = true →
        ∃ t, exec i s = .next t ∧ s.OnlyWord t o ∧ t.me = (s.seen o 8 true).after ((q o).past len) ∧ word (t.tile (unitOf s.cur)) o = w o ∧
          full (t.tile (unitOf s.cur)) o = bit
    let loaded (o : Nat) : Option Word := if full x o = true then some (word x o) else none
    let bit (o : Nat) : Option Word := some (if full x o = true then 1 else 0)
    let same (_ : Nat) : Arch := s.me.arch
    reads (.ldf d a off) off.toInt 8 loaded ∧ reads (.ldfExt d a far) far.toInt 12 loaded ∧
    reads (.await d a off) off.toInt 8 loaded ∧ reads (.awaitExt d a far) far.toInt 12 loaded ∧
    reads (.probe d a off) off.toInt 8 bit ∧ reads (.probeExt d a far) far.toInt 12 bit ∧
    changes (.ldt d a off) off.toInt 8 (permR ||| permW) (full x) (fun o => s.me.arch.put d (val64 (word x o))) (word x) false ∧
    changes (.ldtExt d a far) far.toInt 12 (permR ||| permW) (full x) (fun o => s.me.arch.put d (val64 (word x o))) (word x) false ∧
    changes (.stf a b off) off.toInt 8 permW (fun _ => true) same (fun _ => v) true ∧
    changes (.stfExt a b far) far.toInt 12 permW (fun _ => true) same (fun _ => v) true ∧
    changes (.stw a b off) off.toInt 8 permW (fun o => !full x o) same (fun _ => v) true ∧
    changes (.stwExt a b far) far.toInt 12 permW (fun o => !full x o) same (fun _ => v) true ∧
    changes (.setf a off) off.toInt 8 permW (fun _ => true) same (word x) true ∧
    changes (.setfExt a far) far.toInt 12 permW (fun _ => true) same (word x) true ∧
    changes (.sete a off) off.toInt 8 permW (fun _ => true) same (word x) false ∧
    changes (.seteExt a far) far.toInt 12 permW (fun _ => true) same (word x) false

/-- LDF, LDT and STW on a word that is not ready, or for which others wait, join its queue and leave the rotation; a form thread traps
TIMING_DEVIATION instead (R159, R161, R118). A fill serves the oldest waiter: a waiting LDF rejoins with the word, which stays full. -/
def Obligations.FullEmptyQueues : Prop :=
  ∀ (d : Dst) (a : Reg) (b : Src) (off : BitVec 18) (s : State),
    s.me.ready → d.plain = true → b.plain = true → s.me.redundant = false →
    let u := unitOf s.cur
    let c := s.me.arch.regs[a]
    let ea := (c.lo.toNat : Int) + off.toInt
    let o := ea.toNat
    let q := Sparse.get [] (s.tile u).feq (o / 8)
    let empty := Sparse.get false (s.tile u).empty (o / 8)
    let waits (i : Instr) (op : FeOp) (need : BitVec 8) (v : Word) (unready : Bool) (msg : Bool) : Prop :=
      capCheck c ea 8 need s.me.arch.status.form (isSys u) = none → (if need = permR then s.ownRead o 8 else s.ownWrites s.cur) = false →
      (q ≠ [] ∨ unready = true) →
        if s.me.arch.status.form = true then Traps i s Cause.timingDeviation (wordOf ea)
        else
          ∃ t, Leaves i s t (.feWait msg) ∧ (∀ k, k ≠ s.cur → t.th k = s.th k) ∧ (t.tile u).spad = (s.tile u).spad ∧
            Sparse.get [] (t.tile u).feq (o / 8) = q ++ [{ remote := false, key := s.cur, op := op, v := v }]
    c.space = 0 → ea % 8 = 0 → s.localCheck c o 8 false = none →
    let v := (s.me.srcVal b).lo
    waits (.ldf d a off) .ldf permR 0 empty false ∧ waits (.await d a off) .ldf permR 0 empty true ∧
    waits (.ldt d a off) .ldt (permR ||| permW) 0 empty false ∧ waits (.stw a b off) .stw permW v (!empty) false ∧
    (∀ k w, q = [{ remote := false, key := k, op := .ldf, v := w }] → k ≠ s.cur →
      capCheck c ea 8 permW s.me.arch.status.form (isSys u) = none → s.ownWrites s.cur = false →
      ∃ t, exec (.stf a b off) s = .next t ∧ t.me.arch = s.me.arch.past 8 ∧ (t.th k).run = .feServed (.data (val64 v)) ∧
        Sparse.get [] (t.tile u).feq (o / 8) = [] ∧ Sparse.get false (t.tile u).empty (o / 8) = false ∧
        (t.tile u).spad.rdN o 8 = leBytes 8 v.toNat)

/-- AMO and RED on a word of the own scratchpad that nobody has reserved: one read, one write, and for an AMO the old value sign-extended in D
(R168, R169). A form with release semantics needs its earlier operations fenced (R214). -/
def Obligations.LocalAtomics : Prop :=
  ∀ (z : AmoSize) (ord : Order) (sc : Scope) (d : Dst) (a : Reg) (b e : Src) (off : BitVec 10) (s : State),
    s.me.ready → d.plain = true → b.plain = true → e.plain = true → s.ownWrites s.cur = false → s.me.redundant = false →
    let c := s.me.arch.regs[a]
    let ea := (c.lo.toNat : Int) + off.toInt
    let o := ea.toNat
    let n := match z with | .w => 4 | .d => 8
    let old : BitVec (8 * n) := BitVec.ofNat _ (leNat ((s.tile (unitOf s.cur)).spad.rdN o n))
    let y : BitVec (8 * n) := (s.me.srcVal b).lo.setWidth _
    let w : BitVec (8 * n) := (s.me.srcVal e).lo.setWidth _
    c.space = 0 → capCheck c ea n (permR ||| permW) s.me.arch.status.form (isSys (unitOf s.cur)) = none → ea % n = 0 →
    s.localCheck c o n true = none → (s.tile (unitOf s.cur)).sound o n → s.reservedAt (unitOf s.cur) o = false →
    s.me.redPending < 8 → s.asyncFull s.cur = false →
    (ord = .rel ∨ ord = .ar → s.fenced s.cur sc = true) →
    let does (i : Instr) (q : Arch) (new : BitVec (8 * n)) : Prop :=
      ∃ t, exec i s = .next t ∧ s.OnlyBytes t o n ∧ t.me = (s.seen o n true).after (q.past 8) ∧
        (t.tile (unitOf s.cur)).spad.rdN o n = leBytes n new.toNat
    let amo (i : Instr) (new : BitVec (8 * n)) : Prop := does i (s.me.arch.put d (val64 (old.signExtend 64))) new
    let red (i : Instr) (new : BitVec (8 * n)) : Prop := does i s.me.arch new
    let lesser := if old.slt y = true then old else y
    let greater := if old.slt y = true then y else old
    let below := if old.ult y = true then old else y
    let above := if old.ult y = true then y else old
    amo (.amoAdd z ord sc d a b off) (old + y) ∧ amo (.amoAnd z ord sc d a b off) (old &&& y) ∧
    amo (.amoOr z ord sc d a b off) (old ||| y) ∧ amo (.amoXor z ord sc d a b off) (old ^^^ y) ∧
    amo (.amoMin z ord sc d a b off) lesser ∧ amo (.amoMax z ord sc d a b off) greater ∧
    amo (.amoMinu z ord sc d a b off) below ∧ amo (.amoMaxu z ord sc d a b off) above ∧
    amo (.amoSwap z ord sc d a b off) y ∧ amo (.amoCas z ord sc d a b e off) (if old = w then y else old) ∧
    red (.redAdd z ord sc a b off) (old + y) ∧ red (.redAnd z ord sc a b off) (old &&& y) ∧
    red (.redOr z ord sc a b off) (old ||| y) ∧ red (.redXor z ord sc a b off) (old ^^^ y) ∧
    red (.redMin z ord sc a b off) lesser ∧ red (.redMax z ord sc a b off) greater ∧
    red (.redMinu z ord sc a b off) below ∧ red (.redMaxu z ord sc a b off) above

/-- FENCE.ACQ goes on; another fence waits until each earlier posted operation of the thread in its scope has been acknowledged or refused, at
the scopes slot and tile until what the thread has sent to its own tile is performed there (R170).
Where the spec leaves a point open, this is the model's choice: log entry 22. -/
def Obligations.Fences : Prop :=
  ∀ (k : FenceKind) (sc : Scope) (s : State), s.me.ready → s.me.redundant = false →
    let u := unitOf s.cur
    let tileOf (j : JEntry) : Nat := if j.space = 0 then u else (s.resolveTile s.cur (j.addr.toNat % 2 ^ 30)).getD u
    let beyond (j : JEntry) : Prop :=
      if j.space = 2 then
        match sc with
        | .cluster => True
        | .die => ∃ q, s.ownerDie s.cur (j.addr.toNat % 2 ^ 57) = some q ∧ q ≠ some (dieOf u)
        | .pkg => s.ownerDie s.cur (j.addr.toNat % 2 ^ 57) = some none
        | _ => False
      else
        match sc with
        | .cluster => sameCluster u (tileOf j) = false
        | .die => dieOf u ≠ dieOf (tileOf j)
        | _ => False
    let open_ (j : JEntry) : Prop := j.thread = s.cur ∧ j.state ≠ .refused ∧ j.state ≠ .free ∧ ¬beyond j
    (k = .acq → Completes (.fence k sc) s (s.me.arch.past 8)) ∧
    (sc = .slot ∨ sc = .tile → s.ownWrites s.cur = false → Completes (.fence k sc) s (s.me.arch.past 8)) ∧
    (sc ≠ .slot → sc ≠ .tile → (∀ e ∈ (s.tile u).journal, ¬open_ e.2) → Completes (.fence k sc) s (s.me.arch.past 8)) ∧
    (k ≠ .acq → sc ≠ .slot → sc ≠ .tile → (∃ e ∈ (s.tile u).journal, open_ e.2) → Waits (.fence k sc) s .waitMem) ∧
    (sc = .slot ∨ sc = .tile → s.fenced s.cur sc = !s.ownWrites s.cur) ∧
    (k ≠ .acq → s.fenced s.cur sc = true → Completes (.fence k sc) s (s.me.arch.past 8)) ∧
    (k ≠ .acq → s.fenced s.cur sc = false → Waits (.fence k sc) s .waitMem) ∧
    (sc ≠ .slot → sc ≠ .tile →
      (∀ e ∈ (s.tile (unitOf s.cur)).journal, e.2.thread = s.cur → e.2.state ≠ .refused → e.2.state ≠ .free →
        s.inScope s.cur e.2.space e.2.addr sc = false) →
      s.fenced s.cur sc = true)

/-- MARM arms a line of the own scratchpad under the lowest free index, which it writes to D, or finds it armed; with four lines armed it
traps. MWAIT returns the triggered lines and events, and clears what it reports, or leaves the rotation. MDISARM removes a line and
MDISARM.ALL every line (R163 to R166).
Where the spec leaves a point open, this is the model's choice: log entry 42. -/
def Obligations.Monitors : Prop :=
  ∀ (d : Dst) (a : Reg) (b : Src) (off : BitVec 18) (s : State), s.me.ready → d.plain = true → b.plain = true → s.me.redundant = false →
    let x := s.me
    let c := x.arch.regs[a]
    let ea := (c.lo.toNat : Int) + off.toInt
    let line : Word := BitVec.ofNat 64 (ea.toNat / 64 * 64)
    let holds (j : Fin 4) : Prop := ∃ m, x.mons[j] = some m ∧ m.space = 0 ∧ m.line = line
    let arm := Instr.marm d a off
    (c.space = 0 → capCheck c ea 1 permR x.arch.status.form (isSys (unitOf s.cur)) = none → reserveRule x c ea.toNat 1 = none →
      (∀ j, holds j → (∀ k, k < j → ¬holds k) → Completes arm s ((x.arch.put d (val64 (BitVec.ofNat 64 j.val))).past 8)) ∧
      ((∀ j, ¬holds j) → (∀ j : Fin 4, x.mons[j] ≠ none) → Traps arm s Cause.access (wordOf ea)) ∧
      ((∀ j, ¬holds j) → ∀ j : Fin 4, x.mons[j] = none → (∀ k, k < j → x.mons[k] ≠ none) →
        ∃ t, exec arm s = .next t ∧
          ({ s with monRegs := s.monRegs ++
              [{ key := unitOf s.cur * 2 ^ 20 + ea.toNat / 64 * 64, thread := s.cur, idx := j.val, own := true }] } : State).OnlyMe t ∧
          t.me.arch = (x.arch.put d (val64 (BitVec.ofNat 64 j.val))).past 8 ∧ t.me.mons = x.mons.set j (some { space := 0, line := line, trig := false }))) ∧
    (let wait := Instr.mwait d b
     let some? (j : Fin 4) : Bool := match x.mons[j] with | some m => m.trig | none => false
     let ready := (∃ j, some? j = true) ∨ x.pend ≠ [] ∨ x.monReset = true
     (ready → ∃ (v : Word) (t : State), exec wait s = .next t ∧ s.OnlyMe t ∧ t.me.arch = (x.arch.put d (val64 v)).past 8 ∧ v.toNat < 128 ∧
       (∀ j : Fin 4, v.getLsbD j = some? j) ∧ v.getLsbD 4 = false ∧ v.getLsbD 5 = (!x.pend.isEmpty && !x.arch.status.ie) ∧
       v.getLsbD 6 = x.monReset ∧ t.me.monReset = false ∧ ∀ j : Fin 4, t.me.mons[j] = x.mons[j].map fun m => { m with trig := false }) ∧
     (¬ready → (∀ j : Fin 4, x.mons[j] = none) → (x.srcVal b).lo = 0 → ∃ t, exec wait s = .next t ∧ s.OnlyMe t ∧ t.me.arch = (x.arch.put d (val64 0)).past 8) ∧
     (¬ready → ((∃ j : Fin 4, x.mons[j] ≠ none) ∨ (x.srcVal b).lo ≠ 0) →
       if x.arch.status.form = true then Traps wait s Cause.timingDeviation 0
       else
         ∃ t, Leaves wait s t (.mwait (if (x.srcVal b).lo = 0 then none else some (s.now + (x.srcVal b).lo.toNat))) ∧ s.OnlyMe t)) ∧
    (∃ t, exec .mdisarmAll s = .next t ∧ t.me.arch = x.arch.past 8 ∧ (∀ j : Fin 4, t.me.mons[j] = none) ∧
      t.monRegs = s.monRegs.filter (fun r => r.thread ≠ s.cur ∨ 4 ≤ r.idx) ∧ (∀ k, k ≠ s.cur → t.th k = s.th k)) ∧
    (c.space = 0 → 0 ≤ ea → ea < 2 ^ 20 →
      ((∀ j, ¬holds j) → Completes (.mdisarm a off) s (x.arch.past 8)) ∧
      ∀ j, holds j → (∀ k, k < j → ¬holds k) →
        ∃ t, exec (.mdisarm a off) s = .next t ∧ t.me.arch = x.arch.past 8 ∧ t.me.mons = x.mons.set j none ∧
          t.monRegs = s.monRegs.filter (fun r => r.thread ≠ s.cur ∨ r.idx ≠ j.val) ∧ (∀ k, k ≠ s.cur → t.th k = s.th k))

/-! ### Messages and threads -/

/-- MBCFG sets a mailbox up with its ring empty and its words marked empty; MBCFG.OFF clears it. SEND of words of the own scratchpad puts
a message with the words into the lowest free journal entry. A message that reaches its mailbox is written into the ring, in order, its words
full; without room it is answered so, and without a mailbox it is refused. A refused message is sent again with the same words (R171 to R173).
Where the spec leaves a point open, this is the model's choice: log entries 15 and 46. -/
def Obligations.Mailboxes : Prop :=
  ∀ (m : Fin 4) (a b : Reg) (size : BitVec 18) (off : BitVec 14) (count : Fin 16) (s : State), s.me.ready → s.me.redundant = false →
    let u := unitOf s.cur
    let c := s.me.arch.regs[a]
    let form := s.me.arch.status.form
    let sys := isSys u
    (let n := size.toNat
     let o := c.lo.toNat
     c.space = 0 → capCheck c o (8 * n) permW form sys = none → o % 8 = 0 → s.localCheck c o (8 * n) false = none → s.ownWrites s.cur = false →
      ∃ t, exec (.mbcfg m a size) s = .next t ∧ t.me.arch = s.me.arch.past 8 ∧
        (t.tile u).mail = (s.tile u).mail.set m { on := true, base := o, size := n, tail := 0 } ∧
        (∀ k, k < n → Sparse.get [] (s.tile u).feq (o / 8 + k) = [] → Sparse.get false (t.tile u).empty (o / 8 + k) = true) ∧
        (∀ w, w < o / 8 ∨ o / 8 + n ≤ w → Sparse.get false (t.tile u).empty w = Sparse.get false (s.tile u).empty w) ∧
        (∀ v, v ≠ u → t.tile v = s.tile v) ∧ t.dram = s.dram) ∧
    (∃ t, exec (.mbcfgOff m) s = .next t ∧ t.me.arch = s.me.arch.past 8 ∧ (t.tile u).mail = (s.tile u).mail.set m {} ∧
      (t.tile u).spad = (s.tile u).spad ∧ ∀ v, v ≠ u → t.tile v = s.tile v) ∧
    (let r := s.me.arch.regs[b]
     let n := count.val + 1
     let src := (r.lo.toNat : Int) + off.toInt
     let o := src.toNat
     ∀ e, sys = false → c.space = 0 → capCheck c c.lo.toNat 8 permW form sys = none → r.space = 0 → capCheck r src (8 * n) permR form sys = none →
      src % 8 = 0 → s.localCheck r o (8 * n) false = none → s.ownWrites s.cur = false → s.ownRead o (8 * n) = false → (s.tile u).sound o (8 * n) → s.asyncFull s.cur = false → s.freeEntry u = some e →
      ∃ t, exec (.send m a b off count) s = .next t ∧ t.me.arch = s.me.arch.past 8 ∧ (t.tile u).spad = (s.tile u).spad ∧
        (let j := t.jr u e
         j.kind = 6 ∧ j.space = 0 ∧ j.addr = c.lo ∧ j.op = m.val ∧ j.len = 8 * n ∧ j.thread = s.cur ∧
         j.req = some (.message m.val ((List.range n).map fun k => BitVec.ofNat 64 (leNat ((s.tile u).spad.rdN (o + 8 * k) 8)))))) ∧
    (∀ (p v mb : Nat) (q : Packet) (ws : List Word), s.pkt p = some q → q.target = .tile v → q.req = .message mb ws → s.arrived v q = true → mb < 4 →
      let box := (s.tile v).mail.toList.getD mb {}
      let here := box.on = true ∧ (q.sys = true ∨ ((s.tile v).gang.map (fun g => g.inst) = some q.inst ∧ (s.tile v).saving = none))
      ∃ t, exec (.mailboxDelivery p) s = .next t ∧ (∀ w, w ≠ v → t.tile w = s.tile w) ∧
        ∃ r, t.pkt p = some r ∧ r.back = true ∧
          if ¬here then r.answer = .refused Cause.remoteRefused ∧ (t.tile v).spad = (s.tile v).spad
          else if freeWords (s.tile v) box 16 0 < ws.length then
            r.answer = .full ∧ (t.tile v).spad = (s.tile v).spad ∧ (t.tile v).mail = (s.tile v).mail
          else
            r.answer = .ack ∧ (t.tile v).mail.toList.getD mb {} = { box with tail := (box.tail + ws.length) % box.size } ∧
            ∀ k (w : Word), ws[k]? = some w →
              let o := box.base + 8 * ((box.tail + k) % box.size)
              Sparse.get [] (s.tile v).feq (o / 8) = [] →
                (t.tile v).spad.rdN o 8 = leBytes 8 w.toNat ∧ Sparse.get false (t.tile v).empty (o / 8) = false) ∧
    (∀ (v e : Nat) (req : Req) (tg : Target) (x : Nat),
      let j := s.jr v e
      j.state = .retrying → j.again ≤ s.now → s.now % 48 = 0 → s.behind v j = false → j.req = some req → s.postTarget j.thread j.space j.addr = some (tg, x) →
      ∃ t k, exec (.mailboxResend v e) s = .next t ∧ t.jr v e = { j with state := .pending, tries := j.tries + 1 } ∧
        t.pkts = s.pkts ++ [k] ∧ k.req = req ∧ k.target = tg ∧ k.addr = x ∧ k.owner = .journal v e ∧ t.threads = s.threads)

/-- TID gives TINDEX, RANK and the gang size less one (R184). MIGR to the own tile does nothing, and to another it leaves, its earlier
operations done (R174, R175). EXIT leaves the slot without a thread, its monitors and streams gone (R180). SPAWN puts an instance of the
node into the package, or, for a node outside the window's range, only reports (R178, R131). FOLLOW traps on a tile that leads, waits for its
leader's instruction, fails with 0, or joins with 1 and goes on at the join address (R183).
Where the spec leaves a point open, this is the model's choice: log entries 18, 19 and 45. -/
def Obligations.Threads : Prop :=
  ∀ (d : Dst) (a : Reg) (b : Src) (off : BitVec 18) (s : State), s.me.ready → d.plain = true → b.plain = true → s.me.redundant = false →
    let u := unitOf s.cur
    let r := s.me.arch
    let c := r.regs[a]
    Completes (.tid d) s ((r.put d (val64 (BitVec.ofNat 64 (s.me.gm1 * 2 ^ 36 + s.me.rank * 2 ^ 32 + s.me.tindex.toNat)))).past 8) ∧
    (let ea := (c.lo.toNat : Int) + off.toInt
     let i := Instr.migr a off
     capCheck c ea 1 permMIGR r.status.form (isSys u) = none →
       (c.space ≠ 1 → Traps i s Cause.capPerm (wordOf ea)) ∧
       (c.space = 1 → s.resolveTile s.cur ((wordOf ea).toNat % 2 ^ 30) = none → Traps i s Cause.access (wordOf ea)) ∧
       (c.space = 1 → s.resolveTile s.cur ((wordOf ea).toNat % 2 ^ 30) = some u → Completes i s (r.past 8)) ∧
       (∀ v, c.space = 1 → s.resolveTile s.cur ((wordOf ea).toNat % 2 ^ 30) = some v → v ≠ u →
         if r.status.form = true then Traps i s Cause.timingDeviation (wordOf ea)
         else if s.drained s.cur = false then Waits i s .waitMem
         else ∃ t, Leaves i s t (.migrating v false) ∧ (∀ k, k ≠ s.cur → t.th k = s.th k) ∧ (t.tile u).spad = (s.tile u).spad)) ∧
    (∃ t, exec .exit s = .next t ∧ t.me.run = .vacant ∧ t.me.streams = Vector.replicate 4 none ∧ t.me.mons = Vector.replicate 4 none ∧
      t.me.pend = [] ∧ t.me.tcIssued = s.me.tcIssued ∧ (∀ m ∈ t.monRegs, m.thread ≠ s.cur) ∧ t.dram = s.dram ∧
      ∀ v, (t.tile v).spad = (s.tile v).spad) ∧
    (∀ x, s.inst s.me.inst = some x → s.fenced s.cur .sys = true → s.ownWrites s.cur = false →
      let node := ((s.me.srcVal b).lo.extractLsb' 0 12).toNat
      let rec' := s.record x.die (x.nbase + node)
      let l : Launch :=
        { win := x.win, die := x.die, part := x.part, pasid := x.pasid, nbase := x.nbase, ncount := x.ncount, node := node
          tag := (s.me.srcVal b).lo.extractLsb' 32 32, aux := (s.me.srcVal b).lo, patches := some [], sys := false }
      ∃ t, exec (.spawn b a 0) s = .next t ∧ t.me.arch = r.past 8 ∧
        (x.ncount ≤ node → t.insts = s.insts) ∧
        (node < x.ncount → s.launchStatus l rec' = none →
          ∃ y, t.insts = s.insts ++ [y] ∧ t.nextInst = s.nextInst + 1 ∧ y.id = s.nextInst ∧ y.node = node ∧ y.die = x.die ∧ y.win = x.win ∧
            y.pasid = x.pasid ∧ y.part = x.part ∧ y.tag = l.tag ∧ y.recw = rec' ∧ y.sheets = [])) ∧
    (let i := Instr.follow d off
     let join := r.pc + 4 * off.signExtend 64
     let lead := s.th (16 * leaderOf u + slotOf s.cur)
     let gone := lead.gone = true ∨ lead.inst ≠ s.me.inst
     (s.mayFollow s.cur = false → Traps i s Cause.access 0) ∧
     (s.mayFollow s.cur = true → gone → Completes i s ((r.put d (val64 0)).past 8)) ∧
     (s.mayFollow s.cur = true → ¬gone → ∀ j, lead.issue = { cyc := s.now, pc := join, insn := some j, trapped := false } → lead.cls = .issued →
       ∃ t, exec i s = .next t ∧ t.agenda = j :: s.agenda ∧
         t.me.arch = { r.put d (val64 1) with pc := join, status := { r.status with following := true } }) ∧
     (s.mayFollow s.cur = true → ¬gone → lead.issue.pc ≠ join → ∃ t, Leaves i s t (.joining join) ∧ s.OnlyMe t))

/-- BAR.GANG and BAR.FIELD wait for the thread's earlier operations, then arrive. When every member has arrived, each is released with the next
phase and a new barrier epoch; until then the thread waits. The released instruction writes the phase (R181, R182, R186).
Where the spec leaves a point open, this is the model's choice: log entry 16. -/
def Obligations.Barriers : Prop :=
  ∀ (d : Dst) (s : State), s.me.streams = Vector.replicate 4 none → d.plain = true → s.me.redundant = false →
    let x := s.me
    let bar (field : Bool) : Instr := if field then .barField d else .barGang d
    ∀ field : Bool,
      (∀ v : Word, x.held = { result := some (.data (val64 v)) } → Completes (bar field) s ((x.arch.put d (val64 v)).past 8)) ∧
      (x.held = {} → s.fenced s.cur (if field then .pkg else .tile) = false → Waits (bar field) s .waitMem) ∧
      (x.held = {} → s.fenced s.cur (if field then .pkg else .tile) = true →
        let here : State := (awake s).modMe fun x => { x with run := .barrier field, insn := some (bar field), cls := .issued }
        let members := if field then here.sheetMembers x.inst x.sheet x.ridx else here.gangMembers (unitOf x.home) x.inst x.sheet
        let gang := here.gangOf here.me
        let phase := (gang.map fun g => if field then g.fieldPhase else g.gangPhase).getD 0 + 1
        let from? := if field = true ∧ x.arch.status.form = true then fieldRelease s.now else s.now + 1
        ∃ t, exec (bar field) s = .next t ∧ t.me.arch = x.arch ∧ t.me.insn = some (bar field) ∧ t.dram = s.dram ∧
          (∀ u, (t.tile u).spad = (s.tile u).spad) ∧
          if ∀ e ∈ members, e.2.arrived field = true then
            ∀ e ∈ members, here.alive e.1 e.2.inst = true → (t.th e.1).run = .released phase from? ∧ (t.th e.1).arch = (here.th e.1).arch
          else t.me.run = .barrier field ∧ ∀ k, k ≠ s.cur → t.th k = s.th k)

/-! ### The matrix engine -/

/-- A matrix instruction whose units its context owns, whose rows may be accessed and whose engine has room puts its command into the engine's
queue, behind those that wait; the engine starts it at once when nothing waits, and nothing else of the tile changes. A source that comes by a
link or from the shadow buffers keeps its slot out of the rotation. ACST marks the words it will fill empty; MDRAIN takes the lowest free journal
entry (R236, R237, R244, R254 to R270).
Where the spec leaves a point open, this is the model's choice: log entries 20 and 21. -/
def Obligations.MatrixCommands : Prop :=
  ∀ (f : Fmt) (src : MSrc) (pat : Pat) (wide : Bool) (rows : Fin 16) (acc td ta tb n0 : Fin 256) (a b c : Reg) (z : RegZ) (mask : Option Reg)
    (off : BitVec 32) (s : State), s.me.held = {} → s.me.redundant = false → s.me.arch.acctag ≠ 0 →
    let u := unitOf s.cur
    let mx := (s.tile u).mx
    let st := s.me.arch.status
    let reg (r : Reg) : Val := s.me.arch.regs[r]
    let stride (n : Nat) (z : RegZ) : Nat :=
      match z with
      | .reg r => if (reg r).lo.extractLsb' 0 32 = 0 then n else ((reg r).lo.extractLsb' 0 32).toNat
      | .zero => n
    let eas (base : Reg) (o : Int) (step n : Nat) : List Int := (List.range n).map fun k => ((reg base).lo.toNat : Int) + o + (k * step : Nat)
    let unbound (l : List Reg) : Prop := ∀ r ∈ l, s.me.stream r.val = none
    let ofZ (z : RegZ) : List Reg := match z with | .reg r => [r] | .zero => []
    let ofM (m : Option Reg) : List Reg := match m with | some r => [r] | none => []
    let cmd (op : MxOp) : MxCmd := { op := op, thread := s.cur, epoch := s.me.epoch }
    let queued (t : State) (op : MxOp) : Prop :=
      (t.tile u).mx = { mx with queue := mx.queue ++ [cmd op] } ∧ (t.tile u).spad = (s.tile u).spad ∧
      t.agenda = (if mx.queue = [] then [.matrixCommandStart u] else []) ++ s.agenda ∧
      (∀ v, v ≠ u → (t.tile v).spad = (s.tile v).spad ∧ (t.tile v).mx = (s.tile v).mx) ∧ (∀ k, k ≠ s.cur → t.th k = s.th k)
    let goes (i : Instr) (op : MxOp) : Prop := ∃ t, exec i s = .next t ∧ queued t op ∧ t.me.arch = s.me.arch.past i.bytes
    let load (tr : Bool) : Prop :=
      let len := if tr then latchRows f * mxBytes f else 16 * mxBytes f
      let es := eas a off.toInt (stride len z) (if tr then 16 else latchRows f)
      unbound (a :: ofZ z) → s.unitsFine [256] → mxClass f ≠ none → s.rowsFine (reg a) permR len 16 es →
        goes (if tr then .mtrl f a z off else .mwld f a z off) (.load f tr (es.map Int.toNat) len)
    let maskOf (m : Option Reg) (k : Nat) : BitVec 16 := match m with | some r => (reg r).data.extractLsb' k 16 | none => 0xFFFF
    st.guest = false → s.qtHolds u = false → mx.busy = false → s.asyncFull s.cur = false →
    load false ∧ load true ∧
    (s.unitsFine ((List.range (n0.val + 1)).map (acc.val + ·)) → goes (.mzero n0 acc) (.zero acc.val (n0.val + 1))) ∧
    (∀ k : Fin 3, (isPair f = true → td.val % 2 = 0 ∧ ta.val % 2 = 0 ∧ (k.val ≠ 2 → tb.val % 2 = 0)) → unbound (ofZ z) →
      s.unitsFine (([td, ta] ++ if k = 2 then [] else [tb]).flatMap fun t => if isPair f then [t.val, t.val + 1] else [t.val]) →
        goes (match k with | 0 => .maccAdd f td ta tb | 1 => .maccSub f td ta tb | 2 => .maccScale f td ta z)
          (.macc f k.val td.val ta.val (if k = 2 then 0 else tb.val)
            (if k = 2 then (match z with | .reg r => (reg r).lo | .zero => 0) else 0))) ∧
    (unbound (a :: ofZ z) → s.unitsFine [acc.val] →
      let es := eas a off.toInt (stride 128 z) 16
      (s.rowsFine (reg a) permR 128 8 es → goes (.acld f a z acc off) (.acld f (es.map Int.toNat) acc.val)) ∧
      (unbound (ofM mask) → s.rowsFine (reg a) permW 128 8 es → stride 128 z % 8 = 0 → 128 ≤ stride 128 z →
        let i := Instr.acst f a z mask acc off
        let word (r j : Fin 16) : Nat := (es.toArray[r.val]!.toNat + 8 * j.val) / 8
        let chosen (r j : Fin 16) : Prop := (maskOf mask 0).getLsbD r = true ∧ (maskOf mask 16).getLsbD j = true
        (∀ r j, chosen r j → Sparse.get [] (s.tile u).feq (word r j) = []) →
          ∃ t, exec i s = .next t ∧ queued t (.acst f (es.map Int.toNat) acc.val (maskOf mask 0) (maskOf mask 16)) ∧
            t.me.arch = s.me.arch.past i.bytes ∧
            (∀ r j, chosen r j → Sparse.get false (t.tile u).empty (word r j) = true) ∧
            ∀ w, (∀ r j, chosen r j → w ≠ word r j) → Sparse.get false (t.tile u).empty w = Sparse.get false (s.tile u).empty w)) ∧
    (∀ e v, unbound (a :: b :: ofM mask) → s.unitsFine [acc.val] →
      capCheck (reg a) (reg a).lo.toNat 2048 permW st.form (isSys u) = none → (reg a).space = 1 → (reg a).lo.toNat % 64 = 0 →
      capCheck (reg b) (reg b).lo.toNat 8 permW st.form (isSys u) = none → (reg b).space = 1 → (reg b).lo.toNat % 8 = 0 →
      (reg b).lo.toNat / 2 ^ 20 = (reg a).lo.toNat / 2 ^ 20 → s.resolveTile s.cur ((reg a).lo.toNat % 2 ^ 30) = some v →
      reserveRule s.me (reg a) ((reg a).lo.toNat % 2 ^ 20) 2048 = none → reserveRule s.me (reg b) ((reg b).lo.toNat % 2 ^ 20) 8 = none →
      s.freeEntry u = some e →
        let i := Instr.mdrain f a b mask acc
        ∃ t, exec i s = .next t ∧ t.me.arch = s.me.arch.past i.bytes ∧
          queued t (.drain f (v * 2 ^ 20 + (reg a).lo.toNat % 2 ^ 20) ((reg b).lo.toNat % 2 ^ 20) acc.val (maskOf mask 0) (maskOf mask 16) e) ∧
          let j := t.jr u e
          j.state = .pending ∧ j.kind = 8 ∧ j.space = 1 ∧ j.addr = (reg a).lo ∧ j.thread = s.cur ∧ j.left = 33) ∧
    (∀ kind : Fin 4,
      let i : Instr :=
        match kind with
        | 0 => .mma f src wide rows acc
        | 1 => .mmas f src pat wide rows acc c
        | 2 => .mmam f src wide rows acc c
        | 3 => .mmar f src wide acc
      let p := if kind = 1 then some pat else none
      let m := if kind = 3 then 16 else rows.val + 1
      let len := mxRowBytes f p
      let n := m * len / 64
      ∀ (chunks : List (Nat × Nat)) (fw : Fmt) (ws : List Word),
        (kind = 1 ∨ kind = 2 → unbound [c]) →
        (srcCode src ≠ 3 → mx.pending = some (some fw) ∧ mulFmtOk f fw wide kind.val = true ∧ (isPair (accFmt fw wide) = true → acc.val % 2 = 0)) →
        s.unitsFine ([256, acc.val] ++ if srcCode src ≠ 3 ∧ isPair (accFmt fw wide) = true then [acc.val + 1] else []) →
        (match src with
         | .scratch base z o =>
           let es := eas base o.toInt (stride len z) m
           unbound (base :: ofZ z) ∧ s.rowsFine (reg base) permR len 64 es ∧ chunks = es.map fun ea => (ea.toNat, len)
         | .stream r =>
           ∃ g : Stream, s.me.stream r.val = some g ∧ g.write = false ∧ g.esz = 5 ∧ n ≤ g.left ∧
             let es := (List.range n).map fun k => ((List.range k).foldl (fun g _ => g.advance) g).next
             s.rowsFine g.cap permR 64 64 es ∧ chunks = es.map fun ea => (ea.toNat, 64)
         | .link l => s.neighbour u l ≠ none ∧ chunks = []
         | .shadow => chunks = []) →
        (kind = 3 → ∀ l, s.neighbour u l ≠ none) →
        (if kind = 1 then
           s.rowsFine (reg c) permR (8 * metaWords (mxGroup f) pat) 8 [((reg c).lo.toNat : Int)] ∧
           (∀ k, k < metaWords (mxGroup f) pat → Sparse.get false (s.tile u).empty ((reg c).lo.toNat / 8 + k) = false ∧
             Sparse.get [] (s.tile u).feq ((reg c).lo.toNat / 8 + k) = [] ∧ Sparse.get 0 (s.tile u).bad ((reg c).lo.toNat / 8 + k) = 0) ∧
           ws = ((List.range (metaWords (mxGroup f) pat)).map fun k => BitVec.ofNat 64 (leNat ((s.tile u).spad.rdN ((reg c).lo.toNat + 8 * k) 8))) ∧
           metaBad (mxGroup f) pat (metaIdx (mxGroup f) pat ws.toArray).toArray = none
         else True) →
        let mk (k : Nat) : BitVec 16 := if kind = 2 then (reg c).data.extractLsb' k 16 else 0xFFFF
        let x : MxMul :=
          { f := f, kind := kind.val, src := srcCode src, chunks := chunks, m := m, wide := wide, acc := acc.val, rmask := mk 0, cmask := mk 16,
            dmask := mk 32, idx := if kind = 1 then metaIdx (mxGroup f) pat ws.toArray else [], pat := p, link := srcLink src }
        if 2 ≤ srcCode src then ∃ t, Leaves i s t .matrix ∧ queued t (.mul x)
        else goes i (.mul x))

/-- The head of the matrix queue starts when nothing runs: it reads its operands then and occupies the engine for the cycles of its form. When
they are over its results stand together, and the next command may start: MZERO leaves zeros, MWLD and MTRL the latch, ACLD the cells of its
dwords, MACC the cells of its tiles, and a product of INT8 blocks the saturating sums; nothing else of the tile changes. A row of an ACST fills its words;
a finished rotation leaves the neighbours' blocks in the shadow buffers; a packet of a drain writes its selected dwords (R56, R232, R236
to R239, R246, R248, R259, R264 to R268).
Where the spec leaves a point open, this is the model's choice: log entries 20 and 21. -/
def Obligations.MatrixEvents : Prop :=
  ∀ (u : Nat) (s : State),
    let x := s.tile u
    let m := x.mx
    let cell (m : Matrix) (t i j : Nat) : BitVec 32 := Sparse.get 0 m.cells (256 * t + 16 * i + j)
    let bytes (l : List (Nat × Nat)) : List Byte := l.flatMap fun p => x.spad.rdN p.1 p.2
    let still (t : State) : Prop := (t.tile u).spad = x.spad ∧ (t.tile u).mx.owner = m.owner ∧ ∀ v, v ≠ u → t.tile v = s.tile v
    (∀ c cs, m.queue = c :: cs → c.start = none → (∀ y : MxMul, c.op = .mul y → y.src < 2 ∧ y.link = none) →
      (∀ p ∈ c.op.pieces, x.sound p.1 p.2) → m.cellErrors c.op = [] →
      let cycles : Nat :=
        match c.op with
        | .load f _ _ _ => if f = .f32 then 16 else 32
        | .mul y => y.m * max (mxRowCycles y.f y.pat) ((mxRowBytes y.f y.pat + 63) / 64)
        | .zero _ n => n
        | .macc f _ _ _ _ _ => if isPair f then 32 else 16
        | _ => 16
      let data : List Byte :=
        match c.op with
        | .load _ _ rows n => bytes (rows.map fun o => (o, n))
        | .mul y => bytes y.chunks
        | .acld _ rows _ => bytes (rows.map fun o => (o, 128))
        | _ => []
      ∃ t, exec (.matrixCommandStart u) s = .next t ∧ still t ∧ (t.tile u).mx.cells = m.cells ∧ t.threads = s.threads ∧
        (t.tile u).mx.queue = { c with start := some s.now, dur := cycles, data := data } :: cs) ∧
    (∀ c cs k, m.queue = c :: cs → c.start = none → (∀ y : MxMul, c.op = .mul y → y.src < 2 ∧ y.link = none) →
      (c.op.pieces.flatMap fun p => x.badWords p.1 p.2).head? = some k → unitOf c.thread = u → (s.th c.thread).redundant = false →
      s.alive c.thread ((x.gang.map (·.inst)).getD 0) = true →
        ∃ t, exec (.matrixCommandStart u) s = .next t ∧ still t ∧ (t.tile u).mx.queue = cs ∧ (t.tile u).mx.cells = m.cells ∧
          (t.tile u).mx.latch = m.latch ∧ (t.th c.thread).arch = (s.th c.thread).arch ∧
          { cause := Cause.access, taddr := BitVec.ofNat 64 (8 * k), cyc := s.now } ∈ (t.th c.thread).pend) ∧
    (∀ c cs b, m.queue = c :: cs → c.start = some b → b + c.dur ≤ s.now → (∀ y : MxMul, c.op = .mul y → y.src ≠ 2 ∧ y.link = none ∧ y.kind ≠ 3) →
      m.cellErrors c.op = [] →
      ∃ t, exec (.matrixCommandEnd u) s = .next t ∧ still t ∧ (t.tile u).mx.queue = cs ∧ t.threads = s.threads ∧
        let n := (t.tile u).mx
        (if cs = [] then t.agenda = s.agenda else t.agenda = .matrixCommandStart u :: s.agenda) ∧
        match c.op with
        | .zero first k =>
          n.latch = m.latch ∧ ∀ a i j : Nat, i < 16 → j < 16 → cell n a i j = if first ≤ a ∧ a < first + k then 0 else cell m a i j
        | .load f tr _ _ =>
          n.cells = m.cells ∧ n.fmt = f ∧ (tr = false → n.latch = some c.data) ∧
          (tr = true → ∃ l, n.latch = some l ∧ ∀ k j b : Nat, k < 16 * mxGroup f → j < 16 → b < mxBytes f →
            l[(16 * k + j) * mxBytes f + b]? = some ((c.data[(j * (16 * mxGroup f) + k) * mxBytes f + b]?).getD 0))
        | .acld f _ a =>
          n.latch = m.latch ∧ ∀ k i j : Nat, i < 16 → j < 16 → cell n k i j =
            if k = a then BitVec.ofNat 32 (cellOfDword f (leNat ((c.data.drop (128 * i + 8 * j)).take 8))) else cell m k i j
        | .macc f sub d a b v =>
          n.latch = m.latch ∧ (isPair f = false → ∀ k i j : Nat, i < 16 → j < 16 → cell n k i j =
            if k = d then BitVec.ofNat 32 (maccCode f sub (cell m a i j).toNat (if sub = 2 then v.toNat % 2 ^ f.width else (cell m b i j).toNat))
            else cell m k i j)
        | .mul y =>
          n.latch = m.latch ∧ n.fmt = m.fmt ∧
          (m.fmt = .i8 → y.f = .i8 → y.wide = false → y.pat = none → ∀ k i j : Nat, i < 16 → j < 16 →
            let act (q : Nat) : Int := (c.data.getD (128 * i + q) 0).toInt
            let wgt (q : Nat) : Int := ((m.latch.getD []).getD (16 * q + j) 0).toInt
            let group (p : Nat) : Int := ((List.range 8).map fun q => if y.dmask.getLsbD p then act (8 * p + q) * wgt (8 * p + q) else 0).sum
            let sum : Int := (List.range 16).foldl (fun z p => max (-2 ^ 31) (min (2 ^ 31 - 1) (z + group p))) (cell m k i j).toInt
            cell n k i j =
              if k = y.acc ∧ i < y.m ∧ y.rmask.getLsbD i ∧ y.cmask.getLsbD j then BitVec.ofInt 32 sum else cell m k i j)
        | .acst _ _ _ _ _ => n.cells = m.cells ∧ n.latch = m.latch
        | .drain _ dest wake _ _ _ k =>
          n.cells = m.cells ∧ n.latch = m.latch ∧
          if ((s.inst (s.jr u k).inst).map (·.form)).getD false = true then t.pkts.length = s.pkts.length + 33
          else t.pkts.length = s.pkts.length + 32 ∧
            t.jr u k = { s.jr u k with wake := some (dest / 2 ^ 20 * 2 ^ 20 + wake, c.epoch) }) ∧
    (∀ r f, m.fills.head? = some f → f.row = r → f.due.getD 0 ≤ s.now →
      (s.th f.thread).redundant = false → (∀ w ∈ f.words, w.1 % 8 = 0 ∧ Sparse.get [] x.feq (w.1 / 8) = []) →
      f.words.Pairwise (fun v w => v.1 ≠ w.1) →
      ∃ t, exec (.acstRowFill u r) s = .next t ∧ (t.tile u).mx.fills = m.fills.erase f ∧ (t.tile u).mx.cells = m.cells ∧
        (∀ w ∈ f.words, (t.tile u).spad.rdN w.1 8 = leBytes 8 w.2.toNat ∧ Sparse.get false (t.tile u).empty (w.1 / 8) = false) ∧
        (∀ a, (∀ w ∈ f.words, a < w.1 ∨ w.1 + 8 ≤ a) → (t.tile u).spad.rd a = x.spad.rd a)) ∧
    (∀ y ys n ns fk ks, m.rot.transfers = y :: ys → m.rot.actIn = n :: ns → m.rot.wgtIn = fk :: ks →
      y.actLeft = [] → y.wgtLeft = [] → y.actGot.length = n → y.wgtGot.length = fk.2 →
      ∃ t, exec (.mmarTransferEnd u) s = .next t ∧ (t.tile u).mx.cells = m.cells ∧ (t.tile u).mx.rot.transfers = ys ∧
        (t.tile u).mx.rot.shadow =
          if y.landed then m.rot.shadow
          else
            { act := y.actGot.flatMap fun v => leBytes 16 v.toNat, wgt := y.wgtGot.flatMap fun v => leBytes 16 v.toNat, fmt := fk.1, full := true }) ∧
    (∀ (p : Nat) (q : Packet) (bs : List Byte) (sel : List Bool), s.pkt p = some q → q.target = .tile u → q.req = .drain bs sel false false →
      s.canServe u q = true → s.portOpen u q.addr 64 q = true → bs.length = 64 → sel.length = 8 → q.addr % 64 = 0 →
      (∀ k, k < 8 → sel.getD k false = true → Sparse.get [] x.feq (q.addr / 8 + k) = []) →
      ∃ t, exec (.mdrainPacket p) s = .next t ∧ ((t.pkt p).map (·.answer)) = some .ack ∧
        (∀ k, k < 8 → Sparse.get false (t.tile u).empty (q.addr / 8 + k) =
          (!sel.getD k false && Sparse.get false x.empty (q.addr / 8 + k))) ∧
        ∀ a, (t.tile u).spad.rd a =
          if q.addr ≤ a ∧ a < q.addr + 64 ∧ sel.getD ((a - q.addr) / 8) false = true then bs.getD (a - q.addr) 0 else x.spad.rd a)

/-! ### The quadtree engine -/

/-- QMUL, QADD, QCONV, QFACT, QTRSM and QSOLVE with a block, a tree and a pool that pass their checks copy the block, mark its first dword empty
and put the command into the die's queue (R297 to R299). QSTAT asks the engine and waits for its answer: the running command of its hood, one
that is queued, or 0; in a FORM launch it traps (R309). QNODE asks for the leaf and the element, which the engine finds record by record,
dword by dword; it traps beyond the crown's dimension (R310). QPOOL asks the owning station once and returns the old pair (R311). The answer
completes the instruction. A command starts when no other runs, on a hood that is reached, or fills its completion word with the failure; its
leaf operations begin and commit until it closes, fails or parks; a park and an end write the hood and fill the completion word (R288, R289,
R300, R301).
Where the spec leaves a point open, this is the model's choice: log entries 24 and 26. -/
def Obligations.QuadtreeCommands : Prop :=
  ∀ (d a b c : Reg) (z : RegZ) (f : Fmt) (rm : Rm) (quarter : Fin 4) (s : State), s.me.streams = Vector.replicate 4 none → s.me.redundant = false →
    let x := s.me
    let u := unitOf s.cur
    let die := dieOf u
    let st := x.arch.status
    let reg (r : Reg) : Val := x.arch.regs[r]
    let q := s.qt.toList.getD (die % 4) {}
    let ea := (reg a).lo
    let o := ea.toNat % 2 ^ 20
    let cw (state op cause reason count : Nat) : Word :=
      BitVec.ofNat 64 (state * 2 ^ 56 + (0xC0 + op) * 2 ^ 48 + cause * 2 ^ 40 + reason * 2 ^ 32 + count)
    let asks (i : Instr) (req : Req) (tg : Target) (addr : Nat) : Prop :=
      ∃ t p, Leaves i s t .reply ∧ t.pkts = s.pkts ++ [p] ∧ p.req = req ∧ p.owner = .thread s.cur ∧ p.addr = addr ∧ p.target = tg ∧
        p.src = u ∧ p.part = s.partOf u ∧ p.pasid = s.pasidOf s.cur ∧ t.dram = s.dram ∧ (∀ v, (s.tile v).likewise (t.tile v)) ∧ t.qt = s.qt ∧
        ∀ k, k ≠ s.cur → t.th k = s.th k
    let gives (i : Instr) (v : Quad) : Prop := Completes i s ((x.arch.put (.reg d) (val128 v)).past 8)
    let told (i : Instr) (cause : Nat) (w : Word) : Prop :=
      ∃ t, exec i s = .next t ∧ t.me.arch.pc = x.arch.tvec.lo ∧ t.me.arch.tcause = BitVec.ofNat 64 (512 + cause) ∧ t.me.arch.taddr = w ∧
        t.me.arch.regs = x.arch.regs
    let answered (i : Instr) (p : Nat) (v : Answer) : Prop :=
      ∃ t r, exec i s = .next t ∧ t.pkt p = some r ∧ r.back = true ∧ r.answer = v ∧ t.qt = s.qt ∧ t.dram = s.dram ∧ t.tiles = s.tiles ∧
        t.threads = s.threads
    (∀ op : Fin 6, x.held = {} →
      let pool : Option Val := if op = 5 then (match z with | .reg r => some (reg r) | .zero => none) else some (reg c)
      let i : Instr :=
        match op with
        | 0 => .qmul a b c
        | 1 => .qadd a b c
        | 2 => .qconv f rm a b c
        | 3 => .qfact a b c
        | 4 => .qtrsm a b c
        | 5 => .qsolve a b z
      let p := (List.range 15).map fun k => BitVec.ofNat 64 (leNat ((s.tile u).spad.rdN (o + 8 + 8 * k) 8))
      blockCheck s (reg a) = none → qCapCheck s (reg b) pool = none → s.ownRead o 128 = false → (s.tile u).sound o 128 →
      badParams op.val pool.isNone p = false → s.localCheck (reg a) (o + 8) 120 true = none → s.localCheck (reg a) o 8 true = none →
      q.queue.length < 16 → s.asyncFull s.cur = false → Sparse.get [] (s.tile u).feq (o / 8) = [] →
        ∃ t, exec i s = .next t ∧ t.me.arch = x.arch.past 8 ∧ (t.tile u).spad = (s.tile u).spad ∧
          Sparse.get false (t.tile u).empty (o / 8) = true ∧ (∀ k, k ≠ s.cur → t.th k = s.th k) ∧ (∀ v, v ≠ u → t.tile v = s.tile v) ∧
          t.dram = s.dram ∧
          t.qt.toList.getD (die % 4) {} = { q with
            queue := q.queue ++ [
              { op := op.val, tile := u, thread := s.cur, inst := x.inst, sheet := x.sheet, block := o, params := p,
                fmt := if op = 2 then f else .f32, rm := if op = 2 then rm else .rne, tree := reg b, pool := pool, deadline := x.arch.deadline,
                late := decide (x.arch.deadline.toNat ≤ s.tstamp.toNat), part := s.partOf u, pasid := s.pasidOf s.cur, form := st.form,
                epoch := x.epoch }] }) ∧
    (capCheck (reg a) ea.toNat 8 permR st.form (isSys u) = none → (reg a).space = 2 → ea.toNat % 8 = 0 →
      (st.form = true → x.held = {} → Traps (.qstat d a) s Cause.timingDeviation ea) ∧
      (st.form = false → x.held = {} → asks (.qstat d a) .qstat (.station (24 * die)) ea.toNat) ∧
      (st.form = false → ∀ v, x.held = { result := some (.data v) } → gives (.qstat d a) v.data)) ∧
    (∀ p r n, s.pkt p = some r → r.req = .qstat → r.target = .station n → r.atStation s.now = true →
      let e := s.qt.toList.getD (dieOf r.src % 4) {}
      let mine (k : QtCmd) : Bool :=
        decide (k.part = r.part) && decide (k.pasid = r.pasid) && decide (k.params.getD 0 0 = BitVec.ofNat 64 r.addr)
      let out (v : Nat) : Prop := answered (.stationAccess p) p (.data (val128 (BitVec.ofNat 128 v)))
      (∀ k, e.running = some k → mine k = true →
        out (e.run.seq % 2 ^ 64 * 2 ^ 64 + 2 ^ 56 + (0xC0 + k.op) * 2 ^ 48 + (if k.op = 5 then e.run.iter else 0) % 2 ^ 32)) ∧
      (∀ n k, (∀ j, e.running = some j → mine j = false) → e.queue[n]? = some k → mine k = true → (∀ j ∈ e.queue.take n, mine j = false) →
        out (2 * 2 ^ 56 + (0xC0 + k.op) * 2 ^ 48 + (n + 1) * 2 ^ 40)) ∧
      ((∀ j, e.running = some j → mine j = false) → (∀ j ∈ e.queue, mine j = false) → out 0)) ∧
    ((st.form = true → x.held = {} → Traps (.qnode d a b) s Cause.timingDeviation ea) ∧
      (st.form = false → capCheck (reg a) ea.toNat 64 permR st.form (isSys u) = none → (reg a).space = 2 →
        (x.held = {} → asks (.qnode d a b)
          (.qnode { cap := reg a, i := ((reg b).lo.extractLsb' 0 32).toNat, j := ((reg b).lo.extractLsb' 32 32).toNat, node := ea })
          (.station (24 * die)) ea.toNat) ∧
        (∀ v, x.held = { result := some (.data v) } → gives (.qnode d a b) v.data) ∧
        (∀ k w, x.held = { result := some (.trapped k w) } → x.arch.entryWindow = false → told (.qnode d a b) k w))) ∧
    (∀ p r n w, s.pkt p = some r → r.req = .qnode w → r.target = .station n → r.atStation s.now = true →
      (∀ k ∈ s.pkts, k.thread = r.thread → r.id ≤ k.id) →
      let i := Instr.stationAccess p
      let may (a : Word) (n : Nat) : Option Nat := capCheck w.cap a.toNat n permR false r.sys
      let goes (v : QWalk) : Prop := ∃ t, exec i s = .next t ∧ t.pkt p = some { r with req := .qnode v } ∧ t.qt = s.qt ∧ t.dram = s.dram ∧
        t.tiles = s.tiles ∧ t.threads = s.threads
      let elem (w : QWalk) (v : Sys2Proof.Num) : Answer := .data (val128 (BitVec.ofNat 128 (v.arith .f64 .rne 0 * 2 ^ 64 + w.node.toNat)))
      (w.words.length < 8 → ∀ k, may w.node 64 = some k → answered i p (.trapped k w.node)) ∧
      (w.words.length < 8 → may w.node 64 = none → w.node.toNat % 64 ≠ 0 → answered i p (.trapped Cause.qshape w.node)) ∧
      (w.words.length < 8 → may w.node 64 = none → w.node.toNat % 64 = 0 → w.vals = [] →
        ∀ bs, s.globalRd r.part r.pasid ((w.node.toNat + 8 * w.words.length) % 2 ^ 57) 8 = .ok bs →
          let w' : QWalk := { w with words := w.words ++ [BitVec.ofNat 64 (leNat bs)] }
          let y := QNode.ofWords w'.words
          let lg := if w.lvl = 0 then y.lg else w.lg
          let fm := if w.lvl = 0 then y.fmt else w.fmt
          (w.words.length < 7 → goes w') ∧
          (w.words.length = 7 →
            (badRecord w'.words w.lvl lg fm false = true → answered i p (.trapped Cause.qshape w.node)) ∧
            (badRecord w'.words w.lvl lg fm false = false → w.lvl = 0 → 2 ^ y.lg ≤ w.i ∨ 2 ^ y.lg ≤ w.j →
              answered i p (.trapped Cause.access w.node)) ∧
            (badRecord w'.words w.lvl lg fm false = false → (w.lvl = 0 → w.i < 2 ^ y.lg ∧ w.j < 2 ^ y.lg) →
              let h := 2 ^ y.lg / 2
              (y.typ = 5 → goes { w with
                i := w.i % h, j := w.j % h, lvl := w.lvl + 1, lg := y.lg - 1, fmt := y.fmt, words := []
                node := y.kids.getD (2 * (if h ≤ w.i then 1 else 0) + (if h ≤ w.j then 1 else 0)) 0 }) ∧
              (y.typ = 0 ∨ (y.typ ≤ 2 ∧ w.i ≠ w.j) → answered i p (elem w (.zero false))) ∧
              (y.typ = 1 → w.i = w.j → answered i p (elem w (Fmt.f64.num y.scale.toNat))) ∧
              (y.typ = 4 → goes w')))) ∧
      (w.words.length = 8 → w.vals = [] → (QNode.ofWords w.words).typ = 4 →
        let y := QNode.ofWords w.words
        let at? := addBytes y.pay0 (w.i * y.stride + w.j * y.e)
        (∀ k, may at? y.e = some k → answered i p (.trapped k at?)) ∧
        (may at? y.e = none → ∀ bs, s.globalRd r.part r.pasid (at?.toNat % 2 ^ 57) y.e = .ok bs →
          answered i p (elem w ((Fmt.f64.num y.scale.toNat).mul (y.f.num (leNat bs))))))) ∧
    (∀ new : Bool,
      let pair := if new then some ((reg b).lo, (reg c).lo) else none
      let i : Instr := if new then .qpoolSet d a b c quarter else .qpoolRd d a quarter
      qpoolCheck s (reg a) pair = none →
      (∀ v, x.held = { result := some (.data v) } → gives i v.data) ∧
      (∀ k, x.held = { result := some (.refused k) } → x.arch.entryWindow = false →
        told i k (ea + BitVec.ofNat 64 (16 * quarter.val))) ∧
      (x.held = {} → ∃ t p, Leaves i s t .reply ∧ t.pkts = s.pkts ++ [p] ∧ p.req = .qpool pair ∧ p.owner = .thread s.cur ∧
        p.addr = (ea.toNat + 16 * quarter.val) % 2 ^ 57 ∧ p.target = .station (homeStation u p.addr) ∧ ∀ k, k ≠ s.cur → t.th k = s.th k)) ∧
    (∀ k : Fin 4,
      let e := s.qt[k]
      let plain (h : QtCmd) : Prop :=
        h.lead = false ∧ (s.th h.thread).redundant = false ∧ h.block % 8 = 0 ∧ Sparse.get [] (s.tile h.tile).feq (h.block / 8) = []
      let filled (h : QtCmd) (t : State) (v : Word) : Prop :=
        (t.tile h.tile).spad.rdN h.block 8 = leBytes 8 v.toNat ∧ Sparse.get false (t.tile h.tile).empty (h.block / 8) = false ∧
        t.qt[k].running = none
      (∀ h hs, e.running = none → e.queue = h :: hs →
        ∃ t, exec (.qtCommandStart k.val) s = .next t ∧ (t.qt[k]).queue = hs ∧
          let fails (cause : Nat) : Prop := (t.qt[k]).running = none ∧ t.dram = s.dram ∧ (plain h → filled h t (cw 4 h.op cause 0 0))
          match s.hoodReach h 8 with
          | .error cause => fails cause
          | .ok (off, bs) =>
            let state := leNat (bs.take 8) / 2 ^ 56 % 256
            (state = 1 ∨ 4 < state → fails Cause.qshape) ∧
            (state = 0 ∨ state = 3 ∨ state = 4 →
              let first := leBytes 8 (BitVec.ofNat 64 (2 ^ 56 + (0xC0 + h.op) * 2 ^ 48)).toNat
              (∀ err, s.globalWr h.part h.pasid off first = .error err → fails err.1) ∧
              (∀ s1, s.globalWr h.part h.pasid off first = .ok s1 → (t.qt[k]).running = some h ∧ t.tiles = s.tiles ∧ t.threads = s.threads ∧
                ((t.qt[k]).run.failed = none → (t.qt[k]).run.parked = none → (t.qt[k]).run.tasks = h.tasks ∧ (t.qt[k]).run.seq = 0)))) ∧
      (∀ h, e.running = some h → e.run.closed = false → e.run.failed = none → e.run.parked = none →
        ∃ t, exec (.qtLeafCommit k.val) s = .next t ∧ t.qt[k].running = some h ∧ t.qt[k].queue = e.queue ∧
          t = { s with dram := t.dram, hostMem := t.hostMem, foreign := t.foreign, monNotes := t.monNotes, qt := t.qt } ∧
          (∀ j, j ≠ k → t.qt[j] = s.qt[j]) ∧
          (e.next = none →
            (t.qt[k].run = e.run ∧ t.qt[k].next ≠ none) ∨
              (t.qt[k].next = none ∧ t.qt[k].run = { e.run with parked := t.qt[k].run.parked, failed := t.qt[k].run.failed } ∧
                (t.qt[k].run.parked ≠ none ∨ t.qt[k].run.failed ≠ none))) ∧
          (e.next = none → e.run.boundary = true → e.run.stops h s.tstamp = false → ∀ l r, t.qt[k].next = some (l, r) → r.tasks = [] →
            r.closed = true ∧ r.reason ≠ 0) ∧
          (e.next = none → e.run.boundary = true → e.run.stops h s.tstamp = true → h.op = 3 → ∀ l r, t.qt[k].next = some (l, r) →
            r.closed = true ∧ r.reason = 2) ∧
          (∀ l r, e.next = some (l, r) → t.qt[k].next = none ∧
            match s.qtWrite h l with
            | (none, s1) => t.qt[k].run = r ∧ t.dram = s1.dram
            | (some va, s1) => t.qt[k].run = { e.run with failed := some (Cause.access, va) } ∧ t.dram = s1.dram)) ∧
      (∀ h (bs : List Byte) (s1 : State), e.running = some h → plain h →
        let count := if h.op = 5 then e.run.iter % 2 ^ 32 else if h.op = 3 then e.run.piv % 2 ^ 32 else 0
        let done (t : State) (v : Word) : Prop := filled h t v ∧ t.qt[k].queue = e.queue
        (∀ cause va, e.run.parked = some (cause, va) → cause ≠ Cause.preempt → s.hoodWrite h e.run 2 cause 0 va = .ok (bs, s1) →
          ∃ t r, exec (.qtPark k.val cause va) s = .next t ∧ done t (cw 2 h.op cause 0 count) ∧ t.hoods = r ∧
            r.head? = some (bs, { e.run with parked := none }) ∧ t.dram = s1.dram) ∧
        (∀ va, e.run.parked = none → e.run.failed = none → e.run.closed = false → s.qtPreempted h = true →
          s.hoodWrite h e.run 2 Cause.preempt 0 va = .ok (bs, s1) →
          ∃ t, exec (.qtPark k.val Cause.preempt va) s = .next t ∧ t.qt[k].running = none ∧ t.qt[k].queue = e.queue ∧
            t.qt[k].saved = e.saved ++ [{ h with fromRestore := true }] ∧ t.tiles = s.tiles ∧ t.dram = s1.dram) ∧
        (e.run.failed = none → e.run.closed = true →
          let reason := if h.op = 3 ∨ h.op = 5 then e.run.reason else 0
          s.hoodWrite h e.run 3 0 reason 0 = .ok (bs, s1) →
            ∃ t, exec (.qtCommandEnd k.val) s = .next t ∧ done t (cw 3 h.op 0 reason count) ∧ t.dram = s1.dram) ∧
        (∀ cause va, e.run.failed = some (cause, va) → s.hoodWrite h e.run 4 cause 0 va = .ok (bs, s1) →
          ∃ t, exec (.qtCommandEnd k.val) s = .next t ∧ done t (cw 4 h.op cause 0 count) ∧ t.dram = s1.dram)))

/-! ### The copy and index engines -/

/-- DCOPY and DFILL put a command into the tile's copy queue once their descriptor and areas pass: their completion word and the words of a LOCAL
destination are marked empty at once; with a TILE destination the thread leaves until every block's mark is answered, and traps if one is
refused. IXWALK, IXGATH and IXSCAT do the same in the index queue, and enter the log of an open region; IXMARK and IXMARK.END open and close
it. DCANCEL cancels the command of a completion word and says whether it found one (R317, R318, R321, R324, R328, R329, R334).
Where the spec leaves a point open, this is the model's choice: log entries 13, 27 and 28. -/
def Obligations.EngineCommands : Prop :=
  ∀ (d : Dst) (a b c : Reg) (z : RegZ) (f : Fmt) (s : State), s.me.streams = Vector.replicate 4 none → s.me.redundant = false → d.plain = true →
    let x := s.me
    let u := unitOf s.cur
    let form := x.arch.status.form
    let reg (r : Reg) : Val := x.arch.regs[r]
    let blk := (reg c).lo
    let o := blk.toNat % 2 ^ 20
    let p := (List.range 13).map fun k => BitVec.ofNat 64 (leNat ((s.tile u).spad.rdN (o + 8 + 8 * k) 8))
    let readable : Prop :=
      blockCheck s (reg c) = none ∧ s.ownRead (o + 8) 104 = false ∧ (s.tile u).sound (o + 8) 104 ∧ s.localCheck (reg c) (o + 8) 104 true = none
    let marked (t : State) (ws : List Nat) : Prop :=
      (∀ w ∈ ws.take 8, Sparse.get false (t.tile u).empty (w / 8) = true) ∧
      (∀ k, (∀ w ∈ ws.take 8, w / 8 ≠ k) → Sparse.get false (t.tile u).empty k = Sparse.get false (s.tile u).empty k) ∧
      t.me.toMark = ws.drop 8 ∧ t.me.markUntil = s.now + (ws.length + 7) / 8 - 1
    let still (t : State) : Prop :=
      (t.tile u).spad = (s.tile u).spad ∧ t.dram = s.dram ∧ (∀ k, k ≠ s.cur → t.th k = s.th k) ∧ ∀ v, v ≠ u → t.tile v = s.tile v
    let free (ws : List Nat) : Prop := ∀ w ∈ ws, Sparse.get [] (s.tile u).feq (w / 8) = [] ∧ (s.tile u).heldPage w = false
    (∀ fill : Bool,
      let i : Instr := if fill then .dfill a z c else .dcopy a b c
      let src : Val := if fill then (match z with | .reg r => reg r | .zero => {}) else reg b
      let esz := eszBytes (descEsz p)
      let counts := (descDims p false).map dimCount
      let sstr := (descDims p false).map dimStride
      let dstr := (descDims p true).map dimStride
      let cmd : CopyCmd :=
        { thread := s.cur, inst := x.inst, epoch := x.epoch, part := s.partOf u, pasid := s.pasidOf s.cur, form := form, fill := fill,
          dst := reg a, src := src, cw := o, z := esz, counts := counts, sstr := sstr, dstr := dstr, total := descTotal p }
      let ws := cmd.localMarks
      let cmd : CopyCmd := { cmd with ready := s.now + (ws.length + 7) / 8 }
      (readable → x.held = {} → badDesc p fill = true → Traps i s Cause.access blk) ∧
      (readable → x.held = {} → badDesc p fill = false → (fill = false → areaCheck s src esz counts sstr permR = none) →
        areaCheck s (reg a) esz counts dstr permW = none → ((s.tile u).copies.filter fun k => !k.started).length < 8 → s.asyncFull s.cur = false →
        free ws →
          ((reg a).space ≠ 1 → ∃ t, exec i s = .next t ∧ t.me.arch = x.arch.past i.bytes ∧ still t ∧ marked t ws ∧
            (t.tile u).copies = (s.tile u).copies ++ [{ cmd with no := s.nextCmd }]) ∧
          ((reg a).space = 1 → cmd.allWords ≠ [] → (∀ w ∈ cmd.allWords, s.resolveTile s.cur (64 * (w / 64)) ≠ none) →
            ∃ t, Leaves i s t .reply ∧ still t ∧ marked t ws ∧ t.me.held.copy = some cmd ∧ (t.tile u).copies = (s.tile u).copies)) ∧
      (∀ k : CopyCmd, x.held.copy = some k → x.held.links = [] → x.held.place = none →
        (∀ w, x.held.badMark = some w → ∃ t, exec i s = .next t ∧ still t ∧ (t.tile u).copies = (s.tile u).copies ∧
          (x.arch.entryWindow = false → t.me.arch.tcause = BitVec.ofNat 64 (i.bytes / 4 * 256 + Cause.remoteRefused) ∧ t.me.arch.taddr = w)) ∧
        (x.held.badMark = none → ∃ t, exec i s = .next t ∧ t.me.arch = x.arch.past i.bytes ∧ still t ∧
          (t.tile u).copies = (s.tile u).copies ++ [{ k with no := s.nextCmd, ready := max k.ready (s.now + 1) }]))) ∧
    (∀ op : Fin 4, x.held = {} →
      let i : Instr :=
        match op with
        | 0 => .ixwalk a c
        | 1 => .ixgath a c
        | 2 => .ixscat a c
        | 3 => .ixscatAdd f a c
      let fxy := x.fieldxy
      let cmd : IxCmd :=
        { op := op.val, fmt := if op = 3 then f else .i32, thread := s.cur, inst := x.inst, epoch := x.epoch, part := s.partOf u
          pasid := s.pasidOf s.cur, tidx := (fxy.extractLsb' 16 16).toNat
          tcount := max 1 ((fxy.extractLsb' 40 8).toNat * (fxy.extractLsb' 32 8).toNat), cap := reg a, cw := o, params := p
          priv := decide (x.arch.status.mode ≠ 0) }
      let ws := cmd.marks.eraseDups
      (form = true → Traps i s Cause.timingDeviation blk) ∧
      (form = false → readable → badBlock (reg c) cmd = true → Traps i s Cause.access blk) ∧
      (form = false → readable → badBlock (reg c) cmd = false → op = 3 → x.region.isOpen = true → Traps i s Cause.ixScatterAdd blk) ∧
      (form = false → readable → badBlock (reg c) cmd = false → (x.region.isOpen = true → op ≠ 3 ∧ x.region.log.length < 16) →
        ((s.tile u).indexes.filter fun k => !k.started).length < 8 → s.asyncFull s.cur = false → free ws →
          let k : IxCmd := { cmd with ready := s.now + (ws.length + 7) / 8, no := s.nextCmd }
          ∃ t, exec i s = .next t ∧ t.me.arch = x.arch.past i.bytes ∧ still t ∧ marked t ws ∧ (t.tile u).indexes = (s.tile u).indexes ++ [k] ∧
            t.me.region = if x.region.isOpen then { x.region with log := x.region.log ++ [k] } else x.region)) ∧
    (∀ on : Bool, x.held = {} →
      let i : Instr := if on then .ixmark else .ixmarkEnd
      (form = true → Traps i s Cause.timingDeviation 0) ∧
      (form = false → ∃ t, exec i s = .next t ∧ s.OnlyMe t ∧ t.me.arch = x.arch.past i.bytes ∧ t.me.region = { isOpen := on, log := [] })) ∧
    (x.held = {} → capCheck (reg a) (reg a).lo.toNat 8 permW form (isSys u) = none → (reg a).space = 0 → (reg a).lo.toNat % 64 = 0 →
      let mine (k : CopyCmd) : Bool := decide (k.cw = (reg a).lo.toNat % 2 ^ 20) && k.fillAt.isNone && !(k.cancelled || k.failed.isSome)
      ((∀ k ∈ (s.tile u).copies, mine k = false) → Completes (.dcancel d a) s ((x.arch.put d (val64 0)).past 8)) ∧
      (∀ k, (s.tile u).copies.find? mine = some k → ∃ t, exec (.dcancel d a) s = .next t ∧ t.me.arch = (x.arch.put d (val64 1)).past 8 ∧ still t ∧
        ∃ k' ∈ (t.tile u).copies, k' = { k with cancelled := true, fillAt := k'.fillAt }))

/-- A copy command starts behind those that have issued all; each cycle an element is issued, read and in its time written, and its words
filled. With the last one landed, RES0, FAULTVA and then the completion word are written. An index command starts when the one before has
ended; index words are taken as they fill; rows are gathered, scattered or added in ascending order, dword by dword; a walk writes a record for
its entry, and at its end sentinels into what it leaves. A refused empty-mark is kept, and the last answer takes the thread up again (R316 to R318, R321 to R325, R329 to R333).
Where the spec leaves a point open, this is the model's choice: log entries 13, 27 and 28. -/
def Obligations.EngineEvents : Prop :=
  ∀ (u : Nat) (s : State),
    let x := s.tile u
    let filled (t : State) (off : Nat) (v : Word) : Prop :=
      (t.tile u).spad.rdN off 8 = leBytes 8 v.toNat ∧ Sparse.get false (t.tile u).empty (off / 8) = false
    let clear (ws : List Nat) : Prop := ∀ w ∈ ws, Sparse.get [] x.feq (w / 8) = []
    let outside (t : State) (off n : Nat) : Prop := ∀ k, k < off ∨ off + n ≤ k → (t.tile u).spad.rd k = x.spad.rd k
    (∀ n p k, s.pkt n = some p → p.owner = .marks k → p.src = u → s.lands p = true →
      let bad : Option Word :=
        match p.answer, p.target with
        | .refused _, .tile v =>
          some ((s.th k).held.badMark.getD (BitVec.ofNat 64 ((s.partn p.part).tileId v * 2 ^ 20 + p.addr)))
        | .refused _, .station _ => some ((s.th k).held.badMark.getD 0)
        | _, _ => (s.th k).held.badMark
      ∃ t, exec (.emptyMarkAck u n) s = .next t ∧ t.tiles = s.tiles ∧ (t.th k).held.badMark = bad ∧ (∀ q ∈ t.pkts, q.id ≠ n) ∧
        (∀ i, (∀ q ∈ s.pkts, q.id ≠ n → q.owner ≠ .marks k) → (s.th k).insn = some i →
          t.cur = k ∧ t.agenda = i :: s.agenda ∧ (t.th k).run = .running ∧ (t.th k).held.result = some .ack)) ∧
    (∀ k, x.nextCopy s.now = some k → x.saving = none →
      ∃ t, exec (.copyCommandStart u) s = .next t ∧ (t.tile u).spad = x.spad ∧
        (t.tile u).copies = x.copies.map fun j => if j.no = k.no then { j with started := true } else j) ∧
    (∀ k, x.issuing s.now = some k →
      let e : CopyElt := { n := s.nextCmd + 1, no := k.no, k := k.issued, issue := s.now }
      ∃ t, exec (.copyElementIssue u) s = .next t ∧ t.nextCmd = s.nextCmd + 1 ∧
        (k.dst.space = 0 →
          k.fill = true ∨ (k.src.space = 0 ∧ x.heldAny (k.srcOff k.issued) k.z = false ∧ x.sound (k.srcOff k.issued) k.z) →
          (∃ k' ∈ (t.tile u).copies, k' = { k with issued := k.issued + 1 }) ∧ (t.tile u).spad = x.spad ∧
          { e with
            bytes := if k.fill then k.fillBytes else x.spad.rdN (k.srcOff k.issued) k.z
            ready := true, due := s.now + if k.form then 12 else 1 } ∈ (t.tile u).copyElts) ∧
        (∀ v, k.fill = false → k.src.space = 1 → s.resolveTile k.thread (k.srcOff k.issued) = some v →
          ∃ q, t.pkts = s.pkts ++ [q] ∧ q.req = .engRead k.z ∧ q.target = .tile v ∧ q.addr = k.srcOff k.issued % 2 ^ 20 ∧
            q.owner = .copy u (s.nextCmd + 1) ∧ { e with due := s.now } ∈ (t.tile u).copyElts)) ∧
    (∀ (n : Nat) (e : CopyElt) (k : CopyCmd), n ≠ 0 → (x.copyElts.find? fun e => e.n = n) = some e → x.copyCmd e.no = some k → e.ready = true →
      e.sent = false → x.copyOrder k e = true → e.due ≤ s.now → k.lead = false → (s.th k.thread).redundant = false →
      (k.dst.space = 0 → x.heldAny (k.dstOff e.k) k.z = false → e.bytes.length = k.z → clear (k.words e.k) →
        ∃ t, exec (.copyElementLands u n) s = .next t ∧ (t.tile u).spad.rdN (k.dstOff e.k) k.z = e.bytes ∧ outside t (k.dstOff e.k) k.z ∧
          (∀ j ∈ (t.tile u).copyElts, j.n ≠ n) ∧
          ((∀ j ∈ x.copyElts, j.no = k.no → j.k = e.k) → k.total ≤ k.issued → k.missed = [] →
            ∀ w ∈ k.words e.k, Sparse.get false (t.tile u).empty (w / 8) = false)) ∧
      (∀ v, k.dst.space = 1 → s.resolveTile k.thread (k.dstOff e.k) = some v →
        ∃ t q, exec (.copyElementLands u n) s = .next t ∧ t.pkts = s.pkts ++ [q] ∧ q.target = .tile v ∧ q.addr = k.dstOff e.k % 2 ^ 20 ∧
          (∃ ws, q.req = .engWrite e.bytes ws false) ∧ (t.tile u).spad = x.spad)) ∧
    (∀ k, (x.copies.find? fun k => match k.fillAt with | some f => decide (f ≤ s.now) | none => false) = some k → k.lead = false →
      (s.th k.thread).redundant = false → k.cw % 64 = 0 → clear [k.cw] →
      let state := if k.failed.isSome then 4 else if k.cancelled then 5 else 3
      let va : Word := (k.failed.map (·.2)).getD 0
      ∃ t, exec (.copyElementLands u 0) s = .next t ∧ (t.tile u).copies = x.copies.filter (fun j => j.no ≠ k.no) ∧
        filled t k.cw (BitVec.ofNat 64 (state * 2 ^ 56 + (if k.fill then 0xD1 else 0xD0) * 2 ^ 48 + (k.failed.map (·.1)).getD 0 * 2 ^ 40
          + k.landed % 2 ^ 32)) ∧
        (t.tile u).spad.rdN (k.cw + 0x70) 16 = leBytes 8 k.landed ++ leBytes 8 va.toNat) ∧
    (∀ k, x.nextIx s.now = some k → k.op ≠ 0 ∨ k.flag = false → k.failed = none →
      ∃ t, exec (.indexCommandStart u) s = .next t ∧ ∃ k' ∈ (t.tile u).indexes, k'.no = k.no ∧ k'.started = true ∧
        (k.op ≠ 0 ∨ k'.lo < k'.hi → (t.tile u).spad = x.spad) ∧ (k'.closed = true → k.endAt = 0 → k'.endAt = s.now + 1) ∧
        (k.op = 0 → k'.lo = k.tidx * k.count / k.tcount ∧ k'.hi = (k.tidx + 1) * k.count / k.tcount ∧ k'.cursor = k'.lo ∧
          (k'.closed = true ↔ k'.hi ≤ k'.lo)) ∧
        (k.op ≠ 0 → k'.cursor = k.cursor ∧ (k'.closed = true ↔ k.closed = true ∨ (k.work = [] ∧ k.count ≤ k.cursor)))) ∧
    (∀ k, x.ixRunning = some k → k.closed = false →
      let off := k.idx + k.istr * k.cursor
      let w := leNat (x.spad.rdN (off / 8 * 8) 8)
      (k.op ≠ 0 → k.cursor < k.count → Sparse.get false x.empty (off / 8) = false → x.sound off 8 →
        ∃ t, exec (.indexWordFilled u) s = .next t ∧ (t.tile u).spad = x.spad ∧
          { k with
            cursor := k.cursor + 1
            work := k.work ++ [(k.cursor, if k.flag then w / 2 ^ 32 else w % 2 ^ 32)] } ∈ (t.tile u).indexes) ∧
      (∀ j i rest (d : Nat), k.work = (j, i) :: rest → k.op ≠ 0 → d < 512 → 8 * d < k.len → d ∉ k.moved → k.lead = false →
        (s.th k.thread).redundant = false → k.failed = none → k.endAt = 0 →
        let after : IxCmd :=
          if 8 * (k.moved.length + 1) < k.len then { k with moved := d :: k.moved }
          else
            let shut := rest.isEmpty && decide (k.count ≤ k.cursor)
            { k with done := k.done + 1, work := rest, moved := [], closed := shut, endAt := if shut then s.now + 1 else 0 }
        let i' := Instr.indexRowLands u (512 * j + d)
        let ea : Int := ((k.base + i * k.bstr : Nat) : Int)
        let near := k.near + k.nstr * j + 8 * d
        (∀ p bs, k.op = 1 → s.ixRow k u ea permR = .ok p → s.ixRead k (ea + 8 * d) 8 (p.dword d) = .ok bs → bs.length = 8 → clear [near] →
          ∃ t, exec i' s = .next t ∧ (t.tile u).spad.rdN near 8 = bs ∧ outside t near 8 ∧
            Sparse.get false (t.tile u).empty (near / 8) = false ∧ after ∈ (t.tile u).indexes) ∧
        (∀ err, k.op = 1 → s.ixRow k u ea permR = .error err →
          ∃ t, exec i' s = .next t ∧ ∃ k' ∈ (t.tile u).indexes, k'.no = k.no ∧ k'.closed = true ∧ k'.failed = some err) ∧
        (∀ v off, k.op = 2 → s.ixRow k u ea permW = .ok (.tile v off) → x.sound near 8 →
          ∃ t, exec i' s = .next t ∧ (t.tile v).spad.rdN (off + 8 * d) 8 = x.spad.rdN near 8 ∧
            (∀ o, o < off + 8 * d ∨ off + 8 * d + 8 ≤ o → (t.tile v).spad.rd o = (s.tile v).spad.rd o) ∧ after ∈ (t.tile u).indexes) ∧
        (∀ v off, k.op = 3 → k.fmt = .i64 → s.ixRow k u ea (permR ||| permW) = .ok (.tile v off) → x.sound near 8 →
          (s.tile v).sound (off + 8 * d) 8 → s.ixBusy k (.tile v (off + 8 * d)) 8 = false →
          ∃ t, exec i' s = .next t ∧
            leNat ((t.tile v).spad.rdN (off + 8 * d) 8) =
              (leNat ((s.tile v).spad.rdN (off + 8 * d) 8) + leNat (x.spad.rdN near 8)) % 2 ^ 64 ∧
            (∀ o, o < off + 8 * d ∨ off + 8 * d + 8 ≤ o → (t.tile v).spad.rd o = (s.tile v).spad.rd o) ∧ after ∈ (t.tile u).indexes))) ∧
    (∀ k r q, x.ixRunning = some k → k.closed = false → k.op = 0 → k.flag = false → k.lead = false → (s.th k.thread).redundant = false →
      k.failed = none → k.endAt = 0 →
      s.ixWord k u (k.par 0x18 + 4 * k.cursor) = .ok r → s.ixWord k u (k.par 0x20 + 4 * k.cursor) = .ok q → k.last = some r →
      k.cursor - k.lo ≠ k.room → clear [k.out + 16 * k.done, k.out + 16 * k.done + 8] → k.out % 16 = 0 →
      let after : IxCmd :=
        { k with
          done := k.done + 1, last := some r, cursor := k.cursor + 1, closed := decide (k.hi ≤ k.cursor + 1)
          endAt := if k.hi ≤ k.cursor + 1 then s.now + 1 else 0 }
      let written (t : State) : Prop :=
        filled t (k.out + 16 * k.done) (BitVec.ofNat 64 (q * 2 ^ 32 + r)) ∧
        filled t (k.out + 16 * k.done + 8) (BitVec.ofNat 64 ((k.q - 1) * 2 ^ 32 + k.cursor)) ∧ after ∈ (t.tile u).indexes
      let i := Instr.indexRowLands u k.cursor
      (k.cursor + 1 < k.hi → ∃ t, exec i s = .next t ∧ written t) ∧
      (k.hi ≤ k.cursor + 1 → k.rows % 8 = 0 → k.out + 16 * k.room ≤ k.rows ∨ k.rows + 8 * k.room ≤ k.out → k.done < k.room →
        clear after.unfilled → ∃ t, exec i s = .next t ∧ written t ∧ ∀ o ∈ after.unfilled, filled t o (BitVec.allOnes 64))) ∧
    (∀ k, x.ixRunning = some k → k.closed = true → k.lead = false → (s.th k.thread).redundant = false → k.cw % 64 = 0 → clear [k.cw] →
      (s.now < k.endAt → ∃ t, exec (.indexCommandEnd u) s = .next t ∧ t.tile u = x) ∧
      (k.endAt ≤ s.now →
        let state := if k.failed.isSome ∨ k.reason ≠ 0 then 4 else 3
        let va : Word := (k.failed.map (·.2)).getD 0
        ∃ t, exec (.indexCommandEnd u) s = .next t ∧ (t.tile u).indexes = x.indexes.filter (fun j => j.no ≠ k.no) ∧
          filled t k.cw (BitVec.ofNat 64 (state * 2 ^ 56 + (0xD8 + min k.op 2) * 2 ^ 48 + (k.failed.map (·.1)).getD 0 * 2 ^ 40
            + k.reason * 2 ^ 32 + k.done)) ∧
          (t.tile u).spad.rdN (k.cw + 0x70) 16 = leBytes 8 (if k.op = 0 then k.q else k.done) ++ leBytes 8 va.toNat))

/-! ### The felting array -/

/-- A felting instruction with good masks, ranges, values and areas sends its command to the array and marks its completion word, and the words
FAREAD writes, empty, eight in a cycle; in a FORM launch it traps. The array accepts the commands of a tile in order, starts one 16 cycles
after its conflicts are clear, and at its end makes its effect: FABETA and FASEED set the banks' registers, FATABLE switches the tables, and a
seeded sweep redraws each free cell of its colour from its field, BETA, the table and the hash. A sweep that meets an error of a cell fails. The
completion word is filled, after a sweep 4 cycles later (R343, R344, R348 to R350, R352 to R354).
Where the spec leaves a point open, this is the model's choice: log entries 7, 29 and 47. -/
def Obligations.FeltingCommands : Prop :=
  ∀ (a b c : Reg) (z : RegZ) (cnt : Bool) (k : Fin 16) (s : State), s.me.ready → s.me.redundant = false →
    let x := s.me
    let u := unitOf s.cur
    let die := dieOf u
    let form := x.arch.status.form
    let reg (r : Reg) : Val := x.arch.regs[r]
    let part := s.partOf u
    let map := s.faMap die part
    let nb := map.length
    (∀ m : Fin 9,
      let i : Instr :=
        match m with
        | 0 => .faload a b c
        | 1 => .fatable a b c
        | 2 => .faclamp a b c
        | 3 => .fasweep a b c cnt k
        | 4 => .fareadState a b c
        | 5 => .fareadCount a b c
        | 6 => .fabeta z b
        | 7 => .faseedSeeded z b
        | 8 => .faseedEntropy z b
      let short : Bool := decide (6 ≤ m.val)
      let op := if m = 5 then 4 else if m = 6 then 5 else if 7 ≤ m.val then 6 else m.val
      let f := decide (m = 5 ∨ m = 8)
      let va : Val := if short then (match z with | .reg r => reg r | .zero => {}) else reg a
      let vb := (reg b).lo
      let num := (vb.extractLsb' 32 18).toNat
      let first := (vb.extractLsb' 0 17).toNat
      let mask : Bool := decide (op = 1 ∨ op = 3 ∨ op = 5 ∨ op = 6)
      let bad : Bool :=
        if mask then decide (vb.extractLsb' 16 48 ≠ 0 ∨ vb.extractLsb' 0 16 = 0 ∨ 2 ^ nb ≤ (vb.extractLsb' 0 16).toNat)
        else decide (vb.extractLsb' 50 14 ≠ 0 ∨ vb.extractLsb' 17 15 ≠ 0 ∨ num = 0 ∨ 131072 < num ∨ 8192 * nb < first + num)
      let badV : Bool :=
        if op = 3 then decide (va.lo.extractLsb' 32 32 ≠ 0 ∨ va.lo.extractLsb' 0 32 = 0)
        else if op = 5 then decide (va.lo.extractLsb' 16 48 ≠ 0) else false
      let cmd : FaCmd :=
        { op := op, f := f, tile := u, thread := s.cur, inst := x.inst, epoch := x.epoch, part := part, pasid := s.pasidOf s.cur, map := map
          banks := if mask then (List.range 16).filter fun n => vb.getLsbD n else touched 8192 first num
          first := first, num := num, arg := va.lo, k := if m = 3 then k.val + 1 else 1, cnt := decide (m = 3) && cnt, area := va
          cw := if short then none else some ((reg c).lo.toNat % 2 ^ 20) }
      let ws := cmd.marks.eraseDups
      (form = true → Traps i s Cause.timingDeviation 0) ∧
      (form = false → bad = true → Traps i s Cause.faConfig vb) ∧
      (form = false → bad = false → badV = true → Traps i s Cause.faConfig va.lo) ∧
      (form = false → bad = false → badV = false → (short = false → faCwCheck s (reg c) = none) →
        (op ∈ [0, 1, 2, 4] → faAreaCheck s op va (faSize op f num) = none) → s.faPending die u < 8 → s.asyncFull s.cur = false →
        (∀ w ∈ ws, Sparse.get [] (s.tile u).feq (w / 8) = [] ∧ (s.tile u).heldPage w = false) →
          ∃ t, exec i s = .next t ∧ t.me.arch = x.arch.past i.bytes ∧ (t.tile u).spad = (s.tile u).spad ∧ t.dram = s.dram ∧
            (∀ n, n ≠ s.cur → t.th n = s.th n) ∧ (∀ v, v ≠ u → t.tile v = s.tile v) ∧
            (∀ w ∈ ws.take 8, Sparse.get false (t.tile u).empty (w / 8) = true) ∧
            (∀ n, (∀ w ∈ ws.take 8, w / 8 ≠ n) → Sparse.get false (t.tile u).empty n = Sparse.get false (s.tile u).empty n) ∧
            t.me.toMark = ws.drop 8 ∧ t.me.markUntil = s.now + (ws.length + 7) / 8 - 1 ∧
            t.fa.toList.getD (die % 4) {} =
              { s.fa.toList.getD (die % 4) {} with queue := (s.fa.toList.getD (die % 4) {}).queue ++ [cmd] })) ∧
    (∀ (d : Fin 4),
      let y := s.fa[d]
      (∀ h hs, y.queue = h :: hs → (∀ g ∈ hs, g.tile = h.tile) →
        ∃ t, exec (.faCommandAccept d.val) s = .next t ∧ (t.fa[d]).queue = hs ∧ (t.fa[d]).next = y.next + 1 ∧ t.tiles = s.tiles ∧
          (t.fa[d]).banks = y.banks ∧ (t.fa[d]).cells = y.cells ∧
          ∃ g, (y.next, g) ∈ (t.fa[d]).running ∧ g = { h with tabs := g.tabs, gens := g.gens, reads := g.reads, clear := g.clear } ∧
            (y.running = [] → h.op = 1 → h.clear = none → h.ended = false → g.clear = some s.now ∧
              g.tabs = h.banks.map fun n => !(y.bank (h.map.getD n 16)).active) ∧
            (y.running = [] → h.op = 3 → g.tabs = (h.banks.map fun n => (y.bank (h.map.getD n 16)).active) ∧
              g.gens = h.banks.map fun n => (y.bank (h.map.getD n 16)).gen)) ∧
      (∀ n h, y.cmd n = some h → h.startable s.now = true →
        ∃ t g, exec (.faCommandStart d.val n) s = .next t ∧ (t.fa[d]).cmd n = some g ∧ g.start = some s.now ∧
          ((s.tile h.tile).bad = [] → t.tiles = s.tiles) ∧ (t.fa[d]).banks = y.banks ∧
          (h.op = 5 ∨ h.op = 6 → g = { h with start := some s.now, good := h.num }) ∧
          (h.op = 3 → h.redundant = false →
            g =
              if ∃ e ∈ y.cellErrors h, e.2 ≠ 1 then { h with start := some s.now, good := 0, failed := some (Cause.access, 0) }
              else { h with start := some s.now, good := (h.arg.extractLsb' 0 32).toNat })) ∧
      (∀ n h b, y.cmd n = some h → h.start = some b → h.held = false → h.ended = false → h.failed = none → h.lead = false →
        (s.th h.thread).redundant = false →
        let done (t : State) : Prop := ∀ g, (t.fa[d]).cmd n = some g → g.ended = true
        (h.op = 5 → b + 1 ≤ s.now → h.cw = none →
          ∃ t, exec (.faCommandEnd d.val n) s = .next t ∧ t.tiles = s.tiles ∧ (t.fa[d]).cells = y.cells ∧
            ∀ p, (t.fa[d]).bank p =
              if p < 16 ∧ ∃ l ∈ h.banks, h.map.getD l 16 = p then { y.bank p with beta := h.arg.extractLsb' 0 16 } else y.bank p) ∧
        (h.op = 6 → b + 1 ≤ s.now → h.cw = none →
          ∃ t, exec (.faCommandEnd d.val n) s = .next t ∧ t.tiles = s.tiles ∧ (t.fa[d]).cells = y.cells ∧
            ∀ p, (t.fa[d]).bank p =
              if p < 16 ∧ ∃ l ∈ h.banks, h.map.getD l 16 = p then
                { y.bank p with entropy := h.f, seed := if h.f then (y.bank p).seed else h.arg, sweepNo := 0 }
              else y.bank p) ∧
        (∀ l tab, h.op = 3 → b + 8 * h.good ≤ s.now → h.good = 1 → h.k = 1 → h.cnt = false → h.banks = [l] → h.tabs = [tab] →
          let p := h.map.getD l 16
          let bk := y.bank p
          p < 16 → bk.entropy = false →
          let tbl := if tab then bk.tab1 else bk.tab0
          let cell (e : Felting) (q m : Nat) : FaCell := Sparse.get {} e.cells (8192 * q + m)
          let field (v : FaCell) : Int :=
            v.bias.toInt + (v.coup.map fun w =>
              w.1.toInt * if (cell y (h.map.getD (w.2.toNat / 8192) 16) (w.2.toNat % 8192)).x then 1 else -1).sum
          let entry (v : FaCell) : Nat :=
            (tbl.getD (max 0 (min 1023 ((bk.beta.toNat : Int) * field v / 16 + 512))).toNat 0).toNat
          ∃ t, exec (.faCommandEnd d.val n) s = .next t ∧ t.tiles = s.tiles ∧ done t ∧
            ((t.fa[d]).bank p).sweepNo = bk.sweepNo + 1 ∧
            ∀ q m, m < 8192 →
              let v := cell y q m
              cell (t.fa[d]) q m =
                if q = p ∧ v.clamp = false ∧ v.colour = 0 then
                  { v with x := decide (entry v = 0xFFFF ∨ faHash bk.seed (8192 * l + m) bk.sweepNo < entry v) }
                else v)) ∧
      (∀ n h b o, y.cmd n = some h → h.start = some b → h.op = 3 → h.held = false → h.ended = true → h.failed = none → h.lead = false →
        h.cw = some o → o % 8 = 0 → Sparse.get [] (s.tile h.tile).feq (o / 8) = [] → (s.th h.thread).redundant = false →
        b + 8 * h.k * h.good + 4 ≤ s.now →
        ∃ t, exec (.faCommandEnd d.val n) s = .next t ∧ (t.fa[d]).cmd n = none ∧ (t.fa[d]).cells = y.cells ∧
          (t.tile h.tile).spad.rdN o 8 = leBytes 8 (3 * 2 ^ 56 + 0xE3 * 2 ^ 48 + h.good) ∧
          Sparse.get false (t.tile h.tile).empty (o / 8) = false))

/-! ### The journal, the measurements and redundancy -/

/-- JRNL returns an entry; JRNL.REL frees a refused one and JRNL.RETRY posts it again, the slot's own or any for a handler. An acknowledgement
frees its entry and a refusal keeps it for the thread, whose trap becomes pending; a full mailbox is tried again at the next frame, three times
(R169, R173, R367 to R371). A retry waits as the operation would at its first issue. ACSPILL and ACFILL move a unit between the engine and its
context's buffer, and trap on an error of the buffer that is not corrected (R384 to R386). EVCFG writes a
definition or the histogram's edges, and EVRD reads a measurement with the time (R421).
Where the spec leaves a point open, this is the model's choice: log entries 22, 23, 35, 46, 47 and 48. -/
def Obligations.JournalAndMeasurements : Prop :=
  ∀ (d : Dst) (a : Src) (r : Reg) (n : Fin 8) (s : State), s.me.ready → s.me.redundant = false → d.plain = true → a.plain = true →
    let x := s.me
    let u := unitOf s.cur
    let v := (x.srcVal a).lo
    let w := x.arch.regs[r].lo
    let e := v.toNat
    let j := s.jr u e
    let priv := x.arch.status.mode ≠ 0
    let slot := if isSys u then (u - 576) % 4 else s.cur % 16
    let word : Quad :=
      if j.state = .free then 0
      else
        BitVec.ofNat 128 (j.addr.toNat * 2 ^ 64 + j.cause * 2 ^ 56 + (match j.state with | .free => 0 | .pending => 1 | .retrying => 2 | .refused => 3) * 2 ^ 54
          + j.space * 2 ^ 52 + j.kind * 2 ^ 48 + j.slot * 2 ^ 44 + j.op * 2 ^ 40 + j.len * 2 ^ 32 + j.issue.toNat)
    let gives (i : Instr) (q : Quad) (t : State) : Prop := exec i s = .next t ∧ t.me.arch = (x.arch.put d (val128 q)).past i.bytes
    let mx := (s.tile u).mx
    let own := mx.ownerOf e
    let saved := Sparse.get false mx.saved e
    let base := s.ctxBase (s.partOf u)
    let done (i : Instr) (k : Nat) (t : State) : Prop := gives i (BitVec.ofNat 128 k) t
    let lost (ctx : Nat) : Bool := s.dramLost (unitPlace (base ctx) e).1 (unitPlace (base ctx) e).2
    let failed (i : Instr) (t : State) : Prop :=
      exec i s = .next t ∧ t.dram = s.dram ∧ (t.tile u).mx = mx ∧ (x.arch.entryWindow = false → t.me.arch.pc = x.arch.tvec.lo ∧
        t.me.arch.tcause = BitVec.ofNat 64 (512 + Cause.access) ∧ t.me.arch.taddr = v ∧ t.me.arch.regs = x.arch.regs)
    (31 < e → Traps (.jrnl d a) s Cause.access v ∧ Traps (.jrnlRel d a) s Cause.access v ∧ Traps (.jrnlRetry d a) s Cause.access v) ∧
    (e ≤ 31 →
      Completes (.jrnl d a) s ((x.arch.put d (val128 word)).past 8) ∧
      (j.state = .free → Completes (.jrnlRel d a) s ((x.arch.put d {}).past 8)) ∧
      (j.state ≠ .free → (¬priv ∧ j.slot ≠ slot) ∨ j.state ≠ .refused → Traps (.jrnlRel d a) s Cause.access v) ∧
      ((¬priv ∧ j.slot ≠ slot) ∨ j.state ≠ .refused ∨ j.kind = 8 → Traps (.jrnlRetry d a) s Cause.access v) ∧
      (priv ∨ j.slot = slot → j.state = .refused →
        (∃ t, gives (.jrnlRel d a) word t ∧ t.jr u e = {}) ∧
        (j.kind ≠ 8 → s.retryWaits j = true → Waits (.jrnlRetry d a) s .waitMem) ∧
        (∀ req tg o, s.retryWaits j = false → j.kind ≠ 8 → j.kind ≠ 6 → j.req = some req → s.postTarget s.cur j.space j.addr = some (tg, o) →
          ∃ t p, gives (.jrnlRetry d a) word t ∧ t.pkts = s.pkts ++ [p] ∧ p.req = req ∧ p.target = tg ∧ p.addr = o ∧ p.owner = .journal u e ∧
            t.jr u e = { j with
              state := .pending, cause := 0, slot := slot, issue := BitVec.ofNat 32 s.now, thread := s.cur, inst := x.inst, tries := 0 }))) ∧
    (¬priv → Traps (.acspill d a) s Cause.privilege (Instr.acspill d a).low ∧ Traps (.acfill d a) s Cause.privilege (Instr.acfill d a).low) ∧
    (priv → 256 < e → Traps (.acspill d a) s Cause.access v ∧ Traps (.acfill d a) s Cause.access v) ∧
    (priv → e ≤ 256 → x.arch.status.guest = false → s.qtHolds u = false → mx.busy = false →
      (own = 0 ∨ own = x.arch.acctag ∨ saved = true → ∃ t, done (.acspill d a) 0 t ∧ t.dram = s.dram ∧ (t.tile u).mx = mx) ∧
      (own ≠ 0 → own ≠ x.arch.acctag → saved = false → lost own.toNat = true → ∃ t, failed (.acspill d a) t) ∧
      (own ≠ 0 → own ≠ x.arch.acctag → saved = false → lost own.toNat = false → ∃ t, done (.acspill d a) 1 t ∧ (t.tile u).mx.cells = mx.cells ∧
        Sparse.get false (t.tile u).mx.saved e = true ∧ (t.tile u).mx.owner = mx.owner ∧
        (e < 256 → ∀ k, k < 256 → t.dram.rdN (base own.toNat + 0x10000 + 0x400 * e + 4 * k) 4 = leBytes 4 (Sparse.get 0 mx.cells (256 * e + k)).toNat)) ∧
      (own = x.arch.acctag → ∃ t, done (.acfill d a) 2 t ∧ (t.tile u).mx = mx) ∧
      (own ≠ x.arch.acctag → own = 0 ∨ saved = true →
        (s.spillBit (base x.arch.acctag.toNat) e = false → ∃ t, done (.acfill d a) 0 t ∧ (t.tile u).mx.ownerOf e = x.arch.acctag ∧
          if e = 256 then (t.tile u).mx.latch = none else ∀ k, k < 256 → Sparse.get 0 (t.tile u).mx.cells (256 * e + k) = 0) ∧
        (s.spillBit (base x.arch.acctag.toNat) e = true → lost x.arch.acctag.toNat = true → ∃ t, failed (.acfill d a) t) ∧
        (s.spillBit (base x.arch.acctag.toNat) e = true → lost x.arch.acctag.toNat = false → ∃ t, done (.acfill d a) 1 t ∧ (t.tile u).mx.ownerOf e = x.arch.acctag ∧
          (e < 256 → ∀ k, k < 256 → Sparse.get 0 (t.tile u).mx.cells (256 * e + k)
            = BitVec.ofNat 32 (leNat (s.dram.rdN (base x.arch.acctag.toNat + 0x10000 + 0x400 * e + 4 * k) 4)))))) ∧
    (∀ (p : Nat) (q : Packet) (y k : Nat), s.pkt p = some q → s.lands q = true → q.owner = .journal y k → k < 1000 →
      let g := s.jr y k
      (q.answer = .ack → g.kind ≠ 5 → g.kind ≠ 8 → ∃ t, exec (.postedAck p) s = .next t ∧ t.jr y k = {}) ∧
      (q.answer = .ack → g.kind = 8 → 1 < g.left → ∃ t, exec (.postedAck p) s = .next t ∧ t.jr y k = { g with left := g.left - 1 }) ∧
      (q.answer = .full → g.tries < 3 → ∃ t, exec (.postedRefused p) s = .next t ∧ t.threads = s.threads ∧
        t.jr y k = { g with state := .retrying, again := (s.now / 48 + 1) * 48 }) ∧
      (∀ c, (q.answer = .refused c ∧ g.kind ≠ 5) ∨ (q.answer = .full ∧ 3 ≤ g.tries ∧ c = Cause.mboxFull) → s.alive g.thread g.inst = true →
        unitOf g.thread = y → (s.th g.thread).redundant = false →
        ∃ t, exec (.postedRefused p) s = .next t ∧ (t.jr y k).state = .refused ∧ (t.jr y k).cause = c ∧
          { cause := if q.answer = .full then Cause.mboxFull else Cause.remoteRefused, taddr := BitVec.ofNat 64 k, cyc := s.now } ∈ (t.th g.thread).pend)) ∧
    (¬priv → Traps (.evcfg r n) s Cause.privilege (Instr.evcfg r n).low ∧ Traps (.evcfgHist r n) s Cause.privilege (Instr.evcfgHist r n).low ∧
      Traps (.evrdClr d r) s Cause.privilege (Instr.evrdClr d r).low) ∧
    (priv →
      (evOk w n.val = false → Traps (.evcfg r n) s Cause.access w) ∧
      (evOk w n.val = true → ∃ t, exec (.evcfg r n) s = .next t ∧ s.OnlyMe t ∧ t.me.arch = x.arch.past 8 ∧ (t.tile u).ev.defs = (s.tile u).ev.defs.set n w ∧
        (t.tile u).ev.cnt = (s.tile u).ev.cnt.set n 0 ∧ (t.tile u).ev.newDefs.getLsbD n = true) ∧
      (hEdgesOk w = false ∨ w.extractLsb' 60 3 ≠ 0 → Traps (.evcfgHist r n) s Cause.access w) ∧
      (hEdgesOk w = true → w.extractLsb' 60 3 = 0 → ∃ t, exec (.evcfgHist r n) s = .next t ∧ s.OnlyMe t ∧ t.me.arch = x.arch.past 8 ∧
        (t.tile u).ev.hedge = w ||| BitVec.ofNat 64 (n.val * 2 ^ 60) ∧ (t.tile u).ev.hist = Vector.replicate 8 0 ∧ (t.tile u).ev.run = 0)) ∧
    (let num := (w.extractLsb' 0 12).toNat
     let sl := if num < 0x104 then (w.extractLsb' 12 4).toNat else s.cur % 16
     (s.evGet u sl num = none → Traps (.evrd d r) s Cause.access (BitVec.ofNat 64 num)) ∧
     (∀ m, s.evGet u sl num = some m →
       Completes (.evrd d r) s ((x.arch.put d (val128 (s.cycleOf u ++ m))).past 8) ∧
       (priv → ∃ t, gives (.evrdClr d r) (s.cycleOf u ++ m) t ∧ t.evGet u sl num = some 0)))

/-- RSYNC of a redundant thread sends its signature and waits for the vote; without redundancy it goes on. RSTAT reads the last signature and
the counts. RINJ needs debug privilege and flips its one bit in the replica it names. When all signatures agree every replica goes on with
a new release number; a pair that disagrees rolls back to its checkpoint once; a replica of three that stays silent is dropped (R392 to
R396, R404 to R406).
Where the spec leaves a point open, this is the model's choice: log entry 30. -/
def Obligations.Redundancy : Prop :=
  ∀ (d : Dst) (a : Src) (r : Reg) (s : State), s.me.ready → d.plain = true → a.plain = true →
    let x := s.me
    let w := x.arch.regs[r].lo
    (x.redundant = false → Completes (.rsync a) s (x.arch.past 8) ∧ Completes (.rstat d) s ((x.arch.put d {}).past 8)) ∧
    (x.redundant = true → x.red.agreed = false → ∃ t, exec (.rsync a) s = .next t ∧ t.me.run = .voting ∧ t.me.red.vote = some 0x0E ∧
      t.me.arch = x.arch ∧ ∃ v ∈ t.votes, v.leader = s.leaderKey s.cur ∧ (x.ridx, t.me.red.sig) ∈ v.sigs) ∧
    (x.redundant = true → x.ridx = 0 → ∃ t, exec (.rstat d) s = .next t ∧
      t.me.arch = (x.arch.put d (val128 (x.red.lastSig ++ x.redstat))).past 8) ∧
    (x.arch.status.dbg = false → Traps (.rinj r) s Cause.privilege (Instr.rinj r).low) ∧
    (x.arch.status.dbg = true →
      (rinjOk w s.level = false → Traps (.rinj r) s Cause.access w) ∧
      (rinjOk w s.level = true →
        let b := (w.extractLsb' 21 7).toNat
        ((w.extractLsb' 0 2).toNat ≠ x.ridx → Completes (.rinj r) s (x.arch.past 8)) ∧
        ((w.extractLsb' 0 2).toNat = x.ridx → (w.extractLsb' 8 2).toNat = 0 →
          let k : Fin 32 := (w.extractLsb' 16 5).toFin
          Completes (.rinj r) s ({ x.arch with
            regs := x.arch.regs.set k { x.arch.regs[k] with data := x.arch.regs[k].data ^^^ 1#128 <<< b } }.past 8)) ∧
        ((w.extractLsb' 0 2).toNat = x.ridx → (w.extractLsb' 8 2).toNat = 1 →
          let o := (w.extractLsb' 28 20).toNat
          let u := unitOf s.cur
          ∃ t, exec (.rinj r) s = .next t ∧ t.me.arch = x.arch.past 8 ∧
            (t.tile u).spad.rdN o 8 = leBytes 8 (BitVec.ofNat 64 (leNat ((s.tile u).spad.rdN o 8)) ^^^ 1#64 <<< b).toNat ∧
            (∀ k, k < o ∨ o + 8 ≤ k → (t.tile u).spad.rd k = (s.tile u).spad.rd k) ∧ (t.tile u).empty = (s.tile u).empty))) ∧
    (∀ (n : Nat) (v : Vote) (late : Bool), s.vote n = some v → (late = true → v.first + 2 ^ 20 ≤ s.now) →
      let keys := s.replicaKeys n
      let i : Instr := if late then .voteTimeout n else .voteDecision n
      let sig (k : Nat) : Option Word := v.sigOf (s.th k).ridx
      keys ≠ [] → keys.Nodup → (late = false → ∀ k ∈ keys, sig k ≠ none) →
      (∀ y : Word, (∀ k ∈ keys, sig k = some y) → (s.th (keys.headD 0)).red.buf = [] →
        ∃ t, exec i s = .next t ∧ (∀ o ∈ t.votes, o.leader ≠ s.leaderKey (keys.headD 0)) ∧ (∀ k, k ∉ keys → t.th k = s.th k) ∧ t.tiles = s.tiles ∧
          ∀ k ∈ keys, (t.th k).run = .running ∧ (t.th k).arch = (s.th k).arch ∧ (t.th k).red.relno = (s.th k).red.relno + 1 ∧
            (t.th k).red.vote = none ∧ (t.th k).red.undo = [] ∧ (t.th k).red.agreed = decide ((s.th k).red.vote ≠ some 0x0D)) ∧
      (∀ k l, keys = [k, l] → sig k ≠ sig l → (s.th k).red.failed = false → (∀ o ∈ keys, (s.th o).run = .voting ∧ (s.th o).red.undo = []) →
        ∃ t, exec i s = .next t ∧ ∀ o ∈ keys,
          (t.th o).run = .running ∧ (t.th o).arch = (s.th o).red.ckpt.getD (s.th o).arch ∧ (t.th o).streams = (s.th o).red.ckptStreams ∧
          (t.th o).red.retry = (s.th o).red.retry + 1 ∧ (t.th o).red.failed = true)) ∧
    (∀ (k l m : Nat) (v : Vote) (y : Word), s.vote (s.leaderKey m) = some v → v.first + 2 ^ 21 ≤ s.now → v.sigOf (s.th m).ridx = none →
      (∀ q, q ∈ s.replicaKeys (s.leaderKey m) ↔ q = k ∨ q = l ∨ q = m) → (s.replicaKeys (s.leaderKey m)).length = 3 → k ≠ m → l ≠ m → k ≠ l →
      v.sigOf (s.th k).ridx = some y → v.sigOf (s.th l).ridx = some y → (s.th k).red.buf = [] → (s.th l).red.buf = [] → (s.th m).run = .running →
      v.leader = s.leaderKey m →
        ∃ t, exec (.replicaDrop m) s = .next t ∧ (t.th m).run = .halted ∧ (t.th m).red.dropped = true ∧ (t.th m).arch = (s.th m).arch)

/-! ### Requests on the nets -/

/-- A request that has arrived is performed where it goes, and its answer travels back. A form packet departs in its window of the 48-cycle frame, four
flits at a time (R115). A tile's port refuses a request to a page or a gang that is not there, and serves the others: it reads, writes, fills a
word, and puts an atomic into the queue of its word (R116, R161, R192); a read of a word with an error that is not corrected is refused (R189).
The oldest atomic of a word makes one read and one write (R168), but for a race that it meets there (R227). A station translates, refuses what
the page does not allow, and reads or writes; a miss starts a walk, whose end is cached and answers (R199 to R203). The answer of a thread's request hands the instruction back to it, a block goes to the instruction cache and to every slot that
waits for it, and a request to another package that stays without a reply is refused (R108, R207, R438).
Where the spec leaves a point open, this is the model's choice: log entries 6, 10 and 39. -/
def Obligations.Requests : Prop :=
  ∀ (p : Nat) (q : Packet) (s : State), s.pkt p = some q →
    let answered (t : State) (a : Answer) : Prop := ∃ r, t.pkt p = some r ∧ r.back = true ∧ r.answer = a
    let gives (i : Instr) (h : State → Prop) : Prop := ∃ t, exec i s = .next t ∧ h t
    (q.inWindow = true → q.due ≤ s.now →
      (s.now % 48 ≠ q.window → gives (.formWindowDeparture p) fun t => t = s) ∧
      (s.now % 48 = q.window → s.windowHead q = true → s.windowUsed q = false → gives (.formWindowDeparture p) fun t =>
        t.threads = s.threads ∧ t.tiles = s.tiles ∧ ∃ r, t.pkt p = some r ∧ r.depart = some s.now ∧
          if 4 < q.flits then r.flits = q.flits - 4 ∧ r.stage = q.stage
          else r.stage = (if q.back then .answered else .flying) ∧ r.due = s.now + q.flight (max 1 q.flits))) ∧
    (∀ v, q.target = .tile v → s.canServe v q = true → s.portFirst v q = true →
      let x := s.tile v
      let i := Instr.remotePortService p
      let o := q.addr
      (s.portOpen v o q.req.size q = false → (∀ m ws, q.req ≠ .message m ws) → (∀ b k l f, q.req ≠ .drain b k l f) →
        gives i fun t => answered t (.refused Cause.remoteRefused) ∧ (t.tile v).spad = x.spad) ∧
      (∀ n tagged, q.req = .read n tagged → s.portOpen v o n q = true →
        gives i fun t => (t.tile v).spad = x.spad ∧
          (x.raceRemote o n q.epoch = true → answered t (.refused Cause.race)) ∧
          (x.raceRemote o n q.epoch = false → (x.sound o n → answered t (readAnswer (x.spad.rdN o n) (tagged && x.tagAt o))) ∧
            ((∃ k ∈ touched 8 o n, 2 ≤ (Sparse.get 0 x.bad k).toNat) → answered t (.refused Cause.access)))) ∧
      (∀ bs tag append, q.req = .write bs tag append → s.portOpen v o bs.length q = true → x.raceRemote o bs.length q.epoch = false →
        gives i fun t => answered t .ack ∧ (t.tile v).spad.rdN o bs.length = bs ∧
          ∀ a, a < o ∨ o + bs.length ≤ a → (t.tile v).spad.rd a = x.spad.rd a) ∧
      (∀ w, q.req = .fe .stf w → s.portOpen v o 8 q = true → Sparse.get [] x.feq (o / 8) = [] →
        gives i fun t => answered t .ack ∧ (t.tile v).spad.rdN o 8 = leBytes 8 w.toNat ∧ Sparse.get false (t.tile v).empty (o / 8) = false) ∧
      (∀ op n b c red, q.req = .amo op n b c red → s.portOpen v o n q = true →
        gives i fun t => (t.tile v).spad = x.spad ∧ ∃ r, t.pkt p = some r ∧ r.stage = .reserved ∧ r.due = s.now ∧ r.req = q.req)) ∧
    (∀ op n b c red, q.stage = .reserved → s.holdsReservation q = true → q.req = .amo op n b c red →
      let i := Instr.atomicAtOwner p
      (∀ v, q.target = .tile v →
        let x := s.tile v
        let old := x.spad.rdLe q.addr n
        let raced := q.flits ≠ 0 ∧ x.raceRemote q.addr n q.epoch = true ∧ (red = false ∨ s.ringOn v = false)
        let wrong := ∃ k ∈ touched 8 q.addr n, 2 ≤ (Sparse.get 0 x.bad k).toNat
        (raced → gives i fun t => answered t (.refused Cause.race) ∧ t.tiles = s.tiles) ∧
        (¬raced → wrong → gives i fun t => answered t (.refused Cause.access) ∧ (t.tile v).spad = x.spad) ∧
        (¬raced → x.sound q.addr n → gives i fun t => (t.tile v).spad.rdLe q.addr n = (amoNew op (8 * n) old b.toNat c.toNat).getD old ∧
          (∀ a, a < q.addr ∨ q.addr + n ≤ a → (t.tile v).spad.rd a = x.spad.rd a) ∧
          answered t (if red then .ack else .data (amoResult n old)) ∧
          (q.flits = 0 → t.agenda = .replyLands p :: s.agenda ∧ ∃ r, t.pkt p = some r ∧ r.due = s.now))) ∧
      (∀ k, q.target = .station k → q.flits ≠ 0 →
        let ph : Phys := { node := q.node, host := q.host, pa := q.paddr }
        let old := leNat (s.physRd ph n)
        gives i fun t => leNat (t.physRd ph n) = (amoNew op (8 * n) old b.toNat c.toNat).getD old ∧
          answered t (if red then .ack else .data (amoResult n old)))) ∧
    (∀ k, q.target = .station k → q.stage = .flying → q.back = false → q.due ≤ s.now → s.firstOut q = true → s.heldBack q = false →
      q.req ≠ .qstat → (∀ w, q.req ≠ .qnode w) → (q.form = true → s.missFull k = false) →
      let i := Instr.stationAccess p
      let ctx := ctxKey q.part q.pasid
      (∀ e, (s.station k).find ctx q.addr = some e →
        match s.leafAccess q.part e.level e.leaf q.addr q.req.need q.form (q.sys && decide ((s.th q.thread).arch.status.mode = 2))
          (ctlFormOk q.req q.addr) with
        | .error c => gives i fun t => answered t (.refused c) ∧ t.dram = s.dram ∧ t.hostMem = s.hostMem
        | .ok ph =>
          (s.reachable ph = false → gives i fun t => answered t (.refused Cause.remoteRefused) ∧ t.dram = s.dram) ∧
          (s.reachable ph = true → q.form = true → s.isDram ph = true → s.ownerBusy q ph = true →
            gives i fun t => answered t (.refused Cause.timingDeviation) ∧ t.dram = s.dram) ∧
          (s.reachable ph = true → s.isDram ph = false ∨ ph.pa < ctlBase → s.hostAborts ph = false → (q.form = true → s.ownerBusy q ph = false) →
            (∀ n tagged, q.req = .read n tagged → gives i fun t => answered t (readAnswer (s.physRd ph n) false) ∧ t.dram = s.dram) ∧
            (q.req = .fetch → gives i fun t => answered t (.bytes (s.physRd ph 32)) ∧ t.dram = s.dram) ∧
            (∀ bs tag append, q.req = .write bs tag append →
              gives i fun t => answered t .ack ∧ t.physRd ph bs.length = bs ∧ t.threads = s.threads ∧ t.tiles = s.tiles))) ∧
      ((s.station k).find ctx q.addr = none → s.walkFor k q = false → (s.station k).walks.length < 64 →
        (s.pkts.filter fun r => decide (r.stage = .walking) && decide (r.target = .station k)).length < 2048 →
        gives i fun t => (t.station k).walks = (s.station k).walks ++ [{ ctx := ctx, va := q.addr, noCache := false }] ∧ t.dram = s.dram ∧
          if q.form then answered t (.refused Cause.timingDeviation) else ∃ r, t.pkt p = some r ∧ r.stage = .walking ∧ r.back = q.back)) ∧
    (∀ k w, (s.station k).walks = [w] → s.pkts = [q] → s.joined k w = [q] →
      let i := Instr.pageWalkEnd k 0
      let part := w.ctx / 2 ^ 20
      match s.walkVa part (w.ctx % 2 ^ 20) w.va with
      | .error c => gives i fun t => (t.station k).walks = [] ∧ (t.station k).tlb = (s.station k).tlb ∧ answered t (.refused c)
      | .ok (l, e) =>
        (w.noCache = false → gives i fun t => (t.station k).walks = [] ∧
          { ctx := w.ctx, level := l, vpn := w.va / 2 ^ levelLo l, leaf := e } ∈ (t.station k).tlb) ∧
        (w.noCache = true → gives i fun t => (t.station k).tlb = (s.station k).tlb) ∧
        (∀ c, s.leafAccess q.part l e q.addr q.req.need q.form
            (q.sys && decide ((s.th q.thread).arch.status.mode = 2)) (ctlFormOk q.req q.addr) = .error c →
          gives i fun t => answered t (.refused c)) ∧
        (∀ n tagged ph, q.req = .read n tagged → s.leafAccess q.part l e q.addr q.req.need q.form
            (q.sys && decide ((s.th q.thread).arch.status.mode = 2)) (ctlFormOk q.req q.addr) = .ok ph →
          s.reachable ph = true → s.isDram ph = false ∨ ph.pa < ctlBase → s.hostAborts ph = false →
          gives i fun t => answered t (readAnswer (s.physRd ph n) false))) ∧
    (s.lands q = true →
      (∀ k i, q.owner = .thread k → q.stale = false → s.alive k q.inst = true → (s.th k).redundant = false →
        (s.tile (unitOf k)).saving = none → (s.th k).insn = some i →
        gives (.replyLands p) fun t => t.cur = k ∧ t.agenda = i :: s.agenda ∧ t.pkt p = none ∧ (t.th k).run = .running ∧
          (t.th k).held.result = some q.answer ∧ (t.th k).arch = (s.th k).arch ∧ (∀ j, j ≠ k → t.th j = s.th j) ∧ t.tiles = s.tiles) ∧
      (∀ u, q.owner = .icache u →
        let waits (k : Nat) : Prop := (s.th k).run = .fetching ∧ (s.th k).arch.pc.toNat % 2 ^ 57 / 32 * 32 = q.addr ∧
          s.fetchCtx k = ctxKey q.part q.pasid
        gives (.icacheMissFill p) fun t => t.pkt p = none ∧
          (∀ k, k / 16 = u → waits k → (t.th k).run = .running ∧ (t.th k).held.result = some q.answer ∧ (t.th k).arch = (s.th k).arch) ∧
          (∀ k, k / 16 ≠ u ∨ ¬waits k → t.th k = s.th k) ∧
          (∀ b, q.answer = .bytes b → q.stale = false →
            { va := q.addr, ctx := ctxKey q.part q.pasid, bytes := b } ∈ (t.tile u).icache) ∧
          (∀ c, q.answer = .refused c → t.tiles = s.tiles))) ∧
    (∀ k, q.owner = .thread k → q.back = true → q.node ≠ s.nodeid.toNat → q.host = false →
      (s.now < q.issue + 2 ^ 24 → gives (.requestTimeout p) fun t => t = s) ∧
      (q.issue + 2 ^ 24 ≤ s.now → gives (.requestTimeout p) fun t => answered t (.refused Cause.remoteRefused) ∧ t.threads = s.threads ∧
        ∃ r, t.pkt p = some r ∧ r.stage = .answered ∧ r.due = s.now))

/-! ### What happens to threads -/

/-- A thread whose wait has ended takes up its instruction at its turn with the answer of the wait (R103, R108, R165, R182), and a wait with a
time limit ends at the limit. A notice sets the trigger bit of its line (R164); a link value is receivable once it has landed, and the matrix
engine takes one in each cycle (R112, R257). TIMER becomes pending at the deadline and is disarmed (R365); the oldest pending trap is taken at
a turn with IE 1, with its cause and its TADDR and ILEN 0 (R94, R95, R364), in a redundant thread at the boundary its replicas agreed on
(R401); a notice of a trap reaches its thread (R362). A migrating thread takes the lowest free guest slot with the registers of MLIVE, waits at
the interface of its destination behind those that came before it, or is refused (R175, R176, R206).
Where the spec leaves a point open, this is the model's choice: log entries 18 and 42. -/
def Obligations.ThreadEvents : Prop :=
  ∀ (k : Nat) (s : State),
    let x := s.th k
    let u := unitOf k
    let gives (i : Instr) (h : State → Prop) : Prop := ∃ t, exec i s = .next t ∧ h t
    let rejoins (i : Instr) (a : Val) : Prop := ∀ j, x.insn = some j →
      gives i fun t => t.cur = k ∧ t.agenda = j :: s.agenda ∧ (t.th k).run = .running ∧ (t.th k).held.result = some (.data a) ∧
        (t.th k).arch = x.arch ∧ (∀ n, n ≠ k → t.th n = s.th n) ∧ t.tiles = s.tiles
    (x.canTrap = false → (s.tile u).saving = none →
      (k % 16 = s.now % 16 →
        (∀ d, x.run = .mwait d → x.mwaitReady = true → rejoins (.threadRejoin k) {}) ∧
        (∀ d, x.run = .waiti d → x.pend ≠ [] → rejoins (.threadRejoin k) {}) ∧
        (∀ n f, x.run = .released n f → f ≤ s.now → rejoins (.threadRejoin k) (val64 (BitVec.ofNat 64 n)))) ∧
      (∀ d, x.run = .mwait (some d) → d ≤ s.now → rejoins (.mwaitTimeout k) (val64 1)) ∧
      (∀ d, x.run = .waiti (some d) → d ≤ s.now → rejoins (.waitiTimeout k) {})) ∧
    (∀ (n : Fin 4) (r : MonReg), (s.monNotes.find? fun r => decide (r.thread = k) && decide (r.idx = n.val)) = some r →
      gives (.monitorTriggerNotice k n.val) fun t => t.monNotes = s.monNotes.erase r ∧ t.tiles = s.tiles ∧ (t.th k).run = x.run ∧
        (t.th k).mons[n] = (x.mons[n]).map (fun m => { m with trig := true }) ∧ ∀ m : Fin 4, m ≠ n → (t.th k).mons[m] = x.mons[m]) ∧
    (∀ l : Link,
      (gives (.linkValueArrival u l) fun t => t = s) ∧
      (∀ c cs y st v vs, (s.tile u).saving = none → (s.tile u).mx.queue = c :: cs → c.op = .mul y → c.start = some st → y.link = some l →
        (s.linkQ u l).vals = v :: vs → v.at? ≤ s.now → c.took.length + 1 < y.values → (s.tile u).mx.rot.transfers = [] →
        let t := s.mxPump u
        (t.tile u).mx.queue = { c with took := c.took ++ [v.v] } :: cs ∧ (t.linkQ u l).vals = vs ∧
          (t.tile u).spad = (s.tile u).spad ∧ t.threads = s.threads)) ∧
    (x.arch.timerArmed = true → x.arch.deadline ≠ BitVec.allOnes 64 → x.run ≠ .vacant → x.redundant = false →
      ((s.stampOf u).toNat < x.arch.deadline.toNat → gives (.timer k) fun t => t = s) ∧
      (x.arch.deadline.toNat ≤ (s.stampOf u).toNat → gives (.timer k) fun t => (t.th k).arch = { x.arch with timerArmed := false } ∧ (t.th k).run = x.run ∧
        (∀ e, e ∈ (t.th k).pend ↔ e = { cause := Cause.timer, taddr := x.arch.deadline, cyc := s.now } ∨ e ∈ x.pend) ∧
        ∀ n, n ≠ k → t.th n = s.th n)) ∧
    (∀ e es, x.pend = e :: es → k % 16 = s.now % 16 → x.arch.status.ie = true → x.engWait = false →
      (x.redundant = true → x.red.boundary = true ∧ x.red.due = true) →
      (x.run = .running ∨ ∃ d, x.run = .mwait d ∨ x.run = .waiti d) → x.arch.entryWindow = false →
      gives (.asyncTrapEntry k) fun t => (t.th k).run = .running ∧ (t.th k).pend = es ∧ (t.th k).insn = none ∧ (t.th k).held = {} ∧
        (t.th k).arch = { x.arch with
          status := { x.arch.status with
            following := false, pmode := x.arch.status.mode, pie := x.arch.status.ie, mode := if isSys u then 2 else 1, ie := false }
          tcause := BitVec.ofNat 64 e.cause
          taddr := e.taddr
          tepc := { data := x.arch.xcap.data.extractLsb' 64 64 ++ x.arch.pc, tag := x.arch.xcap.tag }
          xcap := x.arch.tvec
          pc := x.arch.tvec.lo
          entryWindow := true } ∧
        ∀ n, n ≠ k → t.th n = s.th n) ∧
    (∀ n e, s.notices[n]? = some (k, e) →
      (x.run ≠ .vacant → gives (.trapNoticeArrival n) fun t => t.notices = s.notices.eraseIdx n ∧ (t.th k).arch = x.arch ∧
        (∀ f, f ∈ (t.th k).pend ↔ f = e ∨ f ∈ x.pend)) ∧
      (x.run = .vacant → (s.tile u).saved = [] → gives (.trapNoticeArrival n) fun t => t.notices = s.notices.eraseIdx n ∧ t.threads = s.threads ∧
        s.told t fun r => r.extractLsb' 192 64 = e.taddr ∧ r.extractLsb' 85 3 = 3)) ∧
    (∀ v i, x.run = .migrating v false → x.insn = some i →
      (s.takesGuests v x.inst = false → x.arch.entryWindow = false → gives (.migrationArrival k) fun t =>
        (t.th k).run = .running ∧ (t.th k).arch.tcause = BitVec.ofNat 64 (i.bytes / 4 * 256 + Cause.remoteRefused) ∧
        (t.th k).arch.pc = x.arch.tvec.lo ∧ (t.tile u).sent = (s.tile u).sent - 1) ∧
      (s.takesGuests v x.inst = true → k ∉ (s.tile v).arrivals →
        (s.tile v).arrivals ≠ [] ∨ s.guestSlot v = none ∨ 32 < s.inUse v + s.carried k → gives (.migrationArrival k) fun t => t.threads = s.threads ∧
          t.tile v = { s.tile v with arrivals := if (s.tile v).arrivals.length < 4 then (s.tile v).arrivals ++ [k] else (s.tile v).arrivals }) ∧
      (s.takesGuests v x.inst = true → k ∈ (s.tile v).arrivals →
        (s.tile v).arrivals.head? ≠ some k ∨ s.guestSlot v = none ∨ 32 < s.inUse v + s.carried k → gives (.migrationArrival k) fun t => t = s) ∧
      (∀ g, s.takesGuests v x.inst = true → (s.tile v).arrivals = [] ∨ (s.tile v).arrivals.head? = some k → s.guestSlot v = some g →
        s.inUse v + s.carried k ≤ 32 → (∀ e, e < 32 → (s.jr u e).thread = k → (s.jr u e).state ≠ .refused) → x.held.place = none →
        let slot := 16 * v + g
        let area := 0xF0000 + 0x1000 * g
        gives (.migrationArrival k) fun t => (t.th k).run = .vacant ∧ (t.th slot).run = .running ∧ (t.th slot).inst = x.inst ∧
          (t.th slot).home = x.home ∧ (t.tile v).recv = (s.tile v).recv + 1 ∧ k ∉ (t.tile v).arrivals ∧ (∀ n, n ≠ k → n ≠ slot → t.th n = s.th n) ∧
          ∃ acct, (t.th slot).arch = { x.arch with
            regs := Vector.ofFn fun r : Fin 32 => if x.arch.mlive.getLsbD r.val then x.arch.regs[r] else {}
            status := { x.arch.status with guest := true, following := false, dbg := (s.th slot).grant }
            tstack := exactCap 0 (permR ||| permW ||| permSYS) area (area + 0x1000) (BitVec.ofNat 64 area)
            tcause := 0
            taddr := 0
            tepc := {}
            tsave := {}
            dcause := 0
            acctag := acct
            pc := nextPC x.arch.pc i.bytes }))

/-! ### The graph scheduler -/

/-- A launch is discarded by a window that is not enabled, refused with the status of its first failing step in its completion word, or
enqueued, and LCOUNT rises (R129, R131). From level 3 down the first head whose next sheet fits places it: a free sheet dispatches at once, with
its gangs, its threads at ENTRY and its counts at zero, and a form sheet at a later frame start (R132 to R134, R136, R377).
Where the spec leaves a point open, this is the model's choice: log entries 12 and 45. -/
def Obligations.Scheduling : Prop :=
  ∀ s : State,
    let gives (i : Instr) (h : State → Prop) : Prop := ∃ t, exec i s = .next t ∧ h t
    let begun (t : State) (i : Inst) (no : Nat) (tiles : List (List Nat)) (from? : Nat → Nat) : Prop :=
      ∀ ts ∈ tiles, ∀ v ∈ ts, (t.tile v).sent = 0 ∧ (t.tile v).recv = 0 ∧
        (∃ g, (t.tile v).gang = some g ∧ g.inst = i.id ∧ g.sheet = no ∧ g.bind = i.bindMask) ∧
        ∀ k, k < 16 →
          let x := t.th (16 * v + k)
          (i.bindMask.getLsbD k = false → x.run = .vacant) ∧
          (i.bindMask.getLsbD k = true → i.kind ≠ 2 → x.run = .running ∧ x.inst = i.id ∧ x.sheet = no ∧ x.arch.pc = recWord i.recw 3 ∧
            x.arch.status.mode = 0 ∧ x.arch.status.ie = true ∧ x.arch.mlive = 0xFFFFFFFF ∧ from? k ≤ x.notBefore)
    (∀ (win : Nat) (v : Word),
      let w := s.window win
      let l : Launch :=
        { win := win, die := bits w.wcfg 35 34, part := bits w.wcfg 33 29, pasid := bits w.wcfg 55 36, nbase := bits w.wcfg 27 16
          ncount := bits w.wcfg 12 0, node := bits v 11 0, tag := v.extractLsb' 32 32, aux := v
          patches := s.readPatches (bits w.wcfg 33 29) (bits w.wcfg 55 36) (w.lpatch.toNat / 32 * 32) (bits v 23 16), sys := decide (384 ≤ win) }
      let r := s.record l.die (l.nbase + l.node)
      (w.wcfg.getLsbD 28 = false → gives (.launch win v) fun t => t = s) ∧
      (w.wcfg.getLsbD 28 = true → gives (.launch win v) fun t =>
        (t.window win).lcount = w.lcount + 1 ∧ (cwKind r ≠ 2 → t.threads = s.threads ∧ t.tiles = s.tiles) ∧
        (l.ncount ≤ l.node → t.insts = s.insts) ∧
        (l.node < l.ncount →
          (∀ st, s.launchStatus l r = some st → t.insts = s.insts ∧
            ∀ ph, cwKind r = 1 → s.cwPhys l.part l.pasid (recWord r 6) = some ph →
              t.physRd ph 8 = leBytes 8 (BitVec.ofNat 64 (l.tag.toNat * 2 ^ 32 + st)).toNat) ∧
          (s.launchStatus l r = none → ∃ i, t.insts = s.insts ++ [i] ∧ t.nextInst = s.nextInst + 1 ∧ i.id = s.nextInst ∧ i.die = l.die ∧
            i.win = win ∧ i.part = l.part ∧ i.pasid = l.pasid ∧ i.tag = l.tag ∧ i.node = l.node ∧ i.recw = r ∧ i.sheets = [] ∧
            i.args = applyPatches ((List.range 16).map (argOf r)) (l.patches.getD []))))) ∧
    (∀ die, die < 4 →
      ((∀ n, n < 4 → s.head die n = none) → gives (.sheetPlacement die) fun t => t = s) ∧
      (∀ n i rs cs, n < 4 → (∀ m j, n < m → m < 4 → s.head die m = some j → s.canPlace j = none) → s.head die n = some i →
        s.canPlace i = some (rs, cs) → s.inst i.id = some i →
        gives (.sheetPlacement die) fun t => ∃ y, t.inst i.id = some y ∧ y.recw = i.recw ∧
          (i.form = false → y.sheets = i.sheets ++ [{ no := i.sheets.length, tiles := rs }] ∧ begun t i i.sheets.length rs fun _ => s.now + 1) ∧
          (i.form = true → t.tiles = s.tiles ∧ t.threads = s.threads ∧
            ∃ d, s.now < d ∧ d % 48 = 0 ∧ y.sheets = i.sheets ++ [{ no := i.sheets.length, tiles := rs, dispatch := some d }])) ∧
      (s.dueSheets die = [] → gives (.formDispatch die) fun t => t = s) ∧
      (∀ i x rest, s.dueSheets die = (i, x) :: rest → s.inst i.id = some i →
        let sheets (f : Nat → Option Nat) : List Sheet := i.sheets.map fun z => if z.no = x.no then { z with dispatch := z.dispatch.bind f } else z
        (s.freeCtx i.part (i.w * i.h) = none → gives (.formDispatch die) fun t => t.tiles = s.tiles ∧ t.threads = s.threads ∧
          ∃ y, t.inst i.id = some y ∧ y.sheets = sheets fun d => some (d + 48)) ∧
        (∀ cs, s.freeCtx i.part (i.w * i.h) = some cs → gives (.formDispatch die) fun t =>
          (∃ y, t.inst i.id = some y ∧ y.sheets = sheets fun _ => none) ∧ begun t i x.no x.tiles fun k => s.now + 48 + if i.form then k else 0)))

/-- Every 64 cycles, once: an instance whose sheets are all placed and idle, that was idle at the sample before, and whose counts are equal
and have not changed, ends; its word gets DONE. Else the counts are kept for the next sample (R140, R141). An abort ends it at once with status
6 and empties its threads and tiles (R141). A TEST run leaves its tiles zero, and fences those that failed a test which ARG0 selects (R422 to
R424). The scheduler asks for a tile; when everything of its gang has stopped, the save frames, the links, the mailboxes and the matrix queue
are kept, and the tile is free; the gang resumes there as it was saved, each slot by the RESUME and FLAGS of its frame, and only when the pages
held for other contexts have been written out (R137, R375 to R381). A save or a restore whose buffer cannot be read ends the instance (R379).
Where the spec leaves a point open, this is the model's choice: log entries 32, 33, 43, 47 and 48. -/
def Obligations.EndsAndSaves : Prop :=
  ∀ s : State,
    let gives (i : Instr) (h : State → Prop) : Prop := ∃ t, exec i s = .next t ∧ h t
    let worded (t : State) (i : Inst) (st : Nat) : Prop := ∀ ph, cwKind i.recw = 1 → s.cwPhys i.part i.pasid (recWord i.recw 6) = some ph →
      t.physRd ph 8 = leBytes 8 (BitVec.ofNat 64 (i.tag.toNat * 2 ^ 32 + st)).toNat
    (s.now % 64 ≠ 0 ∨ s.lastSample = some s.now → gives .endDetectionSample fun t => t = s) ∧
    (∀ i, s.now % 64 = 0 → s.lastSample ≠ some s.now → s.insts = [i] → i.kind ≠ 2 → i.aborted = false →
      let m := s.sums i
      (i.sample ≠ some m → gives .endDetectionSample fun t => t.lastSample = some s.now ∧ t.tiles = s.tiles ∧ t.threads = s.threads ∧
        ∃ y, t.insts = [y] ∧ y.id = i.id ∧ y.sample = some m ∧
          y.sheets = i.sheets.map fun x => { x with idle := (i.sheets.filter fun z => !z.ended && s.sheetIdle i z).any fun z => z.no = x.no }) ∧
      (m.1 = m.2 → i.sample = some m → i.sheets.length = i.nsheets → (∀ x ∈ i.sheets, x.ended = true ∨ (x.idle = true ∧ s.sheetIdle i x = true)) →
        i.successors = [] → gives .endDetectionSample fun t => t.insts = [] ∧ t.lastSample = some s.now ∧ worded t i 0 ∧
          ∀ x ∈ i.sheets, x.ended = false → ∀ ts ∈ x.tiles, ∀ v ∈ ts, (t.tile v).gang = none)) ∧
    (∀ n, s.inst n = none → gives (.instanceAbort n) fun t => t.insts = s.insts) ∧
    (∀ n i, s.inst n = some i → gives (.instanceAbort n) fun t => t.inst n = none ∧ worded t i 6 ∧
      (cwKind i.recw ≠ 2 → Sparse.wf {} s.threads = true → ∀ k ∈ s.threads.keys, (s.th k).inst = n → (t.th k).run = .vacant) ∧
      ∀ x ∈ i.sheets, x.ended = false → ∀ ts ∈ x.tiles, ∀ v ∈ ts, ∀ g, (s.tile v).gang = some g → g.inst = n → (t.tile v).gang = none) ∧
    (∀ n failed i x ts, s.inst n = some i → i.sheets = [x] → x.ended = false → x.tiles = [ts] → i.nsheets = 1 → i.successors = [] → cwKind i.recw ≠ 2 →
      (i.kind ≠ 2 → gives (.testNodeRun n failed) fun t => t = s) ∧
      (i.kind = 2 → gives (.testNodeRun n failed) fun t => t.inst n = none ∧ worded t i 0 ∧
        ∀ v ∈ ts, v < 576 → (t.tile v).gang = none ∧ (t.tile v).spad = [] ∧ (t.tile v).empty = [] ∧
          ∀ b, b < 4 → (i.args.getD 0 {}).lo.getLsbD b = true → 4 * v + b ∈ failed → (s.tile v).saved = [] → (t.tile v).fenced = true)) ∧
    (∀ u,
      (s.wanted u = false → gives (.preemption u) fun t => t = s) ∧
      (s.wanted u = true → gives (.preemption u) fun t => (t.tile u).saving = some s.now ∧ (t.tile u).gang = (s.tile u).gang ∧
        ((∀ e ∈ (s.tile u).feq, ∀ w ∈ e.2, w.remote = false) → (t.tile u).spad = (s.tile u).spad ∧ t.threads = s.threads ∧ t.pkts = s.pkts))) ∧
    (∀ u p g, (s.tile u).saving = some p → (s.tile u).gang = some g →
      (s.quiet u g p = false → gives (.saveEnd u) fun t => t = s) ∧
      (s.quiet u g p = true → s.dramLost (s.ctxBase (s.partOf u) g.ctx) 0x10000 = true → gives (.saveEnd u) fun t => t.inst g.inst = none) ∧
      (s.quiet u g p = true → s.dramLost (s.ctxBase (s.partOf u) g.ctx) 0x10000 = false → gives (.saveEnd u) fun t =>
        let x := s.tile u
        let saved (k : Nat) : Thread := (s.th (16 * u + k)).atSave ((s.notices.filter fun n => n.1 = 16 * u + k).map (·.2))
        (t.tile u).gang = none ∧ (t.tile u).saving = none ∧ (∀ k, k < 16 → (t.th (16 * u + k)).run = .vacant) ∧
        (∃ v, (t.tile u).saved = x.saved ++ [v] ∧ v.gang = g ∧ v.ready = true ∧ v.links = x.links ∧ v.mail = x.mail ∧ v.queue = x.mx.queue ∧
          v.copies = x.copies ∧ v.sent = x.sent ∧ v.recv = x.recv ∧
          ∀ k, k < 16 → (s.th (16 * u + k)).run ≠ .vacant → (16 * u + k, saved k) ∈ v.threads) ∧
        ∀ k, k < 16 → g.areas.getLsbD k = true → (s.th (16 * u + k)).run ≠ .vacant →
          (t.tile u).spad.rdN (0xF0C00 + 0x1000 * k) 1024 = ((saved k).frame x.chk).flatMap fun w => leBytes 8 w.toNat)) ∧
    (∀ u c v i, ((s.tile u).saved.find? fun v => v.ready && decide (v.gang.ctx = c)) = some v → s.inst v.gang.inst = some i →
      (v.due = none → (s.tileOpen u && s.firstHead i.die i.id) = false → gives (.restore u c) fun t => t = s) ∧
      (∀ d, v.due = some d → s.now < d → gives (.restore u c) fun t => t = s) ∧
      (v.due = none → s.tileOpen u = true → s.firstHead i.die i.id = true → s.dramBad = [] → 0 < s.restoreTime u i v.gang →
        gives (.restore u c) fun t => (t.tile u).gang = none ∧ t.threads = s.threads ∧
          ∃ y ∈ (t.tile u).saved, y = { v with due := some (s.now + s.restoreTime u i v.gang) }) ∧
      (v.due = none → s.tileOpen u = true → s.firstHead i.die i.id = true → s.dramBad = [] → (∀ e ∈ v.journal, e = {}) →
        (s.tile u).journal = [] → v.indexes = [] → (∀ e ∈ (s.faOf (dieOf u)).running, e.2.ended = false) →
        (∀ p ∈ footPages v.gang.bind i.migr, Sparse.get 0 (s.tile u).pages p = c) → (v.threads.map (·.1)).Nodup → (∀ e ∈ v.threads, e.1 / 16 = u) →
        gives (.restore u c) fun t => (t.tile u).gang = some v.gang ∧ (t.tile u).links = v.links ∧ (t.tile u).mail = v.mail ∧
          (t.tile u).mx.queue = v.queue ∧ (t.tile u).copies = v.copies ∧ (∀ w ∈ (t.tile u).saved, w.gang.ctx ≠ c) ∧
          ∀ k x, (k, x) ∈ v.threads →
            let w (o : Nat) : Word := BitVec.ofNat 64 (leNat ((s.tile u).spad.rdN (0xF0C00 + 0x1000 * (k % 16) + o) 8))
            (t.th k).run = (if (w 0x2A0).toNat % 4 = 3 ∨ (w 0x298).getLsbD 1 = true then .halted
                else if (w 0x2A0).toNat % 4 = 0 ∧ x.resumeCode ≠ 0 then .running else x.run) ∧
              (t.th k).inst = x.inst ∧ (t.th k).arch.pc = w 0x208 ∧ (t.th k).arch.deadline = w 0x288 ∧
              ∀ r : Fin 32, (t.th k).arch.regs[r] = { data := w (16 * r.val + 8) ++ w (16 * r.val), tag := (w 0x200).getLsbD r.val }))

/-! ### Debug sessions -/

/-- Without a session the operations do nothing; a unit outside the granted partitions is denied, and a slot that is not halted answers so
(R410, R411). A reply echoes the header of its message: the code, the target, the sequence number and the payload length. Within the session HALT
asks the slots to stop, RESUME and STEP let a halted slot go on at its pc, DISCARD retires its thread, and the others
read and write registers, scratchpad words, breakpoints, watchpoints, claims, grants and the record ring (R411 to R414). Its end clears what
it has set.
Where the spec leaves a point open, this is the model's choice: log entry 34. -/
def Obligations.DebugSessions : Prop :=
  ∀ (k : Nat) (s : State),
    let x := s.th k
    let u := unitOf k
    let gives (i : Instr) (h : State → Prop) : Prop := ∃ t, exec i s = .next t ∧ h t
    let place (j : Nat) : Nat :=
      if 576 ≤ unitOf j then 2 ^ 14 + dieOf (unitOf j) % 4 * 2 ^ 12 + (unitOf j - 576) % 4
      else dieOf (unitOf j) % 4 * 2 ^ 12 + yOf (unitOf j) * 2 ^ 8 + xOf (unitOf j) * 2 ^ 4 + j % 16
    let head := s.dbgMsgs.headD (0, 0)
    let answer (op target st : Nat) (ws : List Word) : DbgReply :=
      { op := op, target := target, seq := head.1, len := head.2, status := st, data := ws }
    let replied (t : State) (op target st : Nat) (ws : List Word) : Prop :=
      t.dbgReplies = s.dbgReplies ++ [answer op target st ws] ∧ t.dbgMsgs = s.dbgMsgs.tail
    let only (op target st : Nat) (ws : List Word) (t : State) : Prop :=
      t = { s with dbgMsgs := s.dbgMsgs.tail, dbgReplies := s.dbgReplies ++ [answer op target st ws] }
    let here := place k
    let unit := place (16 * u)
    (∀ parts,
      (s.session = none → gives (.chotalConnect parts) fun t => t = { s with session := some { parts := parts } }) ∧
      (s.session ≠ none → gives (.chotalConnect parts) fun t => t = s)) ∧
    (∀ (n : Nat) (all on tag rd wr : Bool) (v : Quad) (w : Word) (full : Option Bool) (slot : Option Nat) (pc : Option Word) (base size : Nat),
      let halted : List (Instr × Nat) :=
        [(.chotalResume k, 2), (.chotalStep k, 3), (.chotalDiscard k, 4), (.chotalRdreg k n, 5), (.chotalWrreg k n v tag, 6)]
      let slots : List (Instr × Nat) := [(.chotalHalt k all, 1), (.chotalClaim k on, 11), (.chotalGrant k on, 12)]
      let units : List (Instr × Nat) :=
        [(.chotalRdmem u n, 7), (.chotalWrmem u n w full, 8), (.chotalSetbp u n slot pc, 9), (.chotalSetwp u n base size rd wr, 10)]
      (s.session = none → ∀ i ∈ (halted ++ slots ++ units).map (·.1) ++ [.chotalRecords n, .chotalSessionEnd], gives i fun t => t = s) ∧
      (∀ y, s.session = some y → s.partOf u ∉ y.parts →
        (∀ i ∈ halted ++ slots, gives i.1 (only i.2 here 1 [])) ∧ ∀ i ∈ units, gives i.1 (only i.2 unit 1 [])) ∧
      (∀ y, s.session = some y → s.partOf u ∈ y.parts → x.run ≠ .halted → ∀ i ∈ halted, gives i.1 (only i.2 here 2 []))) ∧
    (s.session ≠ none → gives .chotalSessionEnd fun t => t.session = none ∧ t.dbgReplies = s.dbgReplies ∧ t.dbgMsgs = s.dbgMsgs ∧
      (k ∈ s.threads.keys → (t.th k).claim = false ∧ (t.th k).grant = false ∧ (t.th k).arch = { x.arch with status := { x.arch.status with dbg := false } }) ∧
      (u ∈ s.tiles.keys → (t.tile u).bps = Vector.replicate 8 none ∧ (t.tile u).wps = Vector.replicate 4 none ∧ (t.tile u).spad = (s.tile u).spad)) ∧
    (∀ n, s.session ≠ none → gives (.chotalRecords n) fun t => t.records = s.records.drop n ∧ t.threads = s.threads ∧
      replied t 13 0 0 ((s.records.take n).flatMap fun r => (List.range 4).map fun j => r.extractLsb' (64 * j) 64)) ∧
    (∀ y, s.session = some y → s.partOf u ∈ y.parts →
      (∀ all, gives (.chotalHalt k all) fun t => replied t 1 here 0 [] ∧ t.tiles = s.tiles ∧ ∀ j,
        t.th j = if (j = k ∨ (all = true ∧ j / 16 = u)) ∧ (s.th j).gone = false then { s.th j with stopAsk := some ((s.th j).stopAsk.getD 2) } else s.th j) ∧
      (∀ on : Bool,
        (gives (.chotalClaim k on) fun t => replied t 11 here 0 [] ∧ t.th k = { x with claim := on } ∧ ∀ j, j ≠ k → t.th j = s.th j) ∧
        gives (.chotalGrant k on) fun t => replied t 12 here 0 [] ∧ (∀ j, j ≠ k → t.th j = s.th j) ∧ t.th k =
          { x with grant := on, arch := if x.run = .vacant then x.arch else { x.arch with status := { x.arch.status with dbg := on } } }) ∧
      (∀ o,
        (¬(u < 576 ∧ o < 2 ^ 20 ∧ o % 8 = 0) → gives (.chotalRdmem u o) (only 7 unit 3 [])) ∧
        (u < 576 → o < 2 ^ 20 → o % 8 = 0 →
          let z := s.tile u
          let word := BitVec.ofNat 64 (leNat (z.spad.rdN o 8))
          let meta? : Word := BitVec.ofNat 64 ((if Sparse.get false z.tags (o / 16) then 2 ^ 13 else 0)
            + (if Sparse.get false z.empty (o / 8) then 0 else 2 ^ 12) + (Sparse.get 0 z.shadow (o / 8)).toNat)
          gives (.chotalRdmem u o) (only 7 unit 0 [word, meta?]))) ∧
      (∀ o (w : Word) (full : Option Bool),
        (¬(u < 576 ∧ o < 2 ^ 20 ∧ o % 8 = 0) → gives (.chotalWrmem u o w full) (only 8 unit 3 [])) ∧
        (u < 576 → o < 2 ^ 20 → o % 8 = 0 → s.portBusy u = true → gives (.chotalWrmem u o w full) fun t => t = s) ∧
        (u < 576 → o < 2 ^ 20 → o % 8 = 0 → s.portBusy u = false → Sparse.get [] (s.tile u).feq (o / 8) = [] →
          gives (.chotalWrmem u o w full) fun t => replied t 8 unit 0 [] ∧ t.portBusy u = true ∧ (t.tile u).spad.rdN o 8 = leBytes 8 w.toNat ∧
            (∀ a, a < o ∨ o + 8 ≤ a → (t.tile u).spad.rd a = (s.tile u).spad.rd a) ∧ t.threads = s.threads ∧
            Sparse.get false (t.tile u).empty (o / 8) = match full with | some b => !b | none => Sparse.get false (s.tile u).empty (o / 8))) ∧
      (∀ n slot pc,
        (8 ≤ n ∨ 15 < slot.getD 0 → gives (.chotalSetbp u n slot pc) (only 9 unit 3 [])) ∧
        (n < 8 → slot.getD 0 ≤ 15 → gives (.chotalSetbp u n slot pc) fun t => replied t 9 unit 0 [] ∧ t.threads = s.threads ∧
          t.tile u = { s.tile u with bps := (s.tile u).bps.setIfInBounds n (pc.map fun a => { slot := slot, pc := a }) })) ∧
      (∀ n base size (rd wr : Bool),
        let ok : Prop := 8 ≤ size ∧ size ≤ 4096 ∧ base % size = 0 ∧ base + size ≤ 2 ^ 20
        (4 ≤ n ∨ ((rd || wr) = true ∧ ¬ok) → gives (.chotalSetwp u n base size rd wr) (only 10 unit 3 [])) ∧
        (n < 4 → (rd || wr) = false ∨ ok → gives (.chotalSetwp u n base size rd wr) fun t => replied t 10 unit 0 [] ∧ t.threads = s.threads ∧
          t.tile u = { s.tile u with
            wps := (s.tile u).wps.setIfInBounds n (if rd || wr then some { base := base, size := size, rd := rd, wr := wr } else none) })) ∧
      (x.run = .halted →
        (∀ step : Bool, gives (if step then .chotalStep k else .chotalResume k) fun t => replied t (if step then 3 else 2) here 0 [] ∧ t.tiles = s.tiles ∧
          t.th k = { x with run := .running, passBp := true, stopAsk := none, stepping := step } ∧ ∀ j, j ≠ k → t.th j = s.th j) ∧
        (gives (.chotalDiscard k) fun t => replied t 4 here 0 [] ∧ (t.th k).run = .vacant ∧ ∀ m ∈ t.monRegs, m.thread ≠ k) ∧
        (∀ n v tag,
          (s.dbgReg k n = none → gives (.chotalRdreg k n) (only 5 here 3 []) ∧ gives (.chotalWrreg k n v tag) (only 6 here 3 [])) ∧
          (∀ z, s.dbgReg k n = some z → gives (.chotalRdreg k n) (only 5 here 0 [z.lo, z.hi, if z.tag then 1 else 0]) ∧
            gives (.chotalWrreg k n v tag) fun t => replied t 6 here 0 [] ∧ ∀ j, j ≠ k → t.th j = s.th j)) ∧
        (∀ (n : Fin 32) v tag, s.dbgReg k n.val = some x.arch.regs[n] ∧
          gives (.chotalWrreg k n.val v tag) fun t => (t.th k).arch = { x.arch with regs := x.arch.regs.set n { data := v, tag := tag } }) ∧
        (∀ v tag, s.dbgReg k 32 = some (val64 x.arch.pc) ∧ s.dbgReg k 33 = some x.arch.xcap ∧ s.dbgReg k 34 = none ∧
          (gives (.chotalWrreg k 32 v tag) fun t => (t.th k).arch = { x.arch with pc := v.extractLsb' 0 64 }) ∧
          gives (.chotalWrreg k 33 v tag) fun t => (t.th k).arch = { x.arch with xcap := { data := v, tag := tag } })))

/-! ### Control space, the package and its surroundings -/

/-- Writes of control space (R430 to R433): NODEID until boot is complete, SYSROOT, the core contexts with their reserved bits 0, in force at once
or, of a store, when its acknowledgement has come back (R196), the thresholds,
the partitions, windows, scheduler memory with PREDLEFT 0 after a write of a GRAPH line (R141), and the route table. A PCFG write that would
overlap, leave the grid or move an enabled partition is not made; one that enables a partition gives its tiles to it with zero scratchpads, and one
that disables it aborts its instances (R432). LOCKPASID fills the locked regions (R208), FABANK resets the banks it reassigns (R340). An
invalidation drops what it names at once and is complete when no walk from before it is left (R201).
Where the spec leaves a point open, this is the model's choice: log entries 38, 39 and 41. -/
def Obligations.ControlSpace : Prop :=
  ∀ (s : State) (v : Word),
    let gives (i : Instr) (h : State → Prop) : Prop := ∃ t, exec i s = .next t ∧ h t
    gives (.nodeidWrite v) (fun t => t = { s with nodeid := if s.boot < 4 then v.extractLsb' 0 18 else s.nodeid }) ∧
    gives (.sysrootWrite v) (fun t => t = { s with sysroot := v &&& 0x3FFFFFFFE000 }) ∧
    (∀ n, n < 16 → gives (.scctxWrite n v) fun t =>
      let asked := s.pkts.any fun p => p.back && decide (p.answer = .ack) && decide (p.paddr = ctlBase + 0x480 + 8 * n) && !p.host
      let set (w : Vector Word 16) : Vector Word 16 := w.setIfInBounds n (v &&& 0x3E0FFFFF)
      t = { s with scctx := set s.scctx, coreCtx := if asked then s.coreCtx else set s.coreCtx }) ∧
    (let q := ((v.extractLsb' 0 20).toNat, (s.invva.extractLsb' 17 40).toNat * 2 ^ 17, s.invcnt.toNat)
     let named (e : TlbEntry) : Bool :=
       decide ((e.ctx % 2 ^ 20 = q.1 ∨ 24 ≤ e.ctx / 2 ^ 20) ∧
         (q.2.2 = 0 ∨ (e.vpn * 2 ^ levelLo e.level < q.2.1 + q.2.2 * 2 ^ 17 ∧ q.2.1 < (e.vpn + 1) * 2 ^ levelLo e.level)))
     (16 ≤ s.invq.length → gives (.invgo v) fun t => t = s) ∧
     (0 < s.invq.length → s.invq.length < 16 → gives (.invgo v) fun t => t = { s with invq := s.invq ++ [q] }) ∧
     (s.invq = [] → gives (.invgo v) fun t => t.invq = [q] ∧ ∀ k, (t.station k).tlb = (s.station k).tlb.filter (fun e => !named e) ∧
       (t.station k).walks = (s.station k).walks.map fun w => { w with noCache := true })) ∧
    (∀ q rest, s.invq = q :: rest →
      ((∃ k ∈ s.stations.keys, ∃ w ∈ (s.station k).walks, w.noCache = true) → gives .invalidationComplete fun t => t = s) ∧
      ((∀ e ∈ s.stations, ∀ w ∈ e.2.walks, w.noCache = false) → gives .invalidationComplete fun t => t.invq = rest ∧ t.invseq = s.invseq + 1)) ∧
    (∀ d h, d < 4 → h < 2 → gives (.fabankWrite d h v) fun t => t.fabank = s.fabank.setIfInBounds (2 * d + h) v ∧ t.tiles = s.tiles ∧
      ∀ b, b < 8 →
        (v.extractLsb' (8 * b) 8 = (s.fabank.toList.getD (2 * d + h) 0).extractLsb' (8 * b) 8 → (t.faOf d).bank (8 * h + b) = (s.faOf d).bank (8 * h + b)) ∧
        (v.extractLsb' (8 * b) 8 ≠ (s.fabank.toList.getD (2 * d + h) 0).extractLsb' (8 * b) 8 → (t.faOf d).bank (8 * h + b) = {} ∧
          ∀ n, n < faCells → (t.faOf d).cell (8 * h + b) n = {})) ∧
    (∀ p, p < 24 →
      let x := s.partn p
      let va := x.lockva.toNat % 2 ^ 57 / 0x2000 * 0x2000
      let new : Partition := { x with pcfg := v &&& 0xFFFF7 }
      let others := ∃ n, n < 24 ∧ n ≠ p ∧ (s.partn n).en = true ∧ (s.partn n).overlaps new = true
      gives (.lockpasidWrite p v) (fun t => (t.partn p) = { x with lockpasid := v } ∧ ∀ u, u < 576 →
        (x.hasTile u = false → t.tile u = s.tile u) ∧
        (x.hasTile u = true →
          match s.globalRd p (v.extractLsb' 0 20).toNat va 0x2000 with
          | .ok bs => (t.tile u).locked = bs ∧ (t.tile u).lockVa = some (va, (v.extractLsb' 0 20).toNat)
          | .error _ => (t.tile u).locked = [] ∧ (t.tile u).lockVa = none)) ∧
      ((x.en = true ∧ x.pcfg.extractLsb' 4 16 ≠ v.extractLsb' 4 16) ∨ (new.en = true ∧ (new.inGrid = false ∨ others)) →
        gives (.pcfgWrite p v) fun t => t = s) ∧
      (x.en = false → new.en = true → new.inGrid = true → ¬others → gives (.pcfgWrite p v) fun t => t.partn p = new ∧ t.insts = s.insts ∧
        ∀ u, u < 576 →
          (new.hasTile u = false → t.tile u = s.tile u) ∧
          (new.hasTile u = true → (t.tile u).part = some p ∧ (t.tile u).spad = [] ∧ (t.tile u).empty = [] ∧ (t.tile u).tags = [] ∧
            (t.tile u).mx.owner = [])) ∧
      (x.en = true → x.pcfg.extractLsb' 4 16 = v.extractLsb' 4 16 → new.en = false → gives (.pcfgWrite p v) fun t => t.partn p = new ∧
        (∀ i ∈ t.insts, i.part ≠ p) ∧ ∀ u, u < 576 → x.hasTile u = true → (t.tile u).part = none) ∧
      (let w (o : Nat) (y : Partition) : Prop :=
         gives (.controlRegisterWrite (0x100000 + 0x1000 * p + o) v) fun t => t = { s with parts := t.parts } ∧ t.partn p = y ∧ ∀ n, n ≠ p → t.partn n = s.partn n
       w 0x08 { x with tbase := v } ∧ w 0x10 { x with tlen := v } ∧ w 0x18 { x with ctxbase := v } ∧ w 0x20 { x with nctx := v } ∧
         w 0x28 { x with lockva := v } ∧ w 0x40 { x with hveclo := v } ∧ w 0x48 { x with hvechi := v })) ∧
    (∀ n, n < 388 →
      let peers := (List.range 384).filter fun m => decide (m ≠ n ∧ (s.window m).wcfg.getLsbD 28 = true ∧
        (s.window m).wcfg.extractLsb' 29 5 = v.extractLsb' 29 5)
      let ok : Prop := s.wcfgOk v = true ∧ (n < 384 → v.getLsbD 28 = true → peers.length < 16)
      (ok → gives (.wcfgWrite n v) fun t => t = { s with windows := t.windows } ∧ t.window n = { s.window n with wcfg := v } ∧
        ∀ m, m ≠ n → t.window m = s.window m) ∧
      (¬ok → gives (.wcfgWrite n v) fun t => t = s) ∧
      gives (.controlRegisterWrite (0x200000 + 0x100 * n) v) fun t => t.window n = { s.window n with lpatch := v } ∧ ∀ m, m ≠ n → t.window m = s.window m) ∧
    (let w (o : Nat) (y : State) : Prop := gives (.controlRegisterWrite o v) fun t => t = y
     w 0x100 { s with invva := v &&& 0x1FFFFFFFFFFFFFF } ∧ w 0x108 { s with invcnt := v } ∧ w 0x200 { s with thrport := v &&& 0xFFFF } ∧
       w 0x208 { s with thrdram := v &&& 0xFFFF } ∧ w 0x210 { s with thrmargin := v &&& 0xFFFF }) ∧
    (∀ o, o % 8 = 0 → o < 0x800000 → gives (.controlRegisterWrite (0x400000 + o) v) fun t => t = { s with nodes := t.nodes } ∧
      let g := o / 512 * 512 + 0x50
      (∀ a, a % 8 = 0 → a ≠ o → a ≠ g → t.nodes.rdWord a = s.nodes.rdWord a) ∧
      (o % 512 / 64 ≠ 1 → t.nodes.rdWord o = v ∧ (g ≠ o → t.nodes.rdWord g = s.nodes.rdWord g)) ∧
      (o % 512 / 64 = 1 → (o ≠ g → t.nodes.rdWord o = v) ∧
        t.nodes.rdWord g = (if o = g then v else s.nodes.rdWord g) &&& ~~~0xFFF0000)) ∧
    (∀ o, o % 8 = 0 → o < 0x40000 → gives (.controlRegisterWrite (0xC00000 + o) v) fun t => t = { s with routes := t.routes } ∧
      (∀ k : Fin 8, Sparse.get 0xFF t.routes (o + k.val) = v.extractLsb' (8 * k.val) 8) ∧
      ∀ a, a < o ∨ o + 8 ≤ a → Sparse.get 0xFF t.routes a = Sparse.get 0xFF s.routes a)

/-- Health and power: a step of a conformateur counts for its place, and at the threshold a record goes out; a cluster without margin is fenced, as
system software fences a tile, at once or when its gangs have retired; twelve fenced tiles, or a station or channel lost, raise REPLACE (R424 to
R427). The guard moves the clock by 25 MHz every 2^16 cycles, a trip removes power, and a power-on reset begins the boot again with what outlasts it
(R436, R440). Boot: with valid images the sixteen cores start in mode 2, and READY brings up the ports (R436, R439). The host reads and writes
through BAR2, rings the doorbell, and has no AtomicOp; the fabric counts resent flits, loses lanes, and performs the requests of other packages
(R205, R434, R435, R437 to R439).
Where the spec leaves a point open, this is the model's choice: log entries 10, 36 and 37. -/
def Obligations.Package : Prop :=
  ∀ s : State,
    let gives (i : Instr) (h : State → Prop) : Prop := ∃ t, exec i s = .next t ∧ h t
    let counted (t : State) (place thr : Nat) : Prop :=
      let n := Sparse.get 0 s.predict place + 1
      (thr = 0 ∨ n < thr → Sparse.get 0 t.predict place = n ∧ t.records = s.records) ∧
      (thr ≠ 0 → thr ≤ n → Sparse.get 0 t.predict place = 0 ∧ s.told t fun r => r.extractLsb' 85 3 = 4)
    let down (t : State) (u : Nat) : Prop :=
      if (s.tile u).fenced = true ∨ ((s.tile u).gang = none ∧ (s.tile u).saved = []) then (t.tile u).fenced = true
      else (t.tile u).fenced = false ∧ (t.tile u).fenceAsk = true
    let warned (t : State) : Prop :=
      (12 ≤ ((List.range 576).filter fun u => (t.tile u).fenced).length ∨ 0 < t.lost → t.replace = true) ∧ (s.replace = true → t.replace = true)
    (∀ a b, 4 ≤ s.boot → s.now % 2 ^ 40 ≠ 0 → gives (.conformateurMeasure a b) fun t => t = s) ∧
    (∀ n, n < 144 → s.boot < 4 ∨ s.now % 2 ^ 40 = 0 →
      (gives (.conformateurMeasure [n] []) fun t => counted t (1000 + n) (s.thrmargin.extractLsb' 0 16).toNat ∧ t.tiles = s.tiles) ∧
      gives (.conformateurMeasure [] [n]) fun t => warned t ∧ (s.told t fun r => r.extractLsb' 85 3 = 4) ∧
        ∀ x y, x < 2 → y < 2 → down t (tileAt (n / 36) (2 * (n % 6) + x) (2 * (n % 36 / 6) + y))) ∧
    (∀ u, u < 576 → gives (.softwareTileFence u) fun t => down t u ∧ warned t ∧ (∀ v, v ≠ u → t.tile v = s.tile v) ∧ (t.tile u).spad = (s.tile u).spad) ∧
    (∀ k, gives (.stationOrChannelLost k) fun t => t.lost = s.lost + 1 ∧ t.replace = true ∧ t.tiles = s.tiles ∧
      ∀ n, k = some n → n < 96 → t.station n = { s.station n with lost := true }) ∧
    (∀ watts celsius,
      let clocked (c : Nat) : Prop := gives (.guardSample watts celsius) fun t => t.clock = c ∧ t.tsync = (s.tsync && decide (2400 ≤ c)) ∧
        t.tsyncEnded = (s.tsyncEnded || decide (c < 2400))
      (s.now % 2 ^ 16 ≠ 0 → gives (.guardSample watts celsius) fun t => t = s) ∧
      (s.now % 2 ^ 16 = 0 →
        (2100 < watts ∨ 95 < celsius → clocked (max 1200 (s.clock - 25))) ∧
        (watts < 1995 → celsius ≤ 95 → clocked (min 2400 (s.clock + 25))) ∧
        (1995 ≤ watts → watts ≤ 2100 → celsius ≤ 95 → gives (.guardSample watts celsius) fun t => t = s))) ∧
    gives .thermalTrip (fun t => t = { s with power := false, tripped := true, agenda := [], turns := [], late := [] }) ∧
    (Sparse.wf {} s.tiles = true → Sparse.wf {} s.stations = true → gives .powerOnReset fun t =>
      t.power = true ∧ t.boot = 0 ∧ t.now = State.reset.now ∧ t.threads = State.reset.threads ∧ t.dram = State.reset.dram ∧ t.insts = [] ∧
        t.hostMem = s.hostMem ∧ t.foreign = s.foreign ∧ t.lost = s.lost ∧
        (∀ u, t.tile u = { fenced := (s.tile u).fenced }) ∧ (∀ k, t.station k = { lost := (s.station k).lost }) ∧
        (s.tripped = false → t.records = s.records) ∧ (s.tripped = true → s.told t fun r => r.extractLsb' 85 3 = 4)) ∧
    (∀ root : Word,
      (1 < s.boot → ∀ ok, gives (.bootImageVerify ok root) fun t => t = s) ∧
      (s.boot ≤ 1 → (gives (.bootImageVerify false root) fun t => t = { s with boot := 15 }) ∧
        gives (.bootImageVerify true root) fun t => t.boot = 2 ∧ t.sysroot = root &&& 0x3FFFFFFFE000 ∧
          ∀ n, n < 16 → let x := t.th (16 * (576 + n)); x.run = .running ∧ x.arch.status.mode = 2 ∧ x.arch.xcap.tag = true)) ∧
    (s.boot ≠ 2 → s.boot ≠ 3 → gives .bootReady fun t => t = s) ∧
    (s.boot = 2 ∨ s.boot = 3 → gives .bootReady fun t => t.boot = 4 ∧ (∀ n : Fin 16, t.ports[n].lanes ∈ [0, 1, 3, 15, 255] ∧
      t.ports[n].retries = s.ports[n].retries) ∧ (t.tsync = true ↔ s.tsyncEnded = false ∧ ∃ n : Fin 16, t.ports[n].lanes ≠ 0)) ∧
    (∀ (vf : Nat) (va : Word) (size : Nat) (q : Quad),
      let w := s.window vf
      let open_ : Prop := vf < 384 ∧ w.wcfg.getLsbD 28 = true
      (¬open_ → (gives (.bar2Access vf va size none) fun t => t = { s with hostReads := s.hostReads ++ [none] }) ∧
        gives (.bar2Access vf va size (some q)) fun t => t = s) ∧
      (open_ → pagePieces (va.toNat % 2 ^ 36) size = [(va.toNat % 2 ^ 36, size)] →
        (match s.hostPlace (w.launch vf) (va.toNat % 2 ^ 36) (true, false, false) with
         | none => gives (.bar2Access vf va size none) fun t => t = { s with hostReads := s.hostReads ++ [none] }
         | some ph => gives (.bar2Access vf va size none) fun t => t = { s with hostReads := s.hostReads ++ [some (s.physRd ph size)] }) ∧
        match s.hostPlace (w.launch vf) (va.toNat % 2 ^ 36) (false, true, false) with
        | none => gives (.bar2Access vf va size (some q)) fun t => t.dram = s.dram ∧ s.told t fun r => r.extractLsb' 85 3 = 4
        | some ph => gives (.bar2Access vf va size (some q)) fun t => t.physRd ph size = leBytes size q.toNat ∧ t.records = s.records)) ∧
    (∀ v, gives (.pfDoorbell v) fun t => t = { s with doorbell := v, doorbells := s.doorbells + 1 }) ∧
    (∀ vf va, gives (.hostAtomicop vf va) fun t => t = { s with hostReads := s.hostReads ++ [none] }) ∧
    (∀ (n : Fin 16) (l : Nat), l < 8 →
      let lanes := s.ports[n].lanes &&& ~~~((1 : BitVec 8) <<< l)
      (gives (.flitCrcRetry n.val l) fun t => counted t (8 * n.val + l) (s.thrport.extractLsb' 0 16).toNat ∧ t.ports[n] =
        { s.ports[n] with retries := if s.ports[n].retries = 0xFFFFFFFF then 0xFFFFFFFF else s.ports[n].retries + 1 }) ∧
      gives (.laneLoss n.val l) fun t => t.ports = s.ports.set n { s.ports[n] with lanes := lanes } ∧
        (t.tsync = true ↔ s.tsync = true ∧ ∃ m : Fin 16, t.ports[m].lanes ≠ 0)) ∧
    (∀ port, gives (.tsyncMessage port) fun t => t = s) ∧
    (∀ (node pa : Nat) (z : Nat) (op : Option AmoOp) (q : Quad) (c : Word),
      (0x6000000000 < pa + z → gives (.fabricRequestArrival node pa op z (some q) c) fun t => t = s) ∧
      (pa + z ≤ 0x6000000000 →
        (gives (.fabricRequestArrival node pa op z none c) fun t => t = s) ∧
        (gives (.fabricRequestArrival node pa none z (some q) c) fun t => t.dram.rdN pa z = leBytes z q.toNat ∧ t.threads = s.threads ∧
          ∀ a, a < pa ∨ pa + z ≤ a → t.dram.rd a = s.dram.rd a) ∧
        ∀ o, gives (.fabricRequestArrival node pa (some o) z (some q) c) fun t => t.threads = s.threads ∧
          let old := leNat (s.dram.rdN pa z)
          leNat (t.dram.rdN pa z) = (amoNew o (8 * z) old (q.extractLsb' 0 64).toNat c.toNat).getD old ∧
          ∀ a, a < pa ∨ pa + z ≤ a → t.dram.rd a = s.dram.rd a))
end

