-- ==== Sys2Proof/Laws/Sparse.lean ====
section
/-! SUPPORT. Reading a sparse map after a change, and its canonical form. -/

namespace Sys2Proof.Machine

variable {α : Type}

theorem Sparse.get_erase_self (d : α) (m : Sparse α) (k : Nat) : Sparse.get d (Sparse.erase k m) k = d := by
  induction m with
  | nil => rfl
  | cons e m ih =>
    obtain ⟨a, v⟩ := e
    simp only [Sparse.erase]
    split
    · exact ih
    · simp only [Sparse.get]; rw [if_neg ‹_›]; exact ih

theorem Sparse.get_erase_of_ne (d : α) (m : Sparse α) {k j : Nat} (h : j ≠ k) :
    Sparse.get d (Sparse.erase k m) j = Sparse.get d m j := by
  induction m with
  | nil => rfl
  | cons e m ih =>
    obtain ⟨a, v⟩ := e
    simp only [Sparse.erase]
    split
    · subst a; simp only [Sparse.get]; rw [if_neg (Ne.symm h)]; exact ih
    · simp only [Sparse.get]; split
      · rfl
      · exact ih

theorem Sparse.get_insert_of_ne (d : α) (m : Sparse α) (v : α) {k j : Nat} (h : j ≠ k) :
    Sparse.get d (Sparse.insert k v m) j = Sparse.get d m j := by
  induction m with
  | nil => simp only [Sparse.insert, Sparse.get]; rw [if_neg (Ne.symm h)]
  | cons e m ih =>
    obtain ⟨a, x⟩ := e
    simp only [Sparse.insert]
    split
    · simp only [Sparse.get]; rw [if_neg (Ne.symm h)]
    · simp only [Sparse.get]; split
      · rfl
      · exact ih

theorem Sparse.get_insert_erase (d : α) (m : Sparse α) (k : Nat) (v : α) :
    Sparse.get d (Sparse.insert k v (Sparse.erase k m)) k = v := by
  induction m with
  | nil => simp [Sparse.erase, Sparse.insert, Sparse.get]
  | cons e m ih =>
    obtain ⟨a, x⟩ := e
    simp only [Sparse.erase]
    split
    · exact ih
    · simp only [Sparse.insert]; split
      · simp [Sparse.get]
      · simp only [Sparse.get]; rw [if_neg ‹¬a = k›]; exact ih

/-- A read after a write to the same key gives the value written. -/
@[simp] theorem Sparse.get_set_self [DecidableEq α] (d : α) (m : Sparse α) (k : Nat) (v : α) :
    Sparse.get d (Sparse.set d m k v) k = v := by
  unfold Sparse.set
  split
  · subst v; exact Sparse.get_erase_self d m k
  · exact Sparse.get_insert_erase d m k v

/-- A write leaves every other key alone. -/
theorem Sparse.get_set_of_ne [DecidableEq α] (d : α) (m : Sparse α) (v : α) {k j : Nat} (h : j ≠ k) :
    Sparse.get d (Sparse.set d m k v) j = Sparse.get d m j := by
  unfold Sparse.set
  split
  · exact Sparse.get_erase_of_ne d m h
  · rw [Sparse.get_insert_of_ne d _ v h]; exact Sparse.get_erase_of_ne d m h

/-! ### The canonical form -/

theorem Sparse.wfFrom_mono [DecidableEq α] {d : α} {m : Sparse α} {a b : Nat} (hab : b ≤ a) (h : Sparse.wfFrom d a m = true) :
    Sparse.wfFrom d b m = true := by
  cases m with
  | nil => rfl
  | cons e m =>
    obtain ⟨k, v⟩ := e
    simp only [Sparse.wfFrom, Bool.and_eq_true, decide_eq_true_eq] at h ⊢
    exact ⟨⟨by omega, h.1.2⟩, h.2⟩

theorem Sparse.wfFrom_erase [DecidableEq α] {d : α} {m : Sparse α} {lo : Nat} (k : Nat) (h : Sparse.wfFrom d lo m = true) :
    Sparse.wfFrom d lo (Sparse.erase k m) = true := by
  induction m generalizing lo with
  | nil => rfl
  | cons e m ih =>
    obtain ⟨a, v⟩ := e
    simp only [Sparse.wfFrom, Bool.and_eq_true, decide_eq_true_eq] at h
    simp only [Sparse.erase]
    split
    · exact Sparse.wfFrom_mono (by omega) (ih h.2)
    · simp only [Sparse.wfFrom, Bool.and_eq_true, decide_eq_true_eq]; exact ⟨h.1, ih h.2⟩

theorem Sparse.wfFrom_insert_erase [DecidableEq α] {d v : α} {m : Sparse α} {lo k : Nat} (hv : v ≠ d) (hk : lo ≤ k)
    (h : Sparse.wfFrom d lo m = true) : Sparse.wfFrom d lo (Sparse.insert k v (Sparse.erase k m)) = true := by
  induction m generalizing lo with
  | nil => simp [Sparse.erase, Sparse.insert, Sparse.wfFrom, hk, hv]
  | cons e m ih =>
    obtain ⟨a, x⟩ := e
    simp only [Sparse.wfFrom, Bool.and_eq_true, decide_eq_true_eq] at h
    simp only [Sparse.erase]
    split
    · exact ih hk (Sparse.wfFrom_mono (by omega) h.2)
    · simp only [Sparse.insert]
      split
      · simp only [Sparse.wfFrom, Bool.and_eq_true, decide_eq_true_eq]
        exact ⟨⟨hk, hv⟩, ⟨by omega, h.1.2⟩, Sparse.wfFrom_erase k h.2⟩
      · simp only [Sparse.wfFrom, Bool.and_eq_true, decide_eq_true_eq]
        exact ⟨h.1, ih (by omega) h.2⟩

/-- A write keeps the canonical form. -/
theorem Sparse.wf_set [DecidableEq α] {d : α} {m : Sparse α} (k : Nat) (v : α) (h : Sparse.wf d m = true) :
    Sparse.wf d (Sparse.set d m k v) = true := by
  unfold Sparse.set
  split
  · exact Sparse.wfFrom_erase k h
  · exact Sparse.wfFrom_insert_erase ‹_› (Nat.zero_le k) h

theorem Sparse.get_of_wfFrom [DecidableEq α] {d : α} {m : Sparse α} {lo k : Nat} (h : Sparse.wfFrom d lo m = true) (hk : k < lo) :
    Sparse.get d m k = d := by
  induction m generalizing lo with
  | nil => rfl
  | cons e m ih =>
    obtain ⟨a, v⟩ := e
    simp only [Sparse.wfFrom, Bool.and_eq_true, decide_eq_true_eq] at h
    simp only [Sparse.get]
    rw [if_neg (by omega)]
    exact ih h.2 (by omega)

theorem Sparse.ext_from [DecidableEq α] {d : α} {m n : Sparse α} {lo : Nat} (hm : Sparse.wfFrom d lo m = true)
    (hn : Sparse.wfFrom d lo n = true) (h : ∀ k, lo ≤ k → Sparse.get d m k = Sparse.get d n k) : m = n := by
  induction m generalizing lo n with
  | nil =>
    cases n with
    | nil => rfl
    | cons e n =>
      obtain ⟨b, w⟩ := e
      simp only [Sparse.wfFrom, Bool.and_eq_true, decide_eq_true_eq] at hn
      have := h b hn.1.1
      simp only [Sparse.get, if_true] at this
      exact absurd this.symm hn.1.2
  | cons e m ih =>
    obtain ⟨a, v⟩ := e
    simp only [Sparse.wfFrom, Bool.and_eq_true, decide_eq_true_eq] at hm
    cases n with
    | nil =>
      have := h a hm.1.1
      simp only [Sparse.get, if_true] at this
      exact absurd this hm.1.2
    | cons f n =>
      obtain ⟨b, w⟩ := f
      simp only [Sparse.wfFrom, Bool.and_eq_true, decide_eq_true_eq] at hn
      have hab : a = b := by
        rcases Nat.lt_trichotomy a b with hlt | heq | hgt
        · have := h a hm.1.1
          simp only [Sparse.get, if_true] at this
          rw [if_neg (by omega), Sparse.get_of_wfFrom hn.2 (by omega)] at this
          exact absurd this hm.1.2
        · exact heq
        · have := h b hn.1.1
          simp only [Sparse.get, if_true] at this
          rw [if_neg (by omega), Sparse.get_of_wfFrom hm.2 (by omega)] at this
          exact absurd this.symm hn.1.2
      subst hab
      have hv := h a hm.1.1
      simp only [Sparse.get, if_true] at hv
      subst hv
      rw [ih hm.2 hn.2 fun k hk => by
        have := h k (by omega)
        simp only [Sparse.get] at this
        rwa [if_neg (by omega), if_neg (by omega)] at this]

/-- Two maps in canonical form that read alike are the same list. -/
theorem Sparse.ext_of_wf [DecidableEq α] {d : α} {m n : Sparse α} (hm : Sparse.wf d m = true) (hn : Sparse.wf d n = true)
    (h : ∀ k, Sparse.get d m k = Sparse.get d n k) : m = n :=
  Sparse.ext_from hm hn fun k _ => h k

end Sys2Proof.Machine
end

