-- ==== Sys2Proof/Laws/State.lean ====
section
/-! SUPPORT. What the changes of a state, a thread and a tile leave alone, one lemma for each field and change. -/

namespace Sys2Proof.Machine

section fields
variable (s s' : State) (t u k : Nat) (x : Thread) (y : Tile) (f : Thread → Thread) (g : Tile → Tile) (h : Arch → Arch)
variable (st : Station → Station) (wf : Window → Window) (pf : Partition → Partition)

/-! ### setTh -/

@[simp] theorem State.setTh_now : (s.setTh t x).now = s.now := rfl
@[simp] theorem State.setTh_tstamp : (s.setTh t x).tstamp = s.tstamp := rfl
@[simp] theorem State.setTh_power : (s.setTh t x).power = s.power := rfl
@[simp] theorem State.setTh_inputs : (s.setTh t x).inputs = s.inputs := rfl
@[simp] theorem State.setTh_turns : (s.setTh t x).turns = s.turns := rfl
@[simp] theorem State.setTh_agenda : (s.setTh t x).agenda = s.agenda := rfl
@[simp] theorem State.setTh_late : (s.setTh t x).late = s.late := rfl
@[simp] theorem State.setTh_mishaps : (s.setTh t x).mishaps = s.mishaps := rfl
@[simp] theorem State.setTh_cur : (s.setTh t x).cur = s.cur := rfl
@[simp] theorem State.setTh_tiles : (s.setTh t x).tiles = s.tiles := rfl
@[simp] theorem State.setTh_pkts : (s.setTh t x).pkts = s.pkts := rfl
@[simp] theorem State.setTh_nextPkt : (s.setTh t x).nextPkt = s.nextPkt := rfl
@[simp] theorem State.setTh_notices : (s.setTh t x).notices = s.notices := rfl
@[simp] theorem State.setTh_monRegs : (s.setTh t x).monRegs = s.monRegs := rfl
@[simp] theorem State.setTh_monNotes : (s.setTh t x).monNotes = s.monNotes := rfl
@[simp] theorem State.setTh_qt : (s.setTh t x).qt = s.qt := rfl
@[simp] theorem State.setTh_fa : (s.setTh t x).fa = s.fa := rfl
@[simp] theorem State.setTh_hoods : (s.setTh t x).hoods = s.hoods := rfl
@[simp] theorem State.setTh_stations : (s.setTh t x).stations = s.stations := rfl
@[simp] theorem State.setTh_dram : (s.setTh t x).dram = s.dram := rfl
@[simp] theorem State.setTh_dramBad : (s.setTh t x).dramBad = s.dramBad := rfl
@[simp] theorem State.setTh_hostMem : (s.setTh t x).hostMem = s.hostMem := rfl
@[simp] theorem State.setTh_hostBad : (s.setTh t x).hostBad = s.hostBad := rfl
@[simp] theorem State.setTh_foreign : (s.setTh t x).foreign = s.foreign := rfl
@[simp] theorem State.setTh_nodes : (s.setTh t x).nodes = s.nodes := rfl
@[simp] theorem State.setTh_insts : (s.setTh t x).insts = s.insts := rfl
@[simp] theorem State.setTh_nextInst : (s.setTh t x).nextInst = s.nextInst := rfl
@[simp] theorem State.setTh_windows : (s.setTh t x).windows = s.windows := rfl
@[simp] theorem State.setTh_parts : (s.setTh t x).parts = s.parts := rfl
@[simp] theorem State.setTh_votes : (s.setTh t x).votes = s.votes := rfl
@[simp] theorem State.setTh_leaderLogs : (s.setTh t x).leaderLogs = s.leaderLogs := rfl
@[simp] theorem State.setTh_nodeid : (s.setTh t x).nodeid = s.nodeid := rfl
@[simp] theorem State.setTh_sysroot : (s.setTh t x).sysroot = s.sysroot := rfl
@[simp] theorem State.setTh_scctx : (s.setTh t x).scctx = s.scctx := rfl
@[simp] theorem State.setTh_coreCtx : (s.setTh t x).coreCtx = s.coreCtx := rfl
@[simp] theorem State.setTh_boot : (s.setTh t x).boot = s.boot := rfl
@[simp] theorem State.setTh_clock : (s.setTh t x).clock = s.clock := rfl
@[simp] theorem State.setTh_tsync : (s.setTh t x).tsync = s.tsync := rfl
@[simp] theorem State.setTh_tsyncEnded : (s.setTh t x).tsyncEnded = s.tsyncEnded := rfl
@[simp] theorem State.setTh_lost : (s.setTh t x).lost = s.lost := rfl
@[simp] theorem State.setTh_replace : (s.setTh t x).replace = s.replace := rfl
@[simp] theorem State.setTh_invva : (s.setTh t x).invva = s.invva := rfl
@[simp] theorem State.setTh_invcnt : (s.setTh t x).invcnt = s.invcnt := rfl
@[simp] theorem State.setTh_invq : (s.setTh t x).invq = s.invq := rfl
@[simp] theorem State.setTh_invseq : (s.setTh t x).invseq = s.invseq := rfl
@[simp] theorem State.setTh_thrport : (s.setTh t x).thrport = s.thrport := rfl
@[simp] theorem State.setTh_thrdram : (s.setTh t x).thrdram = s.thrdram := rfl
@[simp] theorem State.setTh_thrmargin : (s.setTh t x).thrmargin = s.thrmargin := rfl
@[simp] theorem State.setTh_fabank : (s.setTh t x).fabank = s.fabank := rfl
@[simp] theorem State.setTh_ports : (s.setTh t x).ports = s.ports := rfl
@[simp] theorem State.setTh_routes : (s.setTh t x).routes = s.routes := rfl
@[simp] theorem State.setTh_msix : (s.setTh t x).msix = s.msix := rfl
@[simp] theorem State.setTh_hostReads : (s.setTh t x).hostReads = s.hostReads := rfl
@[simp] theorem State.setTh_doorbell : (s.setTh t x).doorbell = s.doorbell := rfl
@[simp] theorem State.setTh_doorbells : (s.setTh t x).doorbells = s.doorbells := rfl
@[simp] theorem State.setTh_records : (s.setTh t x).records = s.records := rfl
@[simp] theorem State.setTh_recordsLost : (s.setTh t x).recordsLost = s.recordsLost := rfl
@[simp] theorem State.setTh_ringFull : (s.setTh t x).ringFull = s.ringFull := rfl
@[simp] theorem State.setTh_quarterSeq : (s.setTh t x).quarterSeq = s.quarterSeq := rfl
@[simp] theorem State.setTh_session : (s.setTh t x).session = s.session := rfl
@[simp] theorem State.setTh_dbgMsgs : (s.setTh t x).dbgMsgs = s.dbgMsgs := rfl
@[simp] theorem State.setTh_dbgReplies : (s.setTh t x).dbgReplies = s.dbgReplies := rfl
@[simp] theorem State.setTh_predict : (s.setTh t x).predict = s.predict := rfl
@[simp] theorem State.setTh_fresh : (s.setTh t x).fresh = s.fresh := rfl
@[simp] theorem State.setTh_nextCmd : (s.setTh t x).nextCmd = s.nextCmd := rfl
@[simp] theorem State.setTh_lastSample : (s.setTh t x).lastSample = s.lastSample := rfl
@[simp] theorem State.setTh_tripped : (s.setTh t x).tripped = s.tripped := rfl

/-! ### modTh -/

@[simp] theorem State.modTh_now : (s.modTh t f).now = s.now := rfl
@[simp] theorem State.modTh_tstamp : (s.modTh t f).tstamp = s.tstamp := rfl
@[simp] theorem State.modTh_power : (s.modTh t f).power = s.power := rfl
@[simp] theorem State.modTh_inputs : (s.modTh t f).inputs = s.inputs := rfl
@[simp] theorem State.modTh_turns : (s.modTh t f).turns = s.turns := rfl
@[simp] theorem State.modTh_agenda : (s.modTh t f).agenda = s.agenda := rfl
@[simp] theorem State.modTh_late : (s.modTh t f).late = s.late := rfl
@[simp] theorem State.modTh_mishaps : (s.modTh t f).mishaps = s.mishaps := rfl
@[simp] theorem State.modTh_cur : (s.modTh t f).cur = s.cur := rfl
@[simp] theorem State.modTh_tiles : (s.modTh t f).tiles = s.tiles := rfl
@[simp] theorem State.modTh_pkts : (s.modTh t f).pkts = s.pkts := rfl
@[simp] theorem State.modTh_nextPkt : (s.modTh t f).nextPkt = s.nextPkt := rfl
@[simp] theorem State.modTh_notices : (s.modTh t f).notices = s.notices := rfl
@[simp] theorem State.modTh_monRegs : (s.modTh t f).monRegs = s.monRegs := rfl
@[simp] theorem State.modTh_monNotes : (s.modTh t f).monNotes = s.monNotes := rfl
@[simp] theorem State.modTh_qt : (s.modTh t f).qt = s.qt := rfl
@[simp] theorem State.modTh_fa : (s.modTh t f).fa = s.fa := rfl
@[simp] theorem State.modTh_hoods : (s.modTh t f).hoods = s.hoods := rfl
@[simp] theorem State.modTh_stations : (s.modTh t f).stations = s.stations := rfl
@[simp] theorem State.modTh_dram : (s.modTh t f).dram = s.dram := rfl
@[simp] theorem State.modTh_dramBad : (s.modTh t f).dramBad = s.dramBad := rfl
@[simp] theorem State.modTh_hostMem : (s.modTh t f).hostMem = s.hostMem := rfl
@[simp] theorem State.modTh_hostBad : (s.modTh t f).hostBad = s.hostBad := rfl
@[simp] theorem State.modTh_foreign : (s.modTh t f).foreign = s.foreign := rfl
@[simp] theorem State.modTh_nodes : (s.modTh t f).nodes = s.nodes := rfl
@[simp] theorem State.modTh_insts : (s.modTh t f).insts = s.insts := rfl
@[simp] theorem State.modTh_nextInst : (s.modTh t f).nextInst = s.nextInst := rfl
@[simp] theorem State.modTh_windows : (s.modTh t f).windows = s.windows := rfl
@[simp] theorem State.modTh_parts : (s.modTh t f).parts = s.parts := rfl
@[simp] theorem State.modTh_votes : (s.modTh t f).votes = s.votes := rfl
@[simp] theorem State.modTh_leaderLogs : (s.modTh t f).leaderLogs = s.leaderLogs := rfl
@[simp] theorem State.modTh_nodeid : (s.modTh t f).nodeid = s.nodeid := rfl
@[simp] theorem State.modTh_sysroot : (s.modTh t f).sysroot = s.sysroot := rfl
@[simp] theorem State.modTh_scctx : (s.modTh t f).scctx = s.scctx := rfl
@[simp] theorem State.modTh_coreCtx : (s.modTh t f).coreCtx = s.coreCtx := rfl
@[simp] theorem State.modTh_boot : (s.modTh t f).boot = s.boot := rfl
@[simp] theorem State.modTh_clock : (s.modTh t f).clock = s.clock := rfl
@[simp] theorem State.modTh_tsync : (s.modTh t f).tsync = s.tsync := rfl
@[simp] theorem State.modTh_tsyncEnded : (s.modTh t f).tsyncEnded = s.tsyncEnded := rfl
@[simp] theorem State.modTh_lost : (s.modTh t f).lost = s.lost := rfl
@[simp] theorem State.modTh_replace : (s.modTh t f).replace = s.replace := rfl
@[simp] theorem State.modTh_invva : (s.modTh t f).invva = s.invva := rfl
@[simp] theorem State.modTh_invcnt : (s.modTh t f).invcnt = s.invcnt := rfl
@[simp] theorem State.modTh_invq : (s.modTh t f).invq = s.invq := rfl
@[simp] theorem State.modTh_invseq : (s.modTh t f).invseq = s.invseq := rfl
@[simp] theorem State.modTh_thrport : (s.modTh t f).thrport = s.thrport := rfl
@[simp] theorem State.modTh_thrdram : (s.modTh t f).thrdram = s.thrdram := rfl
@[simp] theorem State.modTh_thrmargin : (s.modTh t f).thrmargin = s.thrmargin := rfl
@[simp] theorem State.modTh_fabank : (s.modTh t f).fabank = s.fabank := rfl
@[simp] theorem State.modTh_ports : (s.modTh t f).ports = s.ports := rfl
@[simp] theorem State.modTh_routes : (s.modTh t f).routes = s.routes := rfl
@[simp] theorem State.modTh_msix : (s.modTh t f).msix = s.msix := rfl
@[simp] theorem State.modTh_hostReads : (s.modTh t f).hostReads = s.hostReads := rfl
@[simp] theorem State.modTh_doorbell : (s.modTh t f).doorbell = s.doorbell := rfl
@[simp] theorem State.modTh_doorbells : (s.modTh t f).doorbells = s.doorbells := rfl
@[simp] theorem State.modTh_records : (s.modTh t f).records = s.records := rfl
@[simp] theorem State.modTh_recordsLost : (s.modTh t f).recordsLost = s.recordsLost := rfl
@[simp] theorem State.modTh_ringFull : (s.modTh t f).ringFull = s.ringFull := rfl
@[simp] theorem State.modTh_quarterSeq : (s.modTh t f).quarterSeq = s.quarterSeq := rfl
@[simp] theorem State.modTh_session : (s.modTh t f).session = s.session := rfl
@[simp] theorem State.modTh_dbgMsgs : (s.modTh t f).dbgMsgs = s.dbgMsgs := rfl
@[simp] theorem State.modTh_dbgReplies : (s.modTh t f).dbgReplies = s.dbgReplies := rfl
@[simp] theorem State.modTh_predict : (s.modTh t f).predict = s.predict := rfl
@[simp] theorem State.modTh_fresh : (s.modTh t f).fresh = s.fresh := rfl
@[simp] theorem State.modTh_nextCmd : (s.modTh t f).nextCmd = s.nextCmd := rfl
@[simp] theorem State.modTh_lastSample : (s.modTh t f).lastSample = s.lastSample := rfl
@[simp] theorem State.modTh_tripped : (s.modTh t f).tripped = s.tripped := rfl

/-! ### modMe -/

@[simp] theorem State.modMe_now : (s.modMe f).now = s.now := rfl
@[simp] theorem State.modMe_tstamp : (s.modMe f).tstamp = s.tstamp := rfl
@[simp] theorem State.modMe_power : (s.modMe f).power = s.power := rfl
@[simp] theorem State.modMe_inputs : (s.modMe f).inputs = s.inputs := rfl
@[simp] theorem State.modMe_turns : (s.modMe f).turns = s.turns := rfl
@[simp] theorem State.modMe_agenda : (s.modMe f).agenda = s.agenda := rfl
@[simp] theorem State.modMe_late : (s.modMe f).late = s.late := rfl
@[simp] theorem State.modMe_mishaps : (s.modMe f).mishaps = s.mishaps := rfl
@[simp] theorem State.modMe_cur : (s.modMe f).cur = s.cur := rfl
@[simp] theorem State.modMe_tiles : (s.modMe f).tiles = s.tiles := rfl
@[simp] theorem State.modMe_pkts : (s.modMe f).pkts = s.pkts := rfl
@[simp] theorem State.modMe_nextPkt : (s.modMe f).nextPkt = s.nextPkt := rfl
@[simp] theorem State.modMe_notices : (s.modMe f).notices = s.notices := rfl
@[simp] theorem State.modMe_monRegs : (s.modMe f).monRegs = s.monRegs := rfl
@[simp] theorem State.modMe_monNotes : (s.modMe f).monNotes = s.monNotes := rfl
@[simp] theorem State.modMe_qt : (s.modMe f).qt = s.qt := rfl
@[simp] theorem State.modMe_fa : (s.modMe f).fa = s.fa := rfl
@[simp] theorem State.modMe_hoods : (s.modMe f).hoods = s.hoods := rfl
@[simp] theorem State.modMe_stations : (s.modMe f).stations = s.stations := rfl
@[simp] theorem State.modMe_dram : (s.modMe f).dram = s.dram := rfl
@[simp] theorem State.modMe_dramBad : (s.modMe f).dramBad = s.dramBad := rfl
@[simp] theorem State.modMe_hostMem : (s.modMe f).hostMem = s.hostMem := rfl
@[simp] theorem State.modMe_hostBad : (s.modMe f).hostBad = s.hostBad := rfl
@[simp] theorem State.modMe_foreign : (s.modMe f).foreign = s.foreign := rfl
@[simp] theorem State.modMe_nodes : (s.modMe f).nodes = s.nodes := rfl
@[simp] theorem State.modMe_insts : (s.modMe f).insts = s.insts := rfl
@[simp] theorem State.modMe_nextInst : (s.modMe f).nextInst = s.nextInst := rfl
@[simp] theorem State.modMe_windows : (s.modMe f).windows = s.windows := rfl
@[simp] theorem State.modMe_parts : (s.modMe f).parts = s.parts := rfl
@[simp] theorem State.modMe_votes : (s.modMe f).votes = s.votes := rfl
@[simp] theorem State.modMe_leaderLogs : (s.modMe f).leaderLogs = s.leaderLogs := rfl
@[simp] theorem State.modMe_nodeid : (s.modMe f).nodeid = s.nodeid := rfl
@[simp] theorem State.modMe_sysroot : (s.modMe f).sysroot = s.sysroot := rfl
@[simp] theorem State.modMe_scctx : (s.modMe f).scctx = s.scctx := rfl
@[simp] theorem State.modMe_coreCtx : (s.modMe f).coreCtx = s.coreCtx := rfl
@[simp] theorem State.modMe_boot : (s.modMe f).boot = s.boot := rfl
@[simp] theorem State.modMe_clock : (s.modMe f).clock = s.clock := rfl
@[simp] theorem State.modMe_tsync : (s.modMe f).tsync = s.tsync := rfl
@[simp] theorem State.modMe_tsyncEnded : (s.modMe f).tsyncEnded = s.tsyncEnded := rfl
@[simp] theorem State.modMe_lost : (s.modMe f).lost = s.lost := rfl
@[simp] theorem State.modMe_replace : (s.modMe f).replace = s.replace := rfl
@[simp] theorem State.modMe_invva : (s.modMe f).invva = s.invva := rfl
@[simp] theorem State.modMe_invcnt : (s.modMe f).invcnt = s.invcnt := rfl
@[simp] theorem State.modMe_invq : (s.modMe f).invq = s.invq := rfl
@[simp] theorem State.modMe_invseq : (s.modMe f).invseq = s.invseq := rfl
@[simp] theorem State.modMe_thrport : (s.modMe f).thrport = s.thrport := rfl
@[simp] theorem State.modMe_thrdram : (s.modMe f).thrdram = s.thrdram := rfl
@[simp] theorem State.modMe_thrmargin : (s.modMe f).thrmargin = s.thrmargin := rfl
@[simp] theorem State.modMe_fabank : (s.modMe f).fabank = s.fabank := rfl
@[simp] theorem State.modMe_ports : (s.modMe f).ports = s.ports := rfl
@[simp] theorem State.modMe_routes : (s.modMe f).routes = s.routes := rfl
@[simp] theorem State.modMe_msix : (s.modMe f).msix = s.msix := rfl
@[simp] theorem State.modMe_hostReads : (s.modMe f).hostReads = s.hostReads := rfl
@[simp] theorem State.modMe_doorbell : (s.modMe f).doorbell = s.doorbell := rfl
@[simp] theorem State.modMe_doorbells : (s.modMe f).doorbells = s.doorbells := rfl
@[simp] theorem State.modMe_records : (s.modMe f).records = s.records := rfl
@[simp] theorem State.modMe_recordsLost : (s.modMe f).recordsLost = s.recordsLost := rfl
@[simp] theorem State.modMe_ringFull : (s.modMe f).ringFull = s.ringFull := rfl
@[simp] theorem State.modMe_quarterSeq : (s.modMe f).quarterSeq = s.quarterSeq := rfl
@[simp] theorem State.modMe_session : (s.modMe f).session = s.session := rfl
@[simp] theorem State.modMe_dbgMsgs : (s.modMe f).dbgMsgs = s.dbgMsgs := rfl
@[simp] theorem State.modMe_dbgReplies : (s.modMe f).dbgReplies = s.dbgReplies := rfl
@[simp] theorem State.modMe_predict : (s.modMe f).predict = s.predict := rfl
@[simp] theorem State.modMe_fresh : (s.modMe f).fresh = s.fresh := rfl
@[simp] theorem State.modMe_nextCmd : (s.modMe f).nextCmd = s.nextCmd := rfl
@[simp] theorem State.modMe_lastSample : (s.modMe f).lastSample = s.lastSample := rfl
@[simp] theorem State.modMe_tripped : (s.modMe f).tripped = s.tripped := rfl

/-! ### modArch -/

@[simp] theorem State.modArch_now : (s.modArch h).now = s.now := rfl
@[simp] theorem State.modArch_tstamp : (s.modArch h).tstamp = s.tstamp := rfl
@[simp] theorem State.modArch_power : (s.modArch h).power = s.power := rfl
@[simp] theorem State.modArch_inputs : (s.modArch h).inputs = s.inputs := rfl
@[simp] theorem State.modArch_turns : (s.modArch h).turns = s.turns := rfl
@[simp] theorem State.modArch_agenda : (s.modArch h).agenda = s.agenda := rfl
@[simp] theorem State.modArch_late : (s.modArch h).late = s.late := rfl
@[simp] theorem State.modArch_mishaps : (s.modArch h).mishaps = s.mishaps := rfl
@[simp] theorem State.modArch_cur : (s.modArch h).cur = s.cur := rfl
@[simp] theorem State.modArch_tiles : (s.modArch h).tiles = s.tiles := rfl
@[simp] theorem State.modArch_pkts : (s.modArch h).pkts = s.pkts := rfl
@[simp] theorem State.modArch_nextPkt : (s.modArch h).nextPkt = s.nextPkt := rfl
@[simp] theorem State.modArch_notices : (s.modArch h).notices = s.notices := rfl
@[simp] theorem State.modArch_monRegs : (s.modArch h).monRegs = s.monRegs := rfl
@[simp] theorem State.modArch_monNotes : (s.modArch h).monNotes = s.monNotes := rfl
@[simp] theorem State.modArch_qt : (s.modArch h).qt = s.qt := rfl
@[simp] theorem State.modArch_fa : (s.modArch h).fa = s.fa := rfl
@[simp] theorem State.modArch_hoods : (s.modArch h).hoods = s.hoods := rfl
@[simp] theorem State.modArch_stations : (s.modArch h).stations = s.stations := rfl
@[simp] theorem State.modArch_dram : (s.modArch h).dram = s.dram := rfl
@[simp] theorem State.modArch_dramBad : (s.modArch h).dramBad = s.dramBad := rfl
@[simp] theorem State.modArch_hostMem : (s.modArch h).hostMem = s.hostMem := rfl
@[simp] theorem State.modArch_hostBad : (s.modArch h).hostBad = s.hostBad := rfl
@[simp] theorem State.modArch_foreign : (s.modArch h).foreign = s.foreign := rfl
@[simp] theorem State.modArch_nodes : (s.modArch h).nodes = s.nodes := rfl
@[simp] theorem State.modArch_insts : (s.modArch h).insts = s.insts := rfl
@[simp] theorem State.modArch_nextInst : (s.modArch h).nextInst = s.nextInst := rfl
@[simp] theorem State.modArch_windows : (s.modArch h).windows = s.windows := rfl
@[simp] theorem State.modArch_parts : (s.modArch h).parts = s.parts := rfl
@[simp] theorem State.modArch_votes : (s.modArch h).votes = s.votes := rfl
@[simp] theorem State.modArch_leaderLogs : (s.modArch h).leaderLogs = s.leaderLogs := rfl
@[simp] theorem State.modArch_nodeid : (s.modArch h).nodeid = s.nodeid := rfl
@[simp] theorem State.modArch_sysroot : (s.modArch h).sysroot = s.sysroot := rfl
@[simp] theorem State.modArch_scctx : (s.modArch h).scctx = s.scctx := rfl
@[simp] theorem State.modArch_coreCtx : (s.modArch h).coreCtx = s.coreCtx := rfl
@[simp] theorem State.modArch_boot : (s.modArch h).boot = s.boot := rfl
@[simp] theorem State.modArch_clock : (s.modArch h).clock = s.clock := rfl
@[simp] theorem State.modArch_tsync : (s.modArch h).tsync = s.tsync := rfl
@[simp] theorem State.modArch_tsyncEnded : (s.modArch h).tsyncEnded = s.tsyncEnded := rfl
@[simp] theorem State.modArch_lost : (s.modArch h).lost = s.lost := rfl
@[simp] theorem State.modArch_replace : (s.modArch h).replace = s.replace := rfl
@[simp] theorem State.modArch_invva : (s.modArch h).invva = s.invva := rfl
@[simp] theorem State.modArch_invcnt : (s.modArch h).invcnt = s.invcnt := rfl
@[simp] theorem State.modArch_invq : (s.modArch h).invq = s.invq := rfl
@[simp] theorem State.modArch_invseq : (s.modArch h).invseq = s.invseq := rfl
@[simp] theorem State.modArch_thrport : (s.modArch h).thrport = s.thrport := rfl
@[simp] theorem State.modArch_thrdram : (s.modArch h).thrdram = s.thrdram := rfl
@[simp] theorem State.modArch_thrmargin : (s.modArch h).thrmargin = s.thrmargin := rfl
@[simp] theorem State.modArch_fabank : (s.modArch h).fabank = s.fabank := rfl
@[simp] theorem State.modArch_ports : (s.modArch h).ports = s.ports := rfl
@[simp] theorem State.modArch_routes : (s.modArch h).routes = s.routes := rfl
@[simp] theorem State.modArch_msix : (s.modArch h).msix = s.msix := rfl
@[simp] theorem State.modArch_hostReads : (s.modArch h).hostReads = s.hostReads := rfl
@[simp] theorem State.modArch_doorbell : (s.modArch h).doorbell = s.doorbell := rfl
@[simp] theorem State.modArch_doorbells : (s.modArch h).doorbells = s.doorbells := rfl
@[simp] theorem State.modArch_records : (s.modArch h).records = s.records := rfl
@[simp] theorem State.modArch_recordsLost : (s.modArch h).recordsLost = s.recordsLost := rfl
@[simp] theorem State.modArch_ringFull : (s.modArch h).ringFull = s.ringFull := rfl
@[simp] theorem State.modArch_quarterSeq : (s.modArch h).quarterSeq = s.quarterSeq := rfl
@[simp] theorem State.modArch_session : (s.modArch h).session = s.session := rfl
@[simp] theorem State.modArch_dbgMsgs : (s.modArch h).dbgMsgs = s.dbgMsgs := rfl
@[simp] theorem State.modArch_dbgReplies : (s.modArch h).dbgReplies = s.dbgReplies := rfl
@[simp] theorem State.modArch_predict : (s.modArch h).predict = s.predict := rfl
@[simp] theorem State.modArch_fresh : (s.modArch h).fresh = s.fresh := rfl
@[simp] theorem State.modArch_nextCmd : (s.modArch h).nextCmd = s.nextCmd := rfl
@[simp] theorem State.modArch_lastSample : (s.modArch h).lastSample = s.lastSample := rfl
@[simp] theorem State.modArch_tripped : (s.modArch h).tripped = s.tripped := rfl

/-! ### setTile -/

@[simp] theorem State.setTile_now : (s.setTile u y).now = s.now := rfl
@[simp] theorem State.setTile_tstamp : (s.setTile u y).tstamp = s.tstamp := rfl
@[simp] theorem State.setTile_power : (s.setTile u y).power = s.power := rfl
@[simp] theorem State.setTile_inputs : (s.setTile u y).inputs = s.inputs := rfl
@[simp] theorem State.setTile_turns : (s.setTile u y).turns = s.turns := rfl
@[simp] theorem State.setTile_agenda : (s.setTile u y).agenda = s.agenda := rfl
@[simp] theorem State.setTile_late : (s.setTile u y).late = s.late := rfl
@[simp] theorem State.setTile_mishaps : (s.setTile u y).mishaps = s.mishaps := rfl
@[simp] theorem State.setTile_cur : (s.setTile u y).cur = s.cur := rfl
@[simp] theorem State.setTile_threads : (s.setTile u y).threads = s.threads := rfl
@[simp] theorem State.setTile_pkts : (s.setTile u y).pkts = s.pkts := rfl
@[simp] theorem State.setTile_nextPkt : (s.setTile u y).nextPkt = s.nextPkt := rfl
@[simp] theorem State.setTile_notices : (s.setTile u y).notices = s.notices := rfl
@[simp] theorem State.setTile_monRegs : (s.setTile u y).monRegs = s.monRegs := rfl
@[simp] theorem State.setTile_monNotes : (s.setTile u y).monNotes = s.monNotes := rfl
@[simp] theorem State.setTile_qt : (s.setTile u y).qt = s.qt := rfl
@[simp] theorem State.setTile_fa : (s.setTile u y).fa = s.fa := rfl
@[simp] theorem State.setTile_hoods : (s.setTile u y).hoods = s.hoods := rfl
@[simp] theorem State.setTile_stations : (s.setTile u y).stations = s.stations := rfl
@[simp] theorem State.setTile_dram : (s.setTile u y).dram = s.dram := rfl
@[simp] theorem State.setTile_dramBad : (s.setTile u y).dramBad = s.dramBad := rfl
@[simp] theorem State.setTile_hostMem : (s.setTile u y).hostMem = s.hostMem := rfl
@[simp] theorem State.setTile_hostBad : (s.setTile u y).hostBad = s.hostBad := rfl
@[simp] theorem State.setTile_foreign : (s.setTile u y).foreign = s.foreign := rfl
@[simp] theorem State.setTile_nodes : (s.setTile u y).nodes = s.nodes := rfl
@[simp] theorem State.setTile_insts : (s.setTile u y).insts = s.insts := rfl
@[simp] theorem State.setTile_nextInst : (s.setTile u y).nextInst = s.nextInst := rfl
@[simp] theorem State.setTile_windows : (s.setTile u y).windows = s.windows := rfl
@[simp] theorem State.setTile_parts : (s.setTile u y).parts = s.parts := rfl
@[simp] theorem State.setTile_votes : (s.setTile u y).votes = s.votes := rfl
@[simp] theorem State.setTile_leaderLogs : (s.setTile u y).leaderLogs = s.leaderLogs := rfl
@[simp] theorem State.setTile_nodeid : (s.setTile u y).nodeid = s.nodeid := rfl
@[simp] theorem State.setTile_sysroot : (s.setTile u y).sysroot = s.sysroot := rfl
@[simp] theorem State.setTile_scctx : (s.setTile u y).scctx = s.scctx := rfl
@[simp] theorem State.setTile_coreCtx : (s.setTile u y).coreCtx = s.coreCtx := rfl
@[simp] theorem State.setTile_boot : (s.setTile u y).boot = s.boot := rfl
@[simp] theorem State.setTile_clock : (s.setTile u y).clock = s.clock := rfl
@[simp] theorem State.setTile_tsync : (s.setTile u y).tsync = s.tsync := rfl
@[simp] theorem State.setTile_tsyncEnded : (s.setTile u y).tsyncEnded = s.tsyncEnded := rfl
@[simp] theorem State.setTile_lost : (s.setTile u y).lost = s.lost := rfl
@[simp] theorem State.setTile_replace : (s.setTile u y).replace = s.replace := rfl
@[simp] theorem State.setTile_invva : (s.setTile u y).invva = s.invva := rfl
@[simp] theorem State.setTile_invcnt : (s.setTile u y).invcnt = s.invcnt := rfl
@[simp] theorem State.setTile_invq : (s.setTile u y).invq = s.invq := rfl
@[simp] theorem State.setTile_invseq : (s.setTile u y).invseq = s.invseq := rfl
@[simp] theorem State.setTile_thrport : (s.setTile u y).thrport = s.thrport := rfl
@[simp] theorem State.setTile_thrdram : (s.setTile u y).thrdram = s.thrdram := rfl
@[simp] theorem State.setTile_thrmargin : (s.setTile u y).thrmargin = s.thrmargin := rfl
@[simp] theorem State.setTile_fabank : (s.setTile u y).fabank = s.fabank := rfl
@[simp] theorem State.setTile_ports : (s.setTile u y).ports = s.ports := rfl
@[simp] theorem State.setTile_routes : (s.setTile u y).routes = s.routes := rfl
@[simp] theorem State.setTile_msix : (s.setTile u y).msix = s.msix := rfl
@[simp] theorem State.setTile_hostReads : (s.setTile u y).hostReads = s.hostReads := rfl
@[simp] theorem State.setTile_doorbell : (s.setTile u y).doorbell = s.doorbell := rfl
@[simp] theorem State.setTile_doorbells : (s.setTile u y).doorbells = s.doorbells := rfl
@[simp] theorem State.setTile_records : (s.setTile u y).records = s.records := rfl
@[simp] theorem State.setTile_recordsLost : (s.setTile u y).recordsLost = s.recordsLost := rfl
@[simp] theorem State.setTile_ringFull : (s.setTile u y).ringFull = s.ringFull := rfl
@[simp] theorem State.setTile_quarterSeq : (s.setTile u y).quarterSeq = s.quarterSeq := rfl
@[simp] theorem State.setTile_session : (s.setTile u y).session = s.session := rfl
@[simp] theorem State.setTile_dbgMsgs : (s.setTile u y).dbgMsgs = s.dbgMsgs := rfl
@[simp] theorem State.setTile_dbgReplies : (s.setTile u y).dbgReplies = s.dbgReplies := rfl
@[simp] theorem State.setTile_predict : (s.setTile u y).predict = s.predict := rfl
@[simp] theorem State.setTile_fresh : (s.setTile u y).fresh = s.fresh := rfl
@[simp] theorem State.setTile_nextCmd : (s.setTile u y).nextCmd = s.nextCmd := rfl
@[simp] theorem State.setTile_lastSample : (s.setTile u y).lastSample = s.lastSample := rfl
@[simp] theorem State.setTile_tripped : (s.setTile u y).tripped = s.tripped := rfl

/-! ### modTile -/

@[simp] theorem State.modTile_now : (s.modTile u g).now = s.now := rfl
@[simp] theorem State.modTile_tstamp : (s.modTile u g).tstamp = s.tstamp := rfl
@[simp] theorem State.modTile_power : (s.modTile u g).power = s.power := rfl
@[simp] theorem State.modTile_inputs : (s.modTile u g).inputs = s.inputs := rfl
@[simp] theorem State.modTile_turns : (s.modTile u g).turns = s.turns := rfl
@[simp] theorem State.modTile_agenda : (s.modTile u g).agenda = s.agenda := rfl
@[simp] theorem State.modTile_late : (s.modTile u g).late = s.late := rfl
@[simp] theorem State.modTile_mishaps : (s.modTile u g).mishaps = s.mishaps := rfl
@[simp] theorem State.modTile_cur : (s.modTile u g).cur = s.cur := rfl
@[simp] theorem State.modTile_threads : (s.modTile u g).threads = s.threads := rfl
@[simp] theorem State.modTile_pkts : (s.modTile u g).pkts = s.pkts := rfl
@[simp] theorem State.modTile_nextPkt : (s.modTile u g).nextPkt = s.nextPkt := rfl
@[simp] theorem State.modTile_notices : (s.modTile u g).notices = s.notices := rfl
@[simp] theorem State.modTile_monRegs : (s.modTile u g).monRegs = s.monRegs := rfl
@[simp] theorem State.modTile_monNotes : (s.modTile u g).monNotes = s.monNotes := rfl
@[simp] theorem State.modTile_qt : (s.modTile u g).qt = s.qt := rfl
@[simp] theorem State.modTile_fa : (s.modTile u g).fa = s.fa := rfl
@[simp] theorem State.modTile_hoods : (s.modTile u g).hoods = s.hoods := rfl
@[simp] theorem State.modTile_stations : (s.modTile u g).stations = s.stations := rfl
@[simp] theorem State.modTile_dram : (s.modTile u g).dram = s.dram := rfl
@[simp] theorem State.modTile_dramBad : (s.modTile u g).dramBad = s.dramBad := rfl
@[simp] theorem State.modTile_hostMem : (s.modTile u g).hostMem = s.hostMem := rfl
@[simp] theorem State.modTile_hostBad : (s.modTile u g).hostBad = s.hostBad := rfl
@[simp] theorem State.modTile_foreign : (s.modTile u g).foreign = s.foreign := rfl
@[simp] theorem State.modTile_nodes : (s.modTile u g).nodes = s.nodes := rfl
@[simp] theorem State.modTile_insts : (s.modTile u g).insts = s.insts := rfl
@[simp] theorem State.modTile_nextInst : (s.modTile u g).nextInst = s.nextInst := rfl
@[simp] theorem State.modTile_windows : (s.modTile u g).windows = s.windows := rfl
@[simp] theorem State.modTile_parts : (s.modTile u g).parts = s.parts := rfl
@[simp] theorem State.modTile_votes : (s.modTile u g).votes = s.votes := rfl
@[simp] theorem State.modTile_leaderLogs : (s.modTile u g).leaderLogs = s.leaderLogs := rfl
@[simp] theorem State.modTile_nodeid : (s.modTile u g).nodeid = s.nodeid := rfl
@[simp] theorem State.modTile_sysroot : (s.modTile u g).sysroot = s.sysroot := rfl
@[simp] theorem State.modTile_scctx : (s.modTile u g).scctx = s.scctx := rfl
@[simp] theorem State.modTile_coreCtx : (s.modTile u g).coreCtx = s.coreCtx := rfl
@[simp] theorem State.modTile_boot : (s.modTile u g).boot = s.boot := rfl
@[simp] theorem State.modTile_clock : (s.modTile u g).clock = s.clock := rfl
@[simp] theorem State.modTile_tsync : (s.modTile u g).tsync = s.tsync := rfl
@[simp] theorem State.modTile_tsyncEnded : (s.modTile u g).tsyncEnded = s.tsyncEnded := rfl
@[simp] theorem State.modTile_lost : (s.modTile u g).lost = s.lost := rfl
@[simp] theorem State.modTile_replace : (s.modTile u g).replace = s.replace := rfl
@[simp] theorem State.modTile_invva : (s.modTile u g).invva = s.invva := rfl
@[simp] theorem State.modTile_invcnt : (s.modTile u g).invcnt = s.invcnt := rfl
@[simp] theorem State.modTile_invq : (s.modTile u g).invq = s.invq := rfl
@[simp] theorem State.modTile_invseq : (s.modTile u g).invseq = s.invseq := rfl
@[simp] theorem State.modTile_thrport : (s.modTile u g).thrport = s.thrport := rfl
@[simp] theorem State.modTile_thrdram : (s.modTile u g).thrdram = s.thrdram := rfl
@[simp] theorem State.modTile_thrmargin : (s.modTile u g).thrmargin = s.thrmargin := rfl
@[simp] theorem State.modTile_fabank : (s.modTile u g).fabank = s.fabank := rfl
@[simp] theorem State.modTile_ports : (s.modTile u g).ports = s.ports := rfl
@[simp] theorem State.modTile_routes : (s.modTile u g).routes = s.routes := rfl
@[simp] theorem State.modTile_msix : (s.modTile u g).msix = s.msix := rfl
@[simp] theorem State.modTile_hostReads : (s.modTile u g).hostReads = s.hostReads := rfl
@[simp] theorem State.modTile_doorbell : (s.modTile u g).doorbell = s.doorbell := rfl
@[simp] theorem State.modTile_doorbells : (s.modTile u g).doorbells = s.doorbells := rfl
@[simp] theorem State.modTile_records : (s.modTile u g).records = s.records := rfl
@[simp] theorem State.modTile_recordsLost : (s.modTile u g).recordsLost = s.recordsLost := rfl
@[simp] theorem State.modTile_ringFull : (s.modTile u g).ringFull = s.ringFull := rfl
@[simp] theorem State.modTile_quarterSeq : (s.modTile u g).quarterSeq = s.quarterSeq := rfl
@[simp] theorem State.modTile_session : (s.modTile u g).session = s.session := rfl
@[simp] theorem State.modTile_dbgMsgs : (s.modTile u g).dbgMsgs = s.dbgMsgs := rfl
@[simp] theorem State.modTile_dbgReplies : (s.modTile u g).dbgReplies = s.dbgReplies := rfl
@[simp] theorem State.modTile_predict : (s.modTile u g).predict = s.predict := rfl
@[simp] theorem State.modTile_fresh : (s.modTile u g).fresh = s.fresh := rfl
@[simp] theorem State.modTile_nextCmd : (s.modTile u g).nextCmd = s.nextCmd := rfl
@[simp] theorem State.modTile_lastSample : (s.modTile u g).lastSample = s.lastSample := rfl
@[simp] theorem State.modTile_tripped : (s.modTile u g).tripped = s.tripped := rfl

/-! ### modStation -/

@[simp] theorem State.modStation_now : (s.modStation k st).now = s.now := rfl
@[simp] theorem State.modStation_tstamp : (s.modStation k st).tstamp = s.tstamp := rfl
@[simp] theorem State.modStation_power : (s.modStation k st).power = s.power := rfl
@[simp] theorem State.modStation_inputs : (s.modStation k st).inputs = s.inputs := rfl
@[simp] theorem State.modStation_turns : (s.modStation k st).turns = s.turns := rfl
@[simp] theorem State.modStation_agenda : (s.modStation k st).agenda = s.agenda := rfl
@[simp] theorem State.modStation_late : (s.modStation k st).late = s.late := rfl
@[simp] theorem State.modStation_mishaps : (s.modStation k st).mishaps = s.mishaps := rfl
@[simp] theorem State.modStation_cur : (s.modStation k st).cur = s.cur := rfl
@[simp] theorem State.modStation_threads : (s.modStation k st).threads = s.threads := rfl
@[simp] theorem State.modStation_tiles : (s.modStation k st).tiles = s.tiles := rfl
@[simp] theorem State.modStation_pkts : (s.modStation k st).pkts = s.pkts := rfl
@[simp] theorem State.modStation_nextPkt : (s.modStation k st).nextPkt = s.nextPkt := rfl
@[simp] theorem State.modStation_notices : (s.modStation k st).notices = s.notices := rfl
@[simp] theorem State.modStation_monRegs : (s.modStation k st).monRegs = s.monRegs := rfl
@[simp] theorem State.modStation_monNotes : (s.modStation k st).monNotes = s.monNotes := rfl
@[simp] theorem State.modStation_qt : (s.modStation k st).qt = s.qt := rfl
@[simp] theorem State.modStation_fa : (s.modStation k st).fa = s.fa := rfl
@[simp] theorem State.modStation_hoods : (s.modStation k st).hoods = s.hoods := rfl
@[simp] theorem State.modStation_dram : (s.modStation k st).dram = s.dram := rfl
@[simp] theorem State.modStation_dramBad : (s.modStation k st).dramBad = s.dramBad := rfl
@[simp] theorem State.modStation_hostMem : (s.modStation k st).hostMem = s.hostMem := rfl
@[simp] theorem State.modStation_hostBad : (s.modStation k st).hostBad = s.hostBad := rfl
@[simp] theorem State.modStation_foreign : (s.modStation k st).foreign = s.foreign := rfl
@[simp] theorem State.modStation_nodes : (s.modStation k st).nodes = s.nodes := rfl
@[simp] theorem State.modStation_insts : (s.modStation k st).insts = s.insts := rfl
@[simp] theorem State.modStation_nextInst : (s.modStation k st).nextInst = s.nextInst := rfl
@[simp] theorem State.modStation_windows : (s.modStation k st).windows = s.windows := rfl
@[simp] theorem State.modStation_parts : (s.modStation k st).parts = s.parts := rfl
@[simp] theorem State.modStation_votes : (s.modStation k st).votes = s.votes := rfl
@[simp] theorem State.modStation_leaderLogs : (s.modStation k st).leaderLogs = s.leaderLogs := rfl
@[simp] theorem State.modStation_nodeid : (s.modStation k st).nodeid = s.nodeid := rfl
@[simp] theorem State.modStation_sysroot : (s.modStation k st).sysroot = s.sysroot := rfl
@[simp] theorem State.modStation_scctx : (s.modStation k st).scctx = s.scctx := rfl
@[simp] theorem State.modStation_coreCtx : (s.modStation k st).coreCtx = s.coreCtx := rfl
@[simp] theorem State.modStation_boot : (s.modStation k st).boot = s.boot := rfl
@[simp] theorem State.modStation_clock : (s.modStation k st).clock = s.clock := rfl
@[simp] theorem State.modStation_tsync : (s.modStation k st).tsync = s.tsync := rfl
@[simp] theorem State.modStation_tsyncEnded : (s.modStation k st).tsyncEnded = s.tsyncEnded := rfl
@[simp] theorem State.modStation_lost : (s.modStation k st).lost = s.lost := rfl
@[simp] theorem State.modStation_replace : (s.modStation k st).replace = s.replace := rfl
@[simp] theorem State.modStation_invva : (s.modStation k st).invva = s.invva := rfl
@[simp] theorem State.modStation_invcnt : (s.modStation k st).invcnt = s.invcnt := rfl
@[simp] theorem State.modStation_invq : (s.modStation k st).invq = s.invq := rfl
@[simp] theorem State.modStation_invseq : (s.modStation k st).invseq = s.invseq := rfl
@[simp] theorem State.modStation_thrport : (s.modStation k st).thrport = s.thrport := rfl
@[simp] theorem State.modStation_thrdram : (s.modStation k st).thrdram = s.thrdram := rfl
@[simp] theorem State.modStation_thrmargin : (s.modStation k st).thrmargin = s.thrmargin := rfl
@[simp] theorem State.modStation_fabank : (s.modStation k st).fabank = s.fabank := rfl
@[simp] theorem State.modStation_ports : (s.modStation k st).ports = s.ports := rfl
@[simp] theorem State.modStation_routes : (s.modStation k st).routes = s.routes := rfl
@[simp] theorem State.modStation_msix : (s.modStation k st).msix = s.msix := rfl
@[simp] theorem State.modStation_hostReads : (s.modStation k st).hostReads = s.hostReads := rfl
@[simp] theorem State.modStation_doorbell : (s.modStation k st).doorbell = s.doorbell := rfl
@[simp] theorem State.modStation_doorbells : (s.modStation k st).doorbells = s.doorbells := rfl
@[simp] theorem State.modStation_records : (s.modStation k st).records = s.records := rfl
@[simp] theorem State.modStation_recordsLost : (s.modStation k st).recordsLost = s.recordsLost := rfl
@[simp] theorem State.modStation_ringFull : (s.modStation k st).ringFull = s.ringFull := rfl
@[simp] theorem State.modStation_quarterSeq : (s.modStation k st).quarterSeq = s.quarterSeq := rfl
@[simp] theorem State.modStation_session : (s.modStation k st).session = s.session := rfl
@[simp] theorem State.modStation_dbgMsgs : (s.modStation k st).dbgMsgs = s.dbgMsgs := rfl
@[simp] theorem State.modStation_dbgReplies : (s.modStation k st).dbgReplies = s.dbgReplies := rfl
@[simp] theorem State.modStation_predict : (s.modStation k st).predict = s.predict := rfl
@[simp] theorem State.modStation_fresh : (s.modStation k st).fresh = s.fresh := rfl
@[simp] theorem State.modStation_nextCmd : (s.modStation k st).nextCmd = s.nextCmd := rfl
@[simp] theorem State.modStation_lastSample : (s.modStation k st).lastSample = s.lastSample := rfl
@[simp] theorem State.modStation_tripped : (s.modStation k st).tripped = s.tripped := rfl

/-! ### modWindow -/

@[simp] theorem State.modWindow_now : (s.modWindow k wf).now = s.now := rfl
@[simp] theorem State.modWindow_tstamp : (s.modWindow k wf).tstamp = s.tstamp := rfl
@[simp] theorem State.modWindow_power : (s.modWindow k wf).power = s.power := rfl
@[simp] theorem State.modWindow_inputs : (s.modWindow k wf).inputs = s.inputs := rfl
@[simp] theorem State.modWindow_turns : (s.modWindow k wf).turns = s.turns := rfl
@[simp] theorem State.modWindow_agenda : (s.modWindow k wf).agenda = s.agenda := rfl
@[simp] theorem State.modWindow_late : (s.modWindow k wf).late = s.late := rfl
@[simp] theorem State.modWindow_mishaps : (s.modWindow k wf).mishaps = s.mishaps := rfl
@[simp] theorem State.modWindow_cur : (s.modWindow k wf).cur = s.cur := rfl
@[simp] theorem State.modWindow_threads : (s.modWindow k wf).threads = s.threads := rfl
@[simp] theorem State.modWindow_tiles : (s.modWindow k wf).tiles = s.tiles := rfl
@[simp] theorem State.modWindow_pkts : (s.modWindow k wf).pkts = s.pkts := rfl
@[simp] theorem State.modWindow_nextPkt : (s.modWindow k wf).nextPkt = s.nextPkt := rfl
@[simp] theorem State.modWindow_notices : (s.modWindow k wf).notices = s.notices := rfl
@[simp] theorem State.modWindow_monRegs : (s.modWindow k wf).monRegs = s.monRegs := rfl
@[simp] theorem State.modWindow_monNotes : (s.modWindow k wf).monNotes = s.monNotes := rfl
@[simp] theorem State.modWindow_qt : (s.modWindow k wf).qt = s.qt := rfl
@[simp] theorem State.modWindow_fa : (s.modWindow k wf).fa = s.fa := rfl
@[simp] theorem State.modWindow_hoods : (s.modWindow k wf).hoods = s.hoods := rfl
@[simp] theorem State.modWindow_stations : (s.modWindow k wf).stations = s.stations := rfl
@[simp] theorem State.modWindow_dram : (s.modWindow k wf).dram = s.dram := rfl
@[simp] theorem State.modWindow_dramBad : (s.modWindow k wf).dramBad = s.dramBad := rfl
@[simp] theorem State.modWindow_hostMem : (s.modWindow k wf).hostMem = s.hostMem := rfl
@[simp] theorem State.modWindow_hostBad : (s.modWindow k wf).hostBad = s.hostBad := rfl
@[simp] theorem State.modWindow_foreign : (s.modWindow k wf).foreign = s.foreign := rfl
@[simp] theorem State.modWindow_nodes : (s.modWindow k wf).nodes = s.nodes := rfl
@[simp] theorem State.modWindow_insts : (s.modWindow k wf).insts = s.insts := rfl
@[simp] theorem State.modWindow_nextInst : (s.modWindow k wf).nextInst = s.nextInst := rfl
@[simp] theorem State.modWindow_parts : (s.modWindow k wf).parts = s.parts := rfl
@[simp] theorem State.modWindow_votes : (s.modWindow k wf).votes = s.votes := rfl
@[simp] theorem State.modWindow_leaderLogs : (s.modWindow k wf).leaderLogs = s.leaderLogs := rfl
@[simp] theorem State.modWindow_nodeid : (s.modWindow k wf).nodeid = s.nodeid := rfl
@[simp] theorem State.modWindow_sysroot : (s.modWindow k wf).sysroot = s.sysroot := rfl
@[simp] theorem State.modWindow_scctx : (s.modWindow k wf).scctx = s.scctx := rfl
@[simp] theorem State.modWindow_coreCtx : (s.modWindow k wf).coreCtx = s.coreCtx := rfl
@[simp] theorem State.modWindow_boot : (s.modWindow k wf).boot = s.boot := rfl
@[simp] theorem State.modWindow_clock : (s.modWindow k wf).clock = s.clock := rfl
@[simp] theorem State.modWindow_tsync : (s.modWindow k wf).tsync = s.tsync := rfl
@[simp] theorem State.modWindow_tsyncEnded : (s.modWindow k wf).tsyncEnded = s.tsyncEnded := rfl
@[simp] theorem State.modWindow_lost : (s.modWindow k wf).lost = s.lost := rfl
@[simp] theorem State.modWindow_replace : (s.modWindow k wf).replace = s.replace := rfl
@[simp] theorem State.modWindow_invva : (s.modWindow k wf).invva = s.invva := rfl
@[simp] theorem State.modWindow_invcnt : (s.modWindow k wf).invcnt = s.invcnt := rfl
@[simp] theorem State.modWindow_invq : (s.modWindow k wf).invq = s.invq := rfl
@[simp] theorem State.modWindow_invseq : (s.modWindow k wf).invseq = s.invseq := rfl
@[simp] theorem State.modWindow_thrport : (s.modWindow k wf).thrport = s.thrport := rfl
@[simp] theorem State.modWindow_thrdram : (s.modWindow k wf).thrdram = s.thrdram := rfl
@[simp] theorem State.modWindow_thrmargin : (s.modWindow k wf).thrmargin = s.thrmargin := rfl
@[simp] theorem State.modWindow_fabank : (s.modWindow k wf).fabank = s.fabank := rfl
@[simp] theorem State.modWindow_ports : (s.modWindow k wf).ports = s.ports := rfl
@[simp] theorem State.modWindow_routes : (s.modWindow k wf).routes = s.routes := rfl
@[simp] theorem State.modWindow_msix : (s.modWindow k wf).msix = s.msix := rfl
@[simp] theorem State.modWindow_hostReads : (s.modWindow k wf).hostReads = s.hostReads := rfl
@[simp] theorem State.modWindow_doorbell : (s.modWindow k wf).doorbell = s.doorbell := rfl
@[simp] theorem State.modWindow_doorbells : (s.modWindow k wf).doorbells = s.doorbells := rfl
@[simp] theorem State.modWindow_records : (s.modWindow k wf).records = s.records := rfl
@[simp] theorem State.modWindow_recordsLost : (s.modWindow k wf).recordsLost = s.recordsLost := rfl
@[simp] theorem State.modWindow_ringFull : (s.modWindow k wf).ringFull = s.ringFull := rfl
@[simp] theorem State.modWindow_quarterSeq : (s.modWindow k wf).quarterSeq = s.quarterSeq := rfl
@[simp] theorem State.modWindow_session : (s.modWindow k wf).session = s.session := rfl
@[simp] theorem State.modWindow_dbgMsgs : (s.modWindow k wf).dbgMsgs = s.dbgMsgs := rfl
@[simp] theorem State.modWindow_dbgReplies : (s.modWindow k wf).dbgReplies = s.dbgReplies := rfl
@[simp] theorem State.modWindow_predict : (s.modWindow k wf).predict = s.predict := rfl
@[simp] theorem State.modWindow_fresh : (s.modWindow k wf).fresh = s.fresh := rfl
@[simp] theorem State.modWindow_nextCmd : (s.modWindow k wf).nextCmd = s.nextCmd := rfl
@[simp] theorem State.modWindow_lastSample : (s.modWindow k wf).lastSample = s.lastSample := rfl
@[simp] theorem State.modWindow_tripped : (s.modWindow k wf).tripped = s.tripped := rfl

/-! ### modPart -/

@[simp] theorem State.modPart_now : (s.modPart k pf).now = s.now := rfl
@[simp] theorem State.modPart_tstamp : (s.modPart k pf).tstamp = s.tstamp := rfl
@[simp] theorem State.modPart_power : (s.modPart k pf).power = s.power := rfl
@[simp] theorem State.modPart_inputs : (s.modPart k pf).inputs = s.inputs := rfl
@[simp] theorem State.modPart_turns : (s.modPart k pf).turns = s.turns := rfl
@[simp] theorem State.modPart_agenda : (s.modPart k pf).agenda = s.agenda := rfl
@[simp] theorem State.modPart_late : (s.modPart k pf).late = s.late := rfl
@[simp] theorem State.modPart_mishaps : (s.modPart k pf).mishaps = s.mishaps := rfl
@[simp] theorem State.modPart_cur : (s.modPart k pf).cur = s.cur := rfl
@[simp] theorem State.modPart_threads : (s.modPart k pf).threads = s.threads := rfl
@[simp] theorem State.modPart_tiles : (s.modPart k pf).tiles = s.tiles := rfl
@[simp] theorem State.modPart_pkts : (s.modPart k pf).pkts = s.pkts := rfl
@[simp] theorem State.modPart_nextPkt : (s.modPart k pf).nextPkt = s.nextPkt := rfl
@[simp] theorem State.modPart_notices : (s.modPart k pf).notices = s.notices := rfl
@[simp] theorem State.modPart_monRegs : (s.modPart k pf).monRegs = s.monRegs := rfl
@[simp] theorem State.modPart_monNotes : (s.modPart k pf).monNotes = s.monNotes := rfl
@[simp] theorem State.modPart_qt : (s.modPart k pf).qt = s.qt := rfl
@[simp] theorem State.modPart_fa : (s.modPart k pf).fa = s.fa := rfl
@[simp] theorem State.modPart_hoods : (s.modPart k pf).hoods = s.hoods := rfl
@[simp] theorem State.modPart_stations : (s.modPart k pf).stations = s.stations := rfl
@[simp] theorem State.modPart_dram : (s.modPart k pf).dram = s.dram := rfl
@[simp] theorem State.modPart_dramBad : (s.modPart k pf).dramBad = s.dramBad := rfl
@[simp] theorem State.modPart_hostMem : (s.modPart k pf).hostMem = s.hostMem := rfl
@[simp] theorem State.modPart_hostBad : (s.modPart k pf).hostBad = s.hostBad := rfl
@[simp] theorem State.modPart_foreign : (s.modPart k pf).foreign = s.foreign := rfl
@[simp] theorem State.modPart_nodes : (s.modPart k pf).nodes = s.nodes := rfl
@[simp] theorem State.modPart_insts : (s.modPart k pf).insts = s.insts := rfl
@[simp] theorem State.modPart_nextInst : (s.modPart k pf).nextInst = s.nextInst := rfl
@[simp] theorem State.modPart_windows : (s.modPart k pf).windows = s.windows := rfl
@[simp] theorem State.modPart_votes : (s.modPart k pf).votes = s.votes := rfl
@[simp] theorem State.modPart_leaderLogs : (s.modPart k pf).leaderLogs = s.leaderLogs := rfl
@[simp] theorem State.modPart_nodeid : (s.modPart k pf).nodeid = s.nodeid := rfl
@[simp] theorem State.modPart_sysroot : (s.modPart k pf).sysroot = s.sysroot := rfl
@[simp] theorem State.modPart_scctx : (s.modPart k pf).scctx = s.scctx := rfl
@[simp] theorem State.modPart_coreCtx : (s.modPart k pf).coreCtx = s.coreCtx := rfl
@[simp] theorem State.modPart_boot : (s.modPart k pf).boot = s.boot := rfl
@[simp] theorem State.modPart_clock : (s.modPart k pf).clock = s.clock := rfl
@[simp] theorem State.modPart_tsync : (s.modPart k pf).tsync = s.tsync := rfl
@[simp] theorem State.modPart_tsyncEnded : (s.modPart k pf).tsyncEnded = s.tsyncEnded := rfl
@[simp] theorem State.modPart_lost : (s.modPart k pf).lost = s.lost := rfl
@[simp] theorem State.modPart_replace : (s.modPart k pf).replace = s.replace := rfl
@[simp] theorem State.modPart_invva : (s.modPart k pf).invva = s.invva := rfl
@[simp] theorem State.modPart_invcnt : (s.modPart k pf).invcnt = s.invcnt := rfl
@[simp] theorem State.modPart_invq : (s.modPart k pf).invq = s.invq := rfl
@[simp] theorem State.modPart_invseq : (s.modPart k pf).invseq = s.invseq := rfl
@[simp] theorem State.modPart_thrport : (s.modPart k pf).thrport = s.thrport := rfl
@[simp] theorem State.modPart_thrdram : (s.modPart k pf).thrdram = s.thrdram := rfl
@[simp] theorem State.modPart_thrmargin : (s.modPart k pf).thrmargin = s.thrmargin := rfl
@[simp] theorem State.modPart_fabank : (s.modPart k pf).fabank = s.fabank := rfl
@[simp] theorem State.modPart_ports : (s.modPart k pf).ports = s.ports := rfl
@[simp] theorem State.modPart_routes : (s.modPart k pf).routes = s.routes := rfl
@[simp] theorem State.modPart_msix : (s.modPart k pf).msix = s.msix := rfl
@[simp] theorem State.modPart_hostReads : (s.modPart k pf).hostReads = s.hostReads := rfl
@[simp] theorem State.modPart_doorbell : (s.modPart k pf).doorbell = s.doorbell := rfl
@[simp] theorem State.modPart_doorbells : (s.modPart k pf).doorbells = s.doorbells := rfl
@[simp] theorem State.modPart_records : (s.modPart k pf).records = s.records := rfl
@[simp] theorem State.modPart_recordsLost : (s.modPart k pf).recordsLost = s.recordsLost := rfl
@[simp] theorem State.modPart_ringFull : (s.modPart k pf).ringFull = s.ringFull := rfl
@[simp] theorem State.modPart_quarterSeq : (s.modPart k pf).quarterSeq = s.quarterSeq := rfl
@[simp] theorem State.modPart_session : (s.modPart k pf).session = s.session := rfl
@[simp] theorem State.modPart_dbgMsgs : (s.modPart k pf).dbgMsgs = s.dbgMsgs := rfl
@[simp] theorem State.modPart_dbgReplies : (s.modPart k pf).dbgReplies = s.dbgReplies := rfl
@[simp] theorem State.modPart_predict : (s.modPart k pf).predict = s.predict := rfl
@[simp] theorem State.modPart_fresh : (s.modPart k pf).fresh = s.fresh := rfl
@[simp] theorem State.modPart_nextCmd : (s.modPart k pf).nextCmd = s.nextCmd := rfl
@[simp] theorem State.modPart_lastSample : (s.modPart k pf).lastSample = s.lastSample := rfl
@[simp] theorem State.modPart_tripped : (s.modPart k pf).tripped = s.tripped := rfl

/-! ### keep -/

@[simp] theorem State.keep_now : (s.keep s').now = s.now := rfl
@[simp] theorem State.keep_tstamp : (s.keep s').tstamp = s.tstamp := rfl
@[simp] theorem State.keep_power : (s.keep s').power = s.power := rfl
@[simp] theorem State.keep_inputs : (s.keep s').inputs = s.inputs := rfl
@[simp] theorem State.keep_turns : (s.keep s').turns = s.turns := rfl
@[simp] theorem State.keep_agenda : (s.keep s').agenda = s'.agenda := rfl
@[simp] theorem State.keep_late : (s.keep s').late = s'.late := rfl
@[simp] theorem State.keep_mishaps : (s.keep s').mishaps = s'.mishaps := rfl
@[simp] theorem State.keep_cur : (s.keep s').cur = s'.cur := rfl
@[simp] theorem State.keep_threads : (s.keep s').threads = s'.threads := rfl
@[simp] theorem State.keep_tiles : (s.keep s').tiles = s'.tiles := rfl
@[simp] theorem State.keep_pkts : (s.keep s').pkts = s'.pkts := rfl
@[simp] theorem State.keep_nextPkt : (s.keep s').nextPkt = s'.nextPkt := rfl
@[simp] theorem State.keep_notices : (s.keep s').notices = s'.notices := rfl
@[simp] theorem State.keep_monRegs : (s.keep s').monRegs = s'.monRegs := rfl
@[simp] theorem State.keep_monNotes : (s.keep s').monNotes = s'.monNotes := rfl
@[simp] theorem State.keep_qt : (s.keep s').qt = s'.qt := rfl
@[simp] theorem State.keep_fa : (s.keep s').fa = s'.fa := rfl
@[simp] theorem State.keep_hoods : (s.keep s').hoods = s'.hoods := rfl
@[simp] theorem State.keep_stations : (s.keep s').stations = s'.stations := rfl
@[simp] theorem State.keep_dram : (s.keep s').dram = s'.dram := rfl
@[simp] theorem State.keep_dramBad : (s.keep s').dramBad = s'.dramBad := rfl
@[simp] theorem State.keep_hostMem : (s.keep s').hostMem = s'.hostMem := rfl
@[simp] theorem State.keep_hostBad : (s.keep s').hostBad = s'.hostBad := rfl
@[simp] theorem State.keep_foreign : (s.keep s').foreign = s'.foreign := rfl
@[simp] theorem State.keep_nodes : (s.keep s').nodes = s'.nodes := rfl
@[simp] theorem State.keep_insts : (s.keep s').insts = s'.insts := rfl
@[simp] theorem State.keep_nextInst : (s.keep s').nextInst = s'.nextInst := rfl
@[simp] theorem State.keep_windows : (s.keep s').windows = s'.windows := rfl
@[simp] theorem State.keep_parts : (s.keep s').parts = s'.parts := rfl
@[simp] theorem State.keep_votes : (s.keep s').votes = s'.votes := rfl
@[simp] theorem State.keep_leaderLogs : (s.keep s').leaderLogs = s'.leaderLogs := rfl
@[simp] theorem State.keep_nodeid : (s.keep s').nodeid = s'.nodeid := rfl
@[simp] theorem State.keep_sysroot : (s.keep s').sysroot = s'.sysroot := rfl
@[simp] theorem State.keep_scctx : (s.keep s').scctx = s'.scctx := rfl
@[simp] theorem State.keep_coreCtx : (s.keep s').coreCtx = s'.coreCtx := rfl
@[simp] theorem State.keep_boot : (s.keep s').boot = s'.boot := rfl
@[simp] theorem State.keep_clock : (s.keep s').clock = s'.clock := rfl
@[simp] theorem State.keep_tsync : (s.keep s').tsync = s'.tsync := rfl
@[simp] theorem State.keep_tsyncEnded : (s.keep s').tsyncEnded = s'.tsyncEnded := rfl
@[simp] theorem State.keep_lost : (s.keep s').lost = s'.lost := rfl
@[simp] theorem State.keep_replace : (s.keep s').replace = s'.replace := rfl
@[simp] theorem State.keep_invva : (s.keep s').invva = s'.invva := rfl
@[simp] theorem State.keep_invcnt : (s.keep s').invcnt = s'.invcnt := rfl
@[simp] theorem State.keep_invq : (s.keep s').invq = s'.invq := rfl
@[simp] theorem State.keep_invseq : (s.keep s').invseq = s'.invseq := rfl
@[simp] theorem State.keep_thrport : (s.keep s').thrport = s'.thrport := rfl
@[simp] theorem State.keep_thrdram : (s.keep s').thrdram = s'.thrdram := rfl
@[simp] theorem State.keep_thrmargin : (s.keep s').thrmargin = s'.thrmargin := rfl
@[simp] theorem State.keep_fabank : (s.keep s').fabank = s'.fabank := rfl
@[simp] theorem State.keep_ports : (s.keep s').ports = s'.ports := rfl
@[simp] theorem State.keep_routes : (s.keep s').routes = s'.routes := rfl
@[simp] theorem State.keep_msix : (s.keep s').msix = s'.msix := rfl
@[simp] theorem State.keep_hostReads : (s.keep s').hostReads = s'.hostReads := rfl
@[simp] theorem State.keep_doorbell : (s.keep s').doorbell = s'.doorbell := rfl
@[simp] theorem State.keep_doorbells : (s.keep s').doorbells = s'.doorbells := rfl
@[simp] theorem State.keep_records : (s.keep s').records = s'.records := rfl
@[simp] theorem State.keep_recordsLost : (s.keep s').recordsLost = s'.recordsLost := rfl
@[simp] theorem State.keep_ringFull : (s.keep s').ringFull = s'.ringFull := rfl
@[simp] theorem State.keep_quarterSeq : (s.keep s').quarterSeq = s'.quarterSeq := rfl
@[simp] theorem State.keep_session : (s.keep s').session = s'.session := rfl
@[simp] theorem State.keep_dbgMsgs : (s.keep s').dbgMsgs = s'.dbgMsgs := rfl
@[simp] theorem State.keep_dbgReplies : (s.keep s').dbgReplies = s'.dbgReplies := rfl
@[simp] theorem State.keep_predict : (s.keep s').predict = s'.predict := rfl
@[simp] theorem State.keep_fresh : (s.keep s').fresh = s'.fresh := rfl
@[simp] theorem State.keep_nextCmd : (s.keep s').nextCmd = s'.nextCmd := rfl
@[simp] theorem State.keep_lastSample : (s.keep s').lastSample = s'.lastSample := rfl
@[simp] theorem State.keep_tripped : (s.keep s').tripped = s'.tripped := rfl

/-! ### signal -/

@[simp] theorem Tile.signal_spad : (y.signal k).spad = y.spad := rfl
@[simp] theorem Tile.signal_empty : (y.signal k).empty = y.empty := rfl
@[simp] theorem Tile.signal_tags : (y.signal k).tags = y.tags := rfl
@[simp] theorem Tile.signal_shadow : (y.signal k).shadow = y.shadow := rfl
@[simp] theorem Tile.signal_pages : (y.signal k).pages = y.pages := rfl
@[simp] theorem Tile.signal_bad : (y.signal k).bad = y.bad := rfl
@[simp] theorem Tile.signal_feq : (y.signal k).feq = y.feq := rfl
@[simp] theorem Tile.signal_gang : (y.signal k).gang = y.gang := rfl
@[simp] theorem Tile.signal_saving : (y.signal k).saving = y.saving := rfl
@[simp] theorem Tile.signal_saved : (y.signal k).saved = y.saved := rfl
@[simp] theorem Tile.signal_mx : (y.signal k).mx = y.mx := rfl
@[simp] theorem Tile.signal_icache : (y.signal k).icache = y.icache := rfl
@[simp] theorem Tile.signal_locked : (y.signal k).locked = y.locked := rfl
@[simp] theorem Tile.signal_lockVa : (y.signal k).lockVa = y.lockVa := rfl
@[simp] theorem Tile.signal_journal : (y.signal k).journal = y.journal := rfl
@[simp] theorem Tile.signal_links : (y.signal k).links = y.links := rfl
@[simp] theorem Tile.signal_mail : (y.signal k).mail = y.mail := rfl
@[simp] theorem Tile.signal_copies : (y.signal k).copies = y.copies := rfl
@[simp] theorem Tile.signal_copyElts : (y.signal k).copyElts = y.copyElts := rfl
@[simp] theorem Tile.signal_indexes : (y.signal k).indexes = y.indexes := rfl
@[simp] theorem Tile.signal_sent : (y.signal k).sent = y.sent := rfl
@[simp] theorem Tile.signal_recv : (y.signal k).recv = y.recv := rfl
@[simp] theorem Tile.signal_arrivals : (y.signal k).arrivals = y.arrivals := rfl
@[simp] theorem Tile.signal_fenced : (y.signal k).fenced = y.fenced := rfl
@[simp] theorem Tile.signal_fenceAsk : (y.signal k).fenceAsk = y.fenceAsk := rfl
@[simp] theorem Tile.signal_part : (y.signal k).part = y.part := rfl
@[simp] theorem Tile.signal_bps : (y.signal k).bps = y.bps := rfl
@[simp] theorem Tile.signal_wps : (y.signal k).wps = y.wps := rfl
@[simp] theorem Tile.signal_cycleOff : (y.signal k).cycleOff = y.cycleOff := rfl
@[simp] theorem Tile.signal_stampOff : (y.signal k).stampOff = y.stampOff := rfl
@[simp] theorem Tile.signal_seq : (y.signal k).seq = y.seq := rfl
@[simp] theorem Tile.signal_discarded : (y.signal k).discarded = y.discarded := rfl

end fields

/-! ### Threads and tiles -/

section access
variable (s : State)

@[simp] theorem State.th_setTh_self (t : Nat) (x : Thread) : (s.setTh t x).th t = x := Sparse.get_set_self ({} : Thread) s.threads t x
theorem State.th_setTh_of_ne (x : Thread) {t k : Nat} (h : k ≠ t) : (s.setTh t x).th k = s.th k :=
  Sparse.get_set_of_ne ({} : Thread) s.threads x h
@[simp] theorem State.th_modTh_self (t : Nat) (f : Thread → Thread) : (s.modTh t f).th t = f (s.th t) :=
  s.th_setTh_self t (f (s.th t))
theorem State.th_modTh_of_ne (f : Thread → Thread) {t k : Nat} (h : k ≠ t) : (s.modTh t f).th k = s.th k :=
  s.th_setTh_of_ne (f (s.th t)) h
@[simp] theorem State.me_modMe (f : Thread → Thread) : (s.modMe f).me = f s.me := s.th_modTh_self s.cur f
theorem State.th_modMe_of_ne (f : Thread → Thread) {k : Nat} (h : k ≠ s.cur) : (s.modMe f).th k = s.th k :=
  s.th_modTh_of_ne f h
@[simp] theorem State.me_modArch (f : Arch → Arch) : (s.modArch f).me = { s.me with arch := f s.me.arch } :=
  s.me_modMe _
theorem State.th_modArch_of_ne (f : Arch → Arch) {k : Nat} (h : k ≠ s.cur) : (s.modArch f).th k = s.th k :=
  s.th_modMe_of_ne _ h

@[simp] theorem State.tile_setTile_self (u : Nat) (x : Tile) : (s.setTile u x).tile u = x := Sparse.get_set_self ({} : Tile) s.tiles u x
theorem State.tile_setTile_of_ne (x : Tile) {u k : Nat} (h : k ≠ u) : (s.setTile u x).tile k = s.tile k :=
  Sparse.get_set_of_ne ({} : Tile) s.tiles x h
@[simp] theorem State.tile_modTile_self (u : Nat) (f : Tile → Tile) : (s.modTile u f).tile u = f (s.tile u) :=
  s.tile_setTile_self u (f (s.tile u))
theorem State.tile_modTile_of_ne (f : Tile → Tile) {u k : Nat} (h : k ≠ u) : (s.modTile u f).tile k = s.tile k :=
  s.tile_setTile_of_ne (f (s.tile u)) h

@[simp] theorem State.th_setTile (u k : Nat) (x : Tile) : (s.setTile u x).th k = s.th k := rfl
@[simp] theorem State.th_modTile (u k : Nat) (f : Tile → Tile) : (s.modTile u f).th k = s.th k := rfl
@[simp] theorem State.me_modTile (u : Nat) (f : Tile → Tile) : (s.modTile u f).me = s.me := rfl
@[simp] theorem State.tile_setTh (t u : Nat) (x : Thread) : (s.setTh t x).tile u = s.tile u := rfl
@[simp] theorem State.tile_modTh (t u : Nat) (f : Thread → Thread) : (s.modTh t f).tile u = s.tile u := rfl
@[simp] theorem State.tile_modMe (u : Nat) (f : Thread → Thread) : (s.modMe f).tile u = s.tile u := rfl
@[simp] theorem State.tile_modArch (u : Nat) (f : Arch → Arch) : (s.modArch f).tile u = s.tile u := rfl
@[simp] theorem State.th_keep (s' : State) (t : Nat) : (s.keep s').th t = s'.th t := rfl
@[simp] theorem State.me_keep (s' : State) : (s.keep s').me = s'.me := rfl
@[simp] theorem State.tile_keep (s' : State) (u : Nat) : (s.keep s').tile u = s'.tile u := rfl

/-- The tile of unit `u` after a change of unit `v`. -/
theorem State.tile_modTile (u v : Nat) (f : Tile → Tile) : (s.modTile v f).tile u = if u = v then f (s.tile u) else s.tile u := by
  split
  · subst v; exact s.tile_modTile_self u f
  · exact s.tile_modTile_of_ne f ‹_›

/-- The thread of key `k` after a change of the thread of key `t`. -/
theorem State.th_modTh (k t : Nat) (f : Thread → Thread) : (s.modTh t f).th k = if k = t then f (s.th k) else s.th k := by
  split
  · subst t; exact s.th_modTh_self k f
  · exact s.th_modTh_of_ne f ‹_›

end access

end Sys2Proof.Machine
end

