-- ==== Sys2Proof/Laws/Issue.lean ====
section
/-! SUPPORT. What the shared operations of an issuing instruction can do (Operands.lean). -/

namespace Sys2Proof.Machine

/-! ### Small lemmas -/

@[simp] theorem awake_me (s : State) : (awake s).me = { s.me with run := .running } := s.me_modMe _
@[simp] theorem awake_cur (s : State) : (awake s).cur = s.cur := rfl
@[simp] theorem awake_now (s : State) : (awake s).now = s.now := rfl
@[simp] theorem awake_tile (s : State) (u : Nat) : (awake s).tile u = s.tile u := rfl
theorem awake_th (s : State) {k : Nat} (h : k ≠ s.cur) : (awake s).th k = s.th k := s.th_modMe_of_ne _ h

@[simp] theorem issued_cur (s : State) : (issued s).cur = s.cur := by unfold issued; split <;> rfl
@[simp] theorem issued_me (s : State) : (issued s).me = s.me := by unfold issued; split <;> rfl
@[simp] theorem issued_th (s : State) (k : Nat) : (issued s).th k = s.th k := by unfold issued; split <;> rfl
@[simp] theorem issued_threads (s : State) : (issued s).threads = s.threads := by unfold issued; split <;> rfl

theorem Tile.likewise_refl (x : Tile) : x.likewise x := rfl
theorem Tile.likewise_signal (x : Tile) (n : Nat) : x.likewise (x.signal n) := rfl
theorem Tile.likewise.trans {x y z : Tile} (h : x.likewise y) (k : y.likewise z) : x.likewise z := by
  unfold Tile.likewise at *; rw [k, h]

theorem issued_tile (s : State) (u : Nat) : (s.tile u).likewise ((issued s).tile u) := by
  unfold issued
  split
  · rw [State.tile_modTile]; split
    · exact Tile.likewise_signal _ _
    · exact Tile.likewise_refl _
  · exact Tile.likewise_refl _

/-- `issued` changes nothing but a tile's event logic. -/
theorem issued_rest (s : State) : issued s = { s with tiles := (issued s).tiles } := by
  unfold issued; split <;> rfl

/-! ### Plain operands -/

theorem srcLinks_plain {xs : List Src} (h : ∀ x ∈ xs, x.plain = true) : srcLinks xs = [] := by
  induction xs with
  | nil => rfl
  | cons x xs ih =>
    have hx := h x (List.mem_cons_self ..)
    have hxs := ih fun y hy => h y (List.mem_cons_of_mem _ hy)
    cases x <;> simp_all [srcLinks, Src.plain]

theorem linkGate_plain {s : State} {i : Instr} {xs : List Src} {d : Sink} (hs : s.me.held = {})
    (hx : ∀ x ∈ xs, x.plain = true) (hd : d.link? = none) : linkGate s i xs d = none := by
  simp [linkGate, linksWanted, placeWanted, srcLinks_plain hx, hs, hd]

theorem takeOperands_plain {s : State} {xs : List Src} {d : Sink} (hs : s.me.held = {})
    (hx : ∀ x ∈ xs, x.plain = true) (hd : d.link? = none) : takeOperands s xs d = s := by
  simp [takeOperands, placeWanted, srcLinks_plain hx, hs, hd, receiveLinks]

theorem stream_unbound {x : Thread} (h : x.streams = Vector.replicate 4 none) (r : Nat) : x.stream r = none := by
  have : x.streamOf r = none := by
    unfold Thread.streamOf
    rw [List.find?_eq_none]
    intro g _
    simp [h]
  simp [Thread.stream, this]

theorem readSrc_plain {s : State} {i : Instr} {x : Src} (hs : s.me.streams = Vector.replicate 4 none) (hx : x.plain = true) :
    readSrc s i x = .ok (s.me.srcVal x, s) := by
  cases x with
  | link l => simp [Src.plain] at hx
  | zero => rfl
  | pc => rfl
  | reg r => simp [readSrc, stream_unbound hs, Thread.srcVal, Arch.reg]

theorem readSrcs_plain {s : State} {i : Instr} {xs : List Src} (hs : s.me.streams = Vector.replicate 4 none)
    (hx : ∀ x ∈ xs, x.plain = true) : readSrcs s i xs = .ok (xs.map s.me.srcVal, s) := by
  induction xs with
  | nil => rfl
  | cons x xs ih =>
    have h := ih fun y hy => hx y (List.mem_cons_of_mem _ hy)
    simp [readSrcs, readSrc_plain hs (hx x (List.mem_cons_self ..)), h]

theorem quadMisuse_unbound {x : Thread} (h : x.streams = Vector.replicate 4 none) (q : Fin 8) : x.quadMisuse q = none := by
  simp [Thread.quadMisuse, stream_unbound h]

theorem readVec_plain {s : State} {i : Instr} {x : VReg} (hs : s.me.streams = Vector.replicate 4 none) :
    readVec s i x = .ok (s.me.vecVal x, s) := by
  cases x with
  | zero => rfl
  | quad q => simp [readVec, quadMisuse_unbound hs, stream_unbound hs, Thread.vecVal]

theorem readVecs_plain {s : State} {i : Instr} {xs : List VReg} (hs : s.me.streams = Vector.replicate 4 none) :
    readVecs s i xs = .ok (xs.map s.me.vecVal, s) := by
  induction xs with
  | nil => rfl
  | cons x xs ih => simp [readVecs, readVec_plain hs, ih]

theorem sinkCheck_plain {x : Thread} {sys : Bool} {d : Sink} (h : x.streams = Vector.replicate 4 none) : sinkCheck x sys d = none := by
  cases d with
  | none => simp [sinkCheck, Sink.reg?]
  | late r => simp [sinkCheck, Sink.reg?, stream_unbound h]
  | dst d => cases d <;> simp [sinkCheck, Sink.reg?, stream_unbound h]
  | vec v => cases v <;> simp [sinkCheck, Sink.reg?, stream_unbound h, quadMisuse_unbound h]

theorem streamRegs_plain {x : Thread} {xs : List Src} {vs : List VReg} {d : Sink} {r : Result}
    (h : x.streams = Vector.replicate 4 none) : streamRegs x xs vs d r = [] := by
  simp [streamRegs, stream_unbound h]

@[simp] theorem awake_srcVal (x : Thread) (r : Run) (y : Src) : ({ x with run := r } : Thread).srcVal y = x.srcVal y := by
  cases y <;> rfl
@[simp] theorem awake_vecVal (x : Thread) (r : Run) (y : VReg) : ({ x with run := r } : Thread).vecVal y = x.vecVal y := by
  cases y <;> rfl

/-- With plain operands an issuing instruction reads its sources and performs its own steps. -/
theorem issue_plain {s : State} {i : Instr} {xs : List Src} {vs : List VReg} {d : Sink}
    {body : List Val → List (BitVec 512) → State → Acc Done} (hs : s.me.ready) (hx : ∀ x ∈ xs, x.plain = true)
    (hd : d.link? = none) :
    issue s i xs vs d body =
      match body (xs.map s.me.srcVal) (vs.map s.me.vecVal) (awake s) with
      | .trap k a => trapAt (awake s) i k a
      | .wait w => waitTurn (awake s) w
      | .leave s' => leaveBody (awake s) s' i
      | .ok dn => finish (awake s) (awake s) i xs vs d dn := by
  obtain ⟨h1, h2⟩ := hs
  have e1 : (awake s).me.streams = Vector.replicate 4 none := by simpa using h1
  have e2 : (awake s).me.held = {} := by simpa using h2
  have hv : xs.map (awake s).me.srcVal = xs.map s.me.srcVal := by simp
  have hq : vs.map (awake s).me.vecVal = vs.map s.me.vecVal := by simp
  simp only [issue, linkGate_plain e2 hx hd, takeOperands_plain e2 hx hd, readVecs_plain e1, readSrcs_plain e1 hx, hv, hq,
    sinkCheck_plain e1, ite_self] <;>
  cases body (xs.map s.me.srcVal) (vs.map s.me.vecVal) (awake s) <;> simp [trapBody]

/-- A result in a plain destination, with an instruction's steps done and no register bound to a stream. -/
theorem finish_plain {s0 s1 : State} {i : Instr} {xs : List Src} {vs : List VReg} {d : Sink} {dn : Done} {s : State}
    (h : dn.s.me.streams = Vector.replicate 4 none) (hw : writeSink dn.s i d dn.r = .ok s) :
    finish s0 s1 i xs vs d dn = retire (issued s) i [] dn.pc := by
  have hc : (if dn.r = .none then none else sinkCheck dn.s.me (isSys (unitOf dn.s.cur)) d) = none := by
    split
    · rfl
    · exact sinkCheck_plain h
  simp only [finish, hc, streamRegs_plain h, hw, List.filter_nil]

theorem noStream {s : State} (h : s.me.streams = Vector.replicate 4 none) (d : Sink) :
    (d.reg?.bind fun p => s.me.stream p.1) = none := by
  cases d.reg? <;> simp [stream_unbound h]

theorem writeSink_reg {s : State} {i : Instr} {r : Reg} {v : Val} (h : s.me.streams = Vector.replicate 4 none) :
    writeSink s i (.dst (.reg r)) (.val v) = .ok (s.modArch fun a => a.setReg r v) := by
  unfold writeSink; rw [noStream h]

theorem writeSink_zero {s : State} {i : Instr} {r : Result} (h : s.me.streams = Vector.replicate 4 none) :
    writeSink s i (.dst .zero) r = .ok s := by
  unfold writeSink; rw [noStream h]

theorem writeSink_none {s : State} {i : Instr} {r : Result} (h : s.me.streams = Vector.replicate 4 none) :
    writeSink s i .none r = .ok s := by
  unfold writeSink; rw [noStream h]

theorem writeSink_quad {s : State} {i : Instr} {q : Fin 8} {v : BitVec 512} (h : s.me.streams = Vector.replicate 4 none) :
    writeSink s i (.vec (.quad q)) (.vec v) = .ok (s.modArch fun a => a.setQuad q v) := by
  unfold writeSink; rw [noStream h]

theorem writeSink_vzero {s : State} {i : Instr} {r : Result} (h : s.me.streams = Vector.replicate 4 none) :
    writeSink s i (.vec .zero) r = .ok s := by
  unfold writeSink; rw [noStream h]

/-! ### Retirement -/

/-- The thread that has retired. -/
theorem retire_me (s : State) (i : Instr) (pc : Option Word) :
    (retire s i [] pc).me = s.me.after { s.me.arch with pc := pc.getD (nextPC s.me.arch.pc i.bytes) } := by
  unfold retire Thread.after
  rw [State.me_modMe]
  unfold Thread.stepped
  split <;> simp_all

/-- Nothing but the present thread changes. -/
theorem State.OnlyMe.of_modMe (s : State) (f : Thread → Thread) : s.OnlyMe (s.modMe f) :=
  ⟨rfl, fun _ h => s.th_modMe_of_ne f h, fun _ => Tile.likewise_refl _⟩

theorem State.OnlyMe.refl (s : State) : s.OnlyMe s := ⟨rfl, fun _ _ => rfl, fun _ => Tile.likewise_refl _⟩

theorem State.OnlyMe.cur {s t : State} (h : s.OnlyMe t) : t.cur = s.cur := by rw [h.1]

theorem State.OnlyMe.trans {s t u : State} (h : s.OnlyMe t) (k : t.OnlyMe u) : s.OnlyMe u := by
  refine ⟨?_, fun j hj => ?_, fun j => (h.2.2 j).trans (k.2.2 j)⟩
  · rw [k.1, h.1]
  · rw [k.2.1 j (by rw [h.cur]; exact hj), h.2.1 j hj]

theorem State.OnlyMe.issued (s : State) : s.OnlyMe (issued s) :=
  ⟨by rw [issued_rest], fun k _ => issued_th s k, issued_tile s⟩

theorem State.OnlyMe.retire (s : State) (i : Instr) (l : List Nat) (pc : Option Word) : s.OnlyMe (retire s i l pc) :=
  State.OnlyMe.of_modMe s _

theorem State.OnlyMe.keep {s t : State} (h : s.OnlyMe t) : s.OnlyMe (s.keep t) := by
  obtain ⟨h1, h2, h3⟩ := h
  refine ⟨?_, h2, h3⟩
  rw [h1]; rfl

theorem State.OnlyMe.awake (s : State) : s.OnlyMe (awake s) := State.OnlyMe.of_modMe s _

theorem State.OnlyMe.modArch (s : State) (f : Arch → Arch) : s.OnlyMe (s.modArch f) := State.OnlyMe.of_modMe s _

theorem Thread.after_running (x : Thread) (b a : Arch) : ({ x with run := .running, arch := b } : Thread).after a = x.after a := by
  cases h : x.stepping <;> simp [Thread.after, Thread.stepped, h]

/-- A retirement after changes of the present thread alone: the thread of before with the architectural state `b`, as `x`. -/
theorem next_of_retire {s u : State} {i : Instr} {x : Thread} {b : Arch} {pc : Option Word} (h : s.OnlyMe u)
    (hx : exec i s = fin s (Sys2Proof.Machine.retire (Machine.issued u) i [] pc))
    (hm : u.me = { x with run := .running, arch := b }) :
    ∃ t, exec i s = .next t ∧ s.OnlyMe t ∧ t.me = x.after { b with pc := pc.getD (nextPC b.pc i.bytes) } := by
  refine ⟨_, hx, ((h.trans (.issued u)).trans (.retire _ i [] pc)).keep, ?_⟩
  rw [State.me_keep, retire_me, issued_me, hm, Thread.after_running]

/-- A retirement after changes of the present thread's architectural state alone. -/
theorem completes_of_retire {s u : State} {i : Instr} {b : Arch} {pc : Option Word} (h : s.OnlyMe u)
    (hx : exec i s = fin s (Sys2Proof.Machine.retire (Machine.issued u) i [] pc))
    (hm : u.me = { s.me with run := .running, arch := b }) :
    Completes i s { b with pc := pc.getD (nextPC b.pc i.bytes) } := next_of_retire h hx hm

/-- An instruction that computes one value from plain sources for a plain destination, and may change registers on its way. -/
theorem scalar_completes {s u : State} {i : Instr} {d : Dst} {xs : List Src} {f : List Val → State → Acc Done} {v : Val} {b : Arch}
    {pc : Option Word} (hx : exec i s = fin s (scalar s i d xs f)) (hs : s.me.ready) (hp : ∀ x ∈ xs, x.plain = true)
    (hd : d.plain = true) (hf : f (xs.map s.me.srcVal) (Machine.awake s) = .ok { s := u, r := .val v, pc := pc })
    (h : s.OnlyMe u) (hm : u.me = { s.me with run := .running, arch := b }) :
    Completes i s { b.put d v with pc := pc.getD (nextPC b.pc i.bytes) } := by
  have e1 : u.me.streams = Vector.replicate 4 none := by rw [hm]; exact hs.1
  have hl : (Sink.dst d).link? = none := by cases d <;> simp_all [Sink.link?, Dst.plain]
  rw [scalar, issue_plain hs hp hl] at hx
  simp only [hf] at hx
  cases d with
  | link l => simp [Dst.plain] at hd
  | zero =>
    rw [finish_plain e1 (writeSink_zero e1)] at hx
    exact completes_of_retire h hx hm
  | reg r =>
    rw [finish_plain e1 (writeSink_reg e1)] at hx
    exact completes_of_retire (b := b.setReg r v) (h.trans (.modArch u _)) hx (by rw [State.me_modArch, hm])

/-- A control transfer of plain operands: it may write its link, and it records its outcome. -/
theorem transfer_completes {s u : State} {i : Instr} {d : Sink} {xs : List Src} {f : List Val → List (BitVec 512) → State → Acc Done}
    {r : Result} {b : Arch} {w : State → State} {taken : Bool} {pc : Word} (hx : exec i s = fin s (issue s i xs [] d f)) (hs : s.me.ready)
    (hp : ∀ x ∈ xs, x.plain = true) (hd : d.link? = none) (hf : f (xs.map s.me.srcVal) [] (Machine.awake s) = .ok { s := u, r := r, pc := some pc })
    (h : s.OnlyMe u) (hw : writeSink u i d r = .ok (w u)) (ho : u.OnlyMe (w u))
    (hu : u.me.streams = s.me.streams)
    (hm : (w u).me = { ({ s.me with issue := { s.me.issue with taken := taken } } : Thread) with run := .running, arch := b }) :
    Transfers i s taken { b with pc := pc } := by
  rw [issue_plain hs hp hd] at hx
  simp only [List.map_nil, hf] at hx
  rw [finish_plain (by rw [hu]; exact hs.1) hw] at hx
  exact next_of_retire (h.trans ho) hx hm

/-- An instruction that computes one value from plain sources for a plain destination. -/
theorem compute_completes {s : State} {i : Instr} {d : Dst} {xs : List Src} {f : List Val → Val}
    (hx : exec i s = fin s (compute s i d xs f)) (hs : s.me.ready) (hp : ∀ x ∈ xs, x.plain = true) (hd : d.plain = true) :
    Completes i s ((s.me.arch.put d (f (xs.map s.me.srcVal))).past i.bytes) := by
  have h := scalar_completes (b := s.me.arch) hx hs hp hd rfl (.awake s) (awake_me s)
  rw [Arch.past]
  cases d <;> exact h

/-- An instruction without a destination that changes nothing but the present thread's architectural state. -/
theorem issue_completes {s u : State} {i : Instr} {xs : List Src} {vs : List VReg}
    {f : List Val → List (BitVec 512) → State → Acc Done} {b : Arch} {pc : Option Word}
    (hx : exec i s = fin s (issue s i xs vs .none f)) (hs : s.me.ready) (hp : ∀ x ∈ xs, x.plain = true)
    (hf : f (xs.map s.me.srcVal) (vs.map s.me.vecVal) (Machine.awake s) = .ok { s := u, pc := pc }) (h : s.OnlyMe u)
    (hm : u.me = { s.me with run := .running, arch := b }) : Completes i s { b with pc := pc.getD (nextPC b.pc i.bytes) } := by
  have e1 : u.me.streams = Vector.replicate 4 none := by rw [hm]; exact hs.1
  rw [issue_plain hs hp rfl] at hx
  simp only [hf] at hx
  rw [finish_plain e1 (writeSink_none e1)] at hx
  exact completes_of_retire h hx hm

/-- An instruction with a vector destination. -/
theorem vector_completes {s u : State} {i : Instr} {xs : List Src} {vs : List VReg} {d : VReg}
    {f : List Val → List (BitVec 512) → State → Acc Done} {b : Arch} {v : BitVec 512}
    (hx : exec i s = fin s (issue s i xs vs (.vec d) f)) (hs : s.me.ready) (hp : ∀ x ∈ xs, x.plain = true)
    (hf : f (xs.map s.me.srcVal) (vs.map s.me.vecVal) (Machine.awake s) = .ok { s := u, r := .vec v }) (h : s.OnlyMe u)
    (hm : u.me = { s.me with run := .running, arch := b }) : Completes i s ((b.putVec d v).past i.bytes) := by
  have e1 : u.me.streams = Vector.replicate 4 none := by rw [hm]; exact hs.1
  rw [issue_plain hs hp rfl] at hx
  simp only [hf] at hx
  cases d with
  | zero =>
    rw [finish_plain e1 (writeSink_vzero e1)] at hx
    exact completes_of_retire h hx hm
  | quad q =>
    rw [finish_plain e1 (writeSink_quad e1)] at hx
    exact completes_of_retire (b := b.setQuad q v) (h.trans (.modArch u _)) hx (by rw [State.me_modArch, hm])

/-- An instruction whose own steps raise a trap. -/
theorem issue_traps {s : State} {i : Instr} {xs : List Src} {vs : List VReg} {d : Sink}
    {f : List Val → List (BitVec 512) → State → Acc Done} {k : Nat} {a : Word}
    (hx : exec i s = fin s (issue s i xs vs d f)) (hs : s.me.ready) (hp : ∀ x ∈ xs, x.plain = true) (hd : d.link? = none)
    (hf : f (xs.map s.me.srcVal) (vs.map s.me.vecVal) (Machine.awake s) = .trap k a) : Traps i s k a := by
  rw [issue_plain hs hp hd] at hx
  simp only [hf] at hx
  exact hx

end Sys2Proof.Machine
end

