-- ==== Sys2Proof/Laws/Control.lean ====
section
/-! SUPPORT. Control transfers: the target, and what FOLLOW does with the outcome (R71, R121). -/

namespace Sys2Proof.Machine

/-- The leader's slot of the present one (R119). -/
def State.leadOf (s : State) : Thread := s.th (16 * leaderOf (unitOf s.cur) + slotOf s.cur)

/-- The architectural state whose outcome is `taken` to `pc`: the slot goes on following only when the leader's outcome is the same. -/
def State.followed (s : State) (b : Arch) (taken : Bool) (pc : Word) : Arch :=
  { b with
    status := { b.status with
      following := b.status.following && (decide (s.leadOf.arch.pc = pc) && decide (s.leadOf.issue.taken = taken)) } }

theorem State.followed_same {s : State} {b : Arch} {taken : Bool} {pc : Word}
    (h : (b.status.following && (decide (s.leadOf.arch.pc = pc) && decide (s.leadOf.issue.taken = taken))) = b.status.following) :
    s.followed b taken pc = b := by
  unfold State.followed
  rw [h]

/-- What the comparison with the leader changes. -/
theorem followCheck_spec {s u : State} {b : Arch} (taken : Bool) (pc : Word) (h : s.OnlyMe u)
    (hm : u.me = { s.me with run := .running, arch := b }) (hb : b.pc = s.me.arch.pc) :
    s.OnlyMe (followCheck u taken pc) ∧
      (followCheck u taken pc).me = { s.me with run := .running, arch := s.followed b taken pc } := by
  have hl : ∀ k, (u.th k).arch.pc = (s.th k).arch.pc ∧ (u.th k).issue = (s.th k).issue := by
    intro k
    by_cases hk : k = s.cur
    · subst hk
      have : u.th s.cur = u.me := by rw [State.me, h.cur]
      rw [this, hm]; exact ⟨hb, rfl⟩
    · rw [h.2.1 k hk]; exact ⟨rfl, rfl⟩
  unfold followCheck
  rw [hm, h.cur]
  simp only [hl]
  split
  · refine ⟨h.trans (.modArch u _), ?_⟩
    rw [leaveFollow, State.me_modArch, hm]
    rename_i hc
    simp only [Bool.and_eq_true, Bool.or_eq_true, decide_eq_true_eq] at hc
    have : (decide (s.leadOf.arch.pc = pc) && decide (s.leadOf.issue.taken = taken)) = false := by
      rw [Bool.and_eq_false_iff]
      exact hc.2.imp decide_eq_false decide_eq_false
    simp only [State.followed, this, Bool.and_false]
  · rename_i hc
    refine ⟨h, ?_⟩
    rw [hm, State.followed_same]
    simp only [State.leadOf]
    cases hf : b.status.following <;> simp_all

theorem target_near (a : Word) (off : BitVec 18) : target a off.toInt = a + 4 * off.signExtend 64 := by
  rw [target, wordOf, BitVec.ofInt_mul]; rfl

theorem target_far (a : Word) (off : BitVec 32) : target a off.toInt = a + 4 * off.signExtend 64 := by
  rw [target, wordOf, BitVec.ofInt_mul]; rfl

/-- What a transfer does: the comparison with the leader, and the record of its outcome. -/
theorem transfer_spec {s u : State} {b : Arch} (i : Instr) (r : Result) (t : Option Word) (h : s.OnlyMe u)
    (hm : u.me = { s.me with run := .running, arch := b }) (hb : b.pc = s.me.arch.pc) :
    ∃ v, transfer u i r t = .ok { s := v, r := r, pc := some (t.getD (nextPC s.me.arch.pc i.bytes)) } ∧ s.OnlyMe v ∧
      v.me = { ({ s.me with issue := { s.me.issue with taken := t.isSome } } : Thread) with
        run := .running, arch := s.followed b t.isSome (t.getD (nextPC s.me.arch.pc i.bytes)) } := by
  have hp : u.me.arch.pc = s.me.arch.pc := by rw [hm]; exact hb
  obtain ⟨f1, f2⟩ := followCheck_spec t.isSome (t.getD (nextPC s.me.arch.pc i.bytes)) h hm hb
  refine ⟨_, ?_, f1.trans (.of_modMe _ fun x => { x with issue := { x.issue with taken := t.isSome } }), ?_⟩
  · simp only [transfer, hp]
  · rw [State.me_modMe, f2]

end Sys2Proof.Machine
end

