-- ==== Sys2Proof/Laws/Memory.lean ====
section
/-! SUPPORT. Byte memories: reading after writing, the canonical form, and what a scratchpad write changes. -/

namespace Sys2Proof.Machine

@[simp] theorem Memory.rd_wr_self (m : Memory) (a : Nat) (b : Byte) : (m.wr a b).rd a = b := Sparse.get_set_self 0 m a b

theorem Memory.rd_wr_of_ne (m : Memory) (b : Byte) {a k : Nat} (h : k ≠ a) : (m.wr a b).rd k = m.rd k :=
  Sparse.get_set_of_ne 0 m b h

theorem Memory.wf_wr {m : Memory} (a : Nat) (b : Byte) (h : m.wf = true) : (m.wr a b).wf = true := Sparse.wf_set a b h

/-- A write of several bytes keeps the canonical form. -/
theorem Memory.wf_wrN {m : Memory} (a : Nat) (bs : List Byte) (h : m.wf = true) : (m.wrN a bs).wf = true := by
  induction bs generalizing m a with
  | nil => exact h
  | cons b bs ih => exact ih (a + 1) (Memory.wf_wr a b h)

theorem Memory.wf_wrWord {m : Memory} (a : Nat) (w : Word) (h : m.wf = true) : (m.wrWord a w).wf = true :=
  Memory.wf_wrN a _ h

/-- A byte outside the written range reads as before. -/
theorem Memory.rd_wrN_outside (m : Memory) (a : Nat) (bs : List Byte) {k : Nat} (h : k < a ∨ a + bs.length ≤ k) :
    (m.wrN a bs).rd k = m.rd k := by
  induction bs generalizing m a with
  | nil => rfl
  | cons b bs ih =>
    simp only [List.length_cons] at h
    rw [Memory.wrN, ih (m.wr a b) (a + 1) (by omega)]
    exact Memory.rd_wr_of_ne m b (by omega)

/-- A byte inside the written range reads as written. -/
theorem Memory.rd_wrN_inside (m : Memory) (a : Nat) (bs : List Byte) {j : Nat} (h : j < bs.length) :
    (m.wrN a bs).rd (a + j) = bs[j] := by
  induction bs generalizing m a j with
  | nil => exact absurd h (Nat.not_lt_zero j)
  | cons b bs ih =>
    cases j with
    | zero =>
      rw [Memory.wrN, Nat.add_zero, Memory.rd_wrN_outside _ _ _ (by omega)]
      simp
    | succ j =>
      have := ih (m.wr a b) (a + 1) (j := j) (by simpa using h)
      rw [Memory.wrN, show a + (j + 1) = a + 1 + j by omega, this]
      simp

/-- What was written is read back. -/
theorem Memory.rdN_wrN (m : Memory) (a : Nat) (bs : List Byte) : (m.wrN a bs).rdN a bs.length = bs := by
  induction bs generalizing m a with
  | nil => rfl
  | cons b bs ih =>
    simp only [List.length_cons, Memory.rdN, Memory.wrN]
    rw [ih, Memory.rd_wrN_outside _ _ _ (by omega)]
    simp

/-! ### Numbers as bytes -/

@[simp] theorem length_leBytes (n v : Nat) : (leBytes n v).length = n := by
  induction n generalizing v with
  | zero => rfl
  | succ n ih => simp [leBytes, ih]

/-- Bytes hold a number modulo their range. -/
theorem leNat_leBytes (n v : Nat) : leNat (leBytes n v) = v % 256 ^ n := by
  induction n generalizing v with
  | zero => simp [leBytes, leNat, Nat.mod_one]
  | succ n ih =>
    have hb : (BitVec.ofNat 8 v).toNat = v % 256 := BitVec.toNat_ofNat v 8
    rw [leBytes, leNat, ih, hb, Nat.pow_succ', Nat.mod_mul]

/-! ### Scratchpad -/

@[simp] theorem Tile.wr_spad (x : Tile) (off : Nat) (bs : List Byte) : (x.wr off bs).spad = x.spad.wrN off bs := rfl

/-- A scratchpad write keeps the canonical form. -/
theorem Tile.wf_wr {x : Tile} (off : Nat) (bs : List Byte) (h : x.spad.wf = true) : (x.wr off bs).spad.wf = true :=
  Memory.wf_wrN off bs h

/-- Reset memory lists nothing. -/
theorem State.reset_wf :
    State.reset.dram.wf = true ∧ State.reset.hostMem.wf = true ∧ State.reset.foreign.wf = true ∧ State.reset.nodes.wf = true ∧
      (∀ u, (Sparse.get ({} : Tile) State.reset.tiles u).spad.wf = true) :=
  ⟨rfl, rfl, rfl, rfl, fun _ => rfl⟩

end Sys2Proof.Machine
end

