-- ==== Sys2Proof/Laws/Local.lean ====
section
/-! SUPPORT. Accesses to the own tile's scratchpad: the port, the checks, reading and writing (R22, R90, R91, R186, R227, R413). -/

namespace Sys2Proof.Machine

/-- What the local port changes: a signal, and a stop that a watchpoint asks for. -/
theorem localPort_only (s : State) (off n : Nat) (wr : Bool) : s.OnlyMe (s.localPort off n wr) := by
  have h : s.OnlyMe (s.modTile (unitOf s.cur) fun x => x.signal 1) :=
    ⟨rfl, fun _ _ => rfl, fun u => by
      rw [State.tile_modTile]; split
      · exact Tile.likewise_signal _ _
      · rfl⟩
  unfold State.localPort State.watchHit
  split
  · exact h.trans (.of_modMe _ _)
  · exact h

theorem localPort_me (s : State) (off n : Nat) (wr : Bool) : (s.localPort off n wr).me = s.seen off n wr := by
  have : ∀ x : Tile, (x.signal 1).watch off n wr = x.watch off n wr := fun _ => rfl
  unfold State.localPort State.watchHit State.seen
  simp only [State.modTile_cur, State.tile_modTile_self, this]
  cases (s.tile (unitOf s.cur)).watch off n wr <;> simp

theorem seen_awake (s : State) (off n : Nat) (wr : Bool) : (awake s).seen off n wr = { s.seen off n wr with run := .running } := by
  unfold State.seen
  simp only [awake_cur, awake_tile, awake_me]
  cases (s.tile (unitOf s.cur)).watch off n wr <;> rfl

theorem seen_after (s : State) (off n : Nat) (wr : Bool) (b a : Arch) :
    ({ s.seen off n wr with run := .running, arch := b } : Thread).after a = (s.seen off n wr).after a := Thread.after_running _ _ _

theorem seen_after' (s : State) (off n : Nat) (wr : Bool) (a : Arch) :
    ({ s.seen off n wr with run := .running } : Thread).after a = (s.seen off n wr).after a :=
  Thread.after_running _ (s.seen off n wr).arch _

theorem seen_arch (s : State) (off n : Nat) (wr : Bool) : (s.seen off n wr).arch = s.me.arch := by
  unfold State.seen; split <;> rfl

theorem seen_streams (s : State) (off n : Nat) (wr : Bool) : (s.seen off n wr).streams = s.me.streams := by
  unfold State.seen; split <;> rfl

theorem localCheck_awake (s : State) (c : Val) (off n : Nat) (race : Bool) :
    (awake s).localCheck c off n race = s.localCheck c off n race := by
  have h1 : reserveRule (awake s).me c off n = reserveRule s.me c off n := by rw [awake_me]; rfl
  have h3 : ((awake s).th s.cur).epoch = (s.th s.cur).epoch := by
    have h := awake_me s
    rw [State.me, awake_cur] at h
    rw [h]; rfl
  have h2 : (awake s).raceLocal s.cur off n = s.raceLocal s.cur off n := by
    unfold State.raceLocal; rw [h3]; rfl
  unfold State.localCheck
  rw [awake_cur, h1, h2]; rfl

/-- Taking a thread up changes nothing but how it runs. -/
theorem awake_th_run (s : State) (k : Nat) : ∃ r, (awake s).th k = { s.th k with run := r } := by
  by_cases h : k = s.cur
  · subst h
    exact ⟨.running, awake_me s⟩
  · exact ⟨(s.th k).run, by rw [awake_th s h]⟩

theorem pasidOf_awake (s : State) (t : Nat) : (awake s).pasidOf t = s.pasidOf t := by
  obtain ⟨r, h⟩ := awake_th_run s t
  unfold State.pasidOf
  rw [h]; rfl

theorem sheetOf_awake (s : State) (t : Nat) : (awake s).sheetOf t = s.sheetOf t := by
  obtain ⟨r, h⟩ := awake_th_run s t
  unfold State.sheetOf
  rw [h]; rfl

theorem replicaTile_awake (s : State) (t v : Nat) : (awake s).replicaTile t v = s.replicaTile t v := by
  obtain ⟨r, h⟩ := awake_th_run s t
  unfold State.replicaTile State.leaderTiles
  rw [h, sheetOf_awake]; rfl

theorem resolveTile_awake (s : State) (t off : Nat) : (awake s).resolveTile t off = s.resolveTile t off := by
  unfold State.resolveTile
  simp only [replicaTile_awake]
  rfl

theorem threadPkt_awake (s : State) (t : Nat) : (awake s).threadPkt t = s.threadPkt t := by
  obtain ⟨r, h⟩ := awake_th_run s t
  unfold State.threadPkt
  rw [h, pasidOf_awake]; rfl

theorem ownWrites_awake (s : State) (t : Nat) : (awake s).ownWrites t = s.ownWrites t := by
  unfold State.ownWrites State.resending
  simp only [threadPkt_awake, resolveTile_awake]
  rfl

theorem ownRead_awake (s : State) (off n : Nat) : (awake s).ownRead off n = s.ownRead off n := rfl

/-- Words without an error: nothing stops a read of them, and it leaves no record (R189). -/
theorem Tile.sound_reads {x : Tile} {off n : Nat} (h : x.sound off n) : x.badWords off n = [] ∧ x.weakWords off n = [] := by
  unfold Tile.badWords Tile.weakWords
  constructor <;>
  · rw [List.filter_eq_nil_iff]
    intro k hk
    rw [h k hk]
    decide

theorem Tile.sound_bad {x : Tile} {off n : Nat} (h : x.sound off n) : x.bad? off n = false := by
  simp [Tile.bad?, (Tile.sound_reads h).1]

theorem readErrors_sound {s : State} {u off n : Nat} (h : (s.tile u).sound off n) : s.readErrors u off n = s := by
  unfold State.readErrors
  obtain ⟨h1, h2⟩ := Tile.sound_reads h
  simp only [h1, h2, List.foldl_nil, ite_self]

/-- A capability that passes CapCheck names an offset below 2^20 in LOCAL space. -/
theorem local_offset {c : Val} {ea : Int} {n : Nat} {need : BitVec 8} {form sys : Bool} (hc : c.space = 0)
    (h : capCheck c ea n need form sys = none) : 0 ≤ ea ∧ ea < 2 ^ 20 := by
  unfold capCheck at h
  simp only [hc, offsetOf] at h
  by_cases hr : 0 ≤ ea ∧ ea < 2 ^ 20
  · exact hr
  · simp only [if_neg hr] at h
    split at h <;> try cases h
    split at h <;> try cases h
    split at h <;> try cases h
    split at h <;> try cases h
    split at h <;> cases h

theorem wordOf_small {ea : Int} (h0 : 0 ≤ ea) (h1 : ea < 2 ^ 20) : (wordOf ea).toNat % 2 ^ 20 = ea.toNat := by
  obtain ⟨n, rfl⟩ := Int.eq_ofNat_of_zero_le h0
  have hn : n < 2 ^ 20 := by exact_mod_cast h1
  rw [wordOf]
  have : (BitVec.ofInt 64 (n : Int)).toNat = n := by
    rw [show BitVec.ofInt 64 (n : Int) = BitVec.ofNat 64 n from by simp, BitVec.toNat_ofNat]
    omega
  rw [this, Int.toNat_natCast, Nat.mod_eq_of_lt hn]

/-- A read of the own tile by a thread that has no reply. -/
theorem memGet_local {s : State} {i : Instr} {c : Val} {ea : Int} {n : Nat} {tagged : Bool} (hr : s.me.held = {}) (hc : c.space = 0)
    (h0 : 0 ≤ ea) (h1 : ea < 2 ^ 20) (hl : s.localCheck c ea.toNat n true = none) (ho : s.ownRead ea.toNat n = false)
    (hg : (s.tile (unitOf s.cur)).sound ea.toNat n) :
    memGet s i c (wordOf ea) n tagged = .ok (s.localRead ea.toNat n) := by
  unfold memGet
  simp only [hr]
  unfold memRead
  simp only [hc, wordOf_small h0 h1, State.nearRead, hl, ho, Tile.sound_bad hg, readErrors_sound hg, Bool.false_eq_true, if_false]

theorem accessCheck_ok {s : State} {c : Val} {ea : Int} {n : Nat} {need : BitVec 8}
    (h : capCheck c ea n need s.me.arch.status.form (isSys (unitOf s.cur)) = none) (ha : ea % n = 0) :
    accessCheck s c ea n need = none := by
  simp [accessCheck, capTrap, h, ha]

/-- A load of the own scratchpad. -/
theorem loadForm_local {s : State} {i : Instr} {d : Dst} {a : Reg} {off : Int} {n : Nat} {tagged : Bool} {f : Val → Got → Val}
    (hx : exec i s = fin s (loadForm s i d a off n tagged f)) (hs : s.me.ready) (hd : d.plain = true)
    (ho : s.ownRead ((s.me.arch.regs[a].addr.toNat : Int) + off).toNat n = false)
    (hg : (s.tile (unitOf s.cur)).sound ((s.me.arch.regs[a].addr.toNat : Int) + off).toNat n)
    (hc : s.me.arch.regs[a].space = 0)
    (hk : capCheck s.me.arch.regs[a] (s.me.arch.regs[a].addr.toNat + off) n permR s.me.arch.status.form (isSys (unitOf s.cur)) = none)
    (ha : ((s.me.arch.regs[a].addr.toNat : Int) + off) % n = 0)
    (hl : s.localCheck s.me.arch.regs[a] ((s.me.arch.regs[a].addr.toNat : Int) + off).toNat n true = none) :
    let ea := ((s.me.arch.regs[a].addr.toNat : Int) + off).toNat
    ∃ t, exec i s = .next t ∧ s.OnlyMe t ∧
      t.me = (s.seen ea n false).after ((s.me.arch.put d (f s.me.arch.regs[a] ((awake s).localRead ea n))).past i.bytes) := by
  intro ea
  obtain ⟨h0, h1⟩ := local_offset hc hk
  have hp : ∀ x ∈ [Src.reg a], x.plain = true := by simp [Src.plain]
  have hlink : (Sink.dst d).link? = none := by cases d <;> simp_all [Sink.link?, Dst.plain]
  have hget : memGet (awake s) i s.me.arch.regs[a] (wordOf ((s.me.arch.regs[a].addr.toNat : Int) + off)) n tagged
      = .ok ((awake s).localRead ea n) :=
    memGet_local (by rw [awake_me]; exact hs.2) hc h0 h1 (by rw [localCheck_awake]; exact hl) ho hg
  have hacc : accessCheck (awake s) s.me.arch.regs[a] ((s.me.arch.regs[a].addr.toNat : Int) + off) n permR = none :=
    accessCheck_ok (by rw [awake_me]; exact hk) ha
  rw [loadForm, issue_plain hs hp hlink] at hx
  have e : arg ([Src.reg a].map s.me.srcVal) 0 = s.me.arch.regs[a] := rfl
  simp only [e, hacc, hget, Acc.andThen] at hx
  generalize hg : (awake s).localRead ea n = g at hx ⊢
  have hgs : g.s = (awake s).localPort ea n false := by rw [← hg]; rfl
  have hm : g.s.me = { s.seen ea n false with run := .running } := by rw [hgs, localPort_me, seen_awake]
  have ho' : s.OnlyMe g.s := by rw [hgs]; exact (State.OnlyMe.awake s).trans (localPort_only _ _ _ _)
  have e1 : g.s.me.streams = Vector.replicate 4 none := by rw [hm]; exact (seen_streams s ea n false).trans hs.1
  have hb : g.s.me.arch = s.me.arch := by rw [hm]; exact seen_arch s ea n false
  cases d with
  | link l => simp [Dst.plain] at hd
  | zero =>
    rw [finish_plain e1 (writeSink_zero e1)] at hx
    refine ⟨_, hx, ((ho'.trans (.issued _)).trans (.retire _ i [] none)).keep, ?_⟩
    rw [State.me_keep, retire_me, issued_me, hb, hm, seen_after']
    rfl
  | reg r =>
    rw [finish_plain e1 (writeSink_reg e1)] at hx
    refine ⟨_, hx, (((ho'.trans (.modArch _ _)).trans (.issued _)).trans (.retire _ i [] none)).keep, ?_⟩
    rw [State.me_keep, retire_me, issued_me, State.me_modArch, hb, hm, seen_after]
    rfl

/-! ### Writes -/

theorem clearBad_out (m : Sparse (BitVec 2)) (l : List Nat) {w : Nat} (h : w ∉ l) : Sparse.get 0 (clearBad m l) w = Sparse.get 0 m w := by
  induction l generalizing m with
  | nil => rfl
  | cons a l ih =>
    simp only [List.mem_cons, not_or] at h
    rw [clearBad, ih _ h.2, Sparse.get_set_of_ne 0 m 0 h.1]

theorem clearTags_out (m : Sparse Bool) (l : List Nat) {g : Nat} (h : g ∉ l) :
    Sparse.get false (clearTags m l) g = Sparse.get false m g := by
  induction l generalizing m with
  | nil => rfl
  | cons a l ih =>
    simp only [List.mem_cons, not_or] at h
    rw [clearTags, ih _ h.2, Sparse.get_set_of_ne false m false h.1]

theorem clearTags_in (m : Sparse Bool) (l : List Nat) {g : Nat} (h : g ∈ l) : Sparse.get false (clearTags m l) g = false := by
  induction l generalizing m with
  | nil => simp at h
  | cons a l ih =>
    rw [clearTags]
    by_cases hg : g ∈ l
    · exact ih _ hg
    · rw [clearTags_out _ _ hg]
      have : g = a := by simpa [hg] using h
      subst this
      simp

theorem mem_span (k n g : Nat) : g ∈ span k n ↔ k ≤ g ∧ g < k + n := by
  induction n generalizing k with
  | zero => simp [span]
  | succ n ih => simp only [span, List.mem_cons, ih]; omega

/-- The unit numbers that bytes touch. -/
theorem mem_touched {z off n g : Nat} (hn : 0 < n) (hz : 0 < z) : g ∈ touched z off n ↔ z * g < off + n ∧ off < z * g + z := by
  have h1 : g < (off + n - 1) / z + 1 ↔ z * g < off + n := by
    rw [Nat.lt_succ_iff, Nat.le_div_iff_mul_le hz, Nat.mul_comm]; omega
  have h2 : off / z ≤ g ↔ off < z * g + z := by
    rw [← Nat.lt_succ_iff, Nat.div_lt_iff_lt_mul hz, Nat.succ_mul, Nat.mul_comm]
  have h3 : off / z ≤ (off + n - 1) / z := Nat.div_le_div_right (by omega)
  unfold touched
  rw [if_neg (by omega), mem_span]
  constructor
  · intro h; exact ⟨h1.mp (by omega), h2.mp h.1⟩
  · intro h; have := h1.mpr h.1; have := h2.mpr h.2; omega

theorem Tile.butBytes_wr (x : Tile) (off : Nat) (bs : List Byte) (w : Writer) (hn : 0 < bs.length) :
    x.butBytes ((x.wr off bs).stamp off bs.length w) off bs.length := by
  have e : ∀ y : Tile, y.stamp off bs.length w = { y with shadow := (y.stamp off bs.length w).shadow } := by
    intro y; unfold Tile.stamp; split <;> rfl
  refine ⟨?_, ?_, ?_, ?_⟩
  · rw [e]; rfl
  · intro a ha
    rw [e]
    exact Memory.rd_wrN_outside x.spad off bs ha
  · intro v hv
    rw [e]
    exact clearBad_out _ _ (by rw [mem_touched hn (by decide)]; omega)
  · intro g hg
    rw [e]
    exact clearTags_out _ _ (by rw [mem_touched hn (by decide)]; omega)

theorem Tile.butBytes.signal {x y : Tile} {off n : Nat} (h : x.butBytes y off n) (k : Nat) : x.butBytes (y.signal k) off n := by
  obtain ⟨h1, h2, h3⟩ := h
  refine ⟨?_, h2, h3⟩
  have : ∀ z : Tile, z.signal k = { z with ev := (z.signal k).ev } := fun _ => rfl
  rw [this, h1]

theorem Tile.butBytes.setTag {x y : Tile} {off n : Nat} (h : x.butBytes y off n) (hn : 0 < n) (b : Bool) :
    x.butBytes (y.setTag off b) off n := by
  obtain ⟨h1, h2, h2', h3⟩ := h
  refine ⟨?_, h2, h2', ?_⟩
  · rw [h1]
    rfl
  · intro g hg
    rw [← h3 g hg]
    exact Sparse.get_set_of_ne false y.tags b (by omega)

theorem Tile.likewise.butBytes {x y z : Tile} {off n : Nat} (h : x.likewise y) (k : y.butBytes z off n) : x.butBytes z off n := by
  obtain ⟨h1, h2, h3, h4⟩ := k
  unfold Tile.likewise at h
  refine ⟨?_, ?_, ?_, ?_⟩
  · rw [h1, h]
  · intro a ha; rw [h2 a ha, h]
  · intro w hw; rw [h3 w hw, h]
  · intro g hg; rw [h4 g hg, h]

theorem Tile.butBytes.likewise {x y z : Tile} {off n : Nat} (h : x.butBytes y off n) (k : y.likewise z) : x.butBytes z off n := by
  obtain ⟨h1, h2, h3, h4⟩ := h
  unfold Tile.likewise at k
  refine ⟨?_, ?_, ?_, ?_⟩
  · rw [k, h1]
  · intro a ha; rw [← h2 a ha, k]
  · intro w hw; rw [← h3 w hw, k]
  · intro g hg; rw [← h4 g hg, k]

@[simp] theorem State.tile_trigger (s : State) (ks : List Nat) (u : Nat) : (s.trigger ks).tile u = s.tile u := rfl
@[simp] theorem State.th_trigger (s : State) (ks : List Nat) (k : Nat) : (s.trigger ks).th k = s.th k := rfl
@[simp] theorem State.me_trigger (s : State) (ks : List Nat) : (s.trigger ks).me = s.me := rfl
@[simp] theorem State.cur_trigger (s : State) (ks : List Nat) : (s.trigger ks).cur = s.cur := rfl

theorem State.trigger_rest (s : State) (ks : List Nat) : s.trigger ks = { s with monNotes := (s.trigger ks).monNotes } := rfl
theorem State.modTile_rest (s : State) (u : Nat) (f : Tile → Tile) : s.modTile u f = { s with tiles := (s.modTile u f).tiles } := rfl

theorem Tile.stamp_spad (x : Tile) (off n : Nat) (w : Writer) : (x.stamp off n w).spad = x.spad := by
  unfold Tile.stamp; split <;> rfl
theorem Tile.stamp_tags (x : Tile) (off n : Nat) (w : Writer) : (x.stamp off n w).tags = x.tags := by
  unfold Tile.stamp; split <;> rfl

theorem localPort_tile_ne (s : State) (off n : Nat) (wr : Bool) {u : Nat} (h : u ≠ unitOf s.cur) :
    (s.localPort off n wr).tile u = s.tile u := by
  unfold State.localPort State.watchHit
  split
  · rw [State.tile_modMe, State.tile_modTile_of_ne _ _ h]
  · rw [State.tile_modTile_of_ne _ _ h]

theorem localPort_tile (s : State) (off n : Nat) (wr : Bool) :
    (s.localPort off n wr).tile (unitOf s.cur) = (s.tile (unitOf s.cur)).signal 1 := by
  unfold State.localPort State.watchHit
  split
  · rw [State.tile_modMe, State.tile_modTile_self]
  · rw [State.tile_modTile_self]

/-- The own tile after a LOCAL write. -/
theorem localWrite_tile (s : State) (off : Nat) (bs : List Byte) (tag : Bool) :
    (s.localWrite off bs tag).tile (unitOf s.cur) =
      (let x := (((s.tile (unitOf s.cur)).signal 1).wr off bs).stamp off bs.length (s.localWriter s.cur)
       if tag then x.setTag off true else x) := by
  unfold State.localWrite State.spadWrite
  cases tag
  · simp only [Bool.false_eq_true, if_false, State.tile_trigger, State.tile_modTile_self, localPort_tile]
  · simp only [if_true, State.tile_trigger, State.tile_modTile_self, localPort_tile]

theorem localWrite_tile_ne (s : State) (off : Nat) (bs : List Byte) (tag : Bool) {u : Nat} (h : u ≠ unitOf s.cur) :
    (s.localWrite off bs tag).tile u = s.tile u := by
  unfold State.localWrite State.spadWrite
  cases tag
  · simp only [Bool.false_eq_true, if_false, State.tile_trigger, State.tile_modTile_of_ne _ _ h, localPort_tile_ne _ _ _ _ h]
  · simp only [if_true, State.tile_trigger, State.tile_modTile_of_ne _ _ h, localPort_tile_ne _ _ _ _ h]

theorem localWrite_me (s : State) (off : Nat) (bs : List Byte) (tag : Bool) : (s.localWrite off bs tag).me = s.seen off bs.length true := by
  unfold State.localWrite State.spadWrite
  cases tag
  · simp only [Bool.false_eq_true, if_false, State.me_trigger, State.me_modTile, localPort_me]
  · simp only [if_true, State.me_trigger, State.me_modTile, localPort_me]

theorem localWrite_rest (s : State) (off : Nat) (bs : List Byte) (tag : Bool) :
    s.localWrite off bs tag =
      { s with threads := (s.localWrite off bs tag).threads, tiles := (s.localWrite off bs tag).tiles,
               monNotes := (s.localWrite off bs tag).monNotes } := by
  have h := (localPort_only s off bs.length true).1
  generalize hq : s.localPort off bs.length true = q at h
  unfold State.localWrite State.spadWrite
  simp only [hq]
  cases tag
  · simp only [Bool.false_eq_true, if_false]; rw [h]; rfl
  · simp only [if_true]; rw [h]; rfl

theorem localWrite_th (s : State) (off : Nat) (bs : List Byte) (tag : Bool) {k : Nat} (h : k ≠ s.cur) :
    (s.localWrite off bs tag).th k = s.th k := by
  have := (localPort_only s off bs.length true).2.1 k h
  unfold State.localWrite State.spadWrite
  cases tag
  · simp only [Bool.false_eq_true, if_false, State.th_trigger, State.th_modTile, this]
  · simp only [if_true, State.th_trigger, State.th_modTile, this]

/-- Nothing but the written bytes and what stands beside them differs. -/
theorem localWrite_only (s : State) (off : Nat) (bs : List Byte) (tag : Bool) (hn : 0 < bs.length) :
    s.OnlyBytes (s.localWrite off bs tag) off bs.length := by
  refine ⟨localWrite_rest s off bs tag, fun k hk => localWrite_th s off bs tag hk, fun u hu => localWrite_tile_ne s off bs tag hu, ?_⟩
  rw [localWrite_tile]
  have := (Tile.likewise_signal (s.tile (unitOf s.cur)) 1).butBytes
    (Tile.butBytes_wr _ off bs (s.localWriter s.cur) hn)
  cases tag
  · exact this
  · exact this.setTag hn true

theorem localWrite_spad (s : State) (off : Nat) (bs : List Byte) (tag : Bool) :
    ((s.localWrite off bs tag).tile (unitOf s.cur)).spad = (s.tile (unitOf s.cur)).spad.wrN off bs := by
  rw [localWrite_tile]
  cases tag
  · exact Tile.stamp_spad _ _ _ _
  · exact Tile.stamp_spad _ _ _ _

theorem localWrite_tag (s : State) (off : Nat) (bs : List Byte) (tag : Bool) (hn : 0 < bs.length) :
    Sparse.get false ((s.localWrite off bs tag).tile (unitOf s.cur)).tags (off / 16) = tag := by
  rw [localWrite_tile]
  cases tag
  · simp only [Bool.false_eq_true, if_false]
    rw [Tile.stamp_tags]
    exact clearTags_in _ _ (by rw [mem_touched hn (by decide)]; omega)
  · simp only [if_true, Tile.setTag, Sparse.get_set_self]

theorem memWrite_local {s : State} {i : Instr} {c : Val} {ea : Int} {bs : List Byte} {tag : Bool} {kind : Nat} (hc : c.space = 0)
    (h0 : 0 ≤ ea) (h1 : ea < 2 ^ 20) (hl : s.localCheck c ea.toNat bs.length true = none) (ho : s.ownWrites s.cur = false)
    (hr : s.me.redundant = false) : memWrite s i c (wordOf ea) bs tag kind = .ok (s.localWrite ea.toNat bs tag) := by
  unfold memWrite
  simp only [hc, wordOf_small h0 h1, hl, ho, hr, Bool.false_eq_true, if_false]

theorem State.OnlyBytes.keep {s t : State} {off n : Nat} (h : s.OnlyBytes t off n) : s.OnlyBytes (s.keep t) off n := by
  obtain ⟨h1, h2, h3, h4⟩ := h
  exact ⟨by rw [h1]; rfl, h2, h3, h4⟩

theorem State.OnlyBytes.cur {s t : State} {off n : Nat} (h : s.OnlyBytes t off n) : t.cur = s.cur := by rw [h.1]

/-- Changes of the present thread and of event logic after a write. -/
theorem State.OnlyBytes.trans_me {s t u : State} {off n : Nat} (h : s.OnlyBytes t off n) (k : t.OnlyMe u)
    (hne : ∀ v, v ≠ unitOf s.cur → u.tile v = t.tile v) : s.OnlyBytes u off n := by
  obtain ⟨h1, h2, h3, h4⟩ := h
  have hcur : t.cur = s.cur := by rw [h1]
  refine ⟨by rw [k.1, h1], fun j hj => ?_, fun v hv => by rw [hne v hv, h3 v hv], h4.likewise (k.2.2 _)⟩
  rw [k.2.1 j (by rw [hcur]; exact hj), h2 j hj]

theorem State.OnlyBytes.of_awake {s t : State} {off n : Nat} (h : (awake s).OnlyBytes t off n) : s.OnlyBytes t off n := by
  obtain ⟨h1, h2, h3, h4⟩ := h
  refine ⟨by rw [h1]; rfl, fun k hk => ?_, h3, h4⟩
  rw [h2 k hk, awake_th s hk]

theorem issued_tile_ne (s : State) {u : Nat} (h : u ≠ unitOf s.cur) : (issued s).tile u = s.tile u := by
  unfold issued
  split
  · exact State.tile_modTile_of_ne s _ h
  · rfl

theorem issued_spad (s : State) (u : Nat) : ((issued s).tile u).spad = (s.tile u).spad := by
  have := issued_tile s u; unfold Tile.likewise at this; rw [this]
theorem issued_tags (s : State) (u : Nat) : ((issued s).tile u).tags = (s.tile u).tags := by
  have := issued_tile s u; unfold Tile.likewise at this; rw [this]

/-- A store to the own scratchpad. -/
theorem storeForm_local {s : State} {i : Instr} {a : Reg} {b : Src} {off : Int} {n : Nat} {stc : Bool}
    (hx : exec i s = fin s (storeForm s i a b off n stc)) (hs : s.me.ready) (hb : b.plain = true) (ho : s.ownWrites s.cur = false)
    (hr : s.me.redundant = false) (hc : s.me.arch.regs[a].space = 0) (hn : 0 < n)
    (hk : capCheck s.me.arch.regs[a] (s.me.arch.regs[a].addr.toNat + off) n permW s.me.arch.status.form (isSys (unitOf s.cur)) = none)
    (ha : ((s.me.arch.regs[a].addr.toNat : Int) + off) % n = 0)
    (hl : s.localCheck s.me.arch.regs[a] ((s.me.arch.regs[a].addr.toNat : Int) + off).toNat n true = none)
    (ht : stc = true → (s.me.srcVal b).tag = true → s.me.arch.regs[a].has permSC = true) :
    let ea := ((s.me.arch.regs[a].addr.toNat : Int) + off).toNat
    let bs := leBytes n (s.me.srcVal b).data.toNat
    ∃ t, exec i s = .next t ∧ s.OnlyBytes t ea n ∧ t.me = (s.seen ea n true).after (s.me.arch.past i.bytes) ∧
      (t.tile (unitOf s.cur)).spad = (s.tile (unitOf s.cur)).spad.wrN ea bs ∧
      Sparse.get false (t.tile (unitOf s.cur)).tags (ea / 16) = (stc && (s.me.srcVal b).tag) := by
  intro ea bs
  obtain ⟨h0, h1⟩ := local_offset hc hk
  have hlen : bs.length = n := length_leBytes _ _
  have hp : ∀ x ∈ [Src.reg a, b], x.plain = true := by
    intro x hx; simp only [List.mem_cons, List.not_mem_nil, or_false] at hx
    rcases hx with rfl | rfl
    · rfl
    · exact hb
  have hacc : accessCheck (awake s) s.me.arch.regs[a] ((s.me.arch.regs[a].addr.toNat : Int) + off) n permW = none :=
    accessCheck_ok (by rw [awake_me]; exact hk) ha
  have hput : memWrite (awake s) i s.me.arch.regs[a] (wordOf ((s.me.arch.regs[a].addr.toNat : Int) + off)) bs
      (stc && (s.me.srcVal b).tag) (if stc then 1 else 0) = .ok ((awake s).localWrite ea bs (stc && (s.me.srcVal b).tag)) :=
    memWrite_local hc h0 h1 (by rw [localCheck_awake, hlen]; exact hl) (by rw [ownWrites_awake]; exact ho) (by rw [awake_me]; exact hr)
  have hcap : (stc && (s.me.srcVal b).tag && (!s.me.arch.regs[a].has permSC || decide (s.me.arch.regs[a].space = 2))) = false := by
    rw [hc]
    cases stc
    · rfl
    · cases hv : (s.me.srcVal b).tag
      · rfl
      · have h := ht rfl hv
        rw [h]; rfl
  rw [storeForm, issue_plain hs hp rfl] at hx
  have e0 : arg ([Src.reg a, b].map s.me.srcVal) 0 = s.me.arch.regs[a] := rfl
  have e1 : arg ([Src.reg a, b].map s.me.srcVal) 1 = s.me.srcVal b := rfl
  simp only [e0, e1, hacc, hcap, Bool.false_eq_true, if_false] at hx
  rw [hput] at hx
  simp only [Acc.andThen] at hx
  generalize hg : (awake s).localWrite ea bs (stc && (s.me.srcVal b).tag) = g at hx
  have hm : g.me = { s.seen ea n true with run := .running } := by rw [← hg, localWrite_me, seen_awake, hlen]
  have hgo : s.OnlyBytes g ea n := by
    have := localWrite_only (awake s) ea bs (stc && (s.me.srcVal b).tag) (by rw [hlen]; exact hn)
    rw [hg, hlen] at this
    exact this.of_awake
  have hst : g.me.streams = Vector.replicate 4 none := by rw [hm]; exact (seen_streams s ea n true).trans hs.1
  have hga : g.me.arch = s.me.arch := by rw [hm]; exact seen_arch s ea n true
  rw [finish_plain hst (writeSink_none hst)] at hx
  have hcur : g.cur = s.cur := hgo.cur
  refine ⟨_, hx, (hgo.trans_me ((State.OnlyMe.issued g).trans (.retire _ i [] none)) ?_).keep, ?_, ?_, ?_⟩
  · intro v hv
    have : (retire (issued g) i [] none).tile v = (issued g).tile v := rfl
    rw [this]
    exact issued_tile_ne g (by rw [hcur]; exact hv)
  · rw [State.me_keep, retire_me, issued_me, hga, hm, seen_after']
    rfl
  · have : (s.keep (retire (issued g) i [] none)).tile (unitOf s.cur) = (issued g).tile (unitOf s.cur) := rfl
    rw [this, issued_spad, ← hg]
    exact localWrite_spad (awake s) ea bs _
  · have : (s.keep (retire (issued g) i [] none)).tile (unitOf s.cur) = (issued g).tile (unitOf s.cur) := rfl
    rw [this, issued_tags, ← hg]
    exact localWrite_tag (awake s) ea bs _ (by rw [hlen]; exact hn)

end Sys2Proof.Machine
end

