-- ==== Sys2Proof/Laws/Quadtree.lean ====
section
/-! SUPPORT. What a computation of a quadtree engine can do to the package: it writes memory and nothing else (R278, R286, R289). -/

namespace Sys2Proof.Machine

/-- Two states that differ in nothing but the contents of DRAM, host memory and other packages' memory, and the monitor lines
triggered. -/
def State.Mems (s t : State) : Prop :=
  t = { s with dram := t.dram, hostMem := t.hostMem, foreign := t.foreign, monNotes := t.monNotes }

theorem State.Mems.refl (s : State) : s.Mems s := rfl
theorem State.Mems.trans {s t u : State} (h : s.Mems t) (k : t.Mems u) : s.Mems u := by
  unfold State.Mems at *; rw [k, h]

theorem physWr_mems (s : State) (p : Phys) (bs : List Byte) : s.Mems (s.physWr p bs) := by
  unfold State.physWr
  split
  · split <;> rfl
  · split <;> rfl

theorem globalWrP_mems (part pasid : Nat) (ps : List (Nat × Nat)) :
    ∀ (s : State) (bs : List Byte) (t : State), s.globalWrP part pasid ps bs = .ok t → s.Mems t := by
  induction ps with
  | nil => intro s bs t h; cases h; rfl
  | cons p ps ih =>
    intro s bs t h
    obtain ⟨va, n⟩ := p
    simp only [State.globalWrP] at h
    split at h
    · cases h
    · exact (physWr_mems _ _ _).trans (ih _ _ _ h)

theorem globalWr_mems {s t : State} {part pasid va : Nat} {bs : List Byte} (h : s.globalWr part pasid va bs = .ok t) : s.Mems t :=
  globalWrP_mems part pasid _ s bs t h

/-- A computation keeps its command and its die, and of the package changes memory alone. -/
def Quiet {α : Type} (m : QM α) : Prop := ∀ o : QOp, o.s.Mems (m.run o).2.s ∧ (m.run o).2.c = o.c ∧ (m.run o).2.die = o.die

variable {α β : Type}

theorem quiet_pure (a : α) : Quiet (pure a : QM α) := fun _ => ⟨rfl, rfl, rfl⟩
theorem quiet_throw (e : QStop) : Quiet (throw e : QM α) := fun _ => ⟨rfl, rfl, rfl⟩
theorem quiet_get : Quiet (get : QM QOp) := fun _ => ⟨rfl, rfl, rfl⟩

theorem quiet_bind {m : QM α} {f : α → QM β} (hm : Quiet m) (hf : ∀ a, Quiet (f a)) : Quiet (m >>= f) := by
  intro o
  have h := hm o
  have e : (m >>= f).run o = (match m.run o with | (.ok a, o') => (f a).run o' | (.error e, o') => (.error e, o')) := by
    show (ExceptT.bindCont f (m.run o).1) (m.run o).2 = _
    rcases m.run o with ⟨a | a, o'⟩ <;> rfl
  rw [e]
  rcases hr : m.run o with ⟨a | a, o'⟩
  · rw [hr] at h; exact h
  · rw [hr] at h
    have k := hf a o'
    exact ⟨h.1.trans k.1, k.2.1.trans h.2.1, k.2.2.trans h.2.2⟩

theorem quiet_modify {f : QOp → QOp} (h : ∀ o, o.s.Mems (f o).s ∧ (f o).c = o.c ∧ (f o).die = o.die) : Quiet (modify f : QM PUnit) := h

theorem quiet_ite {c : Prop} [Decidable c] {a b : QM α} (ha : Quiet a) (hb : Quiet b) : Quiet (if c then a else b) := by
  split
  · exact ha
  · exact hb

theorem quiet_stopAccess (k : Nat) (a : Word) : Quiet (stopAccess k a : QM α) := by
  unfold stopAccess; exact quiet_throw _

/-- A computation that reads and changes nothing. -/
def Still {α : Type} (m : QM α) : Prop := ∀ o : QOp, (m.run o).2 = o

theorem Still.quiet {m : QM α} (h : Still m) : Quiet m := fun o => by rw [h o]; exact ⟨rfl, rfl, rfl⟩

theorem run_bind (m : QM α) (f : α → QM β) (o : QOp) :
    (m >>= f).run o = (match m.run o with | (.ok a, o') => (f a).run o' | (.error e, o') => (.error e, o')) := by
  show (ExceptT.bindCont f (m.run o).1) (m.run o).2 = _
  rcases m.run o with ⟨a | a, o'⟩ <;> rfl

theorem still_bind {m : QM α} {f : α → QM β} (hm : Still m) (hf : ∀ a, Still (f a)) : Still (m >>= f) := by
  intro o
  have h := hm o
  rw [run_bind]
  rcases hr : m.run o with ⟨a | a, o'⟩
  · rw [hr] at h; exact h
  · rw [hr] at h; exact (hf a o').trans h

theorem still_pure (a : α) : Still (pure a : QM α) := fun _ => rfl
theorem still_throw (e : QStop) : Still (throw e : QM α) := fun _ => rfl
theorem still_get : Still (get : QM QOp) := fun _ => rfl

theorem still_ite {c : Prop} [Decidable c] {a b : QM α} (ha : Still a) (hb : Still b) : Still (if c then a else b) := by
  split
  · exact ha
  · exact hb

theorem still_stopAccess (k : Nat) (a : Word) : Still (stopAccess k a : QM α) := still_throw _

theorem still_qCheck (cap : Val) (a : Word) (n : Nat) (need : BitVec 8) : Still (qCheck cap a n need) := by
  unfold qCheck
  refine still_bind still_get fun o => ?_
  cases capCheck cap a.toNat n need o.c.form false
  · cases offsetOf 2 a.toNat
    · exact still_throw _
    · exact still_pure _
  · exact still_throw _

theorem still_qRead (a : Word) (n : Nat) : Still (qRead a n) := by
  unfold qRead
  refine still_bind still_get fun o => still_bind (still_qCheck _ _ _ _) fun off => ?_
  cases o.s.globalRd o.c.part o.c.pasid off n
  · exact still_stopAccess _ _
  · exact still_pure _

theorem still_qNode (a : Word) : Still (qNode a) := by
  unfold qNode
  refine still_bind still_get fun o => ?_
  cases o.recs.find? fun r => r.1 = a
  · exact still_ite (still_throw _) (still_bind (still_qRead _ _) fun _ => still_pure _)
  · exact still_pure _

theorem still_view (r : QRef) : Still r.view := still_bind (still_qNode _) fun _ => still_pure _

theorem still_kid (r : QRef) (q : Nat) : Still (r.kid q) :=
  still_bind (still_view r) fun _ => still_ite (still_pure _) (still_pure _)

theorem still_kids (r : QRef) : Still r.kids :=
  still_bind (still_kid r 0) fun _ => still_bind (still_kid r 1) fun _ => still_bind (still_kid r 2) fun _ =>
    still_bind (still_kid r 3) fun _ => still_pure _

theorem still_qRows (f : Fmt) (n stride m : Nat) : ∀ a : Word, Still (qRows f a n stride m) := by
  induction m with
  | zero => exact fun _ => still_pure _
  | succ m ih => exact fun _ => still_bind (still_qRead _ _) fun _ => still_bind (ih _) fun _ => still_pure _

theorem still_codes (n : QNode) : Still n.codes := by
  unfold QNode.codes
  split
  · exact still_bind (still_qRows _ _ _ _ _) fun _ => still_pure _
  · exact still_bind (still_qRows _ _ _ _ _) fun _ => still_bind (still_qRows _ _ _ _ _) fun _ => still_pure _
  · exact still_bind (still_qRows _ _ _ _ _) fun _ => still_pure _
  · exact still_pure _

theorem still_load (n : QNode) (trans : Bool) : Still (n.load trans) := by
  unfold QNode.load
  refine still_bind (still_codes n) fun c => ?_
  dsimp only
  refine still_ite ?_ (still_pure _)
  split
  · exact still_pure _
  · exact still_pure _
  · exact still_pure _

theorem still_cont (n : QNode) : Still n.cont := still_bind (still_codes n) fun _ => still_pure _

theorem still_qVecFmt : Still qVecFmt := still_bind still_get fun _ => still_bind (still_qNode _) fun _ => still_pure _
theorem still_qDim : Still qDim := still_bind still_get fun _ => still_bind (still_qNode _) fun _ => still_pure _
theorem still_qWork (k : Nat) : Still (qWork k) :=
  still_bind still_get fun _ => still_bind still_qVecFmt fun _ => still_bind still_qDim fun _ => still_pure _
theorem still_qVec (a : Word) : Still (qVec a) :=
  still_bind still_qVecFmt fun _ => still_bind still_qDim fun _ => still_qRows _ _ _ _ _

theorem still_qScale (n : Nat) : ∀ r : QRef, Still (qScale r n) := by
  induction n with
  | zero => exact fun _ => still_pure _
  | succ n ih =>
    intro r
    unfold qScale
    refine still_bind (still_view r) fun x => still_ite ?_ ?_
    · exact still_bind (still_kid r 0) fun a => still_bind (still_kid r 3) fun b => still_bind (ih a) fun _ => still_bind (ih b) fun _ =>
        still_pure _
    · exact still_bind (still_load _ _) fun _ => still_pure _

theorem still_qSolveZ : Still qSolveZ :=
  still_bind still_get fun _ => still_bind (still_qWork 3) fun _ =>
    still_ite (still_pure _) (still_ite (still_pure _) (still_pure _))

theorem still_qTimes (v : Word) : Still (qTimes v) :=
  still_bind still_get fun _ => still_bind (still_qWork 2) fun _ => still_pure _

/-! ### The walk before the first commit -/

theorem still_qWalk (need : BitVec 8) (opnd : Bool) (fmt : Nat) (n : Nat) :
    ∀ (lvl lg : Nat) (a : Word), Still (qWalk need opnd lvl lg fmt a n) := by
  induction n with
  | zero => exact fun _ _ _ => still_throw _
  | succ n ih =>
    intro lvl lg a
    unfold qWalk
    refine still_ite (still_throw _) (still_bind still_get fun o => still_bind (still_qCheck _ _ _ _) fun _ =>
      still_bind (still_qRead _ _) fun bs => ?_)
    refine still_ite (still_throw _) (still_ite ?_ (still_pure _))
    exact still_bind (ih _ _ _) fun _ => still_bind (ih _ _ _) fun _ => still_bind (ih _ _ _) fun _ => still_bind (ih _ _ _) fun _ =>
      still_pure _

theorem still_qTree (need : BitVec 8) (opnd : Bool) (a : Word) : Still (qTree need opnd a) :=
  still_bind (still_qNode a) fun _ => still_bind (still_qWalk _ _ _ _ _ _ _) fun _ => still_pure _

theorem still_qAligned (a : Word) : Still (qAligned a) := still_ite (still_throw _) (still_pure _)

theorem still_qCrowns (c : QtCmd) (a : QNode) (b res : Option QNode) : Still (qCrowns c a b res) := by
  have k (f : Fmt) : Still (match res with
      | some x => if x.lg ≠ a.lg ∨ x.f ≠ f then throw (.fail Cause.qshape (c.op? (if c.op = 4 then 1 else 2))) else pure ()
      | none => pure () : QM Unit) := by
    cases res
    · exact still_pure _
    · exact still_ite (still_throw _) (still_pure _)
  unfold qCrowns
  cases b
  · exact k _
  · exact still_ite (still_bind (still_throw _) fun _ => k _) (k _)

/-- The walk before a command's first commit reads and changes nothing (R279). -/
theorem still_qShape (c : QtCmd) : Still (qShape c) := by
  unfold qShape
  split
  · exact still_bind (still_qTree _ _ _) fun _ => still_bind (still_qTree _ _ _) fun _ => still_bind (still_qTree _ _ _) fun _ =>
      still_qCrowns _ _ _ _
  · exact still_bind (still_qTree _ _ _) fun _ => still_bind (still_qTree _ _ _) fun _ => still_qCrowns _ _ _ _
  · refine still_bind (still_qTree _ _ _) fun _ => ?_
    have k : Still (do let _ ← qCheck c.tree (c.op? 2) 64 (permR ||| permW); pure () : QM Unit) :=
      still_bind (still_qCheck _ _ _ _) fun _ => still_pure _
    exact still_ite (still_bind (still_throw _) fun _ => k) k
  · exact still_bind (still_qTree _ _ _) fun _ => still_ite (still_throw _) (still_pure _)
  · exact still_bind (still_qTree _ _ _) fun _ => still_bind (still_qTree _ _ _) fun _ => still_qCrowns _ _ _ _
  · refine still_bind (still_qTree _ _ _) fun _ => ?_
    have k : Still (do qAligned (c.op? 2); qAligned (c.op? 3); qAligned (c.op? 4) : QM Unit) :=
      still_bind (still_qAligned _) fun _ => still_bind (still_qAligned _) fun _ => still_qAligned _
    have c1 : Still (do
        let _ ← qCheck c.tree (c.op? 1) 64 (permR ||| permW)
        do qAligned (c.op? 2); qAligned (c.op? 3); qAligned (c.op? 4) : QM Unit) := still_bind (still_qCheck _ _ _ _) fun _ => k
    exact still_ite (still_ite (still_bind (still_throw _) fun _ => c1) c1)
      (still_ite (still_bind (still_qTree _ _ _) fun _ => still_bind (still_qCrowns _ _ _ _) fun _ => k) k)

/-! ### Leaf operations write memory alone -/

theorem quiet_qPut (a : Word) (n : QNode) : Quiet (qPut a n) := quiet_modify fun _ => ⟨rfl, rfl, rfl⟩
theorem quiet_qPay (a : Word) (bs : List Byte) : Quiet (qPay a bs) := quiet_modify fun _ => ⟨rfl, rfl, rfl⟩
theorem quiet_qRunSet (f : QtRun → QtRun) : Quiet (qRunSet f) := quiet_modify fun _ => ⟨rfl, rfl, rfl⟩

/-- A computation that goes on with the state it began with. -/
theorem quiet_get_bind {f : QOp → QM α} (h : ∀ o : QOp, o.s.Mems ((f o).run o).2.s ∧ ((f o).run o).2.c = o.c ∧ ((f o).run o).2.die = o.die) :
    Quiet (get >>= f) := h

/-- After a reading step the state is still the one it began with. -/
theorem quiet_still_bind {m : QM α} {f : α → QM β} {o : QOp} (hm : Still m)
    (hf : ∀ a, o.s.Mems ((f a).run o).2.s ∧ ((f a).run o).2.c = o.c ∧ ((f a).run o).2.die = o.die) :
    o.s.Mems ((m >>= f).run o).2.s ∧ ((m >>= f).run o).2.c = o.c ∧ ((m >>= f).run o).2.die = o.die := by
  have h := hm o
  rw [run_bind]
  rcases hr : m.run o with ⟨a | a, o'⟩
  · rw [hr] at h; subst h; exact ⟨rfl, rfl, rfl⟩
  · rw [hr] at h; subst h; exact hf a

theorem still_qCommitCheck (a : Word) (n : Nat) : Still (qCommitCheck a n) := by
  unfold qCommitCheck
  refine still_bind still_get fun o => still_bind (still_qCheck _ _ _ _) fun off => ?_
  cases o.s.globalWr o.c.part o.c.pasid off (List.replicate n 0)
  · exact still_stopAccess _ _
  · exact still_pure _

theorem quiet_qCheckAll : ∀ l, Quiet (qCheckAll l)
  | [] => quiet_pure _
  | _ :: l => quiet_bind (still_qCommitCheck _ _).quiet fun _ => quiet_qCheckAll l

theorem qtWrite_mems (c : QtCmd) (l : List (Word × List Byte)) : ∀ s : State, s.Mems (s.qtWrite c l).2 := by
  induction l with
  | nil => exact fun _ => rfl
  | cons p l ih =>
    intro s
    obtain ⟨a, bs⟩ := p
    unfold State.qtWrite
    rcases h : s.globalWr c.part c.pasid ((offsetOf 2 a.toNat).getD 0) bs with e | u
    · simp only [h]; rfl
    · simp only [h]; exact (globalWr_mems h).trans (ih _)

theorem quiet_qAlloc (n : Nat) : Quiet (qAlloc n) := by
  unfold qAlloc
  refine quiet_get_bind fun o => ?_
  rcases o.c.pool with _ | pool
  · exact ⟨rfl, rfl, rfl⟩
  · refine quiet_still_bind (still_qCheck _ _ _ _) fun off => ?_
    rcases o.s.globalRd o.c.part o.c.pasid off 16 with e | bs
    · exact ⟨rfl, rfl, rfl⟩
    · dsimp only
      split
      · exact ⟨rfl, rfl, rfl⟩
      · split
        · exact ⟨rfl, rfl, rfl⟩
        · refine quiet_still_bind (still_qCheck _ _ _ _) fun _ => ?_
          cases h : o.s.globalWr o.c.part o.c.pasid off (leBytes 8 ((bytesWord bs 0).toNat + (n + 63) / 64 * 64))
          · exact ⟨rfl, rfl, rfl⟩
          · exact ⟨globalWr_mems h, rfl, rfl⟩

theorem quiet_qSplit (a : Word) : Quiet (qSplit a) := by
  unfold qSplit
  refine quiet_bind (still_qNode a).quiet fun n => quiet_ite (quiet_pure _) ?_
  exact quiet_bind (quiet_qAlloc _) fun _ => quiet_bind (quiet_qAlloc _) fun _ => quiet_bind (quiet_qAlloc _) fun _ =>
    quiet_bind (quiet_qAlloc _) fun _ => quiet_bind (quiet_qPut _ _) fun _ => quiet_bind (quiet_qPut _ _) fun _ =>
    quiet_bind (quiet_qPut _ _) fun _ => quiet_bind (quiet_qPut _ _) fun _ => quiet_bind (quiet_qPut _ _) fun _ => quiet_pure _

theorem quiet_payRows (f : Fmt) (p : Array Nat) (n stride : Nat) (a : Word) : ∀ l, Quiet (payRows f p n stride a l)
  | [] => quiet_pure _
  | _ :: l => quiet_bind (quiet_qPay _ _) fun _ => quiet_payRows f p n stride a l

theorem quiet_qLeafPut (a : Word) (n : QNode) (c : QCont) (fresh : Bool) {ld : Bool} : Quiet (qLeafPut a n c fresh ld) := by
  unfold qLeafPut
  dsimp only
  refine quiet_ite (quiet_qPut _ _) (quiet_ite (quiet_bind (quiet_qAlloc _) fun p => ?_) ?_)
  · split
    · exact quiet_bind (quiet_qPay _ _) fun _ => quiet_qPut _ _
    · exact quiet_bind (quiet_qPay _ _) fun _ => quiet_bind (quiet_qPay _ _) fun _ => quiet_qPut _ _
    · exact quiet_bind (quiet_payRows _ _ _ _ _ _) fun _ => quiet_qPut _ _
  · split
    · exact quiet_bind (quiet_qPay _ _) fun _ => quiet_qPut _ _
    · exact quiet_bind (quiet_qPay _ _) fun _ => quiet_bind (quiet_qPay _ _) fun _ => quiet_qPut _ _
    · exact quiet_bind (quiet_payRows _ _ _ _ _ _) fun _ => quiet_qPut _ _

theorem quiet_qAddTo (a : Word) (p : Option QCont) (first last count low : Bool) : Quiet (qAddTo a p first last count low) := by
  unfold qAddTo
  refine quiet_bind (still_qNode a).quiet fun n => ?_
  cases p
  · exact quiet_ite (quiet_qPut _ _) (quiet_pure _)
  · exact quiet_bind (still_cont _).quiet fun _ => quiet_qLeafPut _ _ _ _

theorem quiet_qConvert (n : QNode) (dst : Word) (f : Fmt) (rm : Rm) (dense : Bool) : Quiet (qConvert n dst f rm dense) := by
  unfold qConvert
  dsimp only
  exact quiet_ite (quiet_bind (still_load _ _).quiet fun _ => quiet_qLeafPut _ _ _ _)
    (quiet_bind (still_cont _).quiet fun _ => quiet_qLeafPut _ _ _ _)

theorem quiet_qVecPut (a : Word) (l : List Nat) : Quiet (qVecPut a l) := quiet_bind still_qVecFmt.quiet fun _ => quiet_qPay _ _

theorem quiet_qSolvedAs (best : List Nat) (reason : Nat) : Quiet (qSolvedAs best reason) :=
  quiet_bind quiet_get fun _ => quiet_bind (quiet_qVecPut _ _) fun _ => quiet_bind (quiet_qRunSet _) fun _ => quiet_pure _

theorem quiet_qSolved (reason : Nat) : Quiet (qSolved reason) :=
  quiet_bind (still_qWork 4).quiet fun _ => quiet_bind (still_qVec _).quiet fun _ => quiet_qSolvedAs _ _

theorem still_qGoOn (n : Nat) : Still (qGoOn n) := by
  unfold qGoOn
  exact still_bind still_get fun _ => still_ite (still_ite (still_pure _) (still_pure _)) (still_bind still_qSolveZ fun _ => still_pure _)

theorem quiet_qJudge (n : Nat) : Quiet (qJudge n) := by
  unfold qJudge
  refine quiet_bind quiet_get fun o => quiet_bind still_qVecFmt.quiet fun f => quiet_bind (still_qWork 0).quiet fun _ =>
    quiet_bind (still_qVec _).quiet fun r => quiet_bind (still_qWork 4).quiet fun w => ?_
  dsimp only
  refine quiet_bind (still_qVec _).quiet fun best => ?_
  have k (best : List Nat) (late a b : Bool) : Quiet (do
      qRunSet fun r => { r with begun := true }
      if late then qSolvedAs best 2 else if a then qSolvedAs best 1 else if b then qSolvedAs best 3 else qGoOn n : QM (List QTask)) :=
    quiet_bind (quiet_qRunSet _) fun _ =>
      quiet_ite (quiet_qSolvedAs _ _) (quiet_ite (quiet_qSolvedAs _ _) (quiet_ite (quiet_qSolvedAs _ _) (still_qGoOn _).quiet))
  have e : Quiet (do
      qRunSet fun r => { r with begun := true }
      if o.run.late && !o.run.begun then qSolvedAs best 2
      else if !decide (num64 (BitVec.ofNat 64 (norm f r)) = .nan) && !decide (o.c.tol.mul (num64 o.run.bnorm) = .nan)
        && !(o.c.tol.mul (num64 o.run.bnorm)).lt (num64 (BitVec.ofNat 64 (norm f r))) then qSolvedAs best 1
      else if o.c.count ≤ o.run.iter then qSolvedAs best 3 else qGoOn n : QM (List QTask)) :=
    quiet_bind (quiet_qRunSet _) fun _ =>
      quiet_ite (quiet_qSolvedAs _ _) (quiet_ite (quiet_qSolvedAs _ _) (quiet_ite (quiet_qSolvedAs _ _) (still_qGoOn _).quiet))
  exact quiet_ite (quiet_bind (quiet_qVecPut _ _) fun _ => quiet_bind (quiet_qRunSet _) fun _ => e) e

theorem quiet_qStage (n : Nat) : Quiet (qStage n) := by
  unfold qStage
  refine quiet_bind quiet_get fun o => quiet_bind still_qVecFmt.quiet fun f => quiet_bind still_qDim.quiet fun d =>
    quiet_bind (still_qWork 0).quiet fun ra => quiet_bind (still_qWork 1).quiet fun pa => quiet_bind (still_qWork 2).quiet fun qa =>
    quiet_bind (still_qWork 3).quiet fun za => ?_
  dsimp only
  have v (a : Word) : Quiet (qVec a) := (still_qVec a).quiet
  split
  · exact quiet_bind (v _) fun _ => quiet_bind (v _) fun _ => quiet_bind (quiet_qVecPut _ _) fun _ => quiet_bind (quiet_qRunSet _) fun _ =>
      quiet_pure _
  · exact quiet_bind (v _) fun _ => quiet_bind (v _) fun _ => quiet_bind (quiet_qVecPut _ _) fun _ => quiet_bind (quiet_qRunSet _) fun _ =>
      quiet_bind (still_qTimes _).quiet fun _ => quiet_pure _
  · refine quiet_bind (v _) fun _ => quiet_bind (v _) fun _ => quiet_ite (quiet_qSolved _) ?_
    exact quiet_bind (v _) fun _ => quiet_bind (v _) fun _ => quiet_bind (quiet_qVecPut _ _) fun _ => quiet_bind (quiet_qVecPut _ _) fun _ =>
      quiet_bind (quiet_qRunSet _) fun _ => quiet_pure _
  · exact quiet_bind (v _) fun _ => quiet_bind (v _) fun _ => quiet_bind (v _) fun _ => quiet_bind (quiet_qVecPut _ _) fun _ =>
      quiet_bind (quiet_qRunSet _) fun _ => quiet_bind (still_qTimes _).quiet fun _ => quiet_pure _
  · exact quiet_bind (v _) fun _ => quiet_bind (quiet_qVecPut _ _) fun _ => quiet_bind still_qSolveZ.quiet fun _ => quiet_pure _
  · exact quiet_bind (v _) fun _ => quiet_bind (v _) fun _ => quiet_bind (quiet_qVecPut _ _) fun _ => quiet_bind (quiet_qRunSet _) fun _ =>
      quiet_bind (still_qTimes _).quiet fun _ => quiet_pure _
  · exact quiet_bind (v _) fun _ => quiet_bind (v _) fun _ => quiet_bind (quiet_qVecPut _ _) fun _ => quiet_pure _
  · exact (still_qTimes _).quiet
  · exact quiet_bind (quiet_qVecPut _ _) fun _ => quiet_pure _
  · exact quiet_bind (v _) fun _ => quiet_bind (quiet_qVecPut _ _) fun _ => quiet_pure _
  · exact quiet_qJudge _

theorem still_qHas (k : Nat) : ∀ (r : QRef) (row n col : Nat), Still (qHas r row n col k) := by
  induction k with
  | zero => exact fun _ _ _ _ => still_pure _
  | succ k ih =>
    intro r row n col
    unfold qHas
    refine still_bind (still_view r) fun x => still_ite (still_pure _) (still_ite (still_pure _) ?_)
    have part (i m from? : Nat) : Still (do
        let a ← r.kid (2 * i)
        let b ← r.kid (2 * i + 1)
        let l ← qHas a from? m (min col (x.d / 2)) k
        let l' ← qHas b from? m (col - x.d / 2) k
        return (l.zip l').map fun p => p.1 || p.2 : QM (List Bool)) :=
      still_bind (still_kid _ _) fun _ => still_bind (still_kid _ _) fun _ => still_bind (ih _ _ _ _) fun _ => still_bind (ih _ _ _ _) fun _ =>
        still_pure _
    exact still_bind (part _ _ _) fun _ => still_bind (part _ _ _) fun _ => still_pure _

theorem quiet_qIncomplete : Quiet qIncomplete := quiet_bind quiet_get fun _ => quiet_bind (still_qNode _).quiet fun _ => quiet_qPut _ _

theorem quiet_qPivots (leaf : Word) (l : List Nat) : Quiet (qPivots leaf l) := by
  unfold qPivots
  exact quiet_ite (quiet_pure _) (quiet_bind quiet_get fun _ => quiet_bind (quiet_qRunSet _) fun _ =>
    quiet_bind (still_qNode _).quiet fun _ => quiet_bind (quiet_qPut _ _) fun _ => quiet_bind (still_qNode _).quiet fun _ => quiet_qPut _ _)
theorem quiet_qTask (t : QTask) : Quiet (qTask t) := by
  unfold qTask
  cases t with
  | prod a b c first last neg count low =>
    refine quiet_bind (still_view a).quiet fun x => quiet_bind (still_view b).quiet fun y => quiet_bind (still_qNode c).quiet fun z => ?_
    have k (p : Option QCont) : Quiet (do qAddTo c p first last count low; return none : QM (Option (List QTask))) :=
      quiet_bind (quiet_qAddTo _ _ _ _ _ _) fun _ => quiet_pure _
    refine quiet_ite (quiet_ite (quiet_bind (quiet_pure _) k) ?_) ?_
    · exact quiet_bind (still_load _ _).quiet fun _ => quiet_bind (still_load _ _).quiet fun _ => quiet_bind (quiet_pure _) k
    · exact quiet_bind (quiet_qSplit _) fun _ => quiet_bind (still_kids _).quiet fun _ => quiet_bind (still_kids _).quiet fun _ =>
        quiet_pure _
  | add a c =>
    refine quiet_bind (still_view a).quiet fun x => quiet_bind (still_qNode c).quiet fun z => ?_
    have k (p : Option QCont) : Quiet (do qAddTo c p true true true false; return none : QM (Option (List QTask))) :=
      quiet_bind (quiet_qAddTo _ _ _ _ _ _) fun _ => quiet_pure _
    refine quiet_ite (quiet_ite (quiet_bind (quiet_pure _) k) ?_) ?_
    · exact quiet_bind (still_load _ _).quiet fun _ => quiet_bind (quiet_pure _) k
    · exact quiet_bind (quiet_qSplit _) fun _ => quiet_bind (still_kids _).quiet fun _ => quiet_pure _
  | conv a dst f rm dense =>
    refine quiet_bind (still_view a).quiet fun x => quiet_ite (quiet_bind (quiet_qConvert _ _ _ _ _) fun _ => quiet_pure _) ?_
    exact quiet_bind (quiet_qAlloc _) fun _ => quiet_bind (quiet_qAlloc _) fun _ => quiet_bind (quiet_qAlloc _) fun _ =>
      quiet_bind (quiet_qAlloc _) fun _ => quiet_bind (quiet_qPut _ _) fun _ => quiet_bind (still_kids _).quiet fun _ => quiet_pure _
  | factorise c lu =>
    refine quiet_bind (still_qScale _ _).quiet fun m => ?_
    cases m <;> exact quiet_bind (quiet_qRunSet _) fun _ => quiet_pure _
  | factor c lu row =>
    refine quiet_bind (still_qNode c).quiet fun n => quiet_ite (quiet_bind (still_cont n).quiet fun x => quiet_bind quiet_get fun o => ?_)
      (quiet_pure _)
    dsimp only
    refine quiet_ite (quiet_bind (quiet_qPivots _ _) fun _ => quiet_bind quiet_qIncomplete fun _ => quiet_ite ?_ ?_) ?_
    · exact quiet_bind (quiet_qSolved _) fun _ => quiet_pure _
    · exact quiet_bind (quiet_qRunSet _) fun _ => quiet_pure _
    · exact quiet_bind (quiet_qLeafPut _ _ _ _) fun _ => quiet_bind (quiet_qPivots _ _) fun _ => quiet_pure _
  | trsm t b upper unit right =>
    refine quiet_bind (still_view t).quiet fun x => quiet_bind (still_qNode b).quiet fun n => quiet_ite ?_ ?_
    · exact quiet_bind (still_load _ _).quiet fun _ => quiet_bind (still_cont _).quiet fun _ => quiet_bind (quiet_qLeafPut _ _ _ _) fun _ =>
        quiet_pure _
    · exact quiet_bind (quiet_qSplit _) fun _ => quiet_bind (still_kids _).quiet fun _ => quiet_pure _
  | mv a v out neg =>
    refine quiet_bind (still_view a).quiet fun x => quiet_bind still_qVecFmt.quiet fun f => quiet_ite (quiet_ite (quiet_pure _) ?_) ?_
    · refine quiet_bind (still_load _ _).quiet fun _ => quiet_bind (still_qRows _ _ _ _ _).quiet fun _ =>
        quiet_bind (still_qRows _ _ _ _ _).quiet fun _ => quiet_bind quiet_get fun _ => ?_
      dsimp only
      exact quiet_ite (quiet_bind (still_qHas _ _ _ _ _).quiet fun _ => quiet_bind (quiet_qPay _ _) fun _ => quiet_pure _)
        (quiet_bind (quiet_pure _) fun _ => quiet_bind (quiet_qPay _ _) fun _ => quiet_pure _)
    · exact quiet_bind (still_kids _).quiet fun _ => quiet_pure _
  | tsv t v upper unit =>
    refine quiet_bind (still_view t).quiet fun x => quiet_bind still_qVecFmt.quiet fun f => quiet_ite ?_ ?_
    · exact quiet_bind (still_load _ _).quiet fun _ => quiet_bind (still_qRows _ _ _ _ _).quiet fun _ => quiet_bind (quiet_qPay _ _) fun _ =>
        quiet_pure _
    · exact quiet_bind (still_kids _).quiet fun _ => quiet_pure _
  | stage n => exact quiet_bind (quiet_qStage _) fun _ => quiet_pure _

theorem quiet_qNext (n : Nat) : ∀ l, Quiet (qNext n l) := by
  induction n with
  | zero => exact fun _ => quiet_pure _
  | succ n ih =>
    intro l
    rcases l with _ | ⟨t, l⟩
    · exact quiet_pure _
    · have k : Quiet (do
          match ← qTask t with
          | some sub =>
            let o ← get
            if o.run.closed then return ([], false) else qNext n (sub ++ l)
          | none =>
            let o ← get
            return (if o.run.closed then [] else l, true) : QM (List QTask × Bool)) := by
        refine quiet_bind (quiet_qTask t) fun r => ?_
        cases r
        · exact quiet_bind quiet_get fun _ => quiet_pure _
        · exact quiet_bind quiet_get fun _ => quiet_ite (quiet_pure _) (ih _)
      cases t with
      | stage m => exact quiet_pure _
      | _ => exact k

/-- A leaf operation allocates in memory and changes nothing else of the package (R280, R286, R289). -/
theorem quiet_qLeafOp (r : QtRun) : Quiet (qLeafOp r) := by
  unfold qLeafOp
  split
  · exact quiet_bind (quiet_qStage _) fun _ => quiet_qRunSet _
  · exact quiet_bind (quiet_qNext _ _) fun _ => quiet_qRunSet _

/-- So does the stop at a deadline (R292). -/
theorem quiet_qDeadline (c : QtCmd) (r : QtRun) : Quiet (qDeadline c r) := by
  have h : Quiet (do let _ ← qSolved 2; pure () : QM Unit) := quiet_bind (quiet_qSolved _) fun _ => quiet_pure _
  unfold qDeadline
  by_cases h5 : c.op = 5
  · simp only [h5, if_true]
    exact quiet_ite (quiet_bind quiet_qIncomplete fun _ => h) h
  · simp only [h5, if_false]
    exact quiet_ite (quiet_bind quiet_qIncomplete fun _ => quiet_qRunSet _) (quiet_qRunSet _)

/-- Of the package, memory and the engines of the dies alone change. -/
def State.QtOnly (s t : State) : Prop :=
  t = { s with dram := t.dram, hostMem := t.hostMem, foreign := t.foreign, monNotes := t.monNotes, qt := t.qt }

theorem State.Mems.modQt {s t : State} (h : s.Mems t) (die : Nat) (f : Quadtree → Quadtree) : s.QtOnly (t.modQt die f) := by
  unfold State.Mems at h
  unfold State.QtOnly
  rw [h]; rfl

/-- A computation of the running command of a die changes memory and that engine, and nothing else. -/
theorem qtDo_rest (s : State) (die : Nat) (c : QtCmd) {m : QM Unit} (h : Quiet m) : s.QtOnly (s.qtDo die c m) := by
  have k := (h { s := s, c := c, die := die, run := (s.qtOf die).run }).1
  simp only [State.qtDo]
  rcases hr : m.run { s := s, c := c, die := die, run := (s.qtOf die).run } with ⟨⟨k', a⟩ | _, o⟩ <;> rw [hr] at k <;> exact k.modQt _ _

theorem qtBegin_rest (s : State) (die : Nat) (c : QtCmd) {m : QM Unit} (h : Quiet m) : s.QtOnly (s.qtBegin die c m) := by
  have hq : Quiet (do m; let o ← get; qCheckAll o.areas : QM Unit) :=
    quiet_bind h fun _ => quiet_bind quiet_get fun _ => quiet_qCheckAll _
  have k := (hq { s := s, c := c, die := die, run := (s.qtOf die).run }).1
  simp only [State.qtBegin]
  rcases hr : (do m; let o ← get; qCheckAll o.areas : QM Unit).run { s := s, c := c, die := die, run := (s.qtOf die).run }
    with ⟨⟨k', a⟩ | _, o⟩ <;> rw [hr] at k <;> exact k.modQt _ _

theorem qtCommit_rest (s : State) (die : Nat) (c : QtCmd) (l : List (Word × List Byte)) (r : QtRun) : s.QtOnly (s.qtCommit die c l r) := by
  have k := qtWrite_mems c l s
  unfold State.qtCommit
  rcases hr : s.qtWrite c l with ⟨_ | va, t⟩ <;> rw [hr] at k <;> exact k.modQt _ _

end Sys2Proof.Machine
end

