-- ==== Sys2Proof/Laws/Trap.lean ====
section
/-! SUPPORT. Taking an exception (R95, R96) and returning from one (R100). -/

namespace Sys2Proof.Machine

theorem feed_plain {s : State} {bs : List Byte} (h : s.me.redundant = false) : s.OnlyMe (feed s bs) ∧ (feed s bs).me = s.me := by
  refine ⟨.of_modMe _ _, ?_⟩
  unfold feed
  rw [State.me_modMe]
  simp [h]

/-- The thread that has given up what its instruction held. -/
def Thread.dropped (x : Thread) : Thread := { x with held := {}, insn := none, engWait := false, linkWait := false }

theorem dropHeld_plain {s : State} (h : s.me.held.place = none) : s.OnlyMe (dropHeld s) ∧ (dropHeld s).me = s.me.dropped := by
  unfold dropHeld
  simp only [h]
  exact ⟨.of_modMe _ _, s.me_modMe _⟩

/-- The thread at the start of trap entry: nothing held, not following, its turn ISSUED, its issue recorded as trapped. -/
def Thread.entering (x : Thread) (now : Nat) : Thread :=
  { x with
    held := {}, insn := none, engWait := false, linkWait := false, cls := .issued, run := .running
    issue := { x.issue with cyc := now, pc := x.arch.pc, trapped := true }
    arch := { x.arch with status := { x.arch.status with following := false } } }

theorem enterStart_me {s : State} (h : s.me.held.place = none) : (enterStart s).me = s.me.entering s.now := by
  have e1 : (setClass (dropHeld s) .issued).me = { s.me.dropped with cls := .issued } := by
    rw [setClass, State.me_modMe, (dropHeld_plain h).2]
  unfold enterStart leaveFollow
  rw [State.me_modMe, State.me_modArch, e1]
  rfl

theorem enterStart_only {s : State} (h : s.me.held.place = none) : s.OnlyMe (enterStart s) :=
  (((dropHeld_plain h).1.trans (.of_modMe _ _)).trans (.modArch _ _)).trans (.of_modMe _ _)

theorem enterStart_tiles {s : State} (h : s.me.held.place = none) : (enterStart s).tiles = s.tiles := by
  have : (dropHeld s).tiles = s.tiles := by unfold dropHeld; simp only [h, State.modMe_tiles]
  unfold enterStart leaveFollow setClass
  simp only [State.modMe_tiles, State.modArch_tiles, this]

/-- The architectural state after trap entry (R95). -/
def State.entered (s : State) (cause : Nat) (addr epc : Word) (ilen : Nat) : Arch :=
  let a := s.me.arch
  { a with
    status := { a.status with
      following := false, pmode := a.status.mode, pie := a.status.ie, mode := if isSys (unitOf s.cur) then 2 else 1, ie := false }
    tcause := BitVec.ofNat 64 (ilen * 256 + cause)
    taddr := addr
    tepc := a.xcap.withAddr epc
    xcap := a.tvec
    pc := a.tvec.lo
    entryWindow := true }

theorem enterEnd_spec {s : State} {cause : Nat} {addr epc : Word} {ilen : Nat} (hp : s.me.held.place = none)
    (hr : s.me.redundant = false) :
    s.OnlyMe (enterEnd (enterStart s) cause addr epc ilen) ∧ (enterEnd (enterStart s) cause addr epc ilen).tiles = s.tiles ∧
      (enterEnd (enterStart s) cause addr epc ilen).me =
        { s.me.entering s.now with
          arch := s.entered cause addr epc ilen
          red := s.me.red.settle (s.entered cause addr epc ilen) s.me.streams } := by
  have h1 := enterStart_only hp
  have h2 := enterStart_me hp
  have h3 := enterStart_tiles hp
  unfold enterEnd
  generalize enterStart s = u at h1 h2 h3 ⊢
  obtain ⟨f1, f2⟩ := feed_plain (s := u) (bs := [0xFE, BitVec.ofNat 8 cause] ++ leBytes 8 addr.toNat) (by rw [h2]; exact hr)
  have f3 : (feed u ([0xFE, BitVec.ofNat 8 cause] ++ leBytes 8 addr.toNat)).tiles = u.tiles := rfl
  generalize feed u ([0xFE, BitVec.ofNat 8 cause] ++ leBytes 8 addr.toNat) = v at f1 f2 f3 ⊢
  have hvc : v.cur = s.cur := by rw [f1.cur, h1.cur]
  refine ⟨((h1.trans f1).trans (.modArch _ _)).trans (.of_modMe _ _), ?_, ?_⟩
  · rw [State.modMe_tiles, State.modArch_tiles, f3, h3]
  · rw [State.me_modMe, State.me_modArch, f2, h2, hvc]
    rfl

/-- Trap entry of a thread that is not redundant, where the partition logs no traps. -/
theorem trapEntry_spec {s : State} {cause : Nat} {addr epc : Word} {ilen : Nat} (hp : s.me.held.place = none)
    (hr : s.me.redundant = false) (hw : s.me.arch.entryWindow = false) (hl : s.trapLog (unitOf s.cur) = false) :
    s.OnlyMe (trapEntry s cause addr epc ilen) ∧
      (trapEntry s cause addr epc ilen).me =
        { s.me.entering s.now with
          arch := s.entered cause addr epc ilen
          red := s.me.red.settle (s.entered cause addr epc ilen) s.me.streams } := by
  obtain ⟨h1, h2, h3⟩ := enterEnd_spec (cause := cause) (addr := addr) (epc := epc) (ilen := ilen) hp hr
  have hw' : (enterStart s).me.arch.entryWindow = false := by rw [enterStart_me hp]; exact hw
  rw [trapEntry, hw', logTrap]
  generalize enterEnd (enterStart s) cause addr epc ilen = v at h1 h2 h3 ⊢
  have hlog : v.trapLog (unitOf v.cur) = false := by
    rw [← hl, h1.cur]
    have e1 : v.parts = s.parts := by rw [h1.1]
    have e2 : v.coreCtx = s.coreCtx := by rw [h1.1]
    simp only [State.trapLog, State.partOf, State.partn, State.tile, e1, e2, h2]
  rw [hlog]
  exact ⟨h1, h3⟩

/-- A trap that an instruction raises (R38). -/
theorem trapAt_spec {s : State} {i : Instr} {cause : Nat} {addr : Word} (hp : s.me.held.place = none)
    (hr : s.me.redundant = false) (hw : s.me.arch.entryWindow = false) (hl : s.trapLog (unitOf s.cur) = false) :
    s.OnlyMe (trapAt s i cause addr) ∧
      (trapAt s i cause addr).me =
        ({ s.me.entering s.now with
          arch := s.entered cause addr s.me.arch.pc (i.bytes / 4)
          red := s.me.red.settle (s.entered cause addr s.me.arch.pc (i.bytes / 4)) s.me.streams } : Thread).stepped := by
  have hs : s.OnlyMe (s.modTile (unitOf s.cur) fun x => x.signal 0) :=
    ⟨rfl, fun _ _ => rfl, fun u => by
      rw [State.tile_modTile]; split
      · exact Tile.likewise_signal _ _
      · rfl⟩
  have hlog : (s.modTile (unitOf s.cur) fun x => x.signal 0).trapLog (unitOf s.cur) = s.trapLog (unitOf s.cur) := by
    unfold State.trapLog State.partOf
    simp only [State.tile_modTile_self, Tile.signal_part]
    rfl
  have h := trapEntry_spec (s := s.modTile (unitOf s.cur) fun x => x.signal 0) (cause := cause) (addr := addr) (epc := s.me.arch.pc)
    (ilen := i.bytes / 4) hp hr hw (by rw [State.modTile_cur, hlog]; exact hl)
  exact ⟨(hs.trans h.1).trans (.of_modMe _ _), (State.me_modMe _ _).trans (congrArg Thread.stepped h.2)⟩

/-- ERET reverses trap entry: the mode, the interrupt enable and the code capability of before, and the pc that TEPC names (R95, R100). -/
theorem returnFrom_enterHandler (sys : Bool) (cause : Nat) (addr epc : Word) (ilen : Nat) (a : Arch) (h : a.xcap.tag = true) :
    let b := returnFrom false (enterHandler sys cause addr epc ilen a)
    b.status.mode = a.status.mode ∧ b.status.ie = a.status.ie ∧ b.pc = epc ∧ b.xcap = a.xcap.withAddr epc ∧ b.entryWindow = false ∧
      b.regs = a.regs := by
  have e : (a.xcap.withAddr epc).tag = true := h
  have e2 : (a.xcap.withAddr epc).lo = epc := by
    simp only [Val.withAddr, Val.lo]
    apply BitVec.eq_of_getLsbD_eq
    intro k hk
    rw [BitVec.getLsbD_extractLsb', BitVec.getLsbD_append]
    simp [hk]
  simp [returnFrom, enterHandler, e, e2]

end Sys2Proof.Machine
end

