-- ==== Sys2Proof/Tests/Slice0.lean ====
section
/-! SUPPORT. Tests: ill-formed terms that are refused, words of the spec's encodings that decode, single steps with results worked out by
hand, and for every statement a state and operands that meet its hypotheses. -/

namespace Sys2Proof.Tests

open Sys2Proof Sys2Proof.Machine

set_option Elab.async false

/-! ### A small state -/

/-- Registers from a list, c0 first. -/
def regsOf (l : List Val) : Vector Val 32 := (l.zipIdx).foldl (fun r e => r.setIfInBounds e.2 e.1) (Vector.replicate 32 {})

/-- A LOCAL capability to the first 8 KiB with every right, at an address. -/
def loc (a : Nat) : Val := exactCap 0 0xFF 0 0x2000 (BitVec.ofNat 64 a)

/-- A TILE capability to the first MiB of tile 1 of the partition. -/
def far (a : Nat) : Val := exactCap 1 0xFF 0x100000 0x200000 (BitVec.ofNat 64 (0x100000 + a))

/-- A thread of instance 1 with these registers. -/
def thr (l : List Val) : Thread :=
  { run := .running, inst := 1, arch := { regs := regsOf l, pc := 0x1000, acctag := 1, status := { ie := true } } }

/-- The gang of instance 1 on a tile. -/
def gng : Gang := { inst := 1, bind := 1, areas := 1, foot := 1, ctx := 1, acct := 256 }

/-- Tile 0 of partition 0 runs one thread of instance 1. -/
def one (l : List Val) : State :=
  { threads := [(0, thr l)]
    tiles := [(0, { gang := some gng, part := some 0, spad := [(0x100, 0x11), (0x101, 0x22), (0x107, 0x80)] }), (1, { gang := some gng, part := some 0 })]
    parts := [(0, { pcfg := 0x11001, ctxbase := 0x10000000, tlen := 1 })]
    insts := [{ id := 1, recw := [0x1000000000010102], sheets := [{ tiles := [[0, 1]] }] }] }

/-- The usual registers: capabilities in c1 and c2, numbers in c3 and c4. -/
def ex : State := one [{}, loc 0x100, far 0x100, val64 7, val64 0xFFFFFFFFFFFFFFFE]


/-! ### Words of the spec's own encoding tables (chapters 3, 4, 7, 11, 12, 14 to 20, 21 to 23, 25) -/

theorem test_decode_integer :
    decodeTableWord 64 0x0000000030810C40 = some (.add .d (.reg 3) (.reg 1) (.reg 2)) ∧
    decodeTableWord 64 0x0000000038038440 = some (.add .d (.link .east) (.reg 3) (.link .north)) ∧
    decodeTableWord 64 0xFFFFC00030041048 = some (.addi .d (.reg 4) (.reg 4) (-1)) ∧
    decodeTableWord 128 0x0000000000220002000000010000104E = some (.movi64 (.reg 4) 0x220002) ∧
    decodeTableWord 96 0x000000000000000100000005 = some .nop96 := by decide

/-- BR.LT c1, c2, −8 and BR.NE with an immediate of chapter 12. -/
theorem test_decode_control :
    decodeTableWord 64 0xFFFE0000208100C0 = some (.br .lt (.reg 1) (.reg 2) (-8)) ∧
    decodeTableWord 96 0x0000034100014001101C00C1 = some (.brImm .ne (.reg 28) 0x341 5) := by decide

theorem test_decode_float :
    decodeTableWord 64 0x0000000050810D40 = some (.fadd .f32 .rne (.reg 3) (.reg 1) (.reg 2)) ∧
    decodeTableWord 64 0x0000400050810D40 = some (.fadd .f32 .rtz (.reg 3) (.reg 1) (.reg 2)) ∧
    decodeTableWord 64 0x0011400060010D50 = some (.cvt .bf16 .f32 .sr (.reg 3) (.reg 1)) := by decide

theorem test_decode_memory :
    decodeTableWord 96 0x00030D400000000180021981 = some (.ldExt .bu (.reg 6) 2 200000) ∧
    decodeTableWord 64 0x0004000030021580 = some (.ld .d (.reg 5) 2 16) ∧
    decodeTableWord 64 0x0001000021C20184 = some (.st .w 2 (.reg 7) 4) := by decide

theorem test_decode_system :
    decodeTableWord 64 0x0000800000007810 = some (.srd (.reg 30) 0x002) ∧
    decodeTableWord 64 0x000000010000000C = some .eretSkip ∧
    decodeTableWord 64 0x0018000000002010 = some (.srd (.reg 8) 0x060) ∧
    decodeTableWord 64 0x0000000000000004 = some .nop := by decide

theorem test_decode_capability : decodeTableWord 64 0x0000000001841500 = some (.csetb (.reg 5) (.reg 4) (.reg 6)) := by decide

theorem test_decode_vector :
    decodeTableWord 64 0x0000000051002200 = some (.vadd .f32 .rne false (.quad 2) (.quad 0) (.quad 1)) ∧
    decodeTableWord 64 0x0020000051400E18 = some (.vred .add .f32 .rne (.reg 3) (.quad 0) (.reg 5) 16) ∧
    decodeTableWord 64 0x0000240063086A20 = some (.vdot .bf16 .rne (.reg 26) (.quad 2) (.quad 3) .zero) := by decide

theorem test_decode_full_empty :
    decodeTableWord 64 0x0000000030002284 = some (.await (.reg 8) 0 0) ∧
    decodeTableWord 64 0x00000000369B0198 = some (.stf 27 (.reg 26) 0) ∧
    decodeTableWord 64 0x004000003141019C = some (.stw 1 (.reg 5) 0x100) ∧
    decodeTableWord 64 0x0002000030021594 = some (.ldt (.reg 5) 2 8) ∧
    decodeTableWord 64 0x0002000031C30198 = some (.stf 3 (.reg 7) 8) ∧
    decodeTableWord 64 0x0040000030011994 = some (.ldt (.reg 6) 1 0x100) ∧
    decodeTableWord 64 0x00400000300101A4 = some (.sete 1 0x100) := by decide

theorem test_decode_atomics :
    decodeTableWord 64 0x00044000309015C0 = some (.amoAdd .d .acq .pkg (.reg 5) 16 (.reg 2) 0) ∧
    decodeTableWord 64 0x00048000318415C0 = some (.amoAdd .d .rel .pkg (.reg 5) 4 (.reg 6) 0) ∧
    decodeTableWord 64 0x00038000000001D4 = some (.fence .rel .die) ∧
    decodeTableWord 64 0x00048000000001D4 = some (.fence .rel .pkg) := by decide

theorem test_decode_tasks :
    decodeTableWord 64 0x000000000000268C = some (.barGang (.reg 9)) ∧
    decodeTableWord 64 0x0000000100007A8C = some (.barField (.reg 30)) := by decide

theorem test_decode_matrix :
    decodeTableWord 96 0x0000000003C0C000890202C5 = some (.mma .e4m3 (.scratch 2 .zero 0) false 15 3) ∧
    decodeTableWord 96 0x0000040003C00901890202C5 = some (.mmas .e4m3 (.scratch 2 .zero 0x400) .p2of4 false 15 0 9) ∧
    decodeTableWord 64 0x03C00000000002C8 = some (.mzero 15 0) ∧
    decodeTableWord 96 0x0003020400000000500002CD = some (.maccAdd .f32 4 2 3) ∧
    decodeTableWord 64 0x00014000634C02D8 = some (.mdrain .bf16 12 13 none 5) ∧
    decodeTableWord 96 0x0000200000000000590002D5 = some (.acst .f32 0 .zero none 0 0x2000) := by decide

theorem test_decode_quadtree :
    decodeTableWord 64 0x0000110004040300 = some (.qmul 4 16 17) ∧
    decodeTableWord 64 0x000011000404030C = some (.qfact 4 16 17) ∧
    decodeTableWord 64 0x0000240004040314 = some (.qsolve 4 16 .zero) ∧
    decodeTableWord 64 0x0000510064040308 = some (.qconv .bf16 .rtz 4 16 17) ∧
    decodeTableWord 64 0x0000000000061720 = some (.qstat 5 6) ∧
    decodeTableWord 64 0x0000480101C61728 = some (.qpoolSet 5 6 7 8 1) ∧
    decodeTableWord 64 0x0000000001C92B24 = some (.qnode 10 9 7) := by decide

theorem test_decode_copy :
    decodeTableWord 64 0x0000040001850340 = some (.dcopy 5 6 4) ∧
    decodeTableWord 64 0x0000040002450344 = some (.dfill 5 (.reg 9) 4) ∧
    decodeTableWord 64 0x0000000000041F48 = some (.dcancel (.reg 7) 4) := by decide

theorem test_decode_index :
    decodeTableWord 64 0x0000040000100360 = some (.ixwalk 16 4) ∧
    decodeTableWord 64 0x0000150000100364 = some (.ixgath 16 21) ∧
    decodeTableWord 64 0x0000040150120368 = some (.ixscatAdd .f32 18 4) ∧
    decodeTableWord 64 0x000000000000036C = some .ixmark ∧
    decodeTableWord 64 0x000000010000036C = some .ixmarkEnd := by decide

theorem test_decode_felting :
    decodeTableWord 64 0x0000070001440380 = some (.faload 4 5 7) ∧
    decodeTableWord 64 0x0005C7000146038C = some (.fasweep 6 5 7 true 7) ∧
    decodeTableWord 64 0x0000070012480390 = some (.fareadCount 8 9 7) ∧
    decodeTableWord 64 0x0000000001440398 = some (.faseedSeeded (.reg 4) 5) := by decide

theorem test_decode_journal :
    decodeTableWord 64 0x00000000000417A0 = some (.jrnl (.reg 5) (.reg 4)) ∧
    decodeTableWord 64 0x00000001000417A0 = some (.jrnlRel (.reg 5) (.reg 4)) ∧
    decodeTableWord 64 0x00000002000417A0 = some (.jrnlRetry (.reg 5) (.reg 4)) := by decide

theorem test_decode_redundancy :
    decodeTableWord 64 0x00000000000503A8 = some (.rsync (.reg 5)) ∧
    decodeTableWord 64 0x0000000100001BA8 = some (.rstat (.reg 6)) ∧
    decodeTableWord 64 0x00000000000403AC = some (.rinj 4) := by decide

theorem test_decode_measurements :
    decodeTableWord 64 0x0000C000000403B0 = some (.evcfg 4 3) ∧
    decodeTableWord 64 0x0000C001000403B0 = some (.evcfgHist 4 3) ∧
    decodeTableWord 64 0x00000000000417B4 = some (.evrd (.reg 5) 4) ∧
    decodeTableWord 64 0x00000001000417B4 = some (.evrdClr (.reg 5) 4) := by decide

/-! ### Ill-formed terms, one for each rule of `Instr.fieldsOk` -/

theorem test_ill_event : Instr.wf .cycle = false ∧ Instr.wf (.timer 0) = false := by decide
theorem test_ill_float_format :
    Instr.wf (.fadd .i32 .rne (.reg 1) (.reg 2) (.reg 3)) = false ∧ Instr.wf (.ffma .t8 .rne (.reg 1) (.reg 2) (.reg 3) (.reg 4)) = false ∧
    Instr.wf (.fcmp .eq .i32 (.reg 1) (.reg 2) (.reg 3)) = false ∧ Instr.wf (.vrcp .i8 .rne (.quad 0) (.quad 1)) = false := by decide
theorem test_ill_system_register : Instr.wf (.srd (.reg 1) 0x009) = false ∧ Instr.wf (.swr 0x139 (.reg 1)) = false := by decide
theorem test_ill_vector_mode :
    Instr.wf (.vadd .i32 .rtz false (.quad 0) (.quad 1) (.quad 2)) = false ∧
    Instr.wf (.vmul .f32 .rne true (.quad 0) (.quad 1) (.quad 2)) = false ∧
    Instr.wf (.vshl .f32 (.quad 0) (.quad 1) (.quad 2)) = false := by decide
theorem test_ill_vector_condition :
    Instr.wf (.vcmp 12 .i32 (.reg 1) (.quad 1) (.quad 2)) = false ∧ Instr.wf (.vcmp 8 .f32 (.reg 1) (.quad 1) (.quad 2)) = false := by decide
theorem test_ill_vector_part : Instr.wf (.vcvt .f32 .bf16 .rne 2 (.quad 0) (.quad 1)) = false := by decide
theorem test_ill_reduction :
    Instr.wf (.vred .add .f32 .rne (.reg 1) (.quad 0) .zero 17) = false ∧ Instr.wf (.vred .min .f32 .rtz (.reg 1) (.quad 0) .zero 16) = false ∧
    Instr.wf (.vscan .and .i32 .rne (.quad 0) (.quad 1) .zero) = false ∧ Instr.wf (.vscan .add .i32 .rtz (.quad 0) (.quad 1) .zero) = false ∧
    Instr.wf (.vdot .i32 .rne (.reg 1) (.quad 0) (.quad 1) .zero) = false := by decide
theorem test_ill_order :
    Instr.wf (.amoAdd .d .none .pkg (.reg 1) 2 (.reg 3) 0) = false ∧ Instr.wf (.redAdd .d .acq .pkg 2 (.reg 3) 0) = false := by decide
theorem test_ill_mailbox :
    Instr.wf (.mbcfg 0 1 15) = false ∧ Instr.wf (.mbcfg 0 1 16385) = false ∧ Instr.wf (.send 0 1 2 4 1) = false := by decide
theorem test_ill_matrix :
    Instr.wf (.mmar .bf16 (.link .east) false 0) = false ∧ Instr.wf (.mzero 16 240) = false ∧ Instr.wf (.maccAdd .bf16 0 1 2) = false ∧
    Instr.wf (.acld .f64 1 .zero 0 0) = false := by decide
theorem test_ill_quadtree_format :
    Instr.wf (.qconv .t6 .rne 1 2 3) = false ∧ Instr.wf (.qconv .f32 .sr 1 2 3) = false ∧ Instr.wf (.ixscatAdd .bf16 1 2) = false := by decide
theorem test_ill_words_refused :
    decodeTableWord 64 0x0000000030810CFC = none ∧ decodeTableWord 64 0x0000000050810C40 = none ∧ decodeTableWord 64 3 = none := by decide

/-! ### Single steps -/

/-- The state after an instruction, or the state itself where it gives none. -/
def next (i : Instr) (s : State) : State := match exec i s with | .next t => t | _ => s

/-- A register of the thread whose turn it is, after an instruction. -/
def got (i : Instr) (s : State) (k : Fin 32) : Quad := (next i s).me.arch.regs[k].data

/-- c1 = a, c2 = b, c3 = c. -/
def abc (a b c : Word) : State := one [{}, val64 a, val64 b, val64 c]

/-- The quad c4 to c7 and c8 to c11 hold these values, c1 a mask. -/
def quads (m : Word) (a b : Quad) : State := one [{}, val64 m, {}, {}, val128 a, {}, {}, {}, val128 b]

/-- R63: a sum wraps and is sign-extended from its width; MULHU takes the high half; division by zero gives all ones and the dividend. -/
theorem test_add_w : got (.add .w (.reg 5) (.reg 1) (.reg 2)) (abc 0x7FFFFFFF 1 0) 5 = 0xFFFFFFFF80000000 := by decide
theorem test_sub : got (.sub .d (.reg 5) (.reg 1) (.reg 2)) (abc 1 2 0) 5 = 0xFFFFFFFFFFFFFFFF := by decide
theorem test_mul : got (.mul .b (.reg 5) (.reg 1) (.reg 2)) (abc 16 9 0) 5 = 0xFFFFFFFFFFFFFF90 := by decide
theorem test_mulh : got (.mulh .d (.reg 5) (.reg 1) (.reg 2)) (abc 0xFFFFFFFFFFFFFFFF 2 0) 5 = 0xFFFFFFFFFFFFFFFF := by decide
theorem test_mulhu : got (.mulhu .d (.reg 5) (.reg 1) (.reg 2)) (abc 0xFFFFFFFFFFFFFFFF 2 0) 5 = 1 := by decide
theorem test_div : got (.div .d (.reg 5) (.reg 1) (.reg 2)) (abc 0xFFFFFFFFFFFFFFF9 2 0) 5 = 0xFFFFFFFFFFFFFFFD := by decide
theorem test_div_zero : got (.div .d (.reg 5) (.reg 1) .zero) (abc 7 0 0) 5 = 0xFFFFFFFFFFFFFFFF := by decide
theorem test_divu : got (.divu .w (.reg 5) (.reg 1) (.reg 2)) (abc 0xFFFFFFFF 2 0) 5 = 0x7FFFFFFF := by decide
theorem test_rem : got (.rem .d (.reg 5) (.reg 1) (.reg 2)) (abc 0xFFFFFFFFFFFFFFF9 2 0) 5 = 0xFFFFFFFFFFFFFFFF := by decide
theorem test_remu_zero : got (.remu .w (.reg 5) (.reg 1) .zero) (abc 0xFFFFFFFF 0 0) 5 = 0xFFFFFFFF := by decide
theorem test_and : got (.and .d (.reg 5) (.reg 1) (.reg 2)) (abc 12 10 0) 5 = 8 := by decide
theorem test_or : got (.or .d (.reg 5) (.reg 1) (.reg 2)) (abc 12 10 0) 5 = 14 := by decide
theorem test_xor : got (.xor .d (.reg 5) (.reg 1) (.reg 2)) (abc 12 10 0) 5 = 6 := by decide
theorem test_andn : got (.andn .d (.reg 5) (.reg 1) (.reg 2)) (abc 12 10 0) 5 = 4 := by decide
theorem test_shl : got (.shl .w (.reg 5) (.reg 1) (.reg 2)) (abc 1 63 0) 5 = 0x80000000 := by decide
theorem test_shr : got (.shr .d (.reg 5) (.reg 1) (.reg 2)) (abc 0x8000000000000000 127 0) 5 = 1 := by decide
theorem test_sra : got (.sra .w (.reg 5) (.reg 1) (.reg 2)) (abc 0x80000000 31 0) 5 = 0xFFFFFFFFFFFFFFFF := by decide
theorem test_rot : got (.rot .b (.reg 5) (.reg 1) (.reg 2)) (abc 0x81 1 0) 5 = 3 := by decide
theorem test_min : got (.min .d (.reg 5) (.reg 1) (.reg 2)) (abc 0xFFFFFFFFFFFFFFFF 2 0) 5 = 0xFFFFFFFFFFFFFFFF := by decide
theorem test_max : got (.max .d (.reg 5) (.reg 1) (.reg 2)) (abc 0xFFFFFFFFFFFFFFFF 2 0) 5 = 2 := by decide
theorem test_minu : got (.minu .d (.reg 5) (.reg 1) (.reg 2)) (abc 0xFFFFFFFFFFFFFFFF 2 0) 5 = 2 := by decide
theorem test_maxu : got (.maxu .w (.reg 5) (.reg 1) (.reg 2)) (abc 0xFFFFFFFF 2 0) 5 = 0xFFFFFFFF := by decide
theorem test_clz : got (.clz .w (.reg 5) (.reg 1)) (abc 1 0 0) 5 = 31 := by decide
theorem test_ctz_zero : got (.ctz .h (.reg 5) (.reg 1)) (abc 0x10000 0 0) 5 = 16 := by decide
theorem test_popc : got (.popc .b (.reg 5) (.reg 1)) (abc 0x1FF 0 0) 5 = 8 := by decide
theorem test_addi : got (.addi .d (.reg 5) (.reg 1) (-1)) (abc 0 0 0) 5 = 0xFFFFFFFFFFFFFFFF := by decide
theorem test_movi : got (.movi (.reg 5) 0x20000) (abc 0 0 0) 5 = 0xFFFFFFFFFFFE0000 := by decide
theorem test_movi64 : got (.movi64 (.reg 5) 0x220002) (abc 0 0 0) 5 = 0x220002 := by decide
theorem test_movi_hi : got (.moviHi (.reg 1) (.reg 1) 5) (abc 3 0 0) 1 = 0x50000000000000003 := by decide
theorem test_cmp : got (.cmp .lt .w (.reg 5) (.reg 1) (.reg 2)) (abc 0x80000000 0 0) 5 = 1 := by decide
theorem test_cmp_bc : got (.cmp .bc .d (.reg 5) (.reg 1) (.reg 2)) (abc 12 4 0) 5 = 0 := by decide
/-- The bit-field table of chapter 3. -/
theorem test_bext : got (.bext (.reg 5) (.reg 1) (.reg 2)) (abc 0xABCD 0xFF0 0) 5 = 0xBC := by decide
theorem test_bdep : got (.bdep (.reg 5) (.reg 1) (.reg 2) (.reg 3)) (abc 0x12 0xFF0 0xABCD) 5 = 0xA12D := by decide

/-- R71 to R75, from pc 0x1000. -/
theorem test_br : (next (.br .lt (.reg 1) (.reg 2) (-8)) (abc 1 2 0)).me.arch.pc = 0xFE0 := by decide
theorem test_br_not : (next (.br .lt (.reg 1) (.reg 2) (-8)) (abc 2 2 0)).me.arch.pc = 0x1008 := by decide
theorem test_br_imm : (next (.brImm .ne (.reg 1) 0xFFFFFFFF 4) (abc 0xFFFFFFFFFFFFFFFF 0 0)).me.arch.pc = 0x100C := by decide
theorem test_j : (next (.j 0x1FFFF) (abc 0 0 0)).me.arch.pc = 0x80FFC := by decide
theorem test_j_ext : (next (.jExt 0xFFFFFFFF) (abc 0 0 0)).me.arch.pc = 0xFFC := by decide
theorem test_jl : got (.jl (.reg 5) 4) (abc 0 0 0) 5 = 0x1008 := by decide
theorem test_jl_ext : got (.jlExt (.reg 5) 4) (abc 0 0 0) 5 = 0x100C := by decide
theorem test_jr : (next (.jr (.reg 1) (.reg 1) 1) (abc 0x2000 0 0)).me.arch.pc = 0x2004 := by decide
theorem test_jr_link : got (.jr (.reg 1) (.reg 1) 1) (abc 0x2000 0 0) 1 = 0x1008 := by decide
theorem test_loop : got (.loop 1 (-2)) (abc 2 0 0) 1 = 1 ∧ (next (.loop 1 (-2)) (abc 2 0 0)).me.arch.pc = 0xFF8 := by decide
theorem test_loop_one : got (.loop 1 (-2)) (abc 1 0 0) 1 = 0 ∧ (next (.loop 1 (-2)) (abc 1 0 0)).me.arch.pc = 0x1008 := by decide
theorem test_nop_lengths :
    (next .nop (abc 0 0 0)).me.arch.pc = 0x1008 ∧ (next .nop96 (abc 0 0 0)).me.arch.pc = 0x100C ∧
    (next .nop128 (abc 0 0 0)).me.arch.pc = 0x1010 := by decide
theorem test_halt_user : (next .halt (abc 0 0 0)).me.arch.tcause = 0x204 := by decide

/-- The rows of chapter 1's NextPC example: a 12-byte instruction that ends in the last word of a 32-byte block goes to the next block. -/
theorem test_next_pc : nextPC 0x4000001010 12 = 0x4000001020 := by decide

/-- A capability of a space with E 63, every right and an address (R17). -/
def whole (sp : BitVec 64) (a : Word) : Val := { data := ((sp <<< 8) ||| (63 <<< 10) ||| 0xFF : BitVec 64) ++ a, tag := true }

/-- c1 = a value, c2 = a number. -/
def capNum (c : Val) (n : Word) : State := one [{}, c, val64 n]

/-- Chapter 3's CSETB example: 61,440 bytes from 0xF000 give E 3, B 7680 and T 15360; one byte more rounds the top, or traps. -/
theorem test_csetb :
    let r := (next (.csetb (.reg 5) (.reg 1) (.reg 2)) (capNum (whole 0 0xF000) 61440)).me.arch.regs[(5 : Fin 32)]
    r.capE = 3 ∧ r.capB = 7680 ∧ r.capT = 15360 ∧ r.lo = 0xF000 ∧ r.tag = true := by decide
theorem test_csetb_rounds :
    bounds ((next (.csetb (.reg 5) (.reg 1) (.reg 2)) (capNum (whole 0 0xF000) 61441)).me.arch.regs[(5 : Fin 32)]) = (61440, 122888) := by decide
theorem test_csetb_tight :
    got (.csetbTight (.reg 5) (.reg 1) (.reg 2)) (capNum (whole 0 0xF000) 61440) 5 =
      got (.csetb (.reg 5) (.reg 1) (.reg 2)) (capNum (whole 0 0xF000) 61440) 5 := by decide
theorem test_csetb_tight_traps :
    let t := next (.csetbTight (.reg 5) (.reg 1) (.reg 2)) (capNum (whole 0 0xF000) 61441)
    t.me.arch.tcause = 0x211 ∧ t.me.arch.taddr = 0xF000 := by decide
theorem test_cgetb : got (.cgetb (.reg 5) (.reg 1)) (capNum (whole 0 0xF000) 0) 5 = 0x1000000000000000000000 := by decide
theorem test_cgeta : got (.cgeta (.reg 5) (.reg 1)) (capNum (whole 2 0xF000) 0) 5 = 0xF000 := by decide
theorem test_ctag : got (.ctag (.reg 5) (.reg 1)) (capNum (whole 2 0xF000) 0) 5 = 1 := by decide
theorem test_cinc :
    let r := (next (.cinc (.reg 5) (.reg 1) (.reg 2)) (capNum (whole 0 0xF000) 0xFFFFFFFFFFFF0000)).me.arch.regs[(5 : Fin 32)]
    r.lo = 0xFFFFFFFFFFFFF000 ∧ r.tag = true ∧ r.hi = (whole 0 0).hi := by decide
theorem test_cinc_imm : got (.cincImm (.reg 5) (.reg 1) (-16)) (capNum (whole 0 0xF000) 0) 5 = (whole 0 0xEFF0).data := by decide
theorem test_candp : got (.candp (.reg 5) (.reg 1) (.reg 2)) (capNum (whole 0 0xF000) 0x103) 5 = (whole 0 0xF000).data - (0xFC <<< 64) := by decide
theorem test_candp_imm : got (.candpImm (.reg 5) (.reg 1) 1) (capNum (whole 0 0xF000) 0) 5 = (whole 0 0xF000).data - (0xFE <<< 64) := by decide
theorem test_cclr : ((next (.cclr (.reg 1) (.reg 1)) (capNum (whole 0 0xF000) 0)).me.arch.regs[(1 : Fin 32)]).tag = false := by decide
theorem test_cmov : (next (.cmov (.reg 5) (.reg 1)) (capNum (whole 1 0xF000) 0)).me.arch.regs[(5 : Fin 32)] = whole 1 0xF000 := by decide

/-- R82 to R88, with codes worked out by hand; chapter 2's T8 example, chapter 4's FRND and CVT examples. -/
theorem test_fadd : got (.fadd .f32 .rne (.reg 5) (.reg 1) (.reg 2)) (abc 0x3F800000 0x33800000 0) 5 = 0x3F800000 := by decide +kernel
theorem test_fadd_rup : got (.fadd .f32 .rup (.reg 5) (.reg 1) (.reg 2)) (abc 0x3F800000 0x33800000 0) 5 = 0x3F800001 := by decide +kernel
theorem test_fsub : got (.fsub .f64 .rne (.reg 5) (.reg 1) (.reg 1)) (abc 0x4008000000000000 0 0) 5 = 0 := by decide +kernel
theorem test_fmul : got (.fmul .bf16 .rne (.reg 5) (.reg 1) (.reg 2)) (abc 0x4040 0xC000 0) 5 = 0xC0C0 := by decide +kernel
theorem test_fdiv : got (.fdiv .f32 .rne (.reg 5) (.reg 1) (.reg 2)) (abc 0x3F800000 0x40400000 0) 5 = 0x3EAAAAAB := by decide +kernel
theorem test_fdiv_zero : got (.fdiv .f32 .rne (.reg 5) (.reg 1) .zero) (abc 0xBF800000 0 0) 5 = 0xFF800000 := by decide +kernel
theorem test_fsqrt : got (.fsqrt .f16 .rne (.reg 5) (.reg 1)) (abc 0x4400 0 0) 5 = 0x4000 := by decide +kernel
theorem test_fmin_zero : got (.fmin .f32 (.reg 5) (.reg 1) (.reg 2)) (abc 0 0x80000000 0) 5 = 0x80000000 := by decide +kernel
theorem test_fmax : got (.fmax .f32 (.reg 5) (.reg 1) (.reg 2)) (abc 0x40000000 0xC0400000 0) 5 = 0x40000000 := by decide +kernel
/-- (1 + 2⁻²³)(1 − 2⁻²³) − 1 = −2⁻⁴⁶ exactly: one rounding. -/
theorem test_ffma : got (.ffma .f32 .rne (.reg 5) (.reg 1) (.reg 2) (.reg 3)) (abc 0x3F800001 0x3F7FFFFE 0xBF800000) 5 = 0xA8800000 := by decide +kernel
theorem test_fcmp : got (.fcmp .eq .f32 (.reg 5) (.reg 1) (.reg 2)) (abc 0 0x80000000 0) 5 = 1 := by decide +kernel
theorem test_fcmp_un : got (.fcmp .un .f32 (.reg 5) (.reg 1) (.reg 2)) (abc 0x7FC00000 0 0) 5 = 1 := by decide +kernel
theorem test_fsgn_cpy : got (.fsgnCpy .f32 (.reg 5) (.reg 1) (.reg 2)) (abc 0x3F800000 0x80000000 0) 5 = 0xBF800000 := by decide +kernel
theorem test_fsgn_neg : got (.fsgnNeg .f32 (.reg 5) (.reg 1) (.reg 2)) (abc 0xBF800000 0x80000000 0) 5 = 0x3F800000 := by decide +kernel
theorem test_fsgn_xor : got (.fsgnXor .f32 (.reg 5) (.reg 1) (.reg 2)) (abc 0xBF800000 0x80000000 0) 5 = 0x3F800000 := by decide +kernel
theorem test_frnd_rne :
    got (.frnd .f32 .rne (.reg 5) (.reg 1)) (abc 0xBECCCCCD 0 0) 5 = 0x80000000 ∧
    got (.frnd .f32 .rne (.reg 5) (.reg 1)) (abc 0x40200000 0 0) 5 = 0x40000000 := by decide +kernel
theorem test_frnd_rup : got (.frnd .f32 .rup (.reg 5) (.reg 1)) (abc 0x40200000 0 0) 5 = 0x40400000 := by decide +kernel
theorem test_cvt_i32_f64 : got (.cvt .i32 .f64 .rtz (.reg 5) (.reg 1)) (abc 0xC006000000000000 0 0) 5 = 0xFFFFFFFFFFFFFFFE := by decide +kernel
theorem test_cvt_t8 : got (.cvt .t8 .f32 .rne (.reg 5) (.reg 1)) (abc 0x4059999A 0 0) 5 = 0x5B := by decide +kernel

/-- R86 to R91 on the dword 0x8000000000002211 at LOCAL 0x100. -/
theorem test_ld_b : got (.ld .b (.reg 5) 1 7) ex 5 = 0xFFFFFFFFFFFFFF80 := by decide
theorem test_ld_ext : got (.ldExt .hu (.reg 5) 1 0) ex 5 = 0x2211 := by decide
theorem test_ld_misaligned : (next (.ld .d (.reg 5) 1 4) ex).me.arch.tcause = 0x213 := by decide
theorem test_st : ((next (.st .h 1 (.reg 4) 2) ex).tile 0).spad = [(0x100, 0x11), (0x101, 0x22), (0x102, 0xFE), (0x103, 0xFF), (0x107, 0x80)] := by decide
theorem test_st_ext : ((next (.stExt .b 1 (.reg 3) 0xFFFFFFFF) ex).tile 0).spad = [(0xFF, 7), (0x100, 0x11), (0x101, 0x22), (0x107, 0x80)] := by decide
theorem test_ldc : (next (.ldc (.reg 5) 1 0) ex).me.arch.regs[(5 : Fin 32)] = { data := 0x8000000000002211, tag := false } := by decide
theorem test_ldc_ext : ((next (.ldcExt (.reg 5) 1 8) ex).me.arch.tcause, (next (.ldcExt (.reg 5) 1 8) ex).me.arch.taddr) = (0x313, 0x108) := by decide
/-- A stored capability sets the granule's tag (R23). -/
theorem test_stc : ((next (.stc 1 (.reg 2) 0x20) ex).tile 0).tags = [(0x12, true)] := by decide
theorem test_stc_ext : ((next (.stcExt 1 (.reg 3) 0x20) ex).tile 0).tags = [] := by decide

/-- R95, R99: TRAP and BRK. -/
theorem test_trap : let a := (next (.trap 0x2A) ex).me.arch; a.tcause = 0x205 ∧ a.taddr = 0x2A ∧ a.tepc.lo = 0x1000 ∧ a.status.mode = 1 := by decide
theorem test_brk : (next (.brk 1) ex).me.arch.tcause = 0x206 := by decide
/-- R26: CYCLE and TSTAMP; RNDSEED is written and read. -/
theorem test_srd : got (.srd (.reg 5) 0x020) { ex with now := 77, tstamp := 5 } 5 = 77 := by decide
theorem test_swr : (next (.swr 0x032 (.reg 3)) ex).me.arch.rndseed = 7 := by decide
theorem test_swr_user : (next (.swr 0x040 (.reg 3)) ex).me.arch.tcause = 0x204 := by decide
theorem test_waiti : (next (.waiti (.reg 3)) ex).me.run = .waiti (some 7) := by decide
theorem test_iflush : ((next .iflush (ex.modTile 0 fun x => { x with icache := [{ va := 0x1000 }] })).tile 0).icache = [] := by decide

/-- R145 to R154 on quads of small lanes. -/
def q (i : Instr) (m : Word) (a b : Quad) : Quad := got i (quads m a b) 12
theorem test_vadd_sat : q (.vadd .i8 .rne true (.quad 3) (.quad 1) (.quad 2)) 0 0x7F01 0x017F = 0x7F7F := by decide +kernel
theorem test_vadd_wrap : q (.vadd .ui8 .rne false (.quad 3) (.quad 1) (.quad 2)) 0 0xFF01 0x0202 = 0x0103 := by decide +kernel
theorem test_vsub_sat : q (.vsub .ui8 .rne true (.quad 3) (.quad 1) (.quad 2)) 0 0x0105 0x0203 = 0x0002 := by decide +kernel
theorem test_vmul : q (.vmul .i16 .rne true (.quad 3) (.quad 1) (.quad 2)) 0 0x40000003 0x0004FFFF = 0x7FFFFFFD := by decide +kernel
theorem test_vmin : q (.vmin .i8 (.quad 3) (.quad 1) (.quad 2)) 0 0x80 0x01 = 0x80 := by decide +kernel
theorem test_vmax : q (.vmax .ui8 (.quad 3) (.quad 1) (.quad 2)) 0 0x80 0x01 = 0x80 := by decide +kernel
theorem test_vfma : q (.vfma .i8 .rne false (.quad 3) (.quad 1) (.quad 2) (.quad 1)) 0 0x03 0x05 = 0x12 := by decide +kernel
theorem test_vand : q (.vand .i8 (.quad 3) (.quad 1) (.quad 2)) 0 0x0C 0x0A = 0x08 := by decide +kernel
theorem test_vor : q (.vor .i8 (.quad 3) (.quad 1) (.quad 2)) 0 0x0C 0x0A = 0x0E := by decide +kernel
theorem test_vxor : q (.vxor .i8 (.quad 3) (.quad 1) (.quad 2)) 0 0x0C 0x0A = 0x06 := by decide +kernel
theorem test_vshl : q (.vshl .i8 (.quad 3) (.quad 1) (.quad 2)) 0 0x8181 0x0901 = 0x0202 := by decide +kernel
theorem test_vshr : q (.vshr .i8 (.quad 3) (.quad 1) (.quad 2)) 0 0x81 0x01 = 0x40 := by decide +kernel
theorem test_vsra : q (.vsra .i8 (.quad 3) (.quad 1) (.quad 2)) 0 0x81 0x01 = 0xC0 := by decide +kernel
theorem test_vcmp : got (.vcmp 2 .i8 (.reg 12) (.quad 1) (.quad 2)) (quads 0 0x80FF01 0x000001) 12 = 6 := by decide +kernel
theorem test_vsel : q (.vsel .i8 (.quad 3) (.quad 1) (.quad 2) (.reg 1)) 2 0x1111 0x2222 = 0x1122 := by decide +kernel
theorem test_vperm : q (.vperm .i8 (.quad 3) (.quad 1) (.quad 2)) 0 0x0A0B 0x4101 ≠ 0 := by decide +kernel
theorem test_vbcast : got (.vbcast .i32 (.quad 3) (.reg 1)) (quads 0x1FFFFFFFF 0 0) 15 = 0xFFFFFFFFFFFFFFFFFFFFFFFFFFFFFFFF := by decide +kernel
theorem test_vred_add : got (.vred .add .i8 .rne (.reg 12) (.quad 1) (.reg 1) 4) (quads 5 0x7F80FF 0) 12 = 0x7E := by decide +kernel
theorem test_vred_masked : got (.vred .min .ui8 .rne (.reg 12) (.quad 1) (.reg 1) 4) (quads 0 0x7F80FF 0) 12 = 0 := by decide +kernel
theorem test_vscan : got (.vscan .add .i32 .rne (.quad 3) (.quad 1) (.reg 1)) (quads 0xFFFF 0x4000000030000000200000001 0) 12 = 0xA000000060000000300000001 := by decide +kernel
theorem test_vdot : got (.vdot .i8 .rne (.reg 12) (.quad 1) (.quad 2) (.reg 1)) (quads 100 0xFF02 0x0503 ) 12 = 101 := by decide +kernel
theorem test_vrcp : q (.vrcp .f32 .rne (.quad 3) (.quad 1)) 0 0x40000000 0 % 2 ^ 32 = 0x3F000000 := by decide +kernel
theorem test_vexp2 : q (.vexp2 .f32 .rne (.quad 3) (.quad 1)) 0 0x40400000 0 % 2 ^ 32 = 0x41000000 := by decide +kernel
/-- Chapter 7's VCVT example: part 1 of two is lanes 16 to 31. -/
theorem test_vcvt :
    let t := next (.vcvt .bf16 .f32 .rne 1 (.quad 3) (.quad 1)) (quads 0 0x3F800000 0)
    t.me.arch.regs[(14 : Fin 32)].data = 0x3F80 ∧ t.me.arch.regs[(12 : Fin 32)].data = 0 := by decide +kernel
theorem test_fclass : got (.fclass .f32 (.reg 5) (.reg 1)) (abc 0xFFC00000 0 0) 5 = 0x200 ∧ got (.fclass .e4m3 (.reg 5) (.reg 1)) (abc 0x81 0 0) 5 = 4 := by decide

/-! ### States and operands that meet the hypotheses of the statements -/

/-- The usual state with its thread changed. -/
def exW (f : Thread → Thread) : State := ex.modMe f

/-- The usual state in handler mode. -/
def exH : State := exW fun x => { x with arch := { x.arch with status := { x.arch.status with mode := 1 } } }

/-- The usual state with register 1 another value. -/
def exR (v : Val) : State := exW fun x => { x with arch := { x.arch with regs := x.arch.regs.set 1 v } }

/-- An answer is not an error. -/
def ok {α β : Type} (x : Except α β) : Bool := match x with | .ok _ => true | .error _ => false
theorem of_ok {α β : Type} {x : Except α β} (h : ok x = true) : ∃ r, x = .ok r := by
  cases x with
  | ok r => exact ⟨r, rfl⟩
  | error e => cases h

theorem ex_ready : ex.me.ready := ⟨by decide, by decide⟩
theorem exH_ready : exH.me.ready := ⟨by decide, by decide⟩
theorem exR_ready (v : Val) : (exR v).me.ready := ⟨by rfl, by rfl⟩

theorem witness_EncodeDecode : Instr.wf .nop128 = true ∧ Instr.wf (.mbcfg 3 31 16384) = true := by decide
theorem witness_DecodeEncode : decodeBytes [4, 0, 0, 0, 0, 0, 0, 0, 0xFF] = some .nop := by decide
theorem witness_RotationKept : State.reset.Rotation ∧ ∃ t, step State.reset = .next t := ⟨⟨by decide, trivial⟩, ⟨_, rfl⟩⟩
theorem witness_Clock : ∃ t, exec .nop ex = .next t := ⟨_, rfl⟩

/-- A slot whose turn it is, with the block of its pc in the cache. -/
def ready1 : State := State.reset.withFetchWord 64 4

theorem witness_StepRunsDecoded :
    let s := ready1
    let x := s.th 0
    let a := x.arch.pc
    s.power = true ∧ s.agenda = [] ∧ s.turns = [0] ∧ x.run = .running ∧ x.insn = none ∧ x.held.result = none ∧ x.stopAsk = none ∧
    x.canTrap = false ∧ x.arch.status.following = false ∧ x.notBefore ≤ s.now ∧ x.markUntil ≤ s.now ∧ (s.tile (unitOf 0)).saving = none ∧
    (s.tile (unitOf 0)).breakAt (slotOf 0) a = none ∧ a.toNat % 4 = 0 ∧ a.toNat % 32 + 8 ≤ 32 ∧ fetchCheck x.arch.xcap a 4 = none ∧
    fetchCheck x.arch.xcap a 8 = none ∧
    (s.tile (unitOf 0)).block (s.fetchCtx 0) (a.toNat % 2 ^ 57) = some (4 :: List.replicate 31 0) ∧
    decodeBytes (((4 :: List.replicate 31 0).drop (a.toNat % 32)).take 8) = some .nop ∧ isSys (unitOf 0) = false ∧ s.followers 0 = [] := by
  decide

/-- The operands of the statements about registers and immediates. -/
theorem witness_plain : ex.me.ready ∧ Dst.plain .zero = true ∧ Dst.plain (.reg 31) = true ∧ Src.plain .pc = true ∧ Src.plain (.reg 4) = true :=
  ⟨ex_ready, by decide⟩
theorem witness_IntegerArithmetic : ex.me.ready ∧ Dst.plain (.reg 5) = true ∧ Src.plain (.reg 3) = true ∧ Src.plain .zero = true := ⟨ex_ready, by decide⟩
theorem witness_IntegerLogic : ex.me.ready ∧ Dst.plain .zero = true ∧ Src.plain (.reg 3) = true ∧ Src.plain .pc = true := ⟨ex_ready, by decide⟩
theorem witness_IntegerImmediates : ex.me.ready ∧ Dst.plain (.reg 3) = true ∧ Src.plain (.reg 3) = true := ⟨ex_ready, by decide⟩
theorem witness_NopForms : ex.me.ready := ex_ready
theorem witness_Jumps : ex.me.ready ∧ Src.plain (.reg 3) = true ∧ Dst.plain (.reg 3) = true := ⟨ex_ready, by decide⟩
theorem witness_LoopCounts : ex.me.ready ∧ ex.me.arch.regs[(3 : Fin 32)].lo = 7 := ⟨ex_ready, by decide⟩
theorem witness_LoopCounts_zero : ex.me.ready ∧ ex.me.arch.regs[(0 : Fin 32)].lo = 0 := ⟨ex_ready, by decide⟩

/-- A code capability, and one without the right X. -/
def codeCap (perm : BitVec 8) : Val := exactCap 2 perm 0 0x10000 0x2000
theorem witness_JumpRegister : ex.me.ready ∧ Src.plain (.reg 3) = true ∧ (ex.me.srcVal (.reg 3)).tag = false := ⟨ex_ready, by decide⟩
theorem witness_JumpRegister_space : (exR (loc 0)).me.ready ∧ ((exR (loc 0)).me.srcVal (.reg 1)).space = 0 ∧ ((exR (loc 0)).me.srcVal (.reg 1)).tag = true :=
  ⟨exR_ready _, by decide⟩
theorem witness_JumpRegister_resv :
    let c : Val := { data := 1#128 <<< 127, tag := true }
    (exR c).me.ready ∧ ((exR c).me.srcVal (.reg 1)).resv ≠ 0 := ⟨exR_ready _, by decide⟩
theorem witness_JumpRegister_space3 :
    (exR (whole 3 0)).me.ready ∧ ((exR (whole 3 0)).me.srcVal (.reg 1)).space = 3 ∧ ((exR (whole 3 0)).me.srcVal (.reg 1)).resv = 0 := ⟨exR_ready _, by decide⟩
theorem witness_JumpRegister_right :
    let c := (exR (codeCap 3)).me.srcVal (.reg 1)
    (exR (codeCap 3)).me.ready ∧ c.tag = true ∧ c.resv = 0 ∧ c.space = 2 ∧ c.perm.getLsbD 2 = false := ⟨exR_ready _, by decide⟩
theorem witness_JumpRegister_code :
    let c := (exR (codeCap 4)).me.srcVal (.reg 1)
    (exR (codeCap 4)).me.ready ∧ c.tag = true ∧ c.resv = 0 ∧ c.space = 2 ∧ c.perm.getLsbD 2 = true := ⟨exR_ready _, by decide⟩
theorem witness_HaltStops : ex.me.arch.status.mode = 0 ∧ exH.me.arch.status.mode ≠ 0 := by decide
theorem witness_CapabilityForms : ex.me.ready ∧ Dst.plain (.reg 1) = true ∧ Src.plain (.reg 1) = true ∧ Src.plain (.reg 3) = true := ⟨ex_ready, by decide⟩
theorem witness_SetBounds :
    ex.me.ready ∧ (ex.me.srcVal (.reg 1)).tag = true ∧ (ex.me.srcVal (.reg 1)).resv = 0 ∧ (ex.me.srcVal (.reg 1)).space = 0 ∧
    offsetOf 0 (ex.me.srcVal (.reg 1)).lo.toNat = some 0x100 := ⟨ex_ready, by decide⟩
theorem witness_SetBounds_form :
    let s := exR (whole 0 0x100000)
    s.me.ready ∧ (s.me.srcVal (.reg 1)).tag = true ∧ offsetOf (s.me.srcVal (.reg 1)).space (s.me.srcVal (.reg 1)).lo.toNat = none := ⟨exR_ready _, by decide⟩
theorem witness_SetBounds_untagged : ex.me.ready ∧ (ex.me.srcVal (.reg 3)).tag = false := ⟨ex_ready, by decide⟩
theorem witness_AuthorityOnlyNarrows :
    let i := Instr.csetb (.reg 5) (.reg 1) (.reg 3)
    let t := next i ex
    ex.me.ready ∧ exec i ex = .next t ∧ t.me.arch.regs[(5 : Fin 32)] ≠ ex.me.arch.regs[(5 : Fin 32)] ∧ t.me.arch.regs[(5 : Fin 32)].tag = true :=
  ⟨ex_ready, by rfl, by decide, by decide⟩
theorem witness_FloatArithmetic : ex.me.ready ∧ Src.plain (.reg 3) = true ∧ Src.plain (.reg 4) = true := ⟨ex_ready, by decide⟩
theorem witness_FloatSelections : ex.me.ready ∧ Fmt.isFloat .t6 = true ∧ Fmt.isFloat .f64 = true := ⟨ex_ready, by decide⟩

/-- The dword at 0x100, and the last one of the window of c1. -/
theorem witness_LocalLoads :
    let c := ex.me.arch.regs[(1 : Fin 32)]
    ex.me.ready ∧ ex.ownRead 0x100 8 = false ∧ c.space = 0 ∧ capCheck c 0x100 8 permR false false = none ∧ (0x100 : Int) % 8 = 0 ∧
    ((ex.tile (unitOf ex.cur)).bad = []) ∧ ex.localCheck c 0x100 8 true = none ∧ capCheck c 0x1FF0 16 permR false false = none ∧ ex.localCheck c 0x1FF0 16 true = none :=
  ⟨ex_ready, by decide⟩
theorem witness_LocalStores :
    let c := ex.me.arch.regs[(1 : Fin 32)]
    ex.me.ready ∧ ex.ownWrites ex.cur = false ∧ ex.me.redundant = false ∧ c.space = 0 ∧ capCheck c 0x100 16 permW false false = none ∧
    ex.localCheck c 0x100 16 true = none ∧ c.perm.getLsbD 4 = true ∧ capCheck c 0x1FFF 1 permW false false = none := ⟨ex_ready, by decide⟩
theorem witness_AccessTraps :
    let c := ex.me.arch.regs[(1 : Fin 32)]
    ex.me.ready ∧ capCheck c 0x1FF8 16 permR false false = some 0x11 ∧ capCheck {} 0x100 8 permR false false = some 0x10 ∧
    capCheck (loc 0) 0x100 8 permR false true = some 0x12 ∧ capCheck (codeCap 4) 0x100 8 permR false false = some 0x12 ∧
    capCheck (codeCap 1) 0x100 8 permR true false = some 0x12 ∧ capCheck c 0x104 8 permR false false = none ∧ (0x104 : Int) % 8 ≠ 0 := ⟨ex_ready, by decide⟩
/-- STC of a tagged register through a capability without the right to store one. -/
theorem witness_AccessTraps_stc :
    let c := exactCap 0 3 0 0x2000 0x100
    (exR c).me.ready ∧ capCheck c 0x100 16 permW false false = none ∧ ((exR c).me.srcVal (.reg 2)).tag = true ∧ c.perm.getLsbD 4 = false :=
  ⟨exR_ready _, by decide⟩
theorem witness_TrapEntry : ex.me.arch.entryWindow = false ∧ (next (.trap 0) ex).me.arch.entryWindow = true := by decide
theorem witness_TrapEntry_log : ex.trapLog (unitOf ex.cur) = false ∧ ({ ex with parts := [(0, { pcfg := 0x11003, ctxbase := 0x10000000, tlen := 1 })] } : State).trapLog 0 = true := by decide
theorem witness_SoftwareTraps : ex.me.ready ∧ ex.me.arch.entryWindow = false ∧ ex.me.claim = false := ⟨ex_ready, by decide⟩
theorem witness_SoftwareTraps_claim :
    let s := exW fun x => { x with claim := true }
    s.me.ready ∧ s.me.claim = true ∧ s.me.arch.status.form = false := ⟨⟨by decide, by decide⟩, by decide⟩
theorem witness_ReturnsFromTrap : ex.me.ready ∧ ex.me.arch.status.mode = 0 ∧ exH.me.ready ∧ exH.me.arch.status.mode ≠ 0 := ⟨ex_ready, by decide, exH_ready, by decide⟩
theorem witness_TrapAndReturn :
    let s := exW fun x => { x with arch := { x.arch with xcap := codeCap 4 } }
    s.me.ready ∧ s.me.arch.entryWindow = false ∧ s.me.arch.xcap.tag = true ∧ ∃ t, exec (.trap 1) s = .next t :=
  ⟨⟨by decide, by decide⟩, by decide, by decide, ⟨_, rfl⟩⟩
theorem witness_SystemRegisterReads : ex.me.ready ∧ ex.me.redundant = false ∧ ex.me.arch.status.mode = 0 ∧ isSys (unitOf ex.cur) = false := ⟨ex_ready, by decide⟩
theorem witness_SystemRegisterReads_handler : exH.me.ready ∧ exH.me.redundant = false ∧ exH.me.arch.status.mode ≠ 0 := ⟨exH_ready, by decide⟩
theorem witness_SystemRegisterReads_unassigned :
    let n : BitVec 12 := 0x139
    (∀ k ∈ [0, 1, 2, 3, 4, 5, 6, 7, 8, 0x10, 0x11, 0x12, 0x20, 0x21, 0x30, 0x31, 0x32, 0x40, 0x50, 0x60], n.toNat ≠ k) ∧ 0x139 ≤ n.toNat := by decide
theorem witness_SystemRegisterWrites : ex.me.ready ∧ Src.plain (.reg 3) = true ∧ ex.me.arch.status.mode = 0 := ⟨ex_ready, by decide⟩
theorem witness_SystemRegisterWrites_handler : exH.me.ready ∧ exH.me.arch.status.mode ≠ 0 ∧ (exH.tile (unitOf exH.me.home)).gang = some gng := ⟨exH_ready, by decide⟩
theorem witness_FlushAndWait : ex.me.ready ∧ ex.me.redundant = false ∧ ex.me.pend = [] := ⟨ex_ready, by decide⟩
theorem witness_FlushAndWait_pending :
    let s := exW fun x => { x with pend := [{ cause := 0x81, taddr := 0 }] }
    s.me.ready ∧ s.me.pend ≠ [] := ⟨⟨by decide, by decide⟩, by decide⟩
theorem witness_VectorIntegers : ex.me.ready ∧ Fmt.isInt .i8 = true ∧ Fmt.isInt .ui64 = true := ⟨ex_ready, by decide⟩
theorem witness_VectorSelections : ex.me.ready ∧ Fmt.isInt .i8 = true ∧ (11#4).toNat < 12 ∧ Fmt.isFloat .t6 = true ∧ (7#4).toNat < 8 := ⟨ex_ready, by decide⟩
theorem witness_VectorFloats : ex.me.ready ∧ Fmt.isFloat .t6 = true ∧ Instr.wf (.vcvt .f64 .e4m3 .sr 7 (.quad 0) (.quad 7)) = true := ⟨ex_ready, by decide⟩
theorem witness_VectorFloats_narrow : Instr.wf (.vcvt .e4m3 .f64 .sr 7 (.quad 0) (.quad 7)) = true ∧ Fmt.lane .e4m3 < Fmt.lane .f64 := by decide
theorem witness_VectorReductions : ex.me.ready ∧ (64#7).toNat ≤ 512 / Fmt.lane .i8 ∧ (0#7).toNat ≤ 512 / Fmt.lane .f64 := ⟨ex_ready, by decide⟩

/-- A generator bound to c5 that reads or writes dwords of LOCAL space. -/
def gen (wr : Bool) (esz left : Nat) : Stream :=
  { reg := 5, cap := loc 0x100, strides := [8, 0, 0, 0, 0, 0], counts := [left, 1, 1, 1, 1, 1], idx := [0, 0, 0, 0, 0, 0], esz := esz, write := wr, left := left }
def exS (g : Stream) : State := exW fun x => { x with streams := x.streams.set 0 (some g) }

theorem witness_StreamForms :
    let c := ex.me.arch.regs[(1 : Fin 32)]
    ex.me.held = {} ∧ ex.me.stream 1 = none ∧ ex.ownRead 0x100 64 = false ∧ (ex.tile 0).bad = [] ∧ c.space = 0 ∧ capCheck c 0x100 64 permR false false = none ∧
    ex.localCheck c 0x100 64 true = none := by decide
theorem witness_StreamForms_skip : (exS (gen false 3 4)).me.held = {} ∧ (exS (gen false 3 4)).me.stream 3 = none ∧ (gen false 3 4).reg = 5 := by decide
theorem witness_StreamOperands_pop :
    let s := exS (gen false 3 4)
    let e := (gen false 3 4).next
    s.me.held = {} ∧ s.me.streamOf 5 = some 0 ∧ s.me.streams[(0 : Fin 4)] = some (gen false 3 4) ∧ e = 0x100 ∧ (gen false 3 4).cap.space = 0 ∧
    capCheck (gen false 3 4).cap e 8 permR false false = none ∧ s.localCheck (gen false 3 4).cap e.toNat 8 true = none ∧ s.ownRead e.toNat 8 = false ∧ (s.tile 0).bad = [] := by decide
theorem witness_StreamOperands_append :
    let s := exS (gen true 3 1)
    s.me.held = {} ∧ s.me.streamOf 5 = some 0 ∧ s.me.streams[(0 : Fin 4)] = some (gen true 3 1) ∧ s.me.redundant = false ∧
    capCheck (gen true 3 1).cap 0x100 8 permW false false = none ∧ s.localCheck (gen true 3 1).cap 0x100 8 true = none := by decide
theorem witness_StreamOperands_ends :
    (exS (gen true 3 0)).me.streamOf 5 = some 0 ∧ (exS (gen false 3 0)).me.streamOf 5 = some 0 ∧ (exS (gen false 5 1)).me.streamOf 5 = some 0 := by decide
theorem witness_StreamOperands_bounds :
    let g := { gen false 3 4 with cap := {} }
    (exS g).me.streamOf 5 = some 0 ∧ capCheck g.cap g.next 8 permR false false = some 0x10 := by decide

/-- The usual state with a value on the link from the east. -/
def exL : State := ex.modTile 0 fun x => { x with links := x.links.set 1 { vals := [{ v := 9, at? := 0 }] } }
theorem witness_LinkOperands_closed :
    let s := ex.modTile 0 fun x => { x with gang := none }
    s.me.ready ∧ s.neighbour 0 .west = none := ⟨⟨by decide, by decide⟩, by decide⟩
theorem witness_LinkOperands :
    exL.me.ready ∧ exL.neighbour 0 .east = some 1 ∧ (exL.linkQ 0 .east).vals = [{ v := 9, at? := 0 }] ∧ (exL.linkQ 0 .east).engine = false ∧
    exL.linkFull 0 .east = false ∧
    (exL.tile 1).gang.map (fun g => (g.inst, g.sheet, g.ridx)) = (exL.tile 0).gang.map (fun g => (g.inst, g.sheet, g.ridx)) :=
  ⟨⟨by decide, by decide⟩, by decide⟩
theorem witness_LinkOperands_empty : ex.neighbour 0 .east = some 1 ∧ (ex.linkQ 0 .east).vals = [] := by decide

theorem witness_FullEmptyForms :
    let c := ex.me.arch.regs[(1 : Fin 32)]
    ex.me.ready ∧ ex.ownRead 0x100 8 = false ∧ ex.ownWrites ex.cur = false ∧ (ex.tile 0).bad = [] ∧ ex.me.redundant = false ∧ c.space = 0 ∧
    capCheck c 0x100 8 (permR ||| permW) false false = none ∧ capCheck c 0x100 8 permR false false = none ∧ capCheck c 0x100 8 permW false false = none ∧
    ex.localCheck c 0x100 8 false = none ∧ Sparse.get [] (ex.tile 0).feq 0x20 = [] ∧ Sparse.get false (ex.tile 0).empty 0x20 = false :=
  ⟨ex_ready, by decide⟩
/-- The word at 0x100 is empty, for STW, and slot 4 waits there, for STF. -/
def exE (q : List FeWaiter) : State := ex.modTile 0 fun x => { x with empty := [(0x20, true)], feq := if q = [] then [] else [(0x20, q)] }
theorem witness_FullEmptyForms_empty : (exE []).me.ready ∧ Sparse.get false ((exE []).tile 0).empty 0x20 = true := ⟨⟨by decide, by decide⟩, by decide⟩
theorem witness_FullEmptyQueues :
    let s := exE [{ remote := false, key := 4, op := .ldf, v := 0 }]
    let c := s.me.arch.regs[(1 : Fin 32)]
    s.me.ready ∧ s.ownRead 0x100 8 = false ∧ s.ownWrites s.cur = false ∧ s.me.redundant = false ∧ c.space = 0 ∧ s.localCheck c 0x100 8 false = none ∧
    capCheck c 0x100 8 permW false false = none ∧ Sparse.get [] (s.tile 0).feq 0x20 = [{ remote := false, key := 4, op := .ldf, v := 0 }] ∧
    (4 : Nat) ≠ s.cur := ⟨⟨by decide, by decide⟩, by decide⟩
theorem witness_LocalAtomics :
    let c := ex.me.arch.regs[(1 : Fin 32)]
    ex.me.ready ∧ ex.ownWrites ex.cur = false ∧ (ex.tile 0).bad = [] ∧ ex.asyncFull ex.cur = false ∧ ex.me.redundant = false ∧ c.space = 0 ∧
    capCheck c 0x100 8 (permR ||| permW) false false = none ∧ ex.localCheck c 0x100 8 true = none ∧ ex.reservedAt 0 0x100 = false ∧ ex.me.redPending < 8 ∧ ex.fenced ex.cur .pkg = true :=
  ⟨ex_ready, by decide⟩

/-- The usual state with a posted store of the thread still in the journal. -/
def exJ : State := ex.modTile 0 fun x =>
  { x with journal := [(0, { state := .pending, kind := 0, space := 1, addr := 0x100100, thread := 0, len := 8 })] }
theorem witness_Fences : ex.me.ready ∧ ex.me.redundant = false ∧ ex.fenced ex.cur .pkg = true := ⟨ex_ready, by decide⟩
theorem witness_Fences_waits : exJ.me.ready ∧ exJ.me.redundant = false ∧ exJ.fenced exJ.cur .pkg = false := ⟨⟨by decide, by decide⟩, by decide⟩
theorem witness_Fences_other : ex.ownWrites ex.cur = false ∧ (ex.tile (unitOf ex.cur)).journal = [] := by decide

/-- The usual state with lines armed. -/
def exM (l : List MonLine) : State := exW fun x => { x with mons := (l.zipIdx).foldl (fun v e => v.setIfInBounds e.2 (some e.1)) x.mons }
theorem witness_Monitors :
    let c := ex.me.arch.regs[(1 : Fin 32)]
    ex.me.ready ∧ ex.me.redundant = false ∧ c.space = 0 ∧ capCheck c 0x100 1 permR false false = none ∧ ex.me.mons[(0 : Fin 4)] = none ∧ ex.me.pend = [] :=
  ⟨ex_ready, by decide⟩
theorem witness_Monitors_armed :
    let s := exM [{ space := 0, line := 0x100, trig := true }]
    s.me.ready ∧ ∃ m, s.me.mons[(0 : Fin 4)] = some m ∧ m.space = 0 ∧ m.line = 0x100 ∧ m.trig = true := ⟨⟨by decide, by decide⟩, ⟨_, rfl, by decide⟩⟩
theorem witness_Monitors_all :
    let s := exM [{ line := 0x140 }, { line := 0x180 }, { line := 0x1C0 }, { line := 0x200 }]
    s.me.ready ∧ ∀ j : Fin 4, s.me.mons[j] ≠ none := ⟨⟨by decide, by decide⟩, by decide⟩
theorem witness_Mailboxes :
    let c := ex.me.arch.regs[(1 : Fin 32)]
    ex.me.ready ∧ ex.me.redundant = false ∧ capCheck c 0x100 (8 * 16) permW false false = none ∧ ex.localCheck c 0x100 (8 * 16) false = none ∧
    capCheck c 0x100 8 permW false false = none ∧ capCheck c 0x100 (8 * 16) permR false false = none ∧ ex.asyncFull 0 = false ∧ ex.freeEntry 0 = some 0 :=
  ⟨ex_ready, by decide⟩
/-- A packet to tile 1 from the thread's instance. -/
def pk (req : Req) : Packet := { target := .tile 1, req := req, inst := 1, src := 0 }
theorem witness_Mailboxes_delivery :
    let s : State := { ex with pkts := [{ pk (.message 3 [7]) with id := 5 }] }
    ∃ q, s.pkt 5 = some q ∧ q.target = .tile 1 ∧ q.req = .message 3 [7] ∧ s.canServe 1 q = true := ⟨_, rfl, by decide⟩
theorem witness_Mailboxes_resend :
    let r : Req := .message 0 [1]
    let s := ex.modTile 0 fun x => { x with journal := [(0, { state := .retrying, space := 1, addr := 0x100100, thread := 0, req := some r })] }
    (s.jr 0 0).state = .retrying ∧ (s.jr 0 0).again ≤ s.now ∧ (s.jr 0 0).req = some r ∧ (s.postTarget 0 1 0x100100).isSome = true := by decide

/-- A capability to tiles 0 and 1 with MIGR. -/
def migCap (a : Nat) : Val := exactCap 1 0xFF 0 0x200000 (BitVec.ofNat 64 a)
theorem witness_Threads_migr :
    ex.me.ready ∧ ex.me.redundant = false ∧ capCheck (migCap 0x100000) 0x100000 1 permMIGR false false = none ∧ (migCap 0x100000).space = 1 ∧
    ex.resolveTile ex.cur 0x100000 = some 1 ∧ ex.resolveTile ex.cur 0 = some 0 ∧ ex.resolveTile ex.cur 0x10000000 = none ∧
    ex.drained ex.cur = true := ⟨ex_ready, by decide⟩
theorem witness_Threads_spawn :
    ∃ x, ex.inst ex.me.inst = some x ∧ ex.fenced ex.cur .sys = true ∧ ex.ownWrites ex.cur = false := ⟨_, rfl, by decide⟩
/-- Tile 1 may follow tile 0: slot 0 of both runs the same instance. -/
def exF (gone : Bool) : State :=
  { ex with
    cur := 16
    threads := [(0, { thr [] with run := if gone then .vacant else .running, issue := { cyc := 0, pc := 0x1010, insn := some .nop }, cls := .issued }), (16, thr [])] }
theorem witness_Threads_follow_leader : ex.mayFollow ex.cur = false := by decide
theorem witness_Threads_follow_gone : (exF true).mayFollow 16 = true ∧ ((exF true).th 0).gone = true := by decide
theorem witness_Threads_follow_joins :
    let lead := (exF false).th (16 * leaderOf (unitOf 16) + slotOf 16)
    (exF false).mayFollow 16 = true ∧ lead.gone = false ∧ lead.inst = (exF false).me.inst ∧ lead.cls = .issued ∧
    lead.issue = { cyc := (exF false).now, pc := (exF false).me.arch.pc + 4 * (4#18).signExtend 64, insn := some .nop, trapped := false } := by decide
theorem witness_Barriers : ex.me.held = {} ∧ ex.fenced ex.cur .pkg = true ∧ ex.me.redundant = false := by decide
theorem witness_Barriers_waits : exJ.me.held = {} ∧ exJ.fenced exJ.cur .pkg = false := by decide
theorem witness_Barriers_released :
    (exW fun x => { x with held := { result := some (.data (val64 3)) } }).me.held = { result := some (.data (val64 3)) } := by decide

/-- The units 256 and 3 belong to the thread's context, and the latch holds an INT8 block. -/
def exX (q : List MxCmd) : State :=
  ex.modTile 0 fun x => { x with mx := { x.mx with owner := [(3, 1), (256, 1)], latch := some (List.replicate 2048 1), fmt := .i8, queue := q } }
def rows16 (n step : Nat) : List Int := (List.range n).map fun k => (0x100 : Int) + (k * step : Nat)
theorem witness_MatrixCommands :
    let s := exX []
    s.me.held = {} ∧ s.me.redundant = false ∧ s.me.arch.acctag ≠ 0 ∧ s.me.arch.status.guest = false ∧ s.qtHolds 0 = false ∧
    (s.tile 0).mx.busy = false ∧ s.asyncFull s.cur = false := by decide +kernel
theorem witness_MatrixCommands_load :
    (exX []).unitsFine [256, 3] ∧ mxClass .f32 ≠ none ∧ (exX []).rowsFine (loc 0x100) permR 64 16 (rows16 16 64) := by
  unfold State.unitsFine State.rowsFine; decide +kernel
theorem witness_MatrixCommands_cells :
    (exX []).unitsFine [3] ∧ (exX []).rowsFine (loc 0x100) permR 128 8 (rows16 16 128) ∧ (exX []).rowsFine (loc 0x100) permW 128 8 (rows16 16 128) ∧
    ∀ r j : Fin 16, Sparse.get [] ((exX []).tile 0).feq ((0x100 + 128 * r.val + 8 * j.val) / 8) = [] := by
  unfold State.unitsFine State.rowsFine; decide +kernel
theorem witness_MatrixCommands_drain :
    let a := far 0
    let b := far 0x1000
    capCheck a a.lo.toNat 2048 permW false false = none ∧ a.space = 1 ∧ a.lo.toNat % 64 = 0 ∧ capCheck b b.lo.toNat 8 permW false false = none ∧
    b.lo.toNat / 2 ^ 20 = a.lo.toNat / 2 ^ 20 ∧ (exX []).resolveTile 0 (a.lo.toNat % 2 ^ 30) = some 1 ∧
    reserveRule (exX []).me a (a.lo.toNat % 2 ^ 20) 2048 = none ∧ reserveRule (exX []).me b (b.lo.toNat % 2 ^ 20) 8 = none ∧ (exX []).freeEntry 0 = some 0 := by
  decide
theorem witness_MatrixCommands_product :
    (exX []).unitsFine [256, 3] ∧ ((exX []).tile 0).mx.pending = some (some .i8) ∧ mulFmtOk .i8 .i8 false 0 = true ∧ isPair (accFmt .i8 false) = false ∧
    mxRowBytes .i8 none = 128 ∧ (exX []).rowsFine (loc 0x100) permR 128 64 (rows16 16 128) := by
  unfold State.unitsFine State.rowsFine; decide +kernel
/-- MMAS with one index to each group: no metadata is bad. -/
theorem witness_MatrixCommands_sparse :
    (exX []).rowsFine (loc 0x100) permR (8 * metaWords (mxGroup .i8) .p1of8) 8 [0x100] ∧ mulFmtOk .i8 .i8 false 1 = true ∧
    Sparse.get false ((exX []).tile 0).empty 0x20 = false := by
  unfold State.rowsFine; decide +kernel
theorem witness_MatrixCommands_metadata (idx : Array Nat) : metaBad (mxGroup .i8) .p1of8 idx = none := by
  simp only [metaBad, patMN, Option.map_eq_none_iff, List.find?_eq_none]
  intro h _
  simp [span]
theorem witness_MatrixCommands_links : ∀ l, ex.neighbour 0 l ≠ none := by intro l; cases l <;> decide
theorem witness_MatrixCommands_stream :
    let g : Stream := { gen false 5 64 with strides := [64, 0, 0, 0, 0, 0] }
    (exS g).me.stream 5 = some g ∧ g.write = false ∧ g.esz = 5 ∧ 32 ≤ g.left := by decide +kernel
theorem witness_MatrixEvents_start :
    let c : MxCmd := { op := .zero 3 2 }
    ((exX [c]).tile 0).mx.queue = [c] ∧ c.start = none := by decide +kernel
theorem witness_MatrixEvents_end :
    let c : MxCmd := { op := .zero 3 2, start := some 0, dur := 0 }
    ((exX [c]).tile 0).mx.queue = [c] ∧ 0 + c.dur ≤ (exX [c]).now := by decide +kernel
/-- A row of an ACST, a finished rotation and a packet of a drain. -/
theorem witness_MatrixEvents_fill :
    let f : MxFill := { row := 2, words := [(0x100, 7), (0x108, 8)] }
    let m : Matrix := { fills := [f] }
    (m.fills.find? fun f => decide (f.row = 2) && decide (f.due.getD 0 ≤ ex.now)) = some f ∧ (ex.th f.thread).redundant = false ∧
    (∀ w ∈ f.words, w.1 % 8 = 0 ∧ Sparse.get [] (ex.tile 0).feq (w.1 / 8) = []) ∧ f.words.Pairwise (fun v w => v.1 ≠ w.1) := by decide +kernel
theorem witness_MatrixEvents_rotation :
    let y : MxTransfer := { actGot := [1], wgtGot := [2, 3] }
    let r : MxRot := { transfers := [y], actIn := [1], wgtIn := [(.i8, 2)] }
    r.transfers = [y] ∧ y.actLeft = [] ∧ y.wgtLeft = [] ∧ y.actGot.length = 1 ∧ y.wgtGot.length = 2 := by decide +kernel
theorem witness_MatrixEvents_packet :
    let bs := List.replicate 64 (5 : Byte)
    let sel := List.replicate 8 true
    let p : Packet := { pk (.drain bs sel false false) with id := 5, addr := 0x140 }
    let s : State := { ex with pkts := [p] }
    s.pkt 5 = some p ∧ s.canServe 1 p = true ∧ s.portOpen 1 0x140 64 p = true ∧ bs.length = 64 ∧ sel.length = 8 := by decide +kernel

/-- A GLOBAL capability with every right. -/
def glo (a : Nat) : Val := exactCap 2 0xFF 0 0x10000000 (BitVec.ofNat 64 a)

/-- The usual state with one page of 32 GiB, and GLOBAL capabilities in c2 and c3. -/
def exG : State :=
  { one [{}, loc 0x100, glo 0x200000, glo 0x300000, val64 0] with
    dram := [(0, 1), (3, 0x10), (0x10000000, 1), (0x10000002, 1), (0x10000003, 0x10), (0x10010000, 0xE2)] }

/-- A command of the quadtree engine of quarter 0. -/
def qc (op : Nat) : QtCmd := { op := op, block := 0x100, inst := 1, params := [0x400000], tree := glo 0x200000, pool := some (glo 0x300000), part := 0 }
def exQ (run : Bool) (r : QtRun) : State := exG.modQt 0 fun q => if run then { q with running := some (qc 0), run := r } else { q with queue := [qc 0] }

theorem witness_QuadtreeCommands :
    let s := exG
    s.me.held = {} ∧ s.me.streams = Vector.replicate 4 none ∧ s.me.redundant = false ∧ blockCheck s (loc 0x100) = none ∧
    qCapCheck s (glo 0x200000) (some (glo 0x300000)) = none ∧ s.ownRead 0x108 120 = false ∧ (s.tile 0).bad = [] ∧ (s.tile 0).heldPage 0x100 = false ∧
    (∀ op : Fin 6, badParams op.val false ((List.range 15).map fun k => BitVec.ofNat 64 (leNat ((s.tile 0).spad.rdN (0x108 + 8 * k) 8))) = false) ∧
    s.localCheck (loc 0x100) 0x108 120 true = none ∧ s.localCheck (loc 0x100) 0x100 8 true = none ∧ s.asyncFull s.cur = false ∧
    Sparse.get [] (s.tile 0).feq 0x20 = [] := by decide +kernel
theorem witness_QuadtreeCommands_qstat :
    exG.me.held = {} ∧ capCheck (glo 0x200000) 0x200000 8 permR false false = none ∧ exG.me.arch.status.form = false ∧ (exG.qt[(0 : Fin 4)]).running = none := by decide +kernel
theorem witness_QuadtreeCommands_qstat_running : (exQ true {}).qt[(0 : Fin 4)].running = some (qc 0) ∧ (qc 0).part = (exQ true {}).partOf 0 := by decide +kernel
/-- A record of type 0 and dimension 16 in FP64; its absence. -/
def exN : State := { exG with dram := exG.dram.wrN 0x200000 [0, 0, 0, 0, 0, 4, 0, 4] }
def record (s : State) : Option (List Word) :=
  match s.globalRd 0 (s.pasidOf 0) 0x200000 64 with
  | .ok bs => some ((List.range 8).map fun k => BitVec.ofNat 64 (leNat ((bs.drop (8 * k)).take 8)))
  | .error _ => none
theorem witness_QuadtreeCommands_qnode :
    offsetOf 2 0x200000 = some 0x200000 ∧ (record exN).map (fun w => (badRecord w 0 4 4 false, (QNode.ofWords w).lg, (QNode.ofWords w).typ)) = some (false, 4, 0) := by
  decide +kernel
theorem witness_QuadtreeCommands_qnode_bad : (record exG).map (fun w => badRecord w 0 0 0 false) = some true := by decide +kernel
theorem witness_QuadtreeCommands_qpool :
    exG.me.held = {} ∧ qpoolCheck exG (glo 0x200000) none = none ∧ qpoolCheck exG (glo 0x200000) (some (0x200040, 0x300000)) = none := by decide +kernel
theorem witness_QuadtreeCommands_start :
    let s := exQ false {}
    (s.qt[(0 : Fin 4)]).running = none ∧ (s.qt[(0 : Fin 4)]).queue = [qc 0] ∧
    (match s.hoodReach (qc 0) 8 with | .ok (_, bs) => decide (leNat (bs.take 8) / 2 ^ 56 % 256 = 0) | .error _ => false) = true := by decide +kernel
theorem witness_QuadtreeCommands_leaf :
    let s := exQ true {}
    s.qt[(0 : Fin 4)].running = some (qc 0) ∧ s.qt[(0 : Fin 4)].run.closed = false ∧ s.qt[(0 : Fin 4)].run.failed = none ∧
    s.qt[(0 : Fin 4)].run.parked = none ∧ s.qt[(0 : Fin 4)].run.stops (qc 0) s.tstamp = false := by decide +kernel
theorem witness_QuadtreeCommands_park :
    ∃ r, (exQ true { parked := some (0x40, 0) }).hoodWrite (qc 0) { parked := some (0x40, 0) } 2 0x40 0 0 = .ok r := of_ok (by decide +kernel)
theorem witness_QuadtreeCommands_end :
    ∃ r, (exQ true { closed := true }).hoodWrite (qc 0) { closed := true } 3 0 0 0 = .ok r := of_ok (by decide +kernel)
theorem witness_QuadtreeCommands_fill :
    (qc 0).lead = false ∧ (exG.th (qc 0).thread).redundant = false ∧ (qc 0).block % 8 = 0 ∧ (0x40 : Nat) ≠ Cause.preempt := by decide +kernel

/-- Scratchpad with these dwords. -/
def pad (l : List (Nat × Nat)) : Memory := l.foldl (fun m e => Memory.wrN m e.1 (leBytes 8 e.2)) []

/-- LOCAL 0x200 holds a copy descriptor of four dwords, chapter 16's, and 0x300 the block of a gather of two rows of one dword. -/
def exD (wr : Val) : State :=
  { one [{}, wr, loc 0x100, val64 9, loc 0x200, loc 0x300] with
    tiles := [
      (0, { gang := some gng, part := some 0, spad := pad (
        [(0x208, 3), (0x210, 8 * 2 ^ 24 + 4), (0x218, 1), (0x220, 1), (0x228, 1), (0x230, 1), (0x238, 1), (0x240, 8 * 2 ^ 24),
         (0x310, 2), (0x318, 0x180), (0x328, 0x100), (0x330, 8), (0x338, 0x400), (0x340, 8), (0x348, 8)]) }),
      (1, { gang := some gng, part := some 0 })] }
def par (s : State) (o : Nat) : List Word := (List.range 13).map fun k => BitVec.ofNat 64 (leNat ((s.tile 0).spad.rdN (o + 8 + 8 * k) 8))
def cmdOf (dst : Val) : CopyCmd :=
  { thread := 0, inst := 1, part := 0, dst := dst, src := loc 0x100, cw := 0x200, z := 8, counts := [4, 1, 1, 1, 1, 1], sstr := [8, 0, 0, 0, 0, 0]
    dstr := [8, 0, 0, 0, 0, 0], total := 4 }

theorem witness_EngineCommands :
    let s := exD (loc 0x400)
    let p := par s 0x200
    s.me.held = {} ∧ s.me.streams = Vector.replicate 4 none ∧ s.me.redundant = false ∧ blockCheck s (loc 0x200) = none ∧ s.ownRead 0x208 104 = false ∧ (s.tile 0).bad = [] ∧
    (s.tile 0).feq = [] ∧ (s.tile 0).pages = [] ∧
    s.localCheck (loc 0x200) 0x208 104 true = none ∧ badDesc p false = false ∧ eszBytes (descEsz p) = 8 ∧ descTotal p = 4 ∧
    (descDims p false).map dimCount = [4, 1, 1, 1, 1, 1] ∧ (descDims p true).map dimStride = [8, 0, 0, 0, 0, 0] ∧
    areaCheck s (loc 0x100) 8 [4, 1, 1, 1, 1, 1] [8, 0, 0, 0, 0, 0] permR = none ∧
    areaCheck s (loc 0x400) 8 [4, 1, 1, 1, 1, 1] [8, 0, 0, 0, 0, 0] permW = none ∧ s.asyncFull s.cur = false := by decide +kernel
theorem witness_EngineCommands_tile :
    let s := exD (far 0x400)
    areaCheck s (far 0x400) 8 [4, 1, 1, 1, 1, 1] [8, 0, 0, 0, 0, 0] permW = none ∧ (far 0x400).space = 1 ∧ (cmdOf (far 0x400)).allWords ≠ [] ∧
    ∀ w ∈ (cmdOf (far 0x400)).allWords, s.resolveTile s.cur (64 * (w / 64)) ≠ none := by decide +kernel
theorem witness_EngineCommands_bad : badDesc (List.replicate 13 0) false = true := by decide +kernel
theorem witness_EngineCommands_marks :
    let s := (exD (far 0x400)).modMe fun x => { x with held := { x.held with copy := some (cmdOf (far 0x400)) } }
    s.me.held.copy = some (cmdOf (far 0x400)) ∧ s.me.held.links = [] ∧ s.me.held.place = none ∧ s.me.held.badMark = none := by decide +kernel
theorem witness_EngineCommands_index :
    let s := exD (loc 0x300)
    let k : IxCmd := { op := 1, cap := loc 0x100, cw := 0x300, params := par s 0x300 }
    s.me.held = {} ∧ blockCheck s (loc 0x300) = none ∧ s.localCheck (loc 0x300) 0x308 104 true = none ∧ badBlock (loc 0x300) k = false ∧
    badBlock (loc 0x300) { k with op := 2 } = false ∧ badBlock (loc 0x300) { k with op := 3, fmt := .i64 } = false ∧ s.me.region.isOpen = false ∧
    s.me.arch.status.form = false := by decide +kernel
theorem witness_EngineCommands_index_bad : badBlock (loc 0x300) { op := 1, params := List.replicate 13 1 } = true := by decide +kernel
theorem witness_EngineCommands_cancel :
    capCheck (loc 0x200) 0x200 8 permW false false = none ∧ (loc 0x200).space = 0 ∧ (0x200 : Nat) % 64 = 0 ∧
    (cmdOf (loc 0x400)).cw = (loc 0x200).lo.toNat % 2 ^ 20 := by decide +kernel

/-- Tile 0 with a copy command and its elements, or an index command. -/
def exCp (c : CopyCmd) (es : List CopyElt) : State := (exD (loc 0x400)).modTile 0 fun x => { x with copies := [c], copyElts := es }
def gath (op : Nat) : IxCmd := { op := op, cap := loc 0x100, cw := 0x300, params := [0, 2, 0x180, 0, 0x100, 8, 0x400, 8, 8, 0, 0, 0, 0] }
def exIx (c : IxCmd) : State := (exD (loc 0x300)).modTile 0 fun x => { x with indexes := [c] }

theorem witness_EngineEvents_ack :
    let p : Packet := { pk (.mark [0]) with id := 5, owner := .marks 0, back := true, stage := .answered, answer := .ack }
    let s : State := { exD (far 0x400) with pkts := [p] }
    s.pkt 5 = some p ∧ p.owner = .marks 0 ∧ p.src = 0 ∧ s.lands p = true := by decide +kernel
theorem witness_EngineEvents_start :
    ((exCp (cmdOf (loc 0x400)) []).tile 0).nextCopy 0 = some (cmdOf (loc 0x400)) ∧ ((exCp (cmdOf (loc 0x400)) []).tile 0).saving = none := by decide +kernel
theorem witness_EngineEvents_issue :
    let k := { cmdOf (loc 0x400) with started := true }
    ((exCp k []).tile 0).issuing 0 = some k ∧ k.dst.space = 0 ∧ k.src.space = 0 ∧ ((exCp k []).tile 0).heldAny (k.srcOff 0) k.z = false := by decide +kernel
theorem witness_EngineEvents_issue_tile :
    let k := { cmdOf (loc 0x400) with started := true, src := far 0x100 }
    ((exCp k []).tile 0).issuing 0 = some k ∧ k.src.space = 1 ∧ (exCp k []).resolveTile 0 (k.srcOff 0) = some 1 := by decide +kernel
theorem witness_EngineEvents_lands :
    let k := { cmdOf (loc 0x400) with started := true, issued := 4 }
    let e : CopyElt := { n := 7, no := 0, k := 3, bytes := List.replicate 8 1, ready := true }
    let x := (exCp k [e]).tile 0
    x.copyElts.find? (fun e => e.n = 7) = some e ∧ x.copyCmd 0 = some k ∧ x.copyOrder k e = true ∧ e.sent = false ∧ k.lead = false ∧
    ((exCp k [e]).th k.thread).redundant = false ∧ x.heldAny (k.dstOff 3) 8 = false ∧ e.bytes.length = k.z ∧
    (∀ w ∈ k.words 3, Sparse.get [] x.feq (w / 8) = []) ∧ k.total ≤ k.issued ∧ k.missed = [] := by decide +kernel
theorem witness_EngineEvents_sends :
    let k := { cmdOf (far 0x400) with started := true, issued := 4 }
    k.dst.space = 1 ∧ (exCp k []).resolveTile 0 (k.dstOff 3) = some 1 := by decide +kernel
theorem witness_EngineEvents_ends :
    let k := { cmdOf (loc 0x400) with started := true, issued := 4, landed := 4, fillAt := some 0 }
    let x := (exCp k []).tile 0
    (x.copies.find? fun k => match k.fillAt with | some f => decide (f ≤ 0) | none => false) = some k ∧ k.cw % 64 = 0 ∧
    Sparse.get [] x.feq (k.cw / 8) = [] := by decide +kernel
theorem witness_EngineEvents_index :
    ((exIx (gath 1)).tile 0).nextIx 0 = some (gath 1) ∧ (gath 1).op ≠ 0 ∧ (gath 1).params = par (exD (loc 0x300)) 0x300 := by decide +kernel
theorem witness_EngineEvents_word :
    let k := { gath 1 with started := true }
    let x := (exIx k).tile 0
    x.ixRunning = some k ∧ k.closed = false ∧ k.cursor < k.count ∧ Sparse.get false x.empty ((k.idx + k.istr * k.cursor) / 8) = false := by decide +kernel
def rowCmd (op : Nat) : IxCmd := { gath op with started := true, work := [(0, 1)], cursor := 1 }
theorem witness_EngineEvents_row :
    let k := rowCmd 1
    let x := (exIx k).tile 0
    x.ixRunning = some k ∧ k.work = [(0, 1)] ∧ k.moved = [] ∧ k.failed = none ∧ k.endAt = 0 ∧ k.lead = false ∧ ((exIx k).th k.thread).redundant = false ∧ k.len = 8 ∧
    ∀ w ∈ k.rowWords 0, Sparse.get [] x.feq (w / 8) = [] := by decide +kernel
theorem witness_EngineEvents_row_place :
    (match (exIx (rowCmd 1)).ixRow (rowCmd 1) 0 ((rowCmd 1).base + 1 * (rowCmd 1).bstr : Nat) permR with
     | .ok p => decide (p = .tile 0 0x108) | .error _ => false) = true := by decide +kernel
theorem witness_EngineEvents_row_read :
    ∃ bs, (exIx (rowCmd 1)).ixRead (rowCmd 1) ((rowCmd 1).base + 1 * (rowCmd 1).bstr : Nat) 8 (.tile 0 0x108) = .ok bs := of_ok (by decide +kernel)
theorem witness_EngineEvents_scatter :
    ((exIx (rowCmd 2)).tile 0).ixRunning = some (rowCmd 2) ∧ ((rowCmd 2).work.head?.map (·.1)) = some 0 ∧
    (match (exIx (rowCmd 2)).ixRow (rowCmd 2) 0 ((rowCmd 2).base + 1 * (rowCmd 2).bstr : Nat) permW with
     | .ok p => decide (p = .tile 0 0x108) | .error _ => false) = true := by decide +kernel
/-- A walk of two entries of LOCAL column numbers at 0x500, with row numbers at 0x600. -/
def exWk (c : IxCmd) : State :=
  exD (loc 0x300) |>.modTile 0 fun x => { x with
    spad := pad [(0x500, 0x300000001), (0x600, 0x200000002)]
    indexes := [{ c with op := 0, cap := loc 0, params := [0, 2, 0x600, 0x500, 0x700, 0x780, 4, 0, 0, 0, 0, 0, 0] }] }
theorem witness_EngineEvents_walk :
    let s := exWk { started := true, hi := 2, last := some 2, done := 1, q := 1, row := 2, cw := 0x300 }
    ∃ k, (s.tile 0).ixRunning = some k ∧ k.closed = false ∧ k.flag = false ∧ k.cursor - k.lo ≠ k.room ∧ k.out % 16 = 0 ∧
      s.ixWord k 0 (k.par 0x18 + 4 * k.cursor) = .ok 2 ∧ s.ixWord k 0 (k.par 0x20 + 4 * k.cursor) = .ok 1 ∧ k.last = some 2 :=
  ⟨_, rfl, by decide +kernel, by decide +kernel, by decide +kernel, by decide +kernel, by rfl, by rfl, by decide +kernel⟩
theorem witness_EngineEvents_index_end :
    let k := { gath 1 with started := true, closed := true }
    ((exIx k).tile 0).ixRunning = some k ∧ k.endAt = 0 ∧ k.failed = none ∧ k.op ≠ 0 ∧ k.cw % 64 = 0 := by decide +kernel
theorem witness_EngineEvents_index_filled :
    let k := { gath 1 with started := true, closed := true, endAt := 1 }
    ((exIx k).tile 0).ixRunning = some k ∧ k.endAt ≠ 0 ∧ k.endAt ≤ ({ exIx k with now := 1 } : State).now ∧ Sparse.get [] ((exIx k).tile 0).feq (k.cw / 8) = [] := by
  decide +kernel

/-- Quarter 0's banks 0 and 1 belong to partition 0. -/
def exA : State :=
  { one [{}, loc 0x100, val64 3, loc 0x800, val64 (64 * 2 ^ 32), val64 5] with
    fabank := (Vector.replicate 8 (BitVec.allOnes 64)).set 0 0xFFFFFFFFFFFF0000 }
def fc (op : Nat) (arg : Word) : FaCmd := { op := op, inst := 1, part := 0, map := [0, 1], banks := [1], arg := arg }
/-- The array of quarter 0 with these commands. -/
def exFa (q : List FaCmd) (r : List (Nat × FaCmd)) : State := exA.modFa 0 fun y => { y with queue := q, running := r, next := 5 }

theorem witness_FeltingCommands :
    exA.me.held = {} ∧ exA.me.streams = Vector.replicate 4 none ∧ exA.me.redundant = false ∧ exA.faMap 0 0 = [0, 1] ∧ exA.me.arch.status.form = false ∧
    faCwCheck exA (loc 0x800) = none ∧ (∀ op ∈ [0, 1, 2, 4], faAreaCheck exA op (loc 0x100) (faSize op false 16) = none) ∧ exA.faPending 0 0 < 8 ∧
    exA.asyncFull exA.cur = false := by decide +kernel
theorem witness_FeltingCommands_operands :
    (3#64).extractLsb' 16 48 = 0 ∧ (3#64).extractLsb' 0 16 ≠ 0 ∧ ((3#64).extractLsb' 0 16).toNat < 2 ^ 2 ∧ (4#64).extractLsb' 0 16 = 4 ∧
    ((BitVec.ofNat 64 (64 * 2 ^ 32)).extractLsb' 32 18).toNat = 64 := by decide
theorem witness_FeltingCommands_accept : (exFa [fc 5 7] []).fa[(0 : Fin 4)].queue = [fc 5 7] := by decide +kernel
theorem witness_FeltingCommands_start :
    let c := { fc 3 1 with clear := some 0 }
    (exFa [] [(2, c)]).fa[(0 : Fin 4)].cmd 2 = some c ∧ c.startable ({ exA with now := 16 } : State).now = true := by decide +kernel
theorem witness_FeltingCommands_short :
    let c := { fc 5 7 with clear := some 0, start := some 0 }
    let d := { fc 6 7 with clear := some 0, start := some 0, f := true }
    (exFa [] [(2, c)]).fa[(0 : Fin 4)].cmd 2 = some c ∧ (exFa [] [(3, d)]).fa[(0 : Fin 4)].cmd 3 = some d ∧ c.held = false ∧ c.ended = false ∧
    c.failed = none ∧ c.lead = false ∧ c.cw = none ∧ (exA.th c.thread).redundant = false ∧ 0 + 1 ≤ ({ exA with now := 1 } : State).now := by decide +kernel
theorem witness_FeltingCommands_sweep :
    let c := { fc 3 1 with clear := some 0, start := some 0, good := 1, tabs := [false] }
    (exFa [] [(2, c)]).fa[(0 : Fin 4)].cmd 2 = some c ∧ 0 + 8 * c.good ≤ ({ exA with now := 8 } : State).now ∧ c.banks = [1] ∧
    ((exFa [] [(2, c)]).fa[(0 : Fin 4)].bank 1).entropy = false := by decide +kernel
theorem witness_FeltingCommands_swept :
    let c := { fc 3 1 with clear := some 0, start := some 0, good := 1, tabs := [false], ended := true, cw := some 0x800 }
    (exFa [] [(2, c)]).fa[(0 : Fin 4)].cmd 2 = some c ∧ Sparse.get [] (exA.tile c.tile).feq (0x800 / 8) = [] ∧
    0 + 8 * c.k * c.good + 4 ≤ ({ exA with now := 12 } : State).now := by decide +kernel

/-- Handler mode, a number in c4. -/
def exP (v : Word) (e : JEntry) : State :=
  (exH.modTile 0 fun x => { x with journal := if e = {} then [] else [(7, e)] }).modMe fun x => { x with arch := { x.arch with regs := x.arch.regs.set 4 (val64 v) } }
theorem exP_ready (v : Word) (e : JEntry) : (exP v e).me.ready := ⟨by rfl, by rfl⟩
theorem witness_JournalAndMeasurements : ex.me.ready ∧ ex.me.redundant = false ∧ 31 < (ex.me.srcVal (.reg 4)).lo.toNat ∧ (ex.jr 0 7).state = .free := ⟨ex_ready, by decide⟩
theorem witness_JournalAndMeasurements_entry :
    let e : JEntry := { state := .refused, kind := 0, space := 1, addr := 0x100100, thread := 0, req := some (.write [1] false false) }
    let s := exP 7 e
    s.me.ready ∧ (s.me.srcVal (.reg 4)).lo.toNat = 7 ∧ (s.jr 0 7).state = .refused ∧ (s.jr 0 7).kind ≠ 8 ∧ (s.jr 0 7).kind ≠ 6 ∧ (s.jr 0 7).slot = 0 ∧
    s.postTarget s.cur (s.jr 0 7).space (s.jr 0 7).addr = some (.tile 1, 0x100) := ⟨exP_ready _ _, by decide +kernel⟩
theorem witness_JournalAndMeasurements_spill :
    let s := exP 3 {}
    s.me.arch.status.mode ≠ 0 ∧ s.me.arch.status.guest = false ∧ s.qtHolds 0 = false ∧ (s.tile 0).mx.busy = false ∧ (s.tile 0).mx.ownerOf 3 = 0 ∧
    s.me.arch.acctag ≠ 0 ∧ s.spillBit (s.ctxBase (s.partOf 0) s.me.arch.acctag.toNat) 3 = false := by decide +kernel
theorem witness_JournalAndMeasurements_owned :
    ((exX []).tile 0).mx.ownerOf 3 = (exX []).me.arch.acctag ∧
    ((ex.modTile 0 fun x => { x with mx := { x.mx with owner := [(3, 2)] } }).tile 0).mx.ownerOf 3 ≠ ex.me.arch.acctag := by decide +kernel
/-- An answer that has come back for journal entry 7 of tile 0. -/
def exK (a : Answer) (kind left tries : Nat) : State :=
  { exP 7 { state := .pending, kind := kind, left := left, tries := tries, thread := 0, inst := 1, space := 1, addr := 0x100100 } with
    pkts := [{ pk (.write [1] false false) with id := 5, owner := .journal 0 7, back := true, stage := .answered, answer := a }] }
def backPkt (a : Answer) : Packet := { pk (.write [1] false false) with id := 5, owner := .journal 0 7, back := true, stage := .answered, answer := a }
theorem witness_JournalAndMeasurements_ack :
    (exK .ack 0 0 0).pkt 5 = some (backPkt .ack) ∧ (exK .ack 0 0 0).lands (backPkt .ack) = true ∧ ((exK .ack 0 0 0).jr 0 7).kind = 0 := by decide +kernel
theorem witness_JournalAndMeasurements_drain : (exK .ack 8 2 0).pkt 5 = some (backPkt .ack) ∧ ((exK .ack 8 2 0).jr 0 7).kind = 8 ∧ 1 < ((exK .ack 8 2 0).jr 0 7).left := by decide +kernel
theorem witness_JournalAndMeasurements_full : (exK .full 6 0 0).lands (backPkt .full) = true ∧ ((exK .full 6 0 2).jr 0 7).tries < 3 ∧ 3 ≤ ((exK .full 6 0 3).jr 0 7).tries := by decide +kernel
theorem witness_JournalAndMeasurements_refused :
    (exK (.refused 0x20) 0 0 0).lands (backPkt (.refused 0x20)) = true ∧ (exK (.refused 0x20) 0 0 0).alive 0 1 = true ∧ unitOf 0 = 0 ∧
    ((exK (.refused 0x20) 0 0 0).th 0).redundant = false := by decide +kernel
theorem witness_JournalAndMeasurements_config :
    evOk 0 0 = true ∧ evOk 0xFFFFFFFFFFFFFFFF 0 = false ∧ hEdgesOk 0x07060504030201 = true ∧ (0x07060504030201#64).extractLsb' 60 3 = 0 ∧ hEdgesOk 0 = false := by decide +kernel
theorem witness_JournalAndMeasurements_read : ex.evGet 0 0 0x100 ≠ none ∧ ex.evGet 0 0 0x000 = none := by decide +kernel

/-- A pair of replicas on tiles 0 and 1 whose threads vote, or a triple on tiles 0 to 2. -/
def rth (n : Nat) (arch : Arch → Arch) (red : Redund) : Thread :=
  { run := .voting, inst := 1, ridx := n, arch := arch { acctag := 1, status := { rlevel := 2, ridx := BitVec.ofNat 2 n } }, red := red }
def exV (n : Nat) (sigs : List (Nat × Word)) (red : Redund) : State :=
  { threads := (List.range n).map fun k => (16 * k, rth k id red)
    tiles := (List.range n).map fun k => (k, { gang := some { gng with ridx := k }, part := some 0 })
    parts := [(0, { pcfg := 0x11001, ctxbase := 0x10000000, tlen := 1 })]
    insts := [{ id := 1, recw := [(if n = 2 then 0x1080010000010101 else 0x10C0010000010101)], sheets := [{ tiles := (List.range n).map fun k => [k] }] }]
    votes := [{ leader := 0, sigs := sigs }] }
theorem witness_Redundancy : ex.me.ready ∧ ex.me.redundant = false ∧ ex.me.arch.status.dbg = false := ⟨ex_ready, by decide⟩
theorem witness_Redundancy_sync :
    let s := (exV 2 [] {}).modMe fun x => { x with run := .running }
    s.me.ready ∧ s.me.redundant = true ∧ s.me.red.agreed = false ∧ s.me.ridx = 0 := ⟨⟨by decide, by decide⟩, by decide⟩
theorem witness_Redundancy_flip :
    let s := exW fun x => { x with arch := { x.arch with status := { x.arch.status with dbg := true } } }
    s.me.ready ∧ s.me.arch.status.dbg = true ∧ rinjOk (s.me.arch.regs[(0 : Fin 32)]).lo s.level = true ∧ rinjOk (s.me.arch.regs[(4 : Fin 32)]).lo s.level = false ∧
    rinjOk (2 ^ 28 * 0x100 + 2 ^ 21 * 63 + 0x100) s.level = true := ⟨⟨by decide, by decide⟩, by decide +kernel⟩
theorem witness_Redundancy_agree :
    let s := exV 2 [(0, 9), (1, 9)] {}
    s.vote 0 = some { leader := 0, sigs := [(0, 9), (1, 9)] } ∧ s.replicaKeys 0 = [0, 16] ∧ (s.replicaKeys 0).Nodup ∧ (s.th 0).red.buf = [] ∧
    ∀ k ∈ s.replicaKeys 0, ({ leader := 0, sigs := [(0, 9), (1, 9)] } : Vote).sigOf (s.th k).ridx = some 9 := by decide +kernel
theorem witness_Redundancy_differ :
    let s := exV 2 [(0, 9), (1, 8)] {}
    let v : Vote := { leader := 0, sigs := [(0, 9), (1, 8)] }
    s.vote 0 = some v ∧ v.sigOf (s.th 0).ridx ≠ v.sigOf (s.th 16).ridx ∧ (s.th 0).red.failed = false ∧
    ∀ o ∈ s.replicaKeys 0, (s.th o).run = .voting ∧ (s.th o).red.undo = [] := by decide +kernel
theorem witness_Redundancy_late : (exV 2 [(0, 9)] {}).vote 0 ≠ none ∧ 0 + 2 ^ 20 ≤ ({ exV 2 [(0, 9)] {} with now := 2 ^ 20 } : State).now := by decide +kernel
theorem witness_Redundancy_drop :
    let s : State := { (exV 3 [(0, 9), (1, 9)] {}).modTh 32 fun x => { x with run := .running } with now := 2 ^ 21 }
    let v : Vote := { leader := 0, sigs := [(0, 9), (1, 9)] }
    s.leaderKey 32 = 0 ∧ s.vote (s.leaderKey 32) = some v ∧ v.first + 2 ^ 21 ≤ s.now ∧ v.sigOf (s.th 32).ridx = none ∧
    s.replicaKeys 0 = [0, 16, 32] ∧ v.sigOf (s.th 0).ridx = some 9 ∧ v.sigOf (s.th 16).ridx = some 9 ∧ (s.th 32).run = .running := by decide +kernel

/-- The usual state with one packet. -/
def exT (p : Packet) : State := { exG with pkts := [{ p with id := 5 }] }
theorem witness_Requests : (exT (pk (.read 8 false))).pkt 5 = some { pk (.read 8 false) with id := 5 } := by decide +kernel
/-- A form packet of five flits in the window of the next frame's start: window 0 of row 0. -/
def fpk : Packet := { pk (.read 8 false) with id := 5, form := true, stage := .queued, flits := 5, src := 0 }
theorem witness_Requests_window :
    let s := exT fpk
    fpk.inWindow = true ∧ fpk.due ≤ s.now ∧ s.now % 48 = fpk.window ∧ s.windowHead fpk = true ∧ s.windowUsed fpk = false ∧
    ({ s with now := 1 } : State).now % 48 ≠ fpk.window := by decide +kernel
theorem witness_Requests_port :
    let f (r : Req) : Packet := { pk r with id := 5, addr := 0x100 }
    (∀ r ∈ [Req.read 8 false, .write [1, 2] false false, .fe .stf 7, .amo .add 8 1 0 false],
      (exT (f r)).canServe 1 (f r) = true ∧ (exT (f r)).portFirst 1 (f r) = true ∧ (exT (f r)).portOpen 1 0x100 r.size (f r) = true) ∧
    ((exT (f (.read 8 false))).tile 1).raceRemote 0x100 8 0 = false ∧ Sparse.get [] ((exT (f (.fe .stf 7))).tile 1).feq 0x20 = [] := by decide +kernel
theorem witness_Requests_shut :
    let p : Packet := { pk (.read 8 false) with id := 5, addr := 0x100, target := .tile 2 }
    (exT p).canServe 2 p = true ∧ (exT p).portFirst 2 p = true ∧ (exT p).portOpen 2 0x100 8 p = false := by decide +kernel
theorem witness_Requests_atomic :
    let p : Packet := { pk (.amo .add 8 1 0 true) with id := 5, addr := 0x100, stage := .reserved, flits := 0 }
    p.stage = .reserved ∧ (exT p).holdsReservation p = true ∧ p.target = .tile 1 := by decide +kernel
/-- A request to the station of quarter 0 that holds the sector at 0x200000. -/
def spk (r : Req) : Packet := { pk r with id := 5, target := .station (homeStation 0 0x200000), addr := 0x200000, part := 0 }
def entry : TlbEntry := { ctx := 0, level := 3, vpn := 0, leaf := 0xE2 }
def exSt (r : Req) (cached : Bool) : State :=
  { exT (spk r) with stations := if cached then [(homeStation 0 0x200000, { tlb := [entry] })] else [] }
theorem witness_Requests_station :
    let s := exSt (.read 8 false) true
    let p := spk (.read 8 false)
    p.stage = .flying ∧ p.back = false ∧ p.due ≤ s.now ∧ s.firstOut p = true ∧ s.heldBack p = false ∧
    (s.station (homeStation 0 0x200000)).find (ctxKey p.part p.pasid) p.addr = some entry ∧
    (match s.leafAccess 0 3 0xE2 0x200000 (true, false, false) false false false with
     | .ok ph => s.reachable ph && decide (ph.pa < ctlBase) | .error _ => false) = true := by decide +kernel
theorem witness_Requests_denied :
    (match (exSt .fetch true).leafAccess 0 3 0x22 0x200000 (Req.need .fetch) false false false with
     | .ok _ => false | .error _ => true) = true := by decide +kernel
theorem witness_Requests_miss :
    let s := exSt .fetch false
    let k := homeStation 0 0x200000
    (s.station k).find 0 0x200000 = none ∧ s.walkFor k (spk .fetch) = false ∧ (s.station k).walks = [] ∧
    (s.pkts.filter fun r => decide (r.stage = .walking) && decide (r.target = .station k)).length < 2048 := by decide +kernel
theorem witness_Requests_walk :
    let w : Walk := { ctx := 0, va := 0x200000 }
    let k := homeStation 0 0x200000
    let p := { spk (.read 8 false) with stage := .walking }
    let s : State := { exG with pkts := [p], stations := [(k, { walks := [w] })] }
    s.pkt 5 = some p ∧ (s.station k).walks = [w] ∧ s.joined k w = [p] ∧
    (match s.walkVa 0 0 0x200000 with | .ok (l, e) => decide (l = 3 ∧ e = 0xE2) | .error _ => false) = true := by decide +kernel
theorem witness_Requests_walk_fails :
    (match ({ exG with dram := [] } : State).walkVa 0 0 0x200000 with | .ok _ => false | .error _ => true) = true := by decide +kernel
def apk (o : Owner) (a : Answer) : Packet := { pk (.read 8 false) with id := 5, owner := o, back := true, stage := .answered, answer := a }
theorem witness_Requests_reply :
    let p := apk (.thread 0) (.data (val64 7))
    let s := (exT p).modTh 0 fun x => { x with run := .reply, insn := some (.ld .d (.reg 5) 2 0) }
    s.lands p = true ∧ p.stale = false ∧ s.alive 0 p.inst = true ∧ (s.th 0).redundant = false ∧ (s.tile (unitOf 0)).saving = none ∧
    (s.th 0).insn = some (.ld .d (.reg 5) 2 0) := by decide +kernel
theorem witness_Requests_block : (exT (apk (.icache 0) (.bytes (List.replicate 32 0)))).lands (apk (.icache 0) (.bytes (List.replicate 32 0))) = true := by
  decide +kernel
theorem witness_Requests_timeout :
    let p := { apk (.thread 0) (.data (val64 7)) with node := 9 }
    p.back = true ∧ p.node ≠ (exT p).nodeid.toNat ∧ p.host = false ∧ (exT p).now < p.issue + 2 ^ 24 ∧
    p.issue + 2 ^ 24 ≤ ({ exT p with now := 2 ^ 24 } : State).now := by decide +kernel

/-- The usual thread in a wait. -/
def exWait (r : Run) (i : Instr) (p : List PendTrap) : State := exW fun x => { x with run := r, insn := some i, pend := p }
theorem witness_ThreadEvents_waits :
    ∀ r ∈ [Run.mwait (some 0), .waiti (some 0), .released 3 0],
      let s := exWait r (.waiti (.reg 3)) []
      (s.th 0).canTrap = false ∧ (s.tile (unitOf 0)).saving = none ∧ 0 % 16 = s.now % 16 ∧ (s.th 0).run = r ∧ (s.th 0).insn = some (.waiti (.reg 3)) := by
  decide +kernel
theorem witness_ThreadEvents_ready :
    let s := exW fun x => { x with run := .mwait none, insn := some (.mwait (.reg 5) .zero), mons := x.mons.set 0 (some { trig := true }) }
    (s.th 0).mwaitReady = true ∧ (s.th 0).canTrap = false := by decide +kernel
/-- A trap is pending while IE is 0. -/
theorem witness_ThreadEvents_pending :
    let s := exW fun x =>
      { x with run := .waiti none, insn := some (.waiti .zero), pend := [{ cause := 0x81 }], arch := { x.arch with status := { x.arch.status with ie := false } } }
    (s.th 0).canTrap = false ∧ (s.th 0).pend ≠ [] := by decide +kernel
theorem witness_ThreadEvents_notice :
    let r : MonReg := { key := 0, thread := 0, idx := 2, own := true }
    (({ ex with monNotes := [r] } : State).monNotes.find? fun r => decide (r.thread = 0) && decide (r.idx = (2 : Fin 4).val)) = some r := by decide +kernel
theorem witness_ThreadEvents_link :
    let y : MxMul := { f := .i8, kind := 0, src := 2, chunks := [], m := 16, wide := false, acc := 3, rmask := 0xFFFF, cmask := 0xFFFF, dmask := 0xFFFF, idx := [], pat := none, link := some .east }
    let c : MxCmd := { op := .mul y, start := some 0 }
    let s := exL.modTile 0 fun x => { x with mx := { x.mx with queue := [c] } }
    (s.tile 0).saving = none ∧ (s.tile 0).mx.queue = [c] ∧ y.link = some .east ∧ (s.linkQ 0 .east).vals = [{ v := 9, at? := 0 }] ∧
    c.took.length + 1 < y.values ∧ (s.tile 0).mx.rot.transfers = [] := by decide +kernel
theorem witness_ThreadEvents_timer :
    let s := exW fun x => { x with arch := { x.arch with timerArmed := true, deadline := 4 } }
    (s.th 0).arch.timerArmed = true ∧ (s.th 0).arch.deadline ≠ BitVec.allOnes 64 ∧ (s.th 0).run ≠ .vacant ∧ (s.th 0).redundant = false ∧
    s.tstamp.toNat < (s.th 0).arch.deadline.toNat ∧ (s.th 0).arch.deadline.toNat ≤ ({ s with tstamp := 4 } : State).tstamp.toNat := by decide +kernel
theorem witness_ThreadEvents_async :
    let s := exW fun x => { x with pend := [{ cause := 0x81, taddr := 4 }] }
    (s.th 0).pend = [{ cause := 0x81, taddr := 4 }] ∧ (s.th 0).arch.status.ie = true ∧ (s.th 0).engWait = false ∧ (s.th 0).redundant = false ∧
    (s.th 0).run = .running ∧ (s.th 0).arch.entryWindow = false := by decide +kernel
theorem witness_ThreadEvents_arrival :
    ({ ex with notices := [(0, { cause := 0x82 }), (7, { cause := 0x82 })] } : State).notices[1]? = some (7, { cause := 0x82 }) ∧ (ex.th 0).run ≠ .vacant ∧
    (ex.th 7).run = .vacant ∧ (ex.tile (unitOf 7)).saved = [] := by decide +kernel
/-- The instance takes guests. -/
def exMig (migr : Bool) : State :=
  { exW (fun x => { x with run := .migrating 1 false, insn := some (.migr 2 0) }) with
    insts := [{ id := 1, recw := [if migr then 0x1002000000010102 else 0x1000000000010102], sheets := [{ tiles := [[0, 1]] }] }] }
theorem witness_ThreadEvents_migrates :
    ((exMig true).th 0).run = .migrating 1 false ∧ ((exMig true).th 0).insn = some (.migr 2 0) ∧ (exMig true).takesGuests 1 1 = true ∧
    (exMig true).guestSlot 1 = some 12 ∧ (∀ e, e < 32 → ((exMig true).jr 0 e).thread = 0 → ((exMig true).jr 0 e).state ≠ .refused) ∧
    ((exMig true).th 0).held.place = none := by decide +kernel
theorem witness_ThreadEvents_refused : (exMig false).takesGuests 1 1 = false ∧ ((exMig false).th 0).arch.entryWindow = false := by decide +kernel

/-- A record of a compute node: two tiles in one sheet with this control word's extra bits, its code at 0x4000. -/
def rec1 (extra : Nat) : List Word := [BitVec.ofNat 64 (0x1000010000010102 + extra), 0, 0, 0x4000, 0x4000, 0x1000] ++ List.replicate 58 0
/-- Window 1 of partition 0 may launch its node 0; the machine holds these instances. -/
def exN0 (r : List Word) (is : List Inst) : State :=
  { parts := [(0, { pcfg := 0x11001, ctxbase := 0x10000000, tlen := 1, nctx := 64 })]
    windows := [(1, { wcfg := 0x10000001 })]
    nodes := ((r.zipIdx).foldl (fun m e => Memory.wrN m (8 * e.2) (leBytes 8 e.1.toNat)) [])
    insts := is
    nextInst := 5 }
def inst0 (extra : Nat) : Inst := { id := 1, recw := rec1 extra, ncount := 1 }

def lnch : Launch := { win := 1, die := 0, part := 0, pasid := 0, nbase := 0, ncount := 1, node := 0, tag := 0, aux := 0, patches := some [], sys := false }
theorem witness_Scheduling_launch :
    let s := exN0 (rec1 0) []
    (s.window 1).wcfg.getLsbD 28 = true ∧ (s.window 2).wcfg.getLsbD 28 = false ∧ s.record 0 0 = rec1 0 ∧ lnch.node < lnch.ncount ∧
    s.launchStatus lnch (rec1 0) = none ∧ cwKind (rec1 0) ≠ 2 := by decide +kernel
theorem witness_Scheduling_refused : (exN0 (rec1 0) []).launchStatus lnch (List.replicate 64 0) = some 2 := by decide +kernel
theorem witness_Scheduling_none : ∀ n, n < 4 → ex.head 1 n = none := by decide +kernel
theorem witness_Scheduling_place :
    let s := exN0 (rec1 0) [inst0 0]
    s.head 0 0 = some (inst0 0) ∧ (∀ m : Fin 4, 0 < m.val → s.head 0 m.val = none) ∧ s.canPlace (inst0 0) = some ([[0, 1]], [1, 2]) ∧
    s.inst 1 = some (inst0 0) ∧ (inst0 0).form = false ∧ (inst0 (2 ^ 51)).form = true := by decide +kernel
/-- A form sheet that is due. -/
def due : Inst := { inst0 (2 ^ 51) with sheets := [{ tiles := [[0, 1]], dispatch := some 0 }] }
theorem witness_Scheduling_form :
    let s := exN0 (rec1 0) [due]
    s.dueSheets 0 = [(due, { tiles := [[0, 1]], dispatch := some 0 })] ∧ s.inst due.id = some due ∧ s.freeCtx 0 2 = some [1, 2] ∧
    ({ s with parts := [(0, { pcfg := 0x11001, nctx := 1 })] } : State).freeCtx 0 2 = none ∧ s.dueSheets 1 = [] := by decide +kernel

/-- The instance of the usual state, its threads gone. -/
def exIdle (smp : Option (Nat × Nat)) (idle : Bool) : State :=
  { ex with threads := [], insts := [{ id := 1, recw := [0x1000010000010102], sheets := [{ tiles := [[0, 1]], idle := idle }], sample := smp }] }
theorem witness_EndsAndSaves_sample :
    let s := exIdle none false
    let i : Inst := { id := 1, recw := [0x1000010000010102], sheets := [{ tiles := [[0, 1]] }] }
    s.now % 64 = 0 ∧ s.lastSample ≠ some s.now ∧ s.insts = [i] ∧ i.kind ≠ 2 ∧ i.aborted = false ∧ i.sample ≠ some (s.sums i) := by decide +kernel
theorem witness_EndsAndSaves_end :
    let s := exIdle (some (0, 0)) true
    ∀ i ∈ s.insts, s.sums i = (0, 0) ∧ i.sample = some (0, 0) ∧ i.sheets.length = i.nsheets ∧ i.successors = [] ∧
      ∀ x ∈ i.sheets, x.idle = true ∧ s.sheetIdle i x = true := by decide +kernel
theorem witness_EndsAndSaves_abort : (ex.inst 1).isSome = true ∧ ex.inst 2 = none ∧ cwKind [0x1000010000010102] ≠ 2 ∧ Sparse.wf {} ex.threads = true := by decide +kernel
def test1 : Inst := { id := 1, recw := [0x2000010000010102], sheets := [{ tiles := [[0, 1]] }] }
theorem witness_EndsAndSaves_test :
    test1.kind = 2 ∧ test1.nsheets = 1 ∧ test1.successors = [] ∧ cwKind test1.recw ≠ 2 ∧ (exN0 [] [test1]).inst 1 = some test1 := by decide +kernel
/-- A gang of level 0 that may be pre-empted fills the partition's one unit; a level 1 instance wants 24 tiles. -/
def exPre : State :=
  { exN0 [] [{ id := 1, recw := [0x1004010000010604], sheets := [{ tiles := [List.range 24] }] }, { id := 2, recw := [0x1010010000010604] }] with
    tiles := ((List.range 24).map fun k => tileAtP (k % 4) (k / 4)).map (fun u => (u, { gang := some gng, part := some 0 })) |>.foldl (fun m e => Sparse.set {} m e.1 e.2) [] }
theorem witness_EndsAndSaves_wanted : exPre.wanted 0 = true ∧ ex.wanted 0 = false ∧ ∀ e ∈ (exPre.tile 0).feq, ∀ w ∈ e.2, w.remote = false := by decide +kernel
theorem witness_EndsAndSaves_save :
    let s : State := { (ex.modTile 0 fun x => { x with saving := some 0 }) with now := 16 }
    (s.tile 0).saving = some 0 ∧ (s.tile 0).gang = some gng ∧ s.quiet 0 gng 0 = true ∧ (ex.modTile 0 fun x => { x with saving := some 0 }).quiet 0 gng 0 = false := by
  decide +kernel
/-- A gang saved on tile 0. -/
def exSv : State :=
  { exN0 [] [{ id := 1, recw := [0x1004010000010102], sheets := [{ tiles := [[0, 1]] }] }] with
    tiles := [(0, { part := some 0, saved := [{ gang := gng, journal := List.replicate 32 {}, ready := true }], pages := (footPages 1 false).foldl (fun m p => Sparse.set 0 m p 1) [] })] }
theorem witness_EndsAndSaves_restore :
    let s := exSv
    ((s.tile 0).saved.find? fun v => v.ready && decide (v.gang.ctx = 1)) = some { gang := gng, journal := List.replicate 32 {}, ready := true } ∧ (s.inst gng.inst).isSome = true ∧
    s.tileOpen 0 = true ∧ s.firstHead 0 1 = true ∧ (s.tile 0).journal = [] ∧ ∀ p ∈ footPages gng.bind false, Sparse.get 0 (s.tile 0).pages p = 1 := by decide +kernel

/-- A session on partition 0, and slot 0 halted. -/
def exDbg (r : Run) : State := { exW (fun x => { x with run := r }) with session := some { parts := [0] } }
theorem witness_DebugSessions :
    (exDbg .running).session = some { parts := [0] } ∧ (exDbg .running).partOf (unitOf 0) = 0 ∧ ((exDbg .running).th 0).run ≠ .halted ∧ ex.session = none ∧
    0 ∈ ex.threads.keys ∧ unitOf 0 ∈ ex.tiles.keys := by decide +kernel
theorem witness_DebugSessions_denied : ({ ex with session := some { parts := [3] } } : State).partOf (unitOf 0) ∉ [3] := by decide +kernel
theorem witness_DebugSessions_halted : ((exDbg .halted).th 0).run = .halted ∧ (exDbg .halted).dbgReg 0 33 ≠ none ∧ (exDbg .halted).dbgReg 0 34 = none := by decide +kernel
theorem witness_DebugSessions_bounds :
    (0xFFFF8 : Nat) < 2 ^ 20 ∧ (0xFFFF8 : Nat) % 8 = 0 ∧ (8 ≤ (4096 : Nat) ∧ 4096 ≤ (4096 : Nat) ∧ 0xFF000 % 4096 = 0 ∧ 0xFF000 + 4096 ≤ 2 ^ 20) := by decide

theorem witness_ControlSpace_invalidation :
    ex.invq = [] ∧ (List.replicate 16 (0, 0, 0)).length = 16 ∧
    (let s : State := { exSt .fetch true with invq := [(0, 0, 0)] }
     s.invq = [(0, 0, 0)] ∧ ∀ e ∈ s.stations, ∀ w ∈ e.2.walks, w.noCache = false) := by decide +kernel
theorem witness_ControlSpace_walks :
    let s : State := { ex with stations := [(3, { walks := [{ noCache := true }] })], invq := [(0, 0, 0)] }
    ∃ k ∈ s.stations.keys, ∃ w ∈ (s.station k).walks, w.noCache = true := by decide +kernel
theorem witness_ControlSpace_partition :
    let s : State := exN0 [] []
    let new : Partition := { pcfg := 0x13001 &&& 0xFFFF7 }
    (s.partn 0).en = true ∧ (s.partn 1).en = false ∧ new.en = true ∧ ({ pcfg := 0x11001 } : Partition).overlaps (s.partn 0) = true ∧
    ({ pcfg := 0x11101 } : Partition).inGrid = true ∧ ({ pcfg := 0x11101 } : Partition).overlaps (s.partn 0) = false := by decide +kernel
/-- The value of WCFG for window 17 worked out in chapter 24. -/
theorem witness_ControlSpace_window :
    let v : Word := 0x00012344D1000100
    v.getLsbD 28 = true ∧ v.extractLsb' 29 5 = 6 ∧ v.extractLsb' 34 2 = 1 ∧ v.extractLsb' 36 20 = 0x1234 ∧ v.extractLsb' 16 12 = 256 ∧ v.extractLsb' 0 13 = 256 ∧
    ex.wcfgOk 0 = true := by decide +kernel
theorem witness_ControlSpace_locked :
    (match exG.globalRd 0 0 0 0x2000 with | .ok _ => true | .error _ => false) = true ∧
    (match ex.globalRd 0 0 0 0x2000 with | .ok _ => false | .error _ => true) = true := by decide +kernel

theorem witness_Package :
    ({ ex with boot := 4, now := 1 } : State).now % 2 ^ 40 ≠ 0 ∧ State.reset.boot < 4 ∧ ex.now % 2 ^ 16 = 0 ∧ Sparse.wf {} ex.tiles = true ∧ Sparse.wf {} ex.stations = true := by
  decide +kernel
theorem witness_Package_host :
    let s : State := { exG with windows := [(1, { wcfg := 0x10000001 })] }
    (s.window 1).wcfg.getLsbD 28 = true ∧ pagePieces 0x200000 8 = [(0x200000, 8)] ∧
    (s.hostPlace ((s.window 1).launch 1) 0x200000 (true, false, false)).isSome = true ∧
    (s.hostPlace ((s.window 1).launch 1) 0x200000 (false, true, false)).isSome = true ∧
    (({ s with dram := [] } : State).hostPlace ((s.window 1).launch 1) 0x200000 (true, false, false)).isSome = false := by decide +kernel
theorem witness_Package_fabric : (0x5FFFFFFFF8 : Nat) + 8 ≤ 0x6000000000 ∧ 0x6000000000 < 0x5FFFFFFFF9 + 8 := by decide

/-! ### More states and operands, for clauses that need one of their own -/

theorem witness_HaltStops_ringFull : ({ exH with ringFull := true } : State).me.arch.status.mode ≠ 0 ∧ ({ exH with ringFull := true } : State).ringFull = true := by
  decide
/-- The exponent 0, and chapter 3's exponent 3, where 2 does not fit. -/
theorem witness_SetBounds_exponent :
    (0x100 + 7) / 2 ^ 0 ≤ 16383 ∧ (bounds (loc 0x100)).1 ≤ 0x100 ∧ 0x107 ≤ (bounds (loc 0x100)).2 ∧
    (61440 / 2 ^ 3 ≤ 16383 ∧ (122880 + 2 ^ 3 - 1) / 2 ^ 3 ≤ 16383) ∧ ∀ k, k < 3 → ¬(61440 / 2 ^ k ≤ 16383 ∧ (122880 + 2 ^ k - 1) / 2 ^ k ≤ 16383) := by decide
/-- A pointer below its bounds, a request above them, one without an exponent, and one that TIGHT refuses. -/
theorem witness_SetBounds_refused :
    0x100 < (bounds (exactCap 0 0xFF 0x200 0x400 0x100)).1 ∧ (bounds (loc 0x1FFF)).2 < 0x1FFF + 7 ∧
    (∀ e, e < 44 → ¬(0 / 2 ^ e ≤ 16383 ∧ (2 ^ 64 - 1 + 2 ^ e - 1) / 2 ^ e ≤ 16383)) ∧ (122881 + 2 ^ 3 - 1) / 2 ^ 3 * 2 ^ 3 ≠ 122881 := by decide
/-- The word at 0x100 holds an error which is not corrected, or one which is. -/
def exB (n : BitVec 2) : State := ex.modTile 0 fun x => { x with bad := [(0x20, n)] }
theorem witness_LocalLoads_bad :
    (exB 2).me.ready ∧ (exB 2).ownRead 0x100 8 = false ∧ (∃ k ∈ touched 8 0x100 8, 2 ≤ (Sparse.get 0 ((exB 2).tile 0).bad k).toNat) ∧
    (exB 2).me.arch.entryWindow = false := ⟨⟨by decide, by decide⟩, by decide⟩
/-- A store of the thread to its own tile through TILE space is on its way. -/
def exO : State := { ex with pkts := [{ target := .tile 0, owner := .journal 0 0, req := .write [1] false false, addr := 0x100, id := 5, inst := 1, due := 9 }] }
theorem witness_LocalLoads_own : exO.me.ready ∧ exO.ownRead 0x100 8 = true ∧ exO.ownWrites exO.cur = true ∧ exO.me.redundant = false :=
  ⟨⟨by decide, by decide⟩, by decide⟩
theorem witness_SystemRegisterWrites_gang :
    let s := exW fun x => { x with arch := { x.arch with status := { x.arch.status with mode := 1 } } }
    (s.tile (unitOf s.me.home)).gang = some gng ∧ gng.inst = s.me.inst ∧ gng.sheet = s.me.sheet := by decide
/-- An entry that the fence waits for, and none in the scope of another fence. -/
theorem witness_Fences_open :
    (∃ e ∈ (exJ.tile 0).journal, e.2.thread = exJ.cur ∧ e.2.state ≠ .refused ∧ e.2.state ≠ .free ∧ exJ.resolveTile 0 (e.2.addr.toNat % 2 ^ 30) = some 1) ∧
    sameCluster 0 1 = true ∧ dieOf 0 = dieOf 1 ∧ dieOf 0 ≠ dieOf 144 ∧ exO.fenced exO.cur .slot = false := by decide
theorem witness_Monitors_reserve : reserveRule ex.me ex.me.arch.regs[(1 : Fin 32)] 0x100 1 = none ∧ reserveRule ex.me ex.me.arch.regs[(1 : Fin 32)] 0xF0000 1 ≠ none := by
  decide
theorem witness_Mailboxes_sound : ex.ownWrites ex.cur = false ∧ ex.ownRead 0x100 128 = false ∧ (ex.tile 0).bad = [] := by decide
/-- A message reaches a mailbox with room, one without room and one that is off. -/
theorem witness_Mailboxes_arrives :
    let m : Packet := { pk (.message 3 [7]) with id := 5 }
    let s (b : Mailbox) : State := { ex.modTile 1 fun x => { x with mail := x.mail.set 3 b } with pkts := [m] }
    let b : Mailbox := { on := true, base := 0x100, size := 16 }
    (s b).pkt 5 = some m ∧ (s b).arrived 1 m = true ∧ freeWords ((s b).tile 1) b 16 0 < 1 ∧ ((s b).tile 1).gang.map (·.inst) = some m.inst ∧
    ((s {}).tile 1).mail.toList.getD 3 {} = {} ∧
    1 ≤ freeWords (((s b).modTile 1 fun x => { x with empty := (List.range 16).map fun k => (0x20 + k, true) }).tile 1) b 16 0 := by decide +kernel
theorem witness_Mailboxes_behind :
    let s := ex.modTile 0 fun x => { x with journal := [(0, { state := .retrying, space := 1, addr := 0x100100, thread := 0, req := some (.message 0 [1]) })] }
    s.now % 48 = 0 ∧ s.behind 0 (s.jr 0 0) = false := by decide

/-- Errors that a matrix command meets: in a word that it reads, and in a cell. -/
theorem witness_MatrixEvents_bad :
    let c : MxCmd := { op := .load .f32 false [0x100] 8 }
    let s := (exX [c]).modTile 0 fun x => { x with bad := [(0x20, 2)] }
    (s.tile 0).mx.queue = [c] ∧ c.start = none ∧ (c.op.pieces.flatMap fun p => (s.tile 0).badWords p.1 p.2).head? = some 0x20 ∧
    s.alive c.thread (((s.tile 0).gang.map (·.inst)).getD 0) = true ∧ (s.th c.thread).redundant = false := by decide +kernel
theorem witness_MatrixEvents_sound :
    let c : MxCmd := { op := .load .f32 false [0x100] 8 }
    (∀ p ∈ c.op.pieces, ∀ k ∈ touched 8 p.1 p.2, Sparse.get 0 ((exX [c]).tile 0).bad k = 0) ∧ ((exX [c]).tile 0).mx.cellErrors c.op = [] := by decide +kernel
theorem witness_MatrixEvents_landed :
    let y : MxTransfer := { actGot := [1], wgtGot := [2, 3], landed := true }
    y.actLeft = [] ∧ y.wgtLeft = [] ∧ y.actGot.length = 1 ∧ y.wgtGot.length = 2 ∧ y.landed = true := by decide

/-- A request of a thread to a quadtree engine, at its station. -/
def qp (r : Req) : Packet := { pk r with id := 5, target := .station 0, addr := 0x400000, part := 0, src := 0, sys := false }
def exQp (s : State) (r : Req) : State := { s with pkts := [qp r] }
theorem witness_QuadtreeCommands_held :
    let s (v : Answer) := exG.modMe fun x => { x with held := { result := some v } }
    (∀ v ∈ [Answer.data (val64 3), .refused 0x20, .trapped Cause.access 0x200000], (s v).me.held = { result := some v }) ∧
    (s .ack).me.arch.entryWindow = false ∧ (s .ack).me.arch.status.form = false := by decide +kernel
theorem witness_QuadtreeCommands_form :
    let s := exG.modMe fun x => { x with arch := { x.arch with status := { x.arch.status with form := true } } }
    s.me.arch.status.form = true ∧ s.me.held = {} ∧ capCheck (glo 0x200000) 0x200000 8 permR true false = none := by decide +kernel
theorem witness_QuadtreeCommands_qstat_packet :
    let s := exQp (exQ true { seq := 3 }) .qstat
    s.pkt 5 = some (qp .qstat) ∧ (qp .qstat).atStation s.now = true ∧ (qc 0).pasid = (qp .qstat).pasid ∧
    (qc 0).params.getD 0 0 = BitVec.ofNat 64 (qp .qstat).addr ∧ (exQ false {}).qt[(0 : Fin 4)].queue[0]? = some (qc 0) ∧
    (exQ false {}).qt[(0 : Fin 4)].running = none ∧ exG.qt[(0 : Fin 4)].queue = [] := by decide +kernel
/-- The walk of a QNODE: its records and elements, dword by dword. -/
def qw : QWalk := { cap := glo 0x200000, i := 3, j := 5, node := 0x200000 }
def exRec (l : List Nat) : State := { exG with dram := exG.dram.wrN 0x200000 (l.flatMap fun n => leBytes 8 n) }
/-- A quad of dimension 32, a dense leaf of dimension 16 and a diagonal one. -/
def recQ : List Nat := [5 * 2 ^ 60 + 4 * 2 ^ 56 + 5 * 2 ^ 40, 0x3FF0000000000000, 0x201000, 0x202000, 0x203000, 0x204000, 0, 0]
def recD : List Nat := [4 * 2 ^ 60 + 4 * 2 ^ 56 + 4 * 2 ^ 40, 0x3FF0000000000000, 0x210000, 0, 0, 0, 0, 0]
def recI : List Nat := [1 * 2 ^ 60 + 4 * 2 ^ 56 + 4 * 2 ^ 40, 0x4000000000000000, 0, 0, 0, 0, 0, 0]
theorem witness_QuadtreeCommands_walk :
    let s := exQp (exRec recQ) (.qnode qw)
    s.pkt 5 = some (qp (.qnode qw)) ∧ (qp (.qnode qw)).atStation s.now = true ∧ capCheck qw.cap 0x200000 64 permR false false = none ∧
    (match s.globalRd 0 0 0x200000 8 with | .ok bs => decide (bs = leBytes 8 (recQ.getD 0 0)) | .error _ => false) = true ∧
    (∀ k ∈ s.pkts, k.thread = 0 → 5 ≤ k.id) := by decide +kernel
theorem witness_QuadtreeCommands_walk_types :
    [recQ, recD, recI].map (fun l =>
      let w := l.map (BitVec.ofNat 64)
      ((QNode.ofWords w).typ, badRecord w 0 (QNode.ofWords w).lg (QNode.ofWords w).fmt false)) = [(5, false), (4, false), (1, false)] := by decide +kernel
theorem witness_QuadtreeCommands_walk_refused :
    capCheck (loc 0x100) 0x200000 64 permR false false ≠ none ∧ capCheck qw.cap 0x200008 64 permR false false = none ∧ (0x200008 : Nat) % 64 ≠ 0 := by decide
theorem witness_QuadtreeCommands_element :
    capCheck qw.cap (0x210000 + (3 * 16 + 5) * 8) 8 permR false false = none ∧
    (match (exRec recD).globalRd 0 0 (0x210000 + (3 * 16 + 5) * 8) 8 with | .ok bs => decide (bs.length = 8) | .error _ => false) = true := by decide +kernel
theorem witness_QuadtreeCommands_commit :
    let s := (exQ true {}).modQt 0 fun q => { q with next := some ([(0x400000, [1])], { seq := 1 }) }
    s.qt[(0 : Fin 4)].running = some (qc 0) ∧ s.qt[(0 : Fin 4)].next = some ([(0x400000, [1])], { seq := 1 }) ∧
    (s.qtWrite (qc 0) [(0x400000, [1])]).1 = none ∧ (({ s with dram := [] } : State).qtWrite (qc 0) [(0x400000, [1])]).1 ≠ none := by decide +kernel
theorem witness_QuadtreeCommands_deadline :
    let c : QtCmd := { qc 3 with deadline := 0 }
    ({ tasks := [], deadline := 0 } : QtRun).stops c 1 = true ∧ ({ tasks := [], deadline := 9 } : QtRun).stops c 1 = false ∧ ({} : QtRun).boundary = true := by
  decide +kernel
theorem witness_QuadtreeCommands_preempt :
    let s := (exQ true {}).modTile 0 fun x => { x with saving := some 0 }
    s.qtPreempted (qc 0) = true ∧ s.qt[(0 : Fin 4)].run.parked = none ∧ s.qt[(0 : Fin 4)].run.failed = none ∧
    (match s.hoodWrite (qc 0) {} 2 Cause.preempt 0 0 with | .ok _ => true | .error _ => false) = true := by decide +kernel
theorem witness_QuadtreeCommands_failed :
    let r : QtRun := { failed := some (Cause.access, 0x400000) }
    (match (exQ true r).hoodWrite (qc 0) r 4 Cause.access 0 0x400000 with | .ok _ => true | .error _ => false) = true ∧
    (match ({ exQ false {} with dram := [] } : State).hoodReach (qc 0) 8 with | .ok _ => false | .error _ => true) = true := by decide +kernel

theorem witness_EngineCommands_free :
    (∀ w ∈ (cmdOf (loc 0x400)).localMarks, Sparse.get [] ((exD (loc 0x400)).tile 0).feq (w / 8) = [] ∧ ((exD (loc 0x400)).tile 0).heldPage w = false) ∧
    ((exD (loc 0x400)).tile 0).copies = [] ∧ ((exD (loc 0x400)).tile 0).indexes = [] := by decide +kernel
theorem witness_EngineCommands_refusedMark :
    let s := (exD (far 0x400)).modMe fun x => { x with held := { x.held with copy := some (cmdOf (far 0x400)), badMark := some 0x100400 } }
    s.me.held.badMark = some 0x100400 ∧ s.me.arch.entryWindow = false := by decide +kernel
theorem witness_EngineEvents_sound :
    let x := (exIx (rowCmd 2)).tile 0
    (∀ k ∈ touched 8 (rowCmd 2).near 8, Sparse.get 0 x.bad k = 0) ∧ (rowCmd 2).failed = none ∧ (rowCmd 2).endAt = 0 ∧ (0 : Nat) ∉ (rowCmd 2).moved := by
  decide +kernel
/-- A row beyond the bounds of the capability, and an addition into a dword of which no atomic is under way. -/
theorem witness_EngineEvents_row_error :
    (match (exIx (rowCmd 1)).ixRow (rowCmd 1) 0 0x2000 permR with | .ok _ => false | .error _ => true) = true := by decide +kernel
theorem witness_EngineEvents_add :
    let k := { rowCmd 3 with fmt := .i64 }
    ((exIx k).tile 0).ixRunning = some k ∧ (exIx k).ixBusy k (.tile 0 0x108) 8 = false ∧
    (match (exIx k).ixRow k 0 ((k.base + 1 * k.bstr : Nat) : Int) (permR ||| permW) with | .ok p => decide (p = .tile 0 0x108) | .error _ => false) = true ∧
    ∀ n ∈ touched 8 0x108 8, Sparse.get 0 ((exIx k).tile 0).bad n = 0 := by decide +kernel
/-- The last entry of a walk whose tables have room for four records. -/
theorem witness_EngineEvents_walk_last :
    let k : IxCmd := { op := 0, params := [0, 2, 0x600, 0x500, 0x700, 0x780, 4, 0, 0, 0, 0, 0, 0], lo := 0, hi := 2, cursor := 1, done := 1 }
    k.hi ≤ k.cursor + 1 ∧ k.rows % 8 = 0 ∧ k.out + 16 * k.room ≤ k.rows ∧ k.done < k.room ∧ k.cursor - k.lo ≠ k.room := by decide +kernel
theorem witness_EngineEvents_index_early :
    let k := { gath 1 with started := true, closed := true, endAt := 1 }
    ((exIx k).tile 0).ixRunning = some k ∧ (exIx k).now < k.endAt := by decide +kernel

theorem witness_FeltingCommands_error :
    let c := { fc 3 1 with clear := some 0, reads := [1] }
    let s := (exFa [] [(2, c)]).modFa 0 fun y => { y with bad := [(faCells, 2)] }
    s.fa[(0 : Fin 4)].cmd 2 = some c ∧ c.startable 16 = true ∧ c.redundant = false := by decide +kernel
theorem witness_FeltingCommands_tables :
    (exFa [fc 1 0] []).fa[(0 : Fin 4)].running = [] ∧ (fc 1 0).clear = none ∧ (fc 1 0).ended = false ∧ (fc 3 1).map = [0, 1] := by decide +kernel

theorem witness_JournalAndMeasurements_retry :
    let e : JEntry := { state := .refused, kind := 0, space := 1, addr := 0x100100, thread := 0, req := some (.write [1] false false) }
    (exP 7 e).retryWaits ((exP 7 e).jr 0 7) = false ∧ ((exP 7 e).modMe fun x => { x with redPending := 8 }).retryWaits { e with kind := 5 } = true := by decide +kernel
/-- The buffer of context 2, with unit 3 of its file, holds an error which is not corrected, or none. -/
theorem witness_JournalAndMeasurements_lost :
    let p := unitPlace (ex.ctxBase (ex.partOf 0) 2) 3
    ex.dramLost p.1 p.2 = false ∧ ({ ex with dramBad := [(p.1 / 8 + 1, true)] } : State).dramLost p.1 p.2 = true := by decide +kernel

theorem witness_Requests_bad :
    (∃ k ∈ touched 8 0x100 8, 2 ≤ (Sparse.get 0 ((exB 2).tile 0).bad k).toNat) ∧ ((exB 2).tile 0).raceRemote 0x100 8 0 = false := by decide +kernel
theorem witness_Requests_owner :
    let p := spk (.read 8 false)
    let s := exSt (.read 8 false) true
    let ph : Phys := { node := 0, host := false, pa := 0x200000 }
    let q : Packet := { pk (.amo .add 8 1 0 false) with id := 6, stage := .reserved, paddr := 0x200000 }
    s.ownerBusy p ph = false ∧ s.missFull 0 = false ∧ s.hostAborts ph = false ∧ s.reachable ph = true ∧ s.isDram ph = true ∧
    s.reachable { ph with node := 9 } = false ∧ ({ s with pkts := { q with target := .station 0 } :: s.pkts } : State).ownerBusy p ph = true := by
  decide +kernel
theorem witness_ThreadEvents_waitsThere :
    let s := (exMig true).modTile 1 fun x => { x with arrivals := [5] }
    (0 : Nat) ∉ (s.tile 1).arrivals ∧ (s.tile 1).arrivals ≠ [] ∧ ((exMig true).tile 1).arrivals = [] ∧ (exMig true).inUse 1 + (exMig true).carried 0 ≤ 32 := by
  decide +kernel
theorem witness_ThreadEvents_waitsOn :
    let s := (exMig true).modTile 1 fun x => { x with arrivals := [5, 0] }
    s.takesGuests 1 1 = true ∧ (0 : Nat) ∈ (s.tile 1).arrivals ∧ (s.tile 1).arrivals.head? ≠ some 0 := by decide +kernel
theorem witness_ThreadEvents_agreed :
    let s := (exV 2 [] {}).modTh 0 fun x => { x with run := .running, pend := [{ cause := 0x81 }], red := { x.red with boundary := true, due := true } }
    (s.th 0).redundant = true ∧ (s.th 0).red.boundary = true ∧ (s.th 0).red.due = true ∧ (s.th 0).pend = [{ cause := 0x81 }] := by decide +kernel

theorem witness_EndsAndSaves_lost :
    let b := ex.ctxBase (ex.partOf 0) gng.ctx
    ex.dramLost b 0x10000 = false ∧ ({ ex with dramBad := [(b / 8, true)] } : State).dramLost b 0x10000 = true := by decide +kernel
/-- The gang of `exSv` when its pages hold another context's: the restore takes 64 cycles for each. -/
theorem witness_EndsAndSaves_pages :
    let i : Inst := { id := 1, recw := [0x1004010000010102], sheets := [{ tiles := [[0, 1]] }] }
    let s := exSv.modTile 0 fun x => { x with saved := x.saved ++ [{ gang := { gng with ctx := 2 } }], pages := (footPages 1 false).foldl (fun m p => Sparse.set 0 m p 2) [] }
    0 < s.restoreTime 0 i gng ∧ exSv.restoreTime 0 i gng = 0 ∧ s.dramBad = [] ∧ (exSv.faOf 0).running = [] := by decide +kernel
theorem witness_EndsAndSaves_restoring :
    let v : Saved := { gang := gng, journal := List.replicate 32 {}, ready := true, due := some 64 }
    let s := exSv.modTile 0 fun x => { x with saved := [v] }
    ((s.tile 0).saved.find? fun v => v.ready && decide (v.gang.ctx = 1)) = some v ∧ s.now < 64 := by decide +kernel
theorem witness_EndsAndSaves_tested :
    ({ test1 with args := [val64 5] } : Inst).kind = 2 ∧ (({ test1 with args := [val64 5] } : Inst).args.getD 0 {}).lo.getLsbD 2 = true ∧ 4 * 1 + 2 ∈ [6] ∧
    ((exN0 [] [test1]).tile 1).saved = [] := by decide +kernel
theorem witness_DebugSessions_port :
    (exDbg .running).portBusy 0 = false ∧ ((exDbg .running).modTile 0 fun x => x.signal 2).portBusy 0 = true := by decide +kernel
theorem witness_DebugSessions_header : ({ exDbg .running with dbgMsgs := [(7, 16)] } : State).dbgMsgs.headD (0, 0) = (7, 16) := by decide +kernel
theorem witness_ControlSpace_asked :
    let p : Packet := { pk (.write [1] false false) with id := 5, back := true, answer := .ack, paddr := ctlBase + 0x480 + 8 * 3 }
    (({ ex with pkts := [p] } : State).pkts.any fun p => p.back && decide (p.answer = .ack) && decide (p.paddr = ctlBase + 0x480 + 8 * 3) && !p.host) = true := by
  decide +kernel
theorem witness_Package_ringFull : ({ ex with ringFull := true, boot := 0 } : State).ringFull = true ∧ ({ ex with tripped := true } : State).tripped = true ∧ ex.ringFull = false := by
  decide

/-! ### Single steps of the parallel instructions and of the events -/

/-- The indices of chapter 8's translation example: levels 4 to 0. -/
theorem test_walk_indices :
    [4, 3, 2, 1, 0].map (fun l => 0x1234567A00 / 2 ^ levelLo l % 2 ^ levelBits l) = [0, 2, 17, 40, 43] ∧ 0x1234567A00 / 512 % 24 = 13 := by decide +kernel
/-- The dword at LOCAL 0x100 is 0x8000000000002211 and full. -/
theorem test_ldf : got (.ldf (.reg 5) 1 0) ex 5 = 0x8000000000002211 ∧ ((next (.ldf (.reg 5) 1 0) ex).tile 0).empty = [] := by decide +kernel
theorem test_ldt : got (.ldt (.reg 5) 1 0) ex 5 = 0x8000000000002211 ∧ ((next (.ldt (.reg 5) 1 0) ex).tile 0).empty = [(0x20, true)] := by decide +kernel
theorem test_ldf_waits : (next (.ldf (.reg 5) 1 0) (exE [])).me.run = .feWait false := by decide +kernel
theorem test_await_waits : (next (.await (.reg 5) 1 0) (exE [])).me.run = .feWait true := by decide +kernel
theorem test_stf : ((next (.stf 1 (.reg 3) 0) (exE [])).tile 0).empty = [] ∧ ((next (.stf 1 (.reg 3) 0) (exE [])).tile 0).spad = [(0x100, 7)] := by decide +kernel
/-- Chapter 7's example: a fill serves the waiting LDT, which takes the value and leaves the word empty. -/
theorem test_stf_serves :
    let t := next (.stf 1 (.reg 3) 0) { exE [{ remote := false, key := 4, op := .ldt, v := 0 }] with threads := [(0, ex.me), (4, thr [])] }
    (t.th 4).run = .feServed (.data (val64 7)) ∧ (t.tile 0).empty = [(0x20, true)] ∧ (t.tile 0).feq = [] := by decide +kernel
theorem test_stw_full_waits : (next (.stw 1 (.reg 3) 0) ex).me.run = .feWait false := by decide +kernel
theorem test_setf : ((next (.setf 1 0) (exE [])).tile 0).empty = [] := by decide +kernel
theorem test_sete : ((next (.sete 1 0) ex).tile 0).empty = [(0x20, true)] := by decide +kernel
theorem test_probe : got (.probe (.reg 5) 1 0) ex 5 = 1 ∧ got (.probe (.reg 5) 1 0) (exE []) 5 = 0 := by decide +kernel
theorem test_amo_add :
    let t := next (.amoAdd .d .none .slot (.reg 5) 1 (.reg 3) 0) ex
    t.me.arch.regs[(5 : Fin 32)].data = 0x8000000000002211 ∧ (t.tile 0).spad.rdLe 0x100 8 = 0x8000000000002218 := by decide +kernel
theorem test_amo_min_signed : ((next (.amoMin .d .none .slot (.reg 5) 1 (.reg 3) 0) ex).tile 0).spad.rdLe 0x100 8 = 0x8000000000002211 := by decide +kernel
theorem test_amo_minu : ((next (.amoMinu .d .none .slot (.reg 5) 1 (.reg 3) 0) ex).tile 0).spad.rdLe 0x100 8 = 7 := by decide +kernel
theorem test_amo_cas_other : ((next (.amoCas .w .none .slot (.reg 5) 1 (.reg 3) .zero 0) ex).tile 0).spad.rdLe 0x100 4 = 0x2211 := by decide +kernel
theorem test_red_xor : ((next (.redXor .w .none .slot 1 (.reg 3) 0) ex).tile 0).spad.rdLe 0x100 4 = 0x2216 := by decide +kernel
theorem test_fence : (next (.fence .rel .pkg) ex).me.arch.pc = 0x1008 ∧ (next (.fence .rel .pkg) exJ).me.arch.pc = 0x1000 := by decide +kernel
theorem test_marm : (next (.marm (.reg 5) 1 0x48) ex).me.mons[(0 : Fin 4)] = some { space := 0, line := 0x140, trig := false } := by decide +kernel
theorem test_mwait : got (.mwait (.reg 5) .zero) (exM [{ space := 0, line := 0x100, trig := true }]) 5 = 1 := by decide +kernel
theorem test_mdisarm : (next (.mdisarm 1 0) (exM [{ space := 0, line := 0x100, trig := false }])).me.mons[(0 : Fin 4)] = none := by decide +kernel
theorem test_mbcfg : ((next (.mbcfg 2 1 16) ex).tile 0).mail[(2 : Fin 4)] = { on := true, base := 0x100, size := 16, tail := 0 } := by decide +kernel
theorem test_exit : (next .exit ex).me.run = .vacant := by decide +kernel
theorem test_link_send : ((next (.cmov (.link .east) (.reg 3)) ex).linkQ 1 .west).vals = [{ v := 7, at? := 2 }] := by decide +kernel
theorem test_link_receive : got (.cmov (.reg 5) (.link .east)) exL 5 = 9 := by decide +kernel
theorem test_stream_pop : got (.cmov (.reg 6) (.reg 5)) (exS (gen false 3 4)) 6 = 0x8000000000002211 := by decide +kernel
theorem test_stream_append : ((next (.movi (.reg 5) 1) (exS (gen true 1 4))).tile 0).spad = [(0x100, 1), (0x107, 0x80)] := by decide +kernel
theorem test_sskip : (next (.sskip 5 3) (exS (gen false 3 9))).me.streams[(0 : Fin 4)].map (·.left) = some 2 := by decide +kernel
theorem test_sunb : (next (.sunb 5) (exS (gen false 3 9))).me.streams[(0 : Fin 4)] = none := by decide +kernel
/-- Chapter 10: an INT8 product of 16 rows runs 32 cycles. -/
theorem test_mma_cycles :
    let c : MxCmd := { op := .mul { f := .e4m3, kind := 0, src := 0, chunks := [], m := 16, wide := false, acc := 3, rmask := 0xFFFF, cmask := 0xFFFF, dmask := 0xFFFF,
                                    idx := [], pat := none, link := none } }
    (((next (.matrixCommandStart 0) (exX [c])).tile 0).mx.queue.map (·.dur)) = [32] := by decide +kernel
theorem test_mzero :
    let s := (exX [{ op := .zero 3 1, start := some 0, dur := 1 }]).modTile 0 fun x => { x with mx := { x.mx with cells := [(768, 5), (1024, 6)] } }
    ((next (.matrixCommandEnd 0) { s with now := 1 }).tile 0).mx.cells = [(1024, 6)] := by decide +kernel
/-- Chapter 16: four dwords copied; the completion word of a finished command says DONE and 4. -/
theorem test_dcopy : ((next (.dcopy 1 2 4) (exD (loc 0x400))).tile 0).empty.map (·.1) = [0x40, 0x80, 0x81, 0x82, 0x83] := by decide +kernel
theorem test_copy_done :
    let k := { cmdOf (loc 0x400) with started := true, issued := 4, landed := 4, fillAt := some 0 }
    ((next (.copyElementLands 0 0) (exCp k [])).tile 0).spad.rdLe 0x200 8 = 0x03D0000000000004 := by decide +kernel
theorem test_dcancel_nothing : got (.dcancel (.reg 6) 4) (exD (loc 0x400)) 6 = 0 := by decide +kernel
theorem test_jrnl_free : got (.jrnl (.reg 5) (.reg 3)) ex 5 = 0 := by decide +kernel
theorem test_jrnl_bad : (next (.jrnl (.reg 5) (.reg 4)) ex).me.arch.tcause = 0x221 := by decide +kernel
theorem test_evcfg_user : (next (.evcfg 3 0) ex).me.arch.tcause = 0x204 := by decide +kernel
theorem test_cycle : (next .cycle ex).now = 1 ∧ (next .cycle ex).tstamp = 1 ∧ (next .cycle ex).turns = [] := by decide +kernel
theorem test_cycle_turn : (next .cycle { ex with now := 15 }).turns = [0] := by decide +kernel
theorem test_timer : (next (.timer 0) (exW fun x => { x with arch := { x.arch with timerArmed := true, deadline := 0 } })).me.pend.map (·.cause) = [0x81] := by decide +kernel
theorem test_thermal_trip : (next .thermalTrip ex).power = false := by decide +kernel
theorem test_window_write :
    ((next (.wcfgWrite 17 0x10000001) (exN0 [] [])).window 17).wcfg = 0x10000001 ∧
    ((next (.wcfgWrite 17 0x00012344D1000100) (exN0 [] [])).window 17).wcfg = 0 := by decide +kernel

end Sys2Proof.Tests
end

section
/-! PROOFS. The capability forms of R80. -/

namespace Sys2Proof.Machine

section
variable {s : State} {d : Dst} {a b : Src} {f : List Val → Val}

/-- An 8-byte instruction that computes its result from one plain source. -/
theorem compute_unary_completes (i : Instr) (hx : exec i s = fin s (compute s i d [a] f)) (hn : i.bytes = 8)
    (hs : s.me.ready) (hd : d.plain = true) (ha : a.plain = true) :
    Completes i s ((s.me.arch.put d (f [s.me.srcVal a])).past 8) :=
  hn ▸ compute_completes hx hs (by simp [ha]) hd

/-- An 8-byte instruction that computes its result from two plain sources. -/
theorem compute_binary_completes (i : Instr) (hx : exec i s = fin s (compute s i d [a, b] f)) (hn : i.bytes = 8)
    (hs : s.me.ready) (hd : d.plain = true) (ha : a.plain = true) (hb : b.plain = true) :
    Completes i s ((s.me.arch.put d (f [s.me.srcVal a, s.me.srcVal b])).past 8) :=
  hn ▸ compute_completes hx hs (by simp [ha, hb]) hd

end

/-- Settles O16: each form computes one value from plain sources and traps nowhere, and that value is the one of R80. -/
theorem capabilityForms : Obligations.CapabilityForms := by
  unfold Obligations.CapabilityForms
  intro d a b imm m s hs hd ha hb c v top gives
  refine ⟨?cgetb, ?cgeta, ?ctag, ?cinc, ?cincImm, ?candp, ?candpImm, ?cclr, ?cmov⟩
  case cgetb => exact compute_unary_completes (.cgetb d a) rfl rfl hs hd ha
  case cgeta => exact compute_unary_completes (.cgeta d a) rfl rfl hs hd ha
  case ctag => exact compute_unary_completes (.ctag d a) rfl rfl hs hd ha
  case cinc => exact compute_binary_completes (.cinc d a b) rfl rfl hs hd ha hb
  case cincImm => exact compute_unary_completes (.cincImm d a imm) rfl rfl hs hd ha
  case candp => exact compute_binary_completes (.candp d a b) rfl rfl hs hd ha hb
  case candpImm => exact compute_unary_completes (.candpImm d a m) rfl rfl hs hd ha
  case cclr => exact compute_unary_completes (.cclr d a) rfl rfl hs hd ha
  case cmov => exact compute_unary_completes (.cmov d a) rfl rfl hs hd ha

end Sys2Proof.Machine
end

section
/-! PROOFS. Privileged forms, ERET and ERET.SKIP (R98, R100). -/

namespace Sys2Proof.Machine

/-! ### An instruction that is taken up twice -/

section
variable {α : Type}

theorem Sparse.erase_erase (m : Sparse α) (k : Nat) : Sparse.erase k (Sparse.erase k m) = Sparse.erase k m := by
  induction m with
  | nil => rfl
  | cons e m ih =>
    obtain ⟨a, v⟩ := e
    by_cases h : a = k <;> simp [Sparse.erase, h, ih]

theorem Sparse.erase_insert (m : Sparse α) (k : Nat) (v : α) : Sparse.erase k (Sparse.insert k v m) = Sparse.erase k m := by
  induction m with
  | nil => simp [Sparse.insert, Sparse.erase]
  | cons e m ih =>
    obtain ⟨a, x⟩ := e
    simp only [Sparse.insert]
    split <;> simp [Sparse.erase, ih]

/-- Of two writes to one key the later one counts. -/
theorem Sparse.set_set [DecidableEq α] (d : α) (m : Sparse α) (k : Nat) (v w : α) :
    Sparse.set d (Sparse.set d m k v) k w = Sparse.set d m k w := by
  have h : Sparse.erase k (Sparse.set d m k v) = Sparse.erase k m := by
    unfold Sparse.set
    split
    · exact Sparse.erase_erase m k
    · rw [Sparse.erase_insert, Sparse.erase_erase]
  unfold Sparse.set at h ⊢
  rw [h]

end

theorem State.setTh_setTh (s : State) (k : Nat) (x y : Thread) : (s.setTh k x).setTh k y = s.setTh k y := by
  simp only [State.setTh, Sparse.set_set]

theorem State.modMe_modMe (s : State) (f g : Thread → Thread) : (s.modMe f).modMe g = s.modMe fun x => g (f x) := by
  simp only [State.modMe, State.modTh, State.setTh_cur, State.th_setTh_self, State.setTh_setTh]

@[simp] theorem awake_awake (s : State) : awake (awake s) = awake s := s.modMe_modMe _ _

/-- Issuing takes the instruction up, whether or not that has been done. -/
theorem issue_awake (s : State) (i : Instr) (xs : List Src) (vs : List VReg) (d : Sink)
    (f : List Val → List (BitVec 512) → State → Acc Done) : issue (awake s) i xs vs d f = issue s i xs vs d f := by
  unfold issue
  rw [awake_awake]

/-! ### Forms for handler and system mode -/

theorem needPriv_user {s : State} (i : Instr) (k : State → State) (h : s.me.arch.status.mode = 0) :
    needPriv (awake s) i k = trapAt (awake s) i Cause.privilege i.low := by
  have hp : (awake s).me.priv = false := by simpa [Thread.priv] using h
  rw [needPriv, hp, if_neg Bool.false_ne_true]

theorem needPriv_privileged {s : State} (i : Instr) (k : State → State) (h : s.me.arch.status.mode ≠ 0) :
    needPriv (awake s) i k = k (awake s) := by
  have hp : (awake s).me.priv = true := by simpa [Thread.priv] using h
  rw [needPriv, if_pos hp]

/-! ### ERET -/

section
variable {s : State} {i : Instr} {skip : Bool}

theorem eretForm_traps (hx : exec i s = fin s (eretForm s i skip)) (hm : s.me.arch.status.mode = 0) :
    Traps i s Cause.privilege i.low := by
  rw [eretForm, needPriv_user i _ hm] at hx
  exact hx

theorem eretForm_completes (hx : exec i s = fin s (eretForm s i skip)) (hs : s.me.ready) (hm : s.me.arch.status.mode ≠ 0) :
    Completes i s (returnFrom skip s.me.arch) := by
  have ha : (awake s).me.arch = s.me.arch := by rw [awake_me]
  rw [eretForm, needPriv_privileged i _ hm, issue_awake] at hx
  have h := issue_completes (b := returnFrom skip s.me.arch) hx hs (by simp) rfl ((State.OnlyMe.awake s).trans (.modArch _ _))
    (by rw [State.me_modArch, awake_me])
  rwa [ha] at h

end

/-- Without the skip the return goes to TEPC itself. -/
theorem returnFrom_false (a : Arch) :
    returnFrom false a =
      { a with
        status := { a.status with mode := a.status.pmode, ie := a.status.pie }
        xcap := if a.tepc.tag = true then a.tepc else a.xcap
        pc := a.tepc.lo
        entryWindow := false } := by
  simp [returnFrom]

/-- ILEN is the field [11:8] of TCAUSE (R93). -/
theorem bits_eq_extractLsb' (w : Word) (hi lo : Nat) : bits w hi lo = (w.extractLsb' lo (hi - lo + 1)).toNat := by
  rw [bits, BitVec.extractLsb'_toNat, Nat.shiftRight_eq_div_pow]

theorem returnFrom_true (a : Arch) :
    let n := (a.tcause.extractLsb' 8 4).toNat
    returnFrom true a =
      { a with
        status := { a.status with mode := a.status.pmode, ie := a.status.pie }
        xcap := if a.tepc.tag = true then a.tepc else a.xcap
        pc := if n = 2 ∨ n = 3 ∨ n = 4 then nextPC a.tepc.lo (4 * n) else a.tepc.lo
        entryWindow := false } := by
  simp [returnFrom, bits_eq_extractLsb']

/-- Settles O26: in user mode the check of the mode traps, and otherwise the form leaves the state that `returnFrom` computes. -/
theorem returnsFromTrap : Obligations.ReturnsFromTrap := by
  unfold Obligations.ReturnsFromTrap
  intro s hs a n t back
  split
  next hm => exact ⟨eretForm_traps (i := .eret) rfl hm, eretForm_traps (i := .eretSkip) rfl hm⟩
  next hm =>
    have he := eretForm_completes (i := .eret) rfl hs hm
    have hk := eretForm_completes (i := .eretSkip) rfl hs hm
    rw [returnFrom_false] at he
    rw [returnFrom_true] at hk
    exact ⟨he, hk⟩

end Sys2Proof.Machine
end

section
/-! PROOFS. Minimum, maximum, comparison, classification and sign of floats (R84 to R86). -/

namespace Sys2Proof

open Sys2Proof.Machine

/-! ### Formats and codes -/

theorem Fmt.width_pos (f : Fmt) : 0 < f.width := by
  cases f <;> decide

/-- A code is the low bits of its operand (R82). -/
theorem Fmt.num_mod (f : Fmt) (c : Nat) : f.num (c % 2 ^ f.width) = f.num c := by
  simp only [Fmt.num, Fmt.int, sext, Nat.mod_mod]

theorem Num.ofDy_ne_nan (x : Dy) (neg : Bool) : Num.ofDy x neg ≠ .nan := by
  unfold Num.ofDy
  split <;> simp

/-- The codes that stand for NaN. -/
theorem Fmt.num_eq_nan_iff {f : Fmt} (hf : f.isFloat = true) (c : Nat) : f.num c = .nan ↔ f.isNaN (c % 2 ^ f.width) = true := by
  have hi : f.isInt = false := by simpa [Fmt.isFloat] using hf
  cases hn : f.isNaN (c % 2 ^ f.width) with
  | true => simp [Fmt.num, hi, hn]
  | false =>
    simp only [Fmt.num, hi, hn, Bool.false_eq_true, if_false, iff_false]
    split
    · simp
    · exact Num.ofDy_ne_nan _ _

/-! ### The order of decoded values -/

theorem Dy.lt_asymm {x y : Dy} (h : x.lt y = true) : y.lt x = false := by
  simp only [Dy.lt, decide_eq_true_eq, decide_eq_false_iff_not, Int.min_comm y.e x.e] at h ⊢
  omega

theorem Num.lt_asymm {x y : Num} (h : x.lt y = true) : y.lt x = false := by
  cases x with
  | nan => simp [Num.lt] at h
  | inf s => cases y <;> simp_all [Num.lt]
  | zero s =>
    cases y with
    | real y => simp only [Num.lt, decide_eq_true_eq, decide_eq_false_iff_not] at h ⊢; omega
    | _ => simp_all [Num.lt]
  | real x =>
    cases y with
    | nan => simp [Num.lt] at h
    | inf t => simpa [Num.lt] using h
    | zero t => simp only [Num.lt, decide_eq_true_eq, decide_eq_false_iff_not] at h ⊢; omega
    | real y => exact Dy.lt_asymm h

/-! ### FMIN and FMAX (R84) -/

theorem fMin_eq {f : Fmt} (hf : f.isFloat = true) (a b : Nat) :
    let x := a % 2 ^ f.width
    let y := b % 2 ^ f.width
    fMin f a b =
      if f.num x = .nan then (if f.num y = .nan then f.quiet x else y) else if f.num y = .nan then x
        else if (f.num y).below (f.num x) then y else x := by
  simp only [fMin, Fmt.num_eq_nan_iff hf, Nat.mod_mod]

theorem fMax_eq {f : Fmt} (hf : f.isFloat = true) (a b : Nat) :
    let x := a % 2 ^ f.width
    let y := b % 2 ^ f.width
    fMax f a b =
      if f.num x = .nan then (if f.num y = .nan then f.quiet x else y) else if f.num y = .nan then x
        else if (f.num x).below (f.num y) then y else x := by
  simp only [fMax, Fmt.num_eq_nan_iff hf, Nat.mod_mod]

/-! ### FCMP (R84) -/

/-- The table of R84 on decoded values. -/
def FCond.Holds (c : FCond) (x y : Num) : Prop :=
  match c with
  | .eq => ¬(x = .nan ∨ y = .nan) ∧ x.lt y = false ∧ y.lt x = false
  | .ne => (x = .nan ∨ y = .nan) ∨ x.lt y = true ∨ y.lt x = true
  | .lt => ¬(x = .nan ∨ y = .nan) ∧ x.lt y = true
  | .le => ¬(x = .nan ∨ y = .nan) ∧ y.lt x = false
  | .gt => ¬(x = .nan ∨ y = .nan) ∧ y.lt x = true
  | .ge => ¬(x = .nan ∨ y = .nan) ∧ x.lt y = false
  | .un => x = .nan ∨ y = .nan
  | .ord => ¬(x = .nan ∨ y = .nan)

theorem fcondHolds_iff (c : FCond) (f : Fmt) (a b : Nat) : fcondHolds c f a b = true ↔ c.Holds (f.num a) (f.num b) := by
  cases c <;> simp [fcondHolds, FCond.Holds, and_assoc, or_assoc]

/-- The conditions of which exactly one holds. -/
def FCond.outcomes : List FCond := [.eq, .lt, .gt, .un]

/-- Two values are equal, less, greater or unordered, and only one of these. -/
theorem FCond.existsUnique_outcome (x y : Num) :
    ∃ c ∈ FCond.outcomes, c.Holds x y ∧ ∀ e ∈ FCond.outcomes, e ≠ c → ¬e.Holds x y := by
  by_cases hn : x = .nan ∨ y = .nan
  · exact ⟨.un, by simp [outcomes], hn, by simp [outcomes, Holds, hn]⟩
  cases hl : x.lt y with
  | true => exact ⟨.lt, by simp [outcomes], ⟨hn, hl⟩, by simp [outcomes, Holds, hn, hl, Num.lt_asymm hl]⟩
  | false =>
    cases hg : y.lt x with
    | true => exact ⟨.gt, by simp [outcomes], ⟨hn, hg⟩, by simp [outcomes, Holds, hn, hl, hg]⟩
    | false => exact ⟨.eq, by simp [outcomes], ⟨hn, hl, hg⟩, by simp [outcomes, Holds, hn, hl, hg]⟩

/-! ### FCLASS (R85) -/

/-- The class of a code is one bit, and the bits of NaN, of the infinities and of the zeros are those of the table. -/
theorem fClass_spec (f : Fmt) (c : Nat) :
    ∃ k, k < 10 ∧ fClass f c = 2 ^ k ∧ (f.num c = .nan ↔ k = 8 ∨ k = 9) ∧ (f.num c = .inf true ↔ k = 0) ∧
      (f.num c = .inf false ↔ k = 7) ∧ (f.num c = .zero true ↔ k = 3) ∧ (f.num c = .zero false ↔ k = 4) := by
  simp only [fClass, Fmt.num_mod]
  cases f.num c with
  | nan =>
    dsimp only
    split
    · exact ⟨8, by simp⟩
    · exact ⟨9, by simp⟩
  | inf s => cases s with
    | true => exact ⟨0, by simp⟩
    | false => exact ⟨7, by simp⟩
  | zero s => cases s with
    | true => exact ⟨3, by simp⟩
    | false => exact ⟨4, by simp⟩
  | real x =>
    dsimp only
    split <;> split
    · exact ⟨2, by simp⟩
    · exact ⟨1, by simp⟩
    · exact ⟨5, by simp⟩
    · exact ⟨6, by simp⟩

/-! ### FSGN (R86) -/

theorem fSign_eq (f : Fmt) (a : Nat) (s : Bool) :
    let x := a % 2 ^ f.width
    fSign f a s =
      if f.tapered = true ∧ x % 2 ^ (f.width - 1) = 0 then x
      else x % 2 ^ (f.width - 1) + (if s then 2 ^ (f.width - 1) else 0) := by
  simp [fSign]

namespace Machine

/-- The sign bit stands among the bits of the code. -/
theorem signIn_eq (f : Fmt) (v : Val) : signIn f v = (v.data.toNat % 2 ^ f.width).testBit (f.width - 1) := by
  have h : f.width - 1 < f.width := Nat.sub_lt f.width_pos Nat.one_pos
  simp [signIn, Fmt.signOf, Nat.testBit_mod_two_pow, h]

section
variable {s : State} {d : Dst} {a b : Src} {f : Fmt}

theorem fcmp_completes (c : FCond) (hs : s.me.ready) (hd : d.plain = true) (ha : a.plain = true) (hb : b.plain = true) :
    Completes (.fcmp c f d a b) s
      ((s.me.arch.put d (val64 (if fcondHolds c f (s.me.srcVal a).data.toNat (s.me.srcVal b).data.toNat then 1 else 0))).past 8) :=
  compute_binary_completes (.fcmp c f d a b) rfl rfl hs hd ha hb

theorem fcmp_completes_one {c : FCond} (hs : s.me.ready) (hd : d.plain = true) (ha : a.plain = true) (hb : b.plain = true)
    (h : c.Holds (f.num (s.me.srcVal a).data.toNat) (f.num (s.me.srcVal b).data.toNat)) :
    Completes (.fcmp c f d a b) s ((s.me.arch.put d (val64 (BitVec.ofNat 64 1))).past 8) := by
  have hc := fcmp_completes (f := f) c hs hd ha hb
  rwa [if_pos ((fcondHolds_iff ..).mpr h)] at hc

theorem fcmp_completes_zero {c : FCond} (hs : s.me.ready) (hd : d.plain = true) (ha : a.plain = true) (hb : b.plain = true)
    (h : ¬c.Holds (f.num (s.me.srcVal a).data.toNat) (f.num (s.me.srcVal b).data.toNat)) :
    Completes (.fcmp c f d a b) s ((s.me.arch.put d (val64 (BitVec.ofNat 64 0))).past 8) := by
  have hc := fcmp_completes (f := f) c hs hd ha hb
  rwa [if_neg (mt (fcondHolds_iff ..).mp h)] at hc

end

/-- Settles O20: each form computes its code by the model's function of R84 to R86, of which the lemmas above give the tables. -/
theorem floatSelections : Obligations.FloatSelections := by
  unfold Obligations.FloatSelections
  intro f cond d a b s hs hd ha hb hf x y gives nan sign holds
  have hx : f.num x = f.num (s.me.srcVal a).data.toNat := Fmt.num_mod f _
  have hy : f.num y = f.num (s.me.srcVal b).data.toNat := Fmt.num_mod f _
  have hone : ∀ c : FCond, c.Holds (f.num x) (f.num y) → gives (.fcmp c f d a b) 1 := by
    intro c h
    rw [hx, hy] at h
    exact fcmp_completes_one hs hd ha hb h
  have hzero : ∀ c : FCond, ¬c.Holds (f.num x) (f.num y) → gives (.fcmp c f d a b) 0 := by
    intro c h
    rw [hx, hy] at h
    exact fcmp_completes_zero hs hd ha hb h
  have hcode : ∀ (i : Instr) (m n : Nat), m = n →
      Completes i s ((s.me.arch.put d (codeVal m)).past 8) → gives i n := fun i m n e h => e ▸ h
  have hsign : ∀ p q : Bool, p = q → fSign f (s.me.srcVal a).data.toNat p = sign q := fun p q e => e ▸ fSign_eq f _ p
  refine ⟨?fmin, ?fmax, hone cond, hzero cond, ?fclass, ?cpy, ?neg, ?xor, ?outcome⟩
  case fmin => exact hcode _ _ _ (fMin_eq hf _ _) (compute_binary_completes (.fmin f d a b) rfl rfl hs hd ha hb)
  case fmax => exact hcode _ _ _ (fMax_eq hf _ _) (compute_binary_completes (.fmax f d a b) rfl rfl hs hd ha hb)
  case fclass =>
    obtain ⟨k, hk, hc, htable⟩ := fClass_spec f (s.me.srcVal a).data.toNat
    rw [← hx] at htable
    exact ⟨k, hk, hcode _ _ _ hc (compute_unary_completes (.fclass f d a) rfl rfl hs hd ha), htable⟩
  case cpy =>
    exact hcode _ _ _ (hsign _ _ (signIn_eq f _)) (compute_binary_completes (.fsgnCpy f d a b) rfl rfl hs hd ha hb)
  case neg =>
    exact hcode _ _ _ (hsign _ _ (congrArg not (signIn_eq f _)))
      (compute_binary_completes (.fsgnNeg f d a b) rfl rfl hs hd ha hb)
  case xor =>
    exact hcode _ _ _ (hsign _ _ (congr (congrArg xor (signIn_eq f _)) (signIn_eq f _)))
      (compute_binary_completes (.fsgnXor f d a b) rfl rfl hs hd ha hb)
  case outcome =>
    obtain ⟨c, hc, h, hother⟩ := FCond.existsUnique_outcome (f.num x) (f.num y)
    exact ⟨c, hc, hone c h, fun e he hne => hzero e (hother e he hne)⟩

end Machine

end Sys2Proof
end
